-- ==== Sys2Proof/Word.lean ====
section
/-! DEFINITION. The word types of WG24 and their plainest arithmetic (spec 00 R6, 01 R19, 02 R26). -/
namespace Sys2Proof

/-- One byte of memory. -/
abbrev Byte := BitVec 8

/-- A 32-bit register word (01 R19). -/
abbrev Word32 := BitVec 32

/-- A 64-bit word: an instruction word, a header word, a register pair, an address (02 R26, 01 R19). -/
abbrev Word64 := BitVec 64

/-- One bit per lane of a wave, bit l for lane l (02 R35, 07 R175). -/
abbrev LaneMask := BitVec 32

/-- One value per lane of a wave. -/
abbrev Lanes (α : Type) := Vector α 32

/-- The value of every lane, from a function of the lane. -/
def lanesOf {α : Type} (f : Fin 32 → α) : Lanes α := Vector.ofFn f

/-- The two halves of a 64-bit value: the even register holds bits 31:0 (01 R19). -/
def pairOf (lo hi : Word32) : Word64 := hi ++ lo

/-- A table with a default: keys rise strictly and no entry holds the default. -/
abbrev SMap (α : Type) := List (Nat × α)

end Sys2Proof
end

