-- ==== Sys2Proof/Operand.lean ====
section
/-! DEFINITION. The operand space, modifiers and common fields that instruction words name (spec 02 R34 to R43,
03 R66, 04 R92, 05 R126 and R135, 07 R170 to R193, 11 R288 and R299, 17 R399). -/
namespace Sys2Proof

/-- The common fields of a guarded word: stop bit, switch marker, guard mask register, sense (02 R34). -/
structure Head where
  stop : Bool
  sw : Bool
  k : BitVec 4
  inv : Bool
  deriving DecidableEq, Repr

/-- The special operands other than %zero (02 R40, values 324 to 335). -/
inductive Special
  | lane | wave | core | quad | die | pkg | group | ngroups | gsize | item | frag | frame
  deriving DecidableEq, Repr

/-- One operand of the 9-bit operand space (02 R40). -/
inductive Operand
  /-- vector register v0 to v319 -/
  | v (n : Fin 320)
  /-- delivery queue q0 to q3 -/
  | q (n : Fin 4)
  | special (x : Special)
  | zero
  /-- scalar register s0 to s127 -/
  | s (n : Fin 128)
  deriving DecidableEq, Repr

/-- Types of the integer instructions (07 R170). -/
inductive IntTy | z32 | n32 | z64 | n64
  deriving DecidableEq, Repr

/-- Bit types, and the signed types of `iabs` and `ineg` (07 R170, R171). -/
inductive Width | w32 | w64
  deriving DecidableEq, Repr

/-- Conditions of `icmp` (07 R175). -/
inductive ICond | eq | ne | lt | le | gt | ge
  deriving DecidableEq, Repr

/-- Conditions of `fcmp` (07 R181). -/
inductive FCond | eq | ne | lt | le | gt | ge | un | ord
  deriving DecidableEq, Repr

/-- Rounding modes (05 R135). -/
inductive Rnd | rn | rz | rp | rm | rs
  deriving DecidableEq, Repr

/-- Float format codes 0x0 to 0x5 (05 R126). -/
inductive FFmt | f32 | f16 | bf16 | e4m3 | e5m2 | e2m1
  deriving DecidableEq, Repr

/-- Integer format codes 0x8 to 0xF (05 R126). -/
inductive IFmt | z8 | z16 | z32 | z64 | n8 | n16 | n32 | n64
  deriving DecidableEq, Repr

/-- A float source with its abs and neg bits (07 R179). -/
structure FSrc where
  neg : Bool
  abs : Bool
  o : Operand
  deriving DecidableEq, Repr

/-- Scopes of R22 that an instruction can name (11 R288). -/
inductive Scope | core | quad | die | pkg | pod | sys
  deriving DecidableEq, Repr

/-- Kinds of `brc` (03 R66, R68). -/
inductive BrcKind | set | clear | any | all
  deriving DecidableEq, Repr

/-- Kinds of `brx` (03 R66, R69). -/
inductive BrxKind | vec | scalar | rel
  deriving DecidableEq, Repr

/-- What `cvt` converts (07 R185). -/
inductive CvtKind
  | intToFloat (d : FFmt) (s : IFmt) (r : Rnd)
  | floatToInt (d : IFmt) (s : FFmt) (r : Rnd)
  | intToInt (d s : IFmt) (sat : Bool)
  deriving DecidableEq, Repr

/-- Modes of `shfl` (07 R190). -/
inductive ShflMode | idx | up | down | xor
  deriving DecidableEq, Repr

/-- Tests of `vote` (07 R190). -/
inductive VoteTest | gather | some | every | agree
  deriving DecidableEq, Repr

/-- Operations of `wred` and `wpfx` (07 R193). -/
inductive WOp | add | min | max | and | or | xor | fadd | fmin | fmax
  deriving DecidableEq, Repr

/-- The three modes of `kmov` (07 R190, R194). -/
inductive KMov
  | kk (d a : BitVec 4)
  | kr (d : BitVec 4) (a : Operand)
  | rk (d : Operand) (a : BitVec 4)
  deriving DecidableEq, Repr

/-- Size codes of loads and stores (11 R288). -/
inductive Size | n8 | z8 | n16 | z16 | b32 | b64 | b128
  deriving DecidableEq, Repr

/-- Sizes of `vld` (09 R243). -/
inductive VSize | b8 | b16 | b32 | b64
  deriving DecidableEq, Repr

/-- A memory operand: base, index and the unscaled 12-bit offset field (02 R37, 11 R282). -/
structure MemOp where
  base : Operand
  index : Operand
  off : BitVec 12
  deriving DecidableEq, Repr

/-- Cache levels of `pref` (11 R293). -/
inductive PLevel | l1 | l2 | l3
  deriving DecidableEq, Repr

/-- Operations of atomics (11 R299). -/
inductive AtomOp | add | min | max | and | or | xor | exch | cas
  deriving DecidableEq, Repr

/-- Orders of atomics (11 R299). -/
inductive Order | relaxed | acq | rel | ar
  deriving DecidableEq, Repr

/-- Directions of `cpy` (11 R306). -/
inductive CpyDir | gg | sg | gs | ss
  deriving DecidableEq, Repr

/-- Conditions of `gset` (04 R92, R106). -/
inductive GCond | any | all | lane0
  deriving DecidableEq, Repr

/-- Word counts of `dlv` (04 R92). -/
inductive DlvCount | x1 | x2 | x4 | x8 | x16 | x32
  deriving DecidableEq, Repr

/-- Record sizes of `slpush` and of a bin (04 R92, R110). -/
inductive RecSize | r16 | r32 | r64 | r128
  deriving DecidableEq, Repr

/-- Operations of `vstat` (09 R248). -/
inductive VStatOp | state | count | dense | anch | nx
  deriving DecidableEq, Repr

/-- Counters of `rdclk` (17 R395). -/
inductive ClkMode | wall | cyc | run
  deriving DecidableEq, Repr

/-- The system registers of the map (17 R399). -/
inductive SysReg
  | devid | stepid | enchash | fpflags | fpen | srstate | e8ncnt | gaprec | xlepoch | xlquiet
  | ctxinfo | podstat | cause | hdltab | grpid | fqprod | fqcons | fqlost | wtime
  | wpaddr (i : Fin 4) | wpctl (i : Fin 4)
  | diecap | dietemp | dievolt | dieproc | fbstat | fbcnt | hbmtemp | ecccor | eccunc | spares | clktgt
  deriving DecidableEq, Repr

/-- The operands of an admin command: tag, n, A, B, C, and whether a byte that R337 marks zero is nonzero
(16 R337). -/
structure AdminCmd where
  tag : BitVec 16
  n : BitVec 32
  a : BitVec 64
  b : BitVec 64
  c : BitVec 64
  resv : Bool
  deriving DecidableEq, Repr

end Sys2Proof
end

