-- ==== Sys2Proof/Syntax.lean ====
section
/-! DEFINITION. The instructions, commands and events of WG24, one constructor per row of spec/opcode_table.json
(spec 02 R45, R46, 16 R335, and spec/95 for the engine and host steps). -/
namespace Sys2Proof

/-- What an ATS completion yields for a page (16 R347): a translated address and the kinds it allows. -/
structure AtsAnswer where
  addr : Word64
  big : Bool
  read : Bool
  write : Bool
  deriving DecidableEq, Repr

/-- What a target package answers to a remote access (17 R386): data, poison, or an error code. -/
inductive RemoteAnswer
  | data (v : BitVec 128)
  | poison
  | error (code : Byte)
  deriving DecidableEq, Repr

/-- What a patrol read finds (18 R404, R405). -/
inductive ScrubFinding | clean | corrected | uncorrectable
  deriving DecidableEq, Repr

/-- Why a copy failed (11 R312). -/
inductive CopyFailure | page | remote | remoteTimeout
  deriving DecidableEq, Repr

/-- One step of the machine: an instruction word, a command, or an engine or host event. -/
inductive Instr
  -- control and barriers (03 R66)
  | nop (h : Head)
  | bra (h : Head) (off : BitVec 32)
  | brc (h : Head) (kind : BrcKind) (k : BitVec 4) (off : BitVec 32)
  | brx (h : Head) (kind : BrxKind) (r : Operand) (off : BitVec 32)
  | call (h : Head) (link : Operand) (off : BitVec 32)
  | ret (h : Head) (link : Operand)
  | meetDrop (h : Head)
  | meetPush (h : Head)
  | exit (h : Head)
  | refill (h : Head) (off : BitVec 32)
  | yield (h : Head)
  | sleep (h : Head) (n : BitVec 24)
  | bar (h : Head) (sc : Scope) (num : BitVec 4) (cnt : Option Operand)
  | barv (h : Head) (sc : Scope) (num : BitVec 4) (cnt : Option Operand)
  | barw (h : Head) (sc : Scope) (num : BitVec 4)
  | wprio (h : Head) (p : BitVec 2)
  | tramp (h : Head) (off : BitVec 32)
  | tret (h : Head)
  | toolop (h : Head) (n : Fin 6) (payload : BitVec 47)
  | inop (stop sw : Bool) (c : BitVec 3) (payload : BitVec 52)
  -- integer and logic (07 R171)
  | iadd (h : Head) (ty : IntTy) (sat : Bool) (d a b : Operand)
  | iaddImm (h : Head) (ty : IntTy) (sat : Bool) (d a : Operand) (imm : BitVec 24)
  | isub (h : Head) (ty : IntTy) (sat : Bool) (d a b : Operand)
  | isubImm (h : Head) (ty : IntTy) (sat : Bool) (d a : Operand) (imm : BitVec 24)
  | imul (h : Head) (ty : IntTy) (sat : Bool) (d a b : Operand)
  | imulImm (h : Head) (ty : IntTy) (sat : Bool) (d a : Operand) (imm : BitVec 24)
  | imulh (h : Head) (ty : IntTy) (d a b : Operand)
  | imad (h : Head) (ty : IntTy) (sat : Bool) (d a b c : Operand)
  | imin (h : Head) (ty : IntTy) (d a b : Operand)
  | iminImm (h : Head) (ty : IntTy) (d a : Operand) (imm : BitVec 24)
  | imax (h : Head) (ty : IntTy) (d a b : Operand)
  | imaxImm (h : Head) (ty : IntTy) (d a : Operand) (imm : BitVec 24)
  | iabs (h : Head) (w : Width) (sat : Bool) (d a : Operand)
  | ineg (h : Head) (w : Width) (sat : Bool) (d a : Operand)
  | idot4 (h : Head) (za zb sat : Bool) (d a b c : Operand)
  | and (h : Head) (w : Width) (d a b : Operand)
  | andImm (h : Head) (w : Width) (d a : Operand) (imm : BitVec 24)
  | or (h : Head) (w : Width) (d a b : Operand)
  | orImm (h : Head) (w : Width) (d a : Operand) (imm : BitVec 24)
  | xor (h : Head) (w : Width) (d a b : Operand)
  | xorImm (h : Head) (w : Width) (d a : Operand) (imm : BitVec 24)
  | not (h : Head) (w : Width) (d a : Operand)
  | bool3 (h : Head) (w : Width) (table : BitVec 8) (d a b c : Operand)
  | shl (h : Head) (w : Width) (d a b : Operand)
  | shlImm (h : Head) (w : Width) (d a : Operand) (imm : BitVec 24)
  | shr (h : Head) (w : Width) (d a b : Operand)
  | shrImm (h : Head) (w : Width) (d a : Operand) (imm : BitVec 24)
  | sar (h : Head) (w : Width) (d a b : Operand)
  | sarImm (h : Head) (w : Width) (d a : Operand) (imm : BitVec 24)
  | rot (h : Head) (w : Width) (d a b : Operand)
  | rotImm (h : Head) (w : Width) (d a : Operand) (imm : BitVec 24)
  | bfx (h : Head) (ty : IntTy) (d a b : Operand)
  | bfxImm (h : Head) (ty : IntTy) (d a : Operand) (imm : BitVec 24)
  | bfi (h : Head) (w : Width) (d a b c : Operand)
  | popc (h : Head) (w : Width) (d a : Operand)
  | clz (h : Head) (w : Width) (d a : Operand)
  | brev (h : Head) (w : Width) (d a : Operand)
  | icmp (h : Head) (ty : IntTy) (cond : ICond) (k : BitVec 4) (a b : Operand)
  | icmpImm (h : Head) (ty : IntTy) (cond : ICond) (k : BitVec 4) (a : Operand) (imm : BitVec 24)
  -- address, move, select (07 R176, R178)
  | lea (h : Head) (sh : BitVec 3) (sx : Bool) (d a b : Operand)
  | leaImm (h : Head) (sh : BitVec 3) (d a : Operand) (imm : BitVec 24)
  | mov (h : Head) (w : Width) (d a : Operand)
  | movi (h : Head) (w : Width) (d : Operand) (imm : BitVec 24)
  | movw (h : Head) (d : Operand) (imm : BitVec 32)
  | sel (h : Head) (w : Width) (d a b : Operand) (k : BitVec 4)
  | mad64 (h : Head) (n32 : Bool) (d a b c : Operand)
  -- float (07 R179)
  | fadd (h : Head) (r : Rnd) (d : Operand) (a b : FSrc)
  | fsub (h : Head) (r : Rnd) (d : Operand) (a b : FSrc)
  | fmul (h : Head) (r : Rnd) (d : Operand) (a b : FSrc)
  | ffma (h : Head) (r : Rnd) (d : Operand) (a b c : FSrc)
  | fmin (h : Head) (d : Operand) (a b : FSrc)
  | fmax (h : Head) (d : Operand) (a b : FSrc)
  | fcmp (h : Head) (cond : FCond) (k : BitVec 4) (a b : FSrc)
  | fclass (h : Head) (d : Operand) (a : FSrc)
  | frcp (h : Head) (r : Rnd) (d : Operand) (a : FSrc)
  | frsq (h : Head) (d : Operand) (a : FSrc)
  | fsqrt (h : Head) (r : Rnd) (d : Operand) (a : FSrc)
  | fex2 (h : Head) (d : Operand) (a : FSrc)
  | flg2 (h : Head) (d : Operand) (a : FSrc)
  | fsin (h : Head) (d : Operand) (a : FSrc)
  | fcos (h : Head) (d : Operand) (a : FSrc)
  | ftanh (h : Head) (d : Operand) (a : FSrc)
  | fdot2 (h : Head) (bf : Bool) (r : Rnd) (d : Operand) (a b c : FSrc)
  -- conversion, lattice (07 R185 to R188, 06 R161)
  | cvt (h : Head) (kind : CvtKind) (d a : Operand)
  | fcvt (h : Head) (df sf : FFmt) (r : Rnd) (d a : Operand)
  | fpack (h : Head) (df : FFmt) (j : BitVec 3) (r : Rnd) (d a b c : Operand)
  | funpk (h : Head) (sf : FFmt) (i : BitVec 3) (d a : Operand)
  | lgcvt (h : Head) (toF32 : Bool) (r : Rnd) (d a : Operand)
  | srnd (h : Head) (a : Operand)
  | qe8 (h : Head) (p : BitVec 3) (d a b : Operand)
  | qe8m (h : Head) (p : BitVec 3) (d a b c : Operand)
  | de8 (h : Head) (p : BitVec 3) (d a b : Operand)
  | e8scl (h : Head) (d a : Operand)
  -- lane and mask (07 R190)
  | shfl (h : Head) (mode : ShflMode) (wide : Bool) (d a b : Operand)
  | matchLanes (h : Head) (w : Width) (d a : Operand)
  | vote (h : Head) (test : VoteTest) (inv : Bool) (d : Operand) (k : BitVec 4)
  | wred (h : Head) (op : WOp) (uns : Bool) (d a : Operand)
  | wpfx (h : Head) (op : WOp) (uns excl : Bool) (d a : Operand)
  | elect (h : Head) (k : BitVec 4)
  | kmov (h : Head) (m : KMov)
  | kand (h : Head) (d a b : BitVec 4)
  | kor (h : Head) (d a b : BitVec 4)
  | kxor (h : Head) (d a b : BitVec 4)
  | knot (h : Head) (d a : BitVec 4)
  | kpop (h : Head) (d : Operand) (k : BitVec 4)
  | kfirst (h : Head) (d : Operand) (k : BitVec 4)
  -- memory, atomics, fences (11)
  | ld (h : Head) (sz : Size) (acq : Bool) (sc : Scope) (nt : Bool) (d : Operand) (m : MemOp)
  | st (h : Head) (sz : Size) (rel : Bool) (sc : Scope) (nt : Bool) (x : Operand) (m : MemOp)
  | ldsp (h : Head) (sz : Size) (acq : Bool) (d : Operand) (m : MemOp)
  | stsp (h : Head) (sz : Size) (rel : Bool) (x : Operand) (m : MemOp)
  | ldc (h : Head) (sz : Size) (d base : Operand) (off : BitVec 12)
  | zfill (h : Head) (m : MemOp)
  | pref (h : Head) (lvl : PLevel) (m : MemOp)
  | atom (h : Head) (op : AtomOp) (uns wide : Bool) (ord : Order) (sc : Scope) (d base x : Operand)
  | atomsp (h : Head) (op : AtomOp) (uns wide : Bool) (ord : Order) (d base x : Operand)
  | atomf (h : Head) (base x : Operand)
  | red (h : Head) (op : AtomOp) (uns wide rel : Bool) (sc : Scope) (x base : Operand)
  | fence (h : Head) (sc : Scope)
  | icinv (h : Head) (sc : Scope)
  | tlbinv (h : Head) (sc : Scope) (range : Option (Operand × Operand))
  -- asynchronous (11 R306 to R319, 08 R212)
  | cpy (h : Head) (dir : CpyDir) (guard : Option (BitVec 3)) (nt : Bool) (mc : BitVec 4) (d a b c : Operand)
  | cseal (h : Head) (d : Operand)
  | cwait (h : Head) (b : Operand)
  | bxpAdd (h : Head) (b n : Operand)
  | bxpSet (h : Head) (b n : Operand)
  | bwait (h : Head) (b : Operand)
  | tsub (h : Head) (sp : Bool) (m : MemOp)
  | twait (h : Head) (t : Operand) (m : MemOp)
  | tdesc (h : Head) (d a b : Operand)
  | tdget (h : Head) (d a b : Operand)
  | hsget (h : Head) (d a b : Operand)
  | hsclr (h : Head) (d a b : Operand)
  | weir (h : Head) (d a : Operand)
  | pin (h : Head) (d base len : Operand) (fade : BitVec 8)
  | unpin (h : Head) (d base : Operand)
  -- views (09 R243)
  | vdef (h : Head) (d a b : Operand)
  | vdefVoc (h : Head) (d a b : Operand)
  | vld (h : Head) (sz : VSize) (d : Operand) (m : MemOp)
  | vmap (h : Head) (d a b : Operand)
  | vfind (h : Head) (d a b : Operand) (k : BitVec 4)
  | vtouch (h : Head) (a b : Operand)
  | vpin (h : Head) (d a b : Operand)
  | vunpin (h : Head) (d a b : Operand)
  | vstat (h : Head) (op : VStatOp) (d a b : Operand)
  | ssealAdv (h : Head) (d a b : Operand)
  | ssealNew (h : Head) (d a b : Operand)
  | ssealDrop (h : Head) (d a b : Operand)
  | detok (h : Head) (fin : Bool) (d a : Operand)
  -- engines (04 R92)
  | fork (h : Head) (off : BitVec 32)
  | rdv (h : Head)
  | gset (h : Head) (cond : GCond) (g : BitVec 3) (k : BitVec 4)
  | dlv (h : Head) (q : BitVec 2) (cnt : DlvCount) (sp : Bool) (m : MemOp)
  | qstat (h : Head) (d : Operand) (q : Fin 4)
  | slcfg (h : Head) (d a b : Operand)
  | slpush (h : Head) (sz : RecSize) (guard : Option (BitVec 3)) (a b : Operand)
  | slinfo (h : Head) (handle : Bool) (d : Operand)
  | slcomb (h : Head) (d base : Operand)
  | pxpush (h : Head) (sz : RecSize) (guard : Option (BitVec 3)) (a b : Operand)
  | pxflush (h : Head) (wait : Bool)
  -- system (17 R400)
  | tfence (h : Head)
  | trap (h : Head) (n : BitVec 24)
  | bkpt (h : Head) (n : BitVec 24)
  | ccause (h : Head) (d a : Operand)
  | hret (h : Head) (kill : Bool)
  | rdsr (h : Head) (d : Operand) (sr : SysReg)
  | wrsr (h : Head) (sr : SysReg) (a : Operand)
  | rdclk (h : Head) (mode : ClkMode) (d : Operand)
  | wtimer (h : Head) (a : Operand)
  | fragMask (h : Head) (d a : Operand)
  | fragState (h : Head) (d a : Operand)
  | fragKill (h : Head) (d a : Operand)
  | fragResume (h : Head) (d a : Operand)
  | mboxLd (h : Head) (d a : Operand)
  | mboxSt (h : Head) (a b : Operand)
  | mboxRing (h : Head)
  | smark (h : Head) (n : BitVec 24)
  | haltStop (h : Head) (d a : Operand)
  | haltGo (h : Head) (d a : Operand)
  | haltStep (h : Head) (d a : Operand)
  -- admin commands (16 R335)
  | dike (c : AdminCmd)
  | create (c : AdminCmd)
  | destroy (c : AdminCmd)
  | update (c : AdminCmd)
  | mapq (c : AdminCmd)
  | zeroRange (c : AdminCmd)
  | zone (c : AdminCmd)
  | cold (c : AdminCmd)
  | disturb (c : AdminCmd)
  | podclr (c : AdminCmd)
  | debugHaltStop (c : AdminCmd)
  | debugHaltGo (c : AdminCmd)
  | debugHaltStep (c : AdminCmd)
  | debugFragMask (c : AdminCmd)
  | debugFragState (c : AdminCmd)
  | debugFragKill (c : AdminCmd)
  | debugFragResume (c : AdminCmd)
  | traceBuf (c : AdminCmd)
  | spare (c : AdminCmd)
  | power (c : AdminCmd)
  -- management queue (16 R343)
  | mgmtSsealNew (ctx : Nat) (h : BitVec 32) (a : Word64)
  | mgmtSsealDrop (ctx : Nat) (h : BitVec 32) (a : Word64)
  | mgmtSsealAdv (ctx : Nat) (h : BitVec 32) (a : Word64)
  | mgmtVdefVoc (ctx : Nat) (h : BitVec 32) (a : Word64)
  -- distributor, groups, waves (03, 10)
  | launchRecord (q : Nat)
  | distributorTurn (dike : Nat)
  | nodeGroupStart (g : Nat)
  | itemQueueRefill (core launch : Nat)
  | groupRetire (g : Nat)
  | reductionLogApply (launch : Nat)
  | waveSwap (core : Nat)
  | forcedSwap (core : Nat)
  | loadResultReturn (wave reg : Nat)
  | sleepExpiry (wave : Nat)
  | waveTimerExpiry (wave : Nat)
  | dlvReadReturn (ap : Nat) (q : Fin 4) (i : Nat)
  | guardResolve (wave : Nat) (g : BitVec 3)
  | redApply (i : Nat)
  | haltComplete (g : Nat)
  -- copies, tiles, views (11, 08, 09)
  | copyLand (copy unit : Nat)
  | copyFail (copy : Nat) (why : CopyFailure)
  | tileTaskStart (quad : Nat)
  | tileTaskEnd (task : Nat)
  | tileTaskFail (task done : Nat)
  | extentBuildEnd (ctx view ext : Nat)
  | extentEvictionEnd (ctx view ext : Nat)
  | passEnd (ctx view ext : Nat)
  | evictionRescan (ctx : Nat)
  | viewSweep (ctx view ext : Nat)
  | detokProcess (die : Nat)
  | weirScanDone (scan : Nat)
  | polderFadeTick (ctx : Nat)
  -- sluices and proxies (04)
  | sluiceAgeReady (bin : Nat)
  | spillTimeout (frag : Nat)
  | shadowQueueAge (ctx die bin : Nat)
  -- contexts, admin commands, timeouts (16, 03, 17)
  | expansionDone (ctx page : Nat)
  | timeSliceEnd (dike : Nat)
  | contextSwitch (dike : Nat)
  | bankSpillDone (dike : Nat)
  | bankFillDone (dike : Nat)
  | adminCommandComplete
  | remoteTimeout (req : Nat)
  | podDegradedTimeout (ctx : Nat)
  | rowSpareSwitch (pa : Nat)
  -- host actions and answers, peers (16 R336 to R349, 04, 17)
  | adminDoorbell (v : BitVec 32)
  | admctl (v : BitVec 32)
  | doorbell (fn q : Nat) (v : BitVec 32)
  | mgmtDoorbell (fn ctx : Nat) (v : BitVec 32)
  | faultPendingClear (fn word : Nat) (v : BitVec 32)
  | mailboxPendingClear (fn word : Nat) (v : BitVec 32)
  | prien (fn : Nat) (v : BitVec 32)
  | registerWrite (fn off : Nat) (wide : Bool) (v : Word64)
  | hostBar2 (fn off : Nat) (bytes : Nat) (wr : Option Word64)
  | remoteBatchEntry (batch : Nat) (accepted : Bool)
  | priSuccess (ctx page : Nat)
  | priInvalidRequest (ctx page : Nat)
  | priResponseFailure (ctx page : Nat)
  | atsInvalidation (ctx page bytes : Nat)
  | atsCompletion (ctx page : Nat) (ans : Option AtsAnswer)
  | remoteResponse (req : Nat) (ans : RemoteAnswer)
  | inbound (ctx : Nat) (va : Word64) (pkg : Nat) (wr : Option Word64)
  | portFailure (port : Nat)
  -- reliability, power, resets (18, 16 R363)
  | supplySag (die : Nat) (deep : Bool)
  | stretchRelease (die : Nat)
  | powerSample (watts : Nat)
  | thermalStep (die : Nat) (temp : BitVec 16)
  | thermalTrip (temp : BitVec 16)
  | patrolScrub (pa : Nat) (f : ScrubFinding)
  | traceSampleReturn (ctx i : Nat) (waits : BitVec 128) (served : BitVec 8) (latency : BitVec 32)
  | stackAlert (stack : Nat)
  | refreshCommand (stack bank : Nat)
  | coldReset
  | flrVf (fn : Nat)
  | flrPf
  deriving DecidableEq, Repr

end Sys2Proof
end

