-- ==== Sys2Proof/WellFormed.lean ====
section
/-! DEFINITION. Which instructions a word may stand for: the operand and modifier limits that the fate table raises
ILLEGAL for whatever the kernel declares (spec 02 R35, R39 to R43, R47 and each instruction's encoding rule). Limits that
depend on the kernel, the block or the agent (R28, R29, R42, R95) are checked at issue. -/
namespace Sys2Proof

namespace Operand

/-- The low 32 or all 64 bits are read from one place for the whole wave (02 R40, R41). -/
def uniform : Operand → Bool
  | .s _ | .zero => true
  | .special x =>
    match x with
    | .lane | .item | .frag | .frame => false
    | _ => true
  | _ => false

def isScalar : Operand → Bool
  | .s _ => true
  | _ => false

/-- A 32-bit destination (02 R40). -/
def dst : Operand → Bool
  | .v _ | .zero | .s _ => true
  | _ => false

/-- A register group of n words whose first number is a multiple of a: the pairs and quads of R43 and R288, or %zero. -/
def span (a n : Nat) : Operand → Bool
  | .v i => i.val % a == 0 && i.val + n ≤ 320
  | .s i => i.val % a == 0 && i.val + n ≤ 128
  | .zero => true
  | _ => false

/-- An even pair or %zero (02 R43). -/
def pair (o : Operand) : Bool := o.span 2 2

/-- An even scalar pair or %zero. -/
def scalarPair (o : Operand) : Bool := o.uniform && o.pair

/-- A register or %zero, no queue and no special. -/
def reg : Operand → Bool
  | .v _ | .zero | .s _ => true
  | _ => false

/-- A vector register or %zero: a destination without a scalar form. -/
def vecDst : Operand → Bool
  | .v _ | .zero => true
  | _ => false

/-- A scalar status destination. -/
def scalarDst : Operand → Bool
  | .s _ | .zero => true
  | _ => false

/-- A scalar register or %zero, the strict form of R212. -/
def scalarReg : Operand → Bool
  | .s _ | .zero => true
  | _ => false

def isVec : Operand → Bool
  | .v _ => true
  | _ => false

/-- An even vector pair. -/
def vecPair : Operand → Bool
  | .v i => i.val % 2 == 0
  | _ => false

/-- A lattice group vN to vN+7 (06 R161). -/
def group8 : Operand → Bool
  | .v i => i.val + 8 ≤ 320
  | _ => false

/-- A source of the given width (02 R40, R43). -/
def src (w : Width) (o : Operand) : Bool :=
  match w with
  | .w32 => true
  | .w64 => o.pair

/-- A destination of the given width. -/
def dstW (w : Width) (o : Operand) : Bool :=
  match w with
  | .w32 => o.dst
  | .w64 => o.pair

end Operand

/-- Guard k0 with sense 1 raises ILLEGAL (02 R35). -/
def Head.wf (h : Head) : Bool := !(h.k == 0 && h.inv)

def IntTy.width : IntTy → Width
  | .z32 | .n32 => .w32
  | .z64 | .n64 => .w64

/-- Element width in bits (05 R126). -/
def FFmt.bits : FFmt → Nat
  | .f32 => 32
  | .f16 | .bf16 => 16
  | .e4m3 | .e5m2 => 8
  | .e2m1 => 4

def IFmt.bits : IFmt → Nat
  | .z8 | .n8 => 8
  | .z16 | .n16 => 16
  | .z32 | .n32 => 32
  | .z64 | .n64 => 64

def IFmt.width (f : IFmt) : Width := if f.bits = 64 then .w64 else .w32

/-- A scalar instruction has only uniform sources; any other takes any (02 R41). -/
def scalarOk (d : Operand) (srcs : List Operand) : Bool := !d.isScalar || srcs.all Operand.uniform

/-- The scope of a plain access is zero (11 R288). -/
def scopeOk (ordered : Bool) (sc : Scope) : Bool := ordered || sc == .core

/-- Registers a load or store of this size names (11 R288). -/
def Size.operandOk (sz : Size) (o : Operand) : Bool :=
  match sz with
  | .b64 => o.pair
  | .b128 => o.span 4 4
  | _ => true

def Size.dstOk (sz : Size) (o : Operand) : Bool := o.dst && sz.operandOk o

def VSize.dstOk (sz : VSize) (o : Operand) : Bool :=
  match sz with
  | .b64 => o.pair
  | _ => o.dst

def MemOp.globalOk (m : MemOp) : Bool := m.base.pair && m.index.reg

def MemOp.spadOk (m : MemOp) : Bool := m.base.reg && m.index.reg

/-- Operands of `.cas` hold the compare value and then the new value (11 R299). -/
def AtomOp.dataOk (op : AtomOp) (wide : Bool) (x : Operand) : Bool :=
  match op, wide with
  | .cas, false => x.pair
  | .cas, true => x.span 4 4
  | _, false => true
  | _, true => x.pair

def AtomOp.unsOk (op : AtomOp) (uns : Bool) : Bool :=
  match op with
  | .min | .max => true
  | _ => !uns

def widthOf (wide : Bool) : Width := if wide then .w64 else .w32

/-- Whether an operation may carry the unsigned bit (07 R193). -/
def WOp.unsOk (op : WOp) (uns : Bool) : Bool :=
  match op with
  | .min | .max => true
  | _ => !uns

/-- Registers of one record (04 R92). -/
def RecSize.words : RecSize → Nat
  | .r16 => 4
  | .r32 => 8
  | .r64 => 16
  | .r128 => 32

def SysReg.width : SysReg → Width
  | .xlepoch | .xlquiet | .cause | .hdltab | .fqprod | .fqcons | .wpaddr _ | .diecap => .w64
  | _ => .w32

def SysReg.perLane : SysReg → Bool
  | .fpflags | .srstate => true
  | _ => false

/-- Registers that `wrsr` may write (17 R399). -/
def SysReg.writable : SysReg → Bool
  | .fpflags | .fpen | .srstate | .e8ncnt | .gaprec | .fqcons | .wpaddr _ | .wpctl _ => true
  | _ => false

/-- The pairs and roundings `cvt` assigns (07 R185). -/
def CvtKind.ok : CvtKind → Bool
  | .intToFloat _ _ r => r != .rs
  | .floatToInt _ _ r => r != .rs
  | .intToInt d s _ => d != s

def CvtKind.dstWidth : CvtKind → Width
  | .intToFloat .. => .w32
  | .floatToInt d .. => d.width
  | .intToInt d .. => d.width

def CvtKind.srcWidth : CvtKind → Width
  | .intToFloat _ s _ => s.width
  | .floatToInt .. => .w32
  | .intToInt _ s _ => s.width

/-- `.rs` has no scalar form (02 R41). -/
def rsOk (r : Rnd) (d : Operand) : Bool := r != .rs || !d.isScalar

/-- Shape of `d, a, b` at one width. -/
def aluOk (w : Width) (d : Operand) (srcs : List Operand) : Bool :=
  d.dstW w && srcs.all (Operand.src w) && scalarOk d srcs

def viewOk (d : Operand) (srcs : List Operand) : Bool := scalarOk d srcs

namespace Instr

/-- Whether the fields of an instruction are ones its description assigns (02 R47). The count of a barrier (03 R66) and the bin
handle of the sluice instructions (04 R92), which their rules call scalar, take any uniform operand (log 97). -/
def wf : Instr → Bool
  | .nop h => h.wf
  | .bra h _ => h.wf
  | .brc h _ _ _ => h.wf
  | .brx h kind r off =>
    h.wf && (match kind with
      | .vec => r.vecPair && off == 0
      | .scalar => r.scalarPair && off == 0
      | .rel => r.isVec)
  | .call h link _ => h.wf && link.vecPair
  | .ret h link => h.wf && link.vecPair
  | .meetDrop h => h.wf
  | .meetPush h => h.wf
  | .exit h => h.wf
  | .refill h _ => h.wf
  | .yield h => h.wf
  | .sleep h _ => h.wf
  | .bar h sc _ cnt => h.wf && sc != .sys && (match sc, cnt with
      | .core, none => true
      | .core, some _ => false
      | _, some o => o.uniform
      | _, none => false)
  | .barv h sc _ cnt => h.wf && sc != .sys && (match sc, cnt with
      | .core, none => true
      | .core, some _ => false
      | _, some o => o.uniform
      | _, none => false)
  | .barw h sc _ => h.wf && sc != .sys
  | .wprio h _ => h.wf
  | .tramp h _ => h.wf
  | .tret h => h.wf
  | .toolop h _ _ => h.wf
  | .inop .. => true
  | .iadd h ty _ d a b => h.wf && aluOk ty.width d [a, b]
  | .iaddImm h ty _ d a _ => h.wf && aluOk ty.width d [a]
  | .isub h ty _ d a b => h.wf && aluOk ty.width d [a, b]
  | .isubImm h ty _ d a _ => h.wf && aluOk ty.width d [a]
  | .imul h ty _ d a b => h.wf && aluOk ty.width d [a, b]
  | .imulImm h ty _ d a _ => h.wf && aluOk ty.width d [a]
  | .imulh h ty d a b => h.wf && aluOk ty.width d [a, b]
  | .imad h ty _ d a b c => h.wf && aluOk ty.width d [a, b, c]
  | .imin h ty d a b => h.wf && aluOk ty.width d [a, b]
  | .iminImm h ty d a _ => h.wf && aluOk ty.width d [a]
  | .imax h ty d a b => h.wf && aluOk ty.width d [a, b]
  | .imaxImm h ty d a _ => h.wf && aluOk ty.width d [a]
  | .iabs h w _ d a => h.wf && aluOk w d [a]
  | .ineg h w _ d a => h.wf && aluOk w d [a]
  | .idot4 h _ _ _ d a b c => h.wf && aluOk .w32 d [a, b, c]
  | .and h w d a b => h.wf && aluOk w d [a, b]
  | .andImm h w d a _ => h.wf && aluOk w d [a]
  | .or h w d a b => h.wf && aluOk w d [a, b]
  | .orImm h w d a _ => h.wf && aluOk w d [a]
  | .xor h w d a b => h.wf && aluOk w d [a, b]
  | .xorImm h w d a _ => h.wf && aluOk w d [a]
  | .not h w d a => h.wf && aluOk w d [a]
  | .bool3 h w _ d a b c => h.wf && aluOk w d [a, b, c]
  | .shl h w d a b => h.wf && aluOk w d [a] && scalarOk d [b]
  | .shlImm h w d a _ => h.wf && aluOk w d [a]
  | .shr h w d a b => h.wf && aluOk w d [a] && scalarOk d [b]
  | .shrImm h w d a _ => h.wf && aluOk w d [a]
  | .sar h w d a b => h.wf && aluOk w d [a] && scalarOk d [b]
  | .sarImm h w d a _ => h.wf && aluOk w d [a]
  | .rot h w d a b => h.wf && aluOk w d [a] && scalarOk d [b]
  | .rotImm h w d a _ => h.wf && aluOk w d [a]
  | .bfx h ty d a b => h.wf && aluOk ty.width d [a] && scalarOk d [b]
  | .bfxImm h ty d a _ => h.wf && aluOk ty.width d [a]
  | .bfi h w d a b c => h.wf && aluOk w d [a, c] && scalarOk d [b]
  | .popc h w d a => h.wf && d.dst && a.src w && scalarOk d [a]
  | .clz h w d a => h.wf && d.dst && a.src w && scalarOk d [a]
  | .brev h w d a => h.wf && aluOk w d [a]
  | .icmp h ty _ _ a b => h.wf && a.src ty.width && b.src ty.width
  | .icmpImm h ty _ _ a _ => h.wf && a.src ty.width
  | .lea h _ _ d a b => h.wf && d.pair && a.pair && scalarOk d [a, b]
  | .leaImm h _ d a _ => h.wf && d.pair && a.pair && scalarOk d [a]
  | .mov h w d a => h.wf && aluOk w d [a]
  | .movi h w d _ => h.wf && d.dstW w
  | .movw h d _ => h.wf && d.dst
  | .sel h w d a b _ => h.wf && aluOk w d [a, b]
  | .mad64 h _ d a b c => h.wf && d.pair && c.pair && scalarOk d [a, b, c]
  | .fadd h r d a b => h.wf && r != .rs && aluOk .w32 d [a.o, b.o]
  | .fsub h r d a b => h.wf && r != .rs && aluOk .w32 d [a.o, b.o]
  | .fmul h r d a b => h.wf && r != .rs && aluOk .w32 d [a.o, b.o]
  | .ffma h r d a b c => h.wf && r != .rs && aluOk .w32 d [a.o, b.o, c.o]
  | .fmin h d a b => h.wf && aluOk .w32 d [a.o, b.o]
  | .fmax h d a b => h.wf && aluOk .w32 d [a.o, b.o]
  | .fcmp h _ _ _ _ => h.wf
  | .fclass h d a => h.wf && aluOk .w32 d [a.o]
  | .frcp h r d a => h.wf && r != .rs && aluOk .w32 d [a.o]
  | .frsq h d a => h.wf && aluOk .w32 d [a.o]
  | .fsqrt h r d a => h.wf && r != .rs && aluOk .w32 d [a.o]
  | .fex2 h d a => h.wf && aluOk .w32 d [a.o]
  | .flg2 h d a => h.wf && aluOk .w32 d [a.o]
  | .fsin h d a => h.wf && aluOk .w32 d [a.o]
  | .fcos h d a => h.wf && aluOk .w32 d [a.o]
  | .ftanh h d a => h.wf && aluOk .w32 d [a.o]
  | .fdot2 h _ r d a b c => h.wf && r != .rs && aluOk .w32 d [a.o, b.o, c.o]
  | .cvt h kind d a => h.wf && kind.ok && d.dstW kind.dstWidth && a.src kind.srcWidth && scalarOk d [a]
  | .fcvt h df sf r d a =>
    h.wf && df != sf && (r != .rs || df.bits < sf.bits) && rsOk r d && aluOk .w32 d [a]
  | .fpack h df j r d a b c =>
    h.wf && df != .f32 && 2 * j.toNat + 2 ≤ 32 / df.bits && rsOk r d && aluOk .w32 d [a, b, c]
  | .funpk h sf i d a => h.wf && sf != .f32 && i.toNat < 32 / sf.bits && aluOk .w32 d [a]
  | .lgcvt h toF32 r d a => h.wf && (!toF32 || r == .rn) && rsOk r d && aluOk .w32 d [a]
  | .srnd h a => h.wf && a.uniform
  | .qe8 h _ d a _ => h.wf && d.vecDst && a.group8
  | .qe8m h _ d a _ _ => h.wf && d.vecDst && a.group8
  | .de8 h _ d _ _ => h.wf && d.group8
  | .e8scl h d a => h.wf && d.vecDst && a.group8
  | .shfl h _ wide d a _ => h.wf && d.vecDst && d.dstW (widthOf wide) && a.src (widthOf wide)
  | .matchLanes h w d a => h.wf && d.vecDst && a.src w
  | .vote h _ _ d _ => h.wf && d.dst
  | .wred h op uns d _ => h.wf && op.unsOk uns && d.vecDst
  | .wpfx h op uns _ d _ => h.wf && op.unsOk uns && op != .fmin && op != .fmax && d.vecDst
  | .elect h _ => h.wf
  | .kmov h m => h.wf && (match m with
      | .kk _ _ => true
      | .kr _ a => a.uniform
      | .rk d _ => d.dst)
  | .kand h _ _ _ => h.wf
  | .kor h _ _ _ => h.wf
  | .kxor h _ _ _ => h.wf
  | .knot h _ _ => h.wf
  | .kpop h d _ => h.wf && d.dst
  | .kfirst h d _ => h.wf && d.dst
  | .ld h sz acq sc _ d m => h.wf && scopeOk acq sc && sz.dstOk d && m.globalOk && scalarOk d [m.base, m.index]
  | .st h sz rel sc _ x m =>
    h.wf && sz != .z8 && sz != .z16 && scopeOk rel sc && sz.operandOk x && m.globalOk &&
      scalarOk x [m.base, m.index]
  | .ldsp h sz _ d m => h.wf && sz.dstOk d && m.spadOk && scalarOk d [m.base, m.index]
  | .stsp h sz _ x m =>
    h.wf && sz != .z8 && sz != .z16 && sz.operandOk x && m.spadOk && scalarOk x [m.base, m.index]
  | .ldc h sz d base _ => h.wf && sz.dstOk d && base.reg && scalarOk d [base]
  | .zfill h m => h.wf && m.globalOk
  | .pref h _ m => h.wf && m.globalOk
  | .atom h op uns wide _ _ d base x =>
    h.wf && op.unsOk uns && d.dstW (widthOf wide) && base.pair && op.dataOk wide x && scalarOk d [base, x]
  | .atomsp h op uns wide _ d base x =>
    h.wf && op.unsOk uns && d.dstW (widthOf wide) && base.reg && op.dataOk wide x && scalarOk d [base, x]
  | .atomf h base _ => h.wf && base.pair
  | .red h op uns wide _ _ x base =>
    h.wf && op != .exch && op != .cas && op.unsOk uns && op.dataOk wide x && base.pair && scalarOk x [base]
  | .fence h _ => h.wf
  | .icinv h sc => h.wf && sc != .sys
  | .tlbinv h sc range => h.wf && sc != .sys && (match range with
      | some (a, b) => a.scalarPair && b.uniform
      | none => true)
  | .cpy h dir _ _ mc d a _ _ =>
    h.wf && (mc == 0 || dir == .sg) &&
      (match dir with
        | .gg => d.pair && a.pair
        | .sg => d.reg && a.pair
        | .gs => d.pair && a.reg
        | .ss => d.reg && a.reg)
  | .cseal h d => h.wf && d.vecDst
  | .cwait h b => h.wf && b.reg
  | .bxpAdd h _ _ => h.wf
  | .bxpSet h _ _ => h.wf
  | .bwait h _ => h.wf
  | .tsub h _ m => h.wf && m.globalOk
  | .twait h t m => h.wf && t.scalarPair && m.base.scalarPair && m.index.scalarReg
  | .tdesc h d a b => h.wf && d.scalarDst && a.scalarPair && b.scalarReg
  | .tdget h d a b => h.wf && d.scalarDst && a.scalarPair && b.scalarReg
  | .hsget h d a b => h.wf && d.scalarDst && a.scalarPair && b.scalarReg
  | .hsclr h d a b => h.wf && d.scalarDst && a.scalarPair && b.scalarReg
  | .weir h d a => h.wf && d.scalarDst && a.scalarPair
  | .pin h d base len fade => h.wf && d.scalarDst && base.scalarPair && len.uniform && fade != 0
  | .unpin h d base => h.wf && d.scalarDst && base.scalarPair
  | .vdef h d a b => h.wf && d.scalarDst && a.scalarPair && b.uniform
  | .vdefVoc h d a b => h.wf && d.scalarDst && a.scalarPair && b.uniform
  | .vld h sz d m => h.wf && sz.dstOk d && m.base.reg && m.index.pair && viewOk d [m.base, m.index]
  | .vmap h d a b => h.wf && d.pair && a.reg && b.pair && viewOk d [a, b]
  | .vfind h d a b _ => h.wf && d.pair && a.reg && viewOk d [a, b]
  | .vtouch h a b => h.wf && a.reg && b.pair
  | .vpin h d a b => h.wf && d.dst && a.reg && b.pair && viewOk d [a, b]
  | .vunpin h d a b => h.wf && d.dst && a.reg && b.pair && viewOk d [a, b]
  | .vstat h op d a b =>
    h.wf && (match op with
      | .dense | .anch => d.pair
      | _ => d.dst) && a.reg && b.pair && viewOk d [a, b]
  | .ssealAdv h d a b => h.wf && d.scalarDst && a.uniform && b.scalarPair
  | .ssealNew h d a b => h.wf && d.scalarDst && a.uniform && b.scalarPair
  | .ssealDrop h d a b => h.wf && d.scalarDst && a.uniform && b == .zero
  | .detok h _ d a => h.wf && d.scalarDst && a.scalarPair
  | .fork h _ => h.wf
  | .rdv h => h.wf
  | .gset h _ _ _ => h.wf
  | .dlv h _ _ _ m => h.wf && m.base.scalarPair && m.index.scalarReg
  | .qstat h d _ => h.wf && d.dst
  | .slcfg h d a b => h.wf && d.scalarDst && a.scalarPair && b.uniform
  | .slpush h sz _ a b => h.wf && a.isVec && a.span 1 sz.words && b.uniform
  | .slinfo h _ d => h.wf && d.dst
  | .slcomb h d base => h.wf && d.isVec && base.uniform
  | .pxpush h sz _ a b => h.wf && a.isVec && a.span 1 sz.words && b.uniform
  | .pxflush h _ => h.wf
  | .tfence h => h.wf
  | .trap h _ => h.wf
  | .bkpt h _ => h.wf
  | .ccause h d a => h.wf && d.scalarPair && a.isScalar && a.pair
  | .hret h _ => h.wf
  | .rdsr h d sr => h.wf && d.dstW sr.width
  | .wrsr h sr a => h.wf && sr.writable && a.src sr.width && (sr.perLane || a.uniform)
  | .rdclk h _ d => h.wf && d.pair
  | .wtimer h a => h.wf && a.isScalar
  | .fragMask h d a => h.wf && d.scalarDst && a.isScalar
  | .fragState h d a => h.wf && d.scalarDst && a.isScalar
  | .fragKill h d a => h.wf && d.scalarDst && a.isScalar
  | .fragResume h d a => h.wf && d.scalarDst && a.isScalar
  | .mboxLd h d a => h.wf && d.scalarDst && a.isScalar
  | .mboxSt h a b => h.wf && a.isScalar && b.isScalar
  | .mboxRing h => h.wf
  | .smark h _ => h.wf
  | .haltStop h d a => h.wf && d.scalarDst && a.isScalar
  | .haltGo h d a => h.wf && d.scalarDst && a.isScalar
  | .haltStep h d a => h.wf && d.scalarDst && a.isScalar
  | .dike _ | .create _ | .destroy _ | .update _ | .mapq _ | .zeroRange _ | .zone _ | .cold _ | .disturb _
  | .podclr _ | .traceBuf _ | .spare _ | .power _ => true
  | .debugHaltStop c => c.a == 0
  | .debugHaltGo c => c.a == 1
  | .debugHaltStep c => c.a == 2
  | .debugFragMask c => c.a == 4
  | .debugFragState c => c.a == 5
  | .debugFragKill c => c.a == 6
  | .debugFragResume c => c.a == 7
  | .adminDoorbell _ | .admctl _ | .doorbell .. | .mgmtDoorbell .. | .faultPendingClear .. | .mailboxPendingClear ..
  | .prien .. | .registerWrite .. | .hostBar2 .. | .mgmtSsealNew .. | .mgmtSsealDrop .. | .mgmtSsealAdv ..
  | .mgmtVdefVoc .. => true
  | .launchRecord _ | .distributorTurn _ | .nodeGroupStart _ | .itemQueueRefill .. | .groupRetire _
  | .reductionLogApply _ | .waveSwap _ | .forcedSwap _ | .loadResultReturn .. | .sleepExpiry _
  | .waveTimerExpiry _ | .dlvReadReturn .. | .guardResolve .. | .redApply _ | .copyLand .. | .copyFail ..
  | .tileTaskStart _ | .tileTaskEnd _ | .tileTaskFail .. | .extentBuildEnd .. | .evictionRescan _ | .viewSweep ..
  | .detokProcess _ | .weirScanDone _ | .polderFadeTick _ | .sluiceAgeReady _ | .spillTimeout _
  | .shadowQueueAge .. | .remoteBatchEntry .. => true
  | .priSuccess .. | .priInvalidRequest .. | .priResponseFailure .. | .atsInvalidation .. | .expansionDone ..
  | .timeSliceEnd _ | .contextSwitch _ | .bankSpillDone _ | .bankFillDone _ | .haltComplete _
  | .remoteResponse .. | .remoteTimeout _ | .inbound .. | .portFailure _ | .supplySag .. | .stretchRelease _
  | .powerSample _ | .thermalStep .. | .thermalTrip _ | .patrolScrub .. | .rowSpareSwitch _
  | .traceSampleReturn .. | .coldReset | .flrVf _ | .flrPf | .extentEvictionEnd .. | .passEnd ..
  | .adminCommandComplete | .atsCompletion .. | .podDegradedTimeout _ | .stackAlert _ | .refreshCommand .. => true

end Instr
end Sys2Proof
end

