-- ==== Sys2Proof/Decode.lean ====
section
/-! DEFINITION. From words to instructions and back (spec 02 R34 to R47): an encoder written from the encoding tables, a
reader of fields, and the decoder, which accepts a word exactly when the fields it reads make a well-formed instruction
whose encoding is that word, so that every nonzero unused field, every unassigned value and every unassigned opcode is
refused. -/
namespace Sys2Proof

/-! ### Operand and modifier codes -/

namespace Special
def index : Special → Nat
  | .lane => 0 | .wave => 1 | .core => 2 | .quad => 3 | .die => 4 | .pkg => 5 | .group => 6
  | .ngroups => 7 | .gsize => 8 | .item => 9 | .frag => 10 | .frame => 11

def ofIndex : Nat → Special
  | 0 => .lane | 1 => .wave | 2 => .core | 3 => .quad | 4 => .die | 5 => .pkg | 6 => .group
  | 7 => .ngroups | 8 => .gsize | 9 => .item | 10 => .frag | _ => .frame
end Special

/-- The 9-bit code of an operand (02 R40). -/
def Operand.toBits : Operand → BitVec 9
  | .v n => BitVec.ofNat 9 n.val
  | .q n => BitVec.ofNat 9 (320 + n.val)
  | .special x => BitVec.ofNat 9 (324 + x.index)
  | .zero => 336#9
  | .s n => BitVec.ofNat 9 (384 + n.val)

/-- The operand a 9-bit code names; the reserved codes 337 to 383 read as %zero, whose code differs. -/
def Operand.ofBits (b : BitVec 9) : Operand :=
  let n := b.toNat
  if h : n < 320 then .v ⟨n, h⟩
  else if n < 324 then .q ⟨(n - 320) % 4, Nat.mod_lt _ (by decide)⟩
  else if n < 336 then .special (Special.ofIndex (n - 324))
  else if n < 384 then .zero
  else .s ⟨(n - 384) % 128, Nat.mod_lt _ (by decide)⟩

def IntTy.code : IntTy → BitVec 2
  | .z32 => 0 | .n32 => 1 | .z64 => 2 | .n64 => 3
def IntTy.ofCode (c : BitVec 2) : IntTy :=
  match c.toNat with
  | 0 => .z32 | 1 => .n32 | 2 => .z64 | _ => .n64
def Width.code : Width → BitVec 2
  | .w32 => 0 | .w64 => 2
def Width.ofCode (c : BitVec 2) : Width :=
  match c.toNat with
  | 0 => .w32 | _ => .w64
def ICond.code : ICond → BitVec 3
  | .eq => 0 | .ne => 1 | .lt => 2 | .le => 3 | .gt => 4 | .ge => 5
def ICond.ofCode (c : BitVec 3) : ICond :=
  match c.toNat with
  | 0 => .eq | 1 => .ne | 2 => .lt | 3 => .le | 4 => .gt | _ => .ge
def FCond.code : FCond → BitVec 3
  | .eq => 0 | .ne => 1 | .lt => 2 | .le => 3 | .gt => 4 | .ge => 5 | .un => 6 | .ord => 7
def FCond.ofCode (c : BitVec 3) : FCond :=
  match c.toNat with
  | 0 => .eq | 1 => .ne | 2 => .lt | 3 => .le | 4 => .gt | 5 => .ge | 6 => .un | _ => .ord
def Rnd.code : Rnd → BitVec 3
  | .rn => 0 | .rz => 1 | .rp => 2 | .rm => 3 | .rs => 4
def Rnd.ofCode (c : BitVec 3) : Rnd :=
  match c.toNat with
  | 0 => .rn | 1 => .rz | 2 => .rp | 3 => .rm | _ => .rs
def FFmt.code : FFmt → BitVec 4
  | .f32 => 0 | .f16 => 1 | .bf16 => 2 | .e4m3 => 3 | .e5m2 => 4 | .e2m1 => 5
def FFmt.ofCode (c : BitVec 4) : FFmt :=
  match c.toNat with
  | 0 => .f32 | 1 => .f16 | 2 => .bf16 | 3 => .e4m3 | 4 => .e5m2 | _ => .e2m1
def IFmt.code : IFmt → BitVec 4
  | .z8 => 8 | .z16 => 9 | .z32 => 10 | .z64 => 11 | .n8 => 12 | .n16 => 13 | .n32 => 14 | .n64 => 15
def IFmt.ofCode (c : BitVec 4) : IFmt :=
  match c.toNat with
  | 8 => .z8 | 9 => .z16 | 10 => .z32 | 11 => .z64 | 12 => .n8 | 13 => .n16 | 14 => .n32 | _ => .n64
def Scope.code : Scope → BitVec 3
  | .core => 0 | .quad => 1 | .die => 2 | .pkg => 3 | .pod => 4 | .sys => 5
def Scope.ofCode (c : BitVec 3) : Scope :=
  match c.toNat with
  | 0 => .core | 1 => .quad | 2 => .die | 3 => .pkg | 4 => .pod | _ => .sys
def BrcKind.code : BrcKind → BitVec 3
  | .set => 0 | .clear => 1 | .any => 2 | .all => 3
def BrcKind.ofCode (c : BitVec 3) : BrcKind :=
  match c.toNat with
  | 0 => .set | 1 => .clear | 2 => .any | _ => .all
def BrxKind.code : BrxKind → BitVec 3
  | .vec => 0 | .scalar => 1 | .rel => 2
def BrxKind.ofCode (c : BitVec 3) : BrxKind :=
  match c.toNat with
  | 0 => .vec | 1 => .scalar | _ => .rel

/-- The destination code, source code and rounding field of `cvt` (07 R185). -/
def CvtKind.code : CvtKind → BitVec 11
  | .intToFloat d s r => d.code ++ s.code ++ r.code
  | .floatToInt d s r => d.code ++ s.code ++ r.code
  | .intToInt d s sat => d.code ++ s.code ++ (0#2 ++ BitVec.ofBool sat)
def CvtKind.ofCode (m : BitVec 11) : CvtKind :=
  let d := m.extractLsb' 7 4
  let s := m.extractLsb' 3 4
  let r := m.extractLsb' 0 3
  if d.toNat < 8 then .intToFloat (FFmt.ofCode d) (IFmt.ofCode s) (Rnd.ofCode r)
  else if s.toNat < 8 then .floatToInt (IFmt.ofCode d) (FFmt.ofCode s) (Rnd.ofCode r)
  else .intToInt (IFmt.ofCode d) (IFmt.ofCode s) (r.getLsbD 0)

def ShflMode.code : ShflMode → BitVec 2
  | .idx => 0 | .up => 1 | .down => 2 | .xor => 3
def ShflMode.ofCode (c : BitVec 2) : ShflMode :=
  match c.toNat with
  | 0 => .idx | 1 => .up | 2 => .down | _ => .xor
def VoteTest.code : VoteTest → BitVec 2
  | .gather => 0 | .some => 1 | .every => 2 | .agree => 3
def VoteTest.ofCode (c : BitVec 2) : VoteTest :=
  match c.toNat with
  | 0 => .gather | 1 => .some | 2 => .every | _ => .agree
def WOp.code : WOp → BitVec 4
  | .add => 0 | .min => 1 | .max => 2 | .and => 3 | .or => 4 | .xor => 5 | .fadd => 8 | .fmin => 9 | .fmax => 10
def WOp.ofCode (c : BitVec 4) : WOp :=
  match c.toNat with
  | 0 => .add | 1 => .min | 2 => .max | 3 => .and | 4 => .or | 5 => .xor | 8 => .fadd | 9 => .fmin | _ => .fmax
def Size.code : Size → BitVec 3
  | .n8 => 0 | .z8 => 1 | .n16 => 2 | .z16 => 3 | .b32 => 4 | .b64 => 5 | .b128 => 6
def Size.ofCode (c : BitVec 3) : Size :=
  match c.toNat with
  | 0 => .n8 | 1 => .z8 | 2 => .n16 | 3 => .z16 | 4 => .b32 | 5 => .b64 | _ => .b128
def VSize.code : VSize → BitVec 2
  | .b8 => 0 | .b16 => 1 | .b32 => 2 | .b64 => 3
def VSize.ofCode (c : BitVec 2) : VSize :=
  match c.toNat with
  | 0 => .b8 | 1 => .b16 | 2 => .b32 | _ => .b64
def PLevel.code : PLevel → BitVec 2
  | .l1 => 0 | .l2 => 1 | .l3 => 2
def PLevel.ofCode (c : BitVec 2) : PLevel :=
  match c.toNat with
  | 0 => .l1 | 1 => .l2 | _ => .l3
def AtomOp.code : AtomOp → BitVec 3
  | .add => 0 | .min => 1 | .max => 2 | .and => 3 | .or => 4 | .xor => 5 | .exch => 6 | .cas => 7
def AtomOp.ofCode (c : BitVec 3) : AtomOp :=
  match c.toNat with
  | 0 => .add | 1 => .min | 2 => .max | 3 => .and | 4 => .or | 5 => .xor | 6 => .exch | _ => .cas
def Order.code : Order → BitVec 2
  | .relaxed => 0 | .acq => 1 | .rel => 2 | .ar => 3
def Order.ofCode (c : BitVec 2) : Order :=
  match c.toNat with
  | 0 => .relaxed | 1 => .acq | 2 => .rel | _ => .ar
def CpyDir.code : CpyDir → BitVec 2
  | .gg => 0 | .sg => 1 | .gs => 2 | .ss => 3
def CpyDir.ofCode (c : BitVec 2) : CpyDir :=
  match c.toNat with
  | 0 => .gg | 1 => .sg | 2 => .gs | _ => .ss
def GCond.code : GCond → BitVec 2
  | .any => 0 | .all => 1 | .lane0 => 2
def GCond.ofCode (c : BitVec 2) : GCond :=
  match c.toNat with
  | 0 => .any | 1 => .all | _ => .lane0
def DlvCount.code : DlvCount → BitVec 3
  | .x1 => 0 | .x2 => 1 | .x4 => 2 | .x8 => 3 | .x16 => 4 | .x32 => 5
def DlvCount.ofCode (c : BitVec 3) : DlvCount :=
  match c.toNat with
  | 0 => .x1 | 1 => .x2 | 2 => .x4 | 3 => .x8 | 4 => .x16 | _ => .x32
def RecSize.code : RecSize → BitVec 2
  | .r16 => 0 | .r32 => 1 | .r64 => 2 | .r128 => 3
def RecSize.ofCode (c : BitVec 2) : RecSize :=
  match c.toNat with
  | 0 => .r16 | 1 => .r32 | 2 => .r64 | _ => .r128
def VStatOp.code : VStatOp → BitVec 3
  | .state => 0 | .count => 1 | .dense => 2 | .anch => 3 | .nx => 4
def VStatOp.ofCode (c : BitVec 3) : VStatOp :=
  match c.toNat with
  | 0 => .state | 1 => .count | 2 => .dense | 3 => .anch | _ => .nx
def ClkMode.code : ClkMode → BitVec 2
  | .wall => 0 | .cyc => 1 | .run => 2
def ClkMode.ofCode (c : BitVec 2) : ClkMode :=
  match c.toNat with
  | 0 => .wall | 1 => .cyc | _ => .run

/-- The register number of R399. -/
def SysReg.code : SysReg → BitVec 16
  | .devid => 0x0000 | .stepid => 0x0001 | .enchash => 0x0002
  | .fpflags => 0x0010 | .fpen => 0x0011 | .srstate => 0x0012 | .e8ncnt => 0x0013 | .gaprec => 0x0014
  | .xlepoch => 0x0020 | .xlquiet => 0x0021 | .ctxinfo => 0x0030 | .podstat => 0x0031
  | .cause => 0x0040 | .hdltab => 0x0041 | .grpid => 0x0042 | .fqprod => 0x0043 | .fqcons => 0x0044
  | .fqlost => 0x0045 | .wtime => 0x0046
  | .wpaddr i => BitVec.ofNat 16 (0x0050 + 2 * i.val)
  | .wpctl i => BitVec.ofNat 16 (0x0051 + 2 * i.val)
  | .diecap => 0x0060 | .dietemp => 0x0061 | .dievolt => 0x0062 | .dieproc => 0x0063 | .fbstat => 0x0064
  | .fbcnt => 0x0065 | .hbmtemp => 0x0066 | .ecccor => 0x0067 | .eccunc => 0x0068 | .spares => 0x0069
  | .clktgt => 0x006A

/-- The register a number names; a number outside the map reads as `clktgt`, whose number differs. -/
def SysReg.ofCode (c : BitVec 16) : SysReg :=
  match c.toNat with
  | 0x0000 => .devid | 0x0001 => .stepid | 0x0002 => .enchash
  | 0x0010 => .fpflags | 0x0011 => .fpen | 0x0012 => .srstate | 0x0013 => .e8ncnt | 0x0014 => .gaprec
  | 0x0020 => .xlepoch | 0x0021 => .xlquiet | 0x0030 => .ctxinfo | 0x0031 => .podstat
  | 0x0040 => .cause | 0x0041 => .hdltab | 0x0042 => .grpid | 0x0043 => .fqprod | 0x0044 => .fqcons
  | 0x0045 => .fqlost | 0x0046 => .wtime
  | 0x0050 => .wpaddr 0 | 0x0052 => .wpaddr 1 | 0x0054 => .wpaddr 2 | 0x0056 => .wpaddr 3
  | 0x0051 => .wpctl 0 | 0x0053 => .wpctl 1 | 0x0055 => .wpctl 2 | 0x0057 => .wpctl 3
  | 0x0060 => .diecap | 0x0061 => .dietemp | 0x0062 => .dievolt | 0x0063 => .dieproc | 0x0064 => .fbstat
  | 0x0065 => .fbcnt | 0x0066 => .hbmtemp | 0x0067 => .ecccor | 0x0068 => .eccunc | 0x0069 => .spares
  | _ => .clktgt

/-! ### Formats (02 R34, R37) -/

def bit (b : Bool) : BitVec 1 := BitVec.ofBool b

/-- Bits 63:47: stop, switch, opcode, guard register, sense. -/
def packHead (h : Head) (op : BitVec 10) : BitVec 17 := bit h.stop ++ bit h.sw ++ op ++ h.k ++ bit h.inv

/-- Format A. -/
def packA (h : Head) (op : BitVec 10) (d a b c : BitVec 9) (m : BitVec 11) : Word64 :=
  packHead h op ++ d ++ a ++ b ++ c ++ m

/-- Format I. -/
def packI (h : Head) (op : BitVec 10) (d a : BitVec 9) (imm : BitVec 24) (m : BitVec 5) : Word64 :=
  packHead h op ++ d ++ a ++ imm ++ m

/-- Format W. -/
def packW (h : Head) (op : BitVec 10) (d : BitVec 9) (imm : BitVec 32) (m : BitVec 6) : Word64 :=
  packHead h op ++ d ++ imm ++ m

/-- Format M. -/
def packM (h : Head) (op : BitVec 10) (d base index : BitVec 9) (off : BitVec 12) (m : BitVec 8) : Word64 :=
  packHead h op ++ d ++ base ++ index ++ off ++ m

/-- Format B: bits 43:41 are zero. -/
def packB (h : Head) (op : BitVec 10) (kind : BitVec 3) (r : BitVec 9) (off : BitVec 32) : Word64 :=
  packHead h op ++ kind ++ 0#3 ++ r ++ off

/-- Format S. -/
def packS (h : Head) (op : BitVec 10) (d a : BitVec 9) (sr : BitVec 16) (m : BitVec 13) : Word64 :=
  packHead h op ++ d ++ a ++ sr ++ m

def headOf (w : Word64) : Head :=
  { stop := w.getLsbD 63, sw := w.getLsbD 62, k := w.extractLsb' 48 4, inv := w.getLsbD 47 }

def opcodeOf (w : Word64) : BitVec 10 := w.extractLsb' 52 10
def fieldD (w : Word64) : BitVec 9 := w.extractLsb' 38 9
def fieldA (w : Word64) : BitVec 9 := w.extractLsb' 29 9
def fieldB (w : Word64) : BitVec 9 := w.extractLsb' 20 9
def fieldC (w : Word64) : BitVec 9 := w.extractLsb' 11 9
def modsA (w : Word64) : BitVec 11 := w.extractLsb' 0 11
def imm24 (w : Word64) : BitVec 24 := w.extractLsb' 5 24
def modsI (w : Word64) : BitVec 5 := w.extractLsb' 0 5
def imm32 (w : Word64) : BitVec 32 := w.extractLsb' 6 32
def off12 (w : Word64) : BitVec 12 := w.extractLsb' 8 12
def modsM (w : Word64) : BitVec 8 := w.extractLsb' 0 8
def kindB (w : Word64) : BitVec 3 := w.extractLsb' 44 3
def regB (w : Word64) : BitVec 9 := w.extractLsb' 32 9
def off32 (w : Word64) : BitVec 32 := w.extractLsb' 0 32
def sysS (w : Word64) : BitVec 16 := w.extractLsb' 13 16

/-- A field that names a mask register or a guard slot (02 R39). -/
def kField (k : BitVec 4) : BitVec 9 := 0#5 ++ k
def kOf (f : BitVec 9) : BitVec 4 := f.extractLsb' 0 4
def gField (g : BitVec 3) : BitVec 9 := 0#6 ++ g
def gOf (f : BitVec 9) : BitVec 3 := f.extractLsb' 0 3

/-- Modifier bits of the float instructions (07 R179): abs c b a, neg c b a, type, low bits. -/
def floatMods (c b a : FSrc) (ty : BitVec 2) (low : BitVec 3) : BitVec 11 :=
  bit c.abs ++ bit b.abs ++ bit a.abs ++ bit c.neg ++ bit b.neg ++ bit a.neg ++ ty ++ low

/-- A source that the instruction does not read: its field and its abs and neg bits are zero. -/
def noSrc : FSrc := { neg := false, abs := false, o := .v 0 }

def fsrcA (w : Word64) : FSrc := { neg := w.getLsbD 5, abs := w.getLsbD 8, o := .ofBits (fieldA w) }
def fsrcB (w : Word64) : FSrc := { neg := w.getLsbD 6, abs := w.getLsbD 9, o := .ofBits (fieldB w) }
def fsrcC (w : Word64) : FSrc := { neg := w.getLsbD 7, abs := w.getLsbD 10, o := .ofBits (fieldC w) }

def float3 (h : Head) (op : BitVec 10) (d : Operand) (a b c : FSrc) (ty : BitVec 2) (low : BitVec 3) : Word64 :=
  packA h op d.toBits a.o.toBits b.o.toBits c.o.toBits (floatMods c b a ty low)

def float2 (h : Head) (op : BitVec 10) (d : BitVec 9) (a b : FSrc) (low : BitVec 3) : Word64 :=
  packA h op d a.o.toBits b.o.toBits 0 (floatMods noSrc b a 0 low)

def float1 (h : Head) (op : BitVec 10) (d : Operand) (a : FSrc) (low : BitVec 3) : Word64 :=
  packA h op d.toBits a.o.toBits 0 0 (floatMods noSrc noSrc a 0 low)

/-- Modifier byte of a load or store (11 R288). -/
def ldstMods (nt : Bool) (sc : Scope) (ord : Bool) (sz : Size) : BitVec 8 := bit nt ++ sc.code ++ bit ord ++ sz.code

def memWord (h : Head) (op : BitVec 10) (d : BitVec 9) (m : MemOp) (mods : BitVec 8) : Word64 :=
  packM h op d m.base.toBits m.index.toBits m.off mods

def memOf (w : Word64) : MemOp :=
  { base := .ofBits (fieldA w), index := .ofBits (fieldB w), off := off12 w }

/-- Bits 19:8 of an atomic: the scope and nine zero bits (11 R298). -/
def atomOff (sc : Scope) : BitVec 12 := sc.code ++ 0#9
def atomScope (w : Word64) : Scope := Scope.ofCode (w.extractLsb' 17 3)

/-- Modifier byte of an atomic (11 R299). -/
def atomMods (ord : Order) (wide uns : Bool) (op : AtomOp) : BitVec 8 :=
  0#1 ++ ord.code ++ bit wide ++ bit uns ++ op.code

/-- Scope and barrier number of a barrier (03 R66). -/
def barMods (sc : Scope) (num : BitVec 4) : BitVec 11 := 0#4 ++ num ++ sc.code

def countField : Option Operand → BitVec 9
  | none => 0
  | some o => o.toBits

/-- Guard slot and guarded bit of a push (04 R92). -/
def pushGuard : Option (BitVec 3) → BitVec 4
  | none => 0
  | some g => 1#1 ++ g

def guardOfPush (f : BitVec 4) : Option (BitVec 3) := if f.getLsbD 3 then some (f.extractLsb' 0 3) else none

/-- Guard slot and guarded bit of a copy (11 R306). -/
def cpyGuard : Option (BitVec 3) → BitVec 4
  | none => 0
  | some g => g ++ 1#1

def guardOfCpy (f : BitVec 4) : Option (BitVec 3) := if f.getLsbD 0 then some (f.extractLsb' 1 3) else none

/-! ### The encoder -/

namespace Instr

/-- The word of a program instruction (02 R45, R46 and the encoding rule of its class); the commands and events of the
table have none and read 0. -/
def encode : Instr → Word64
  | .nop h => packA h 0x000 0 0 0 0 0
  | .bra h off => packB h 0x001 0 0 off
  | .brc h kind k off => packB h 0x002 kind.code (kField k) off
  | .brx h kind r off => packB h 0x003 kind.code r.toBits off
  | .call h link off => packB h 0x004 0 link.toBits off
  | .ret h link => packA h 0x005 0 link.toBits 0 0 0
  | .meetDrop h => packA h 0x006 0 0 0 0 0
  | .meetPush h => packA h 0x006 0 0 0 0 1
  | .exit h => packA h 0x007 0 0 0 0 0
  | .refill h off => packB h 0x008 0 0 off
  | .yield h => packA h 0x009 0 0 0 0 0
  | .sleep h n => packI h 0x00A 0 0 n 0
  | .bar h sc num cnt => packA h 0x00B 0 (countField cnt) 0 0 (barMods sc num)
  | .barv h sc num cnt => packA h 0x00C 0 (countField cnt) 0 0 (barMods sc num)
  | .barw h sc num => packA h 0x00D 0 0 0 0 (barMods sc num)
  | .wprio h p => packI h 0x00E 0 0 (0#22 ++ p) 0
  | .tramp h off => packB h 0x3F0 0 0 off
  | .tret h => packA h 0x3F1 0 0 0 0 0
  | .toolop h n payload => packHead h (BitVec.ofNat 10 (0x3F2 + n.val)) ++ payload
  | .inop stop sw c payload => bit stop ++ bit sw ++ 0x7F#7 ++ c ++ payload
  | .iadd h ty sat d a b => packA h 0x040 d.toBits a.toBits b.toBits 0 (0#8 ++ bit sat ++ ty.code)
  | .iaddImm h ty sat d a imm => packI h 0x060 d.toBits a.toBits imm (0#2 ++ bit sat ++ ty.code)
  | .isub h ty sat d a b => packA h 0x041 d.toBits a.toBits b.toBits 0 (0#8 ++ bit sat ++ ty.code)
  | .isubImm h ty sat d a imm => packI h 0x061 d.toBits a.toBits imm (0#2 ++ bit sat ++ ty.code)
  | .imul h ty sat d a b => packA h 0x042 d.toBits a.toBits b.toBits 0 (0#8 ++ bit sat ++ ty.code)
  | .imulImm h ty sat d a imm => packI h 0x062 d.toBits a.toBits imm (0#2 ++ bit sat ++ ty.code)
  | .imulh h ty d a b => packA h 0x043 d.toBits a.toBits b.toBits 0 (0#9 ++ ty.code)
  | .imad h ty sat d a b c => packA h 0x044 d.toBits a.toBits b.toBits c.toBits (0#8 ++ bit sat ++ ty.code)
  | .imin h ty d a b => packA h 0x045 d.toBits a.toBits b.toBits 0 (0#9 ++ ty.code)
  | .iminImm h ty d a imm => packI h 0x065 d.toBits a.toBits imm (0#3 ++ ty.code)
  | .imax h ty d a b => packA h 0x046 d.toBits a.toBits b.toBits 0 (0#9 ++ ty.code)
  | .imaxImm h ty d a imm => packI h 0x066 d.toBits a.toBits imm (0#3 ++ ty.code)
  | .iabs h w sat d a => packA h 0x047 d.toBits a.toBits 0 0 (0#8 ++ bit sat ++ w.code)
  | .ineg h w sat d a => packA h 0x048 d.toBits a.toBits 0 0 (0#8 ++ bit sat ++ w.code)
  | .idot4 h za zb sat d a b c =>
    packA h 0x049 d.toBits a.toBits b.toBits c.toBits (0#8 ++ bit sat ++ bit zb ++ bit za)
  | .and h w d a b => packA h 0x04A d.toBits a.toBits b.toBits 0 (0#9 ++ w.code)
  | .andImm h w d a imm => packI h 0x06A d.toBits a.toBits imm (0#3 ++ w.code)
  | .or h w d a b => packA h 0x04B d.toBits a.toBits b.toBits 0 (0#9 ++ w.code)
  | .orImm h w d a imm => packI h 0x06B d.toBits a.toBits imm (0#3 ++ w.code)
  | .xor h w d a b => packA h 0x04C d.toBits a.toBits b.toBits 0 (0#9 ++ w.code)
  | .xorImm h w d a imm => packI h 0x06C d.toBits a.toBits imm (0#3 ++ w.code)
  | .not h w d a => packA h 0x04D d.toBits a.toBits 0 0 (0#9 ++ w.code)
  | .bool3 h w table d a b c => packA h 0x04E d.toBits a.toBits b.toBits c.toBits (table ++ 0#1 ++ w.code)
  | .shl h w d a b => packA h 0x04F d.toBits a.toBits b.toBits 0 (0#9 ++ w.code)
  | .shlImm h w d a imm => packI h 0x06F d.toBits a.toBits imm (0#3 ++ w.code)
  | .shr h w d a b => packA h 0x050 d.toBits a.toBits b.toBits 0 (0#9 ++ w.code)
  | .shrImm h w d a imm => packI h 0x070 d.toBits a.toBits imm (0#3 ++ w.code)
  | .sar h w d a b => packA h 0x051 d.toBits a.toBits b.toBits 0 (0#9 ++ w.code)
  | .sarImm h w d a imm => packI h 0x071 d.toBits a.toBits imm (0#3 ++ w.code)
  | .rot h w d a b => packA h 0x052 d.toBits a.toBits b.toBits 0 (0#9 ++ w.code)
  | .rotImm h w d a imm => packI h 0x072 d.toBits a.toBits imm (0#3 ++ w.code)
  | .bfx h ty d a b => packA h 0x053 d.toBits a.toBits b.toBits 0 (0#9 ++ ty.code)
  | .bfxImm h ty d a imm => packI h 0x073 d.toBits a.toBits imm (0#3 ++ ty.code)
  | .bfi h w d a b c => packA h 0x054 d.toBits a.toBits b.toBits c.toBits (0#9 ++ w.code)
  | .popc h w d a => packA h 0x055 d.toBits a.toBits 0 0 (0#9 ++ w.code)
  | .clz h w d a => packA h 0x056 d.toBits a.toBits 0 0 (0#9 ++ w.code)
  | .brev h w d a => packA h 0x057 d.toBits a.toBits 0 0 (0#9 ++ w.code)
  | .icmp h ty cond k a b => packA h 0x058 (kField k) a.toBits b.toBits 0 (0#6 ++ cond.code ++ ty.code)
  | .icmpImm h ty cond k a imm => packI h 0x078 (kField k) a.toBits imm (cond.code ++ ty.code)
  | .lea h sh sx d a b => packA h 0x080 d.toBits a.toBits b.toBits 0 (0#7 ++ bit sx ++ sh)
  | .leaImm h sh d a imm => packI h 0x0A0 d.toBits a.toBits imm (0#2 ++ sh)
  | .mov h w d a => packA h 0x081 d.toBits a.toBits 0 0 (0#9 ++ w.code)
  | .movi h w d imm => packI h 0x082 d.toBits 0 imm (0#3 ++ w.code)
  | .movw h d imm => packW h 0x083 d.toBits imm 0
  | .sel h w d a b k => packA h 0x084 d.toBits a.toBits b.toBits (kField k) (0#9 ++ w.code)
  | .mad64 h n32 d a b c => packA h 0x085 d.toBits a.toBits b.toBits c.toBits (0#10 ++ bit n32)
  | .fadd h r d a b => float2 h 0x0C0 d.toBits a b r.code
  | .fsub h r d a b => float2 h 0x0C1 d.toBits a b r.code
  | .fmul h r d a b => float2 h 0x0C2 d.toBits a b r.code
  | .ffma h r d a b c => float3 h 0x0C3 d a b c 0 r.code
  | .fmin h d a b => float2 h 0x0C4 d.toBits a b 0
  | .fmax h d a b => float2 h 0x0C5 d.toBits a b 0
  | .fcmp h cond k a b => float2 h 0x0C6 (kField k) a b cond.code
  | .fclass h d a => float1 h 0x0C7 d a 0
  | .frcp h r d a => float1 h 0x0C8 d a r.code
  | .frsq h d a => float1 h 0x0C9 d a 0
  | .fsqrt h r d a => float1 h 0x0CA d a r.code
  | .fex2 h d a => float1 h 0x0CB d a 0
  | .flg2 h d a => float1 h 0x0CC d a 0
  | .fsin h d a => float1 h 0x0CD d a 0
  | .fcos h d a => float1 h 0x0CE d a 0
  | .ftanh h d a => float1 h 0x0CF d a 0
  | .fdot2 h bf r d a b c => float3 h 0x0D0 d a b c (if bf then 2 else 1) r.code
  | .cvt h kind d a => packA h 0x100 d.toBits a.toBits 0 0 kind.code
  | .fcvt h df sf r d a => packA h 0x101 d.toBits a.toBits 0 0 (df.code ++ sf.code ++ r.code)
  | .fpack h df j r d a b c =>
    packA h 0x102 d.toBits a.toBits b.toBits c.toBits (df.code ++ j ++ 0#1 ++ r.code)
  | .funpk h sf i d a => packA h 0x103 d.toBits a.toBits 0 0 (sf.code ++ i ++ 0#4)
  | .lgcvt h toF32 r d a => packA h 0x104 d.toBits a.toBits 0 0 (0#7 ++ bit toF32 ++ r.code)
  | .srnd h a => packA h 0x105 0 a.toBits 0 0 0
  | .qe8 h p d a b => packA h 0x110 d.toBits a.toBits b.toBits 0 (0#8 ++ p)
  | .qe8m h p d a b c => packA h 0x111 d.toBits a.toBits b.toBits c.toBits (0#8 ++ p)
  | .de8 h p d a b => packA h 0x112 d.toBits a.toBits b.toBits 0 (0#8 ++ p)
  | .e8scl h d a => packA h 0x113 d.toBits a.toBits 0 0 0
  | .shfl h mode wide d a b => packA h 0x140 d.toBits a.toBits b.toBits 0 (0#8 ++ bit wide ++ mode.code)
  | .matchLanes h w d a => packA h 0x141 d.toBits a.toBits 0 0 (0#9 ++ w.code)
  | .vote h test inv d k => packA h 0x142 d.toBits (kField k) 0 0 (0#8 ++ bit inv ++ test.code)
  | .wred h op uns d a => packA h 0x143 d.toBits a.toBits 0 0 (0#6 ++ bit uns ++ op.code)
  | .wpfx h op uns excl d a => packA h 0x144 d.toBits a.toBits 0 0 (0#5 ++ bit excl ++ bit uns ++ op.code)
  | .elect h k => packA h 0x145 (kField k) 0 0 0 0
  | .kmov h m =>
    match m with
    | .kk d a => packA h 0x146 (kField d) (kField a) 0 0 0
    | .kr d a => packA h 0x146 (kField d) a.toBits 0 0 1
    | .rk d a => packA h 0x146 d.toBits (kField a) 0 0 2
  | .kand h d a b => packA h 0x147 (kField d) (kField a) (kField b) 0 0
  | .kor h d a b => packA h 0x148 (kField d) (kField a) (kField b) 0 0
  | .kxor h d a b => packA h 0x149 (kField d) (kField a) (kField b) 0 0
  | .knot h d a => packA h 0x14A (kField d) (kField a) 0 0 0
  | .kpop h d k => packA h 0x14B d.toBits (kField k) 0 0 0
  | .kfirst h d k => packA h 0x14C d.toBits (kField k) 0 0 0
  | .ld h sz acq sc nt d m => memWord h 0x1C0 d.toBits m (ldstMods nt sc acq sz)
  | .st h sz rel sc nt x m => memWord h 0x1C1 x.toBits m (ldstMods nt sc rel sz)
  | .ldsp h sz acq d m => memWord h 0x1C2 d.toBits m (ldstMods false .core acq sz)
  | .stsp h sz rel x m => memWord h 0x1C3 x.toBits m (ldstMods false .core rel sz)
  | .ldc h sz d base off => packM h 0x1C4 d.toBits base.toBits 0 off (0#5 ++ sz.code)
  | .zfill h m => memWord h 0x1C5 0 m 0
  | .pref h lvl m => memWord h 0x1C6 0 m (0#6 ++ lvl.code)
  | .atom h op uns wide ord sc d base x =>
    packM h 0x200 d.toBits base.toBits x.toBits (atomOff sc) (atomMods ord wide uns op)
  | .atomsp h op uns wide ord d base x => packM h 0x201 d.toBits base.toBits x.toBits 0 (atomMods ord wide uns op)
  | .atomf h base x => packM h 0x202 0 base.toBits x.toBits 0 0
  | .red h op uns wide rel sc x base =>
    packM h 0x203 x.toBits base.toBits 0 (atomOff sc) (0#2 ++ bit rel ++ bit wide ++ bit uns ++ op.code)
  | .fence h sc => packA h 0x204 0 0 0 0 (0#8 ++ sc.code)
  | .icinv h sc => packA h 0x205 0 0 0 0 (0#8 ++ sc.code)
  | .tlbinv h sc range =>
    match range with
    | some (a, b) => packA h 0x206 0 a.toBits b.toBits 0 (0#7 ++ 0#1 ++ sc.code)
    | none => packA h 0x206 0 0 0 0 (0#7 ++ 1#1 ++ sc.code)
  | .cpy h dir guard nt mc d a b c =>
    packA h 0x240 d.toBits a.toBits b.toBits c.toBits (mc ++ bit nt ++ cpyGuard guard ++ dir.code)
  | .cseal h d => packA h 0x241 d.toBits 0 0 0 0
  | .cwait h b => packA h 0x242 0 b.toBits 0 0 0
  | .bxpAdd h b n => packA h 0x243 0 b.toBits n.toBits 0 0
  | .bxpSet h b n => packA h 0x243 0 b.toBits n.toBits 0 1
  | .bwait h b => packA h 0x244 0 b.toBits 0 0 0
  | .tsub h sp m => memWord h 0x248 0 m (0#7 ++ bit sp)
  | .twait h t m => memWord h 0x249 t.toBits m 0
  | .tdesc h d a b => packA h 0x24A d.toBits a.toBits b.toBits 0 0
  | .tdget h d a b => packA h 0x24B d.toBits a.toBits b.toBits 0 0
  | .hsget h d a b => packA h 0x24C d.toBits a.toBits b.toBits 0 0
  | .hsclr h d a b => packA h 0x24D d.toBits a.toBits b.toBits 0 0
  | .weir h d a => packA h 0x250 d.toBits a.toBits 0 0 0
  | .pin h d base len fade => packM h 0x251 d.toBits base.toBits len.toBits 0 fade
  | .unpin h d base => packM h 0x252 d.toBits base.toBits 0 0 0
  | .vdef h d a b => packA h 0x280 d.toBits a.toBits b.toBits 0 0
  | .vdefVoc h d a b => packA h 0x280 d.toBits a.toBits b.toBits 0 1
  | .vld h sz d m => memWord h 0x281 d.toBits m (0#6 ++ sz.code)
  | .vmap h d a b => packA h 0x282 d.toBits a.toBits b.toBits 0 0
  | .vfind h d a b k => packA h 0x283 d.toBits a.toBits b.toBits (kField k) 0
  | .vtouch h a b => packM h 0x284 0 a.toBits b.toBits 0 0
  | .vpin h d a b => packA h 0x285 d.toBits a.toBits b.toBits 0 0
  | .vunpin h d a b => packA h 0x286 d.toBits a.toBits b.toBits 0 0
  | .vstat h op d a b => packA h 0x287 d.toBits a.toBits b.toBits 0 (0#8 ++ op.code)
  | .ssealAdv h d a b => packA h 0x288 d.toBits a.toBits b.toBits 0 0
  | .ssealNew h d a b => packA h 0x288 d.toBits a.toBits b.toBits 0 1
  | .ssealDrop h d a b => packA h 0x288 d.toBits a.toBits b.toBits 0 2
  | .detok h fin d a => packA h 0x289 d.toBits a.toBits 0 0 (0#10 ++ bit fin)
  | .fork h off => packB h 0x2C0 0 0 off
  | .rdv h => packA h 0x2C1 0 0 0 0 0
  | .gset h cond g k => packA h 0x2C2 (gField g) (kField k) 0 0 (0#9 ++ cond.code)
  | .dlv h q cnt sp m => memWord h 0x2C3 0 m (0#2 ++ bit sp ++ cnt.code ++ q)
  | .qstat h d q => packA h 0x2C4 d.toBits (Operand.q q).toBits 0 0 0
  | .slcfg h d a b => packA h 0x2C8 d.toBits a.toBits b.toBits 0 0
  | .slpush h sz guard a b => packA h 0x2C9 0 a.toBits b.toBits 0 (0#5 ++ sz.code ++ pushGuard guard)
  | .slinfo h handle d => packA h 0x2CA d.toBits 0 0 0 (0#10 ++ bit handle)
  | .slcomb h d base => packM h 0x2CB d.toBits base.toBits 0 0 0
  | .pxpush h sz guard a b => packA h 0x2CC 0 a.toBits b.toBits 0 (0#5 ++ sz.code ++ pushGuard guard)
  | .pxflush h wait => packA h 0x2CD 0 0 0 0 (0#10 ++ bit wait)
  | .tfence h => packA h 0x300 0 0 0 0 0
  | .trap h n => packI h 0x301 0 0 n 0
  | .bkpt h n => packI h 0x302 0 0 n 0
  | .ccause h d a => packA h 0x303 d.toBits a.toBits 0 0 0
  | .hret h kill => packA h 0x304 0 0 0 0 (0#10 ++ bit kill)
  | .rdsr h d sr => packS h 0x305 d.toBits 0 sr.code 0
  | .wrsr h sr a => packS h 0x306 0 a.toBits sr.code 0
  | .rdclk h mode d => packA h 0x307 d.toBits 0 0 0 (0#9 ++ mode.code)
  | .wtimer h a => packA h 0x308 0 a.toBits 0 0 0
  | .fragMask h d a => packA h 0x309 d.toBits a.toBits 0 0 0
  | .fragState h d a => packA h 0x309 d.toBits a.toBits 0 0 1
  | .fragKill h d a => packA h 0x309 d.toBits a.toBits 0 0 2
  | .fragResume h d a => packA h 0x309 d.toBits a.toBits 0 0 3
  | .mboxLd h d a => packA h 0x30A d.toBits a.toBits 0 0 0
  | .mboxSt h a b => packA h 0x30A 0 a.toBits b.toBits 0 1
  | .mboxRing h => packA h 0x30A 0 0 0 0 2
  | .smark h n => packI h 0x30B 0 0 n 0
  | .haltStop h d a => packA h 0x30C d.toBits a.toBits 0 0 0
  | .haltGo h d a => packA h 0x30C d.toBits a.toBits 0 0 1
  | .haltStep h d a => packA h 0x30C d.toBits a.toBits 0 0 2
  | _ => 0

end Instr

/-! ### The reader of fields and the decoder -/

/-- Integer instructions and moves, opcodes 0x040 to 0x0BF (07 R171, R176, R178). -/
def parseInt (w : Word64) : Option Instr :=
  let h := headOf w
  let d := Operand.ofBits (fieldD w)
  let a := Operand.ofBits (fieldA w)
  let b := Operand.ofBits (fieldB w)
  let c := Operand.ofBits (fieldC w)
  let m := modsA w
  let ty := IntTy.ofCode (m.extractLsb' 0 2)
  let wd := Width.ofCode (m.extractLsb' 0 2)
  let sat := m.getLsbD 2
  let imm := imm24 w
  match (opcodeOf w).toNat with
  | 0x040 => some (.iadd h ty sat d a b)
  | 0x041 => some (.isub h ty sat d a b)
  | 0x042 => some (.imul h ty sat d a b)
  | 0x043 => some (.imulh h ty d a b)
  | 0x044 => some (.imad h ty sat d a b c)
  | 0x045 => some (.imin h ty d a b)
  | 0x046 => some (.imax h ty d a b)
  | 0x047 => some (.iabs h wd sat d a)
  | 0x048 => some (.ineg h wd sat d a)
  | 0x049 => some (.idot4 h (m.getLsbD 0) (m.getLsbD 1) sat d a b c)
  | 0x04A => some (.and h wd d a b)
  | 0x04B => some (.or h wd d a b)
  | 0x04C => some (.xor h wd d a b)
  | 0x04D => some (.not h wd d a)
  | 0x04E => some (.bool3 h wd (m.extractLsb' 3 8) d a b c)
  | 0x04F => some (.shl h wd d a b)
  | 0x050 => some (.shr h wd d a b)
  | 0x051 => some (.sar h wd d a b)
  | 0x052 => some (.rot h wd d a b)
  | 0x053 => some (.bfx h ty d a b)
  | 0x054 => some (.bfi h wd d a b c)
  | 0x055 => some (.popc h wd d a)
  | 0x056 => some (.clz h wd d a)
  | 0x057 => some (.brev h wd d a)
  | 0x058 => some (.icmp h ty (ICond.ofCode (m.extractLsb' 2 3)) (kOf (fieldD w)) a b)
  | 0x060 => some (.iaddImm h ty sat d a imm)
  | 0x061 => some (.isubImm h ty sat d a imm)
  | 0x062 => some (.imulImm h ty sat d a imm)
  | 0x065 => some (.iminImm h ty d a imm)
  | 0x066 => some (.imaxImm h ty d a imm)
  | 0x06A => some (.andImm h wd d a imm)
  | 0x06B => some (.orImm h wd d a imm)
  | 0x06C => some (.xorImm h wd d a imm)
  | 0x06F => some (.shlImm h wd d a imm)
  | 0x070 => some (.shrImm h wd d a imm)
  | 0x071 => some (.sarImm h wd d a imm)
  | 0x072 => some (.rotImm h wd d a imm)
  | 0x073 => some (.bfxImm h ty d a imm)
  | 0x078 => some (.icmpImm h ty (ICond.ofCode (m.extractLsb' 2 3)) (kOf (fieldD w)) a imm)
  | 0x080 => some (.lea h (m.extractLsb' 0 3) (m.getLsbD 3) d a b)
  | 0x081 => some (.mov h wd d a)
  | 0x082 => some (.movi h wd d imm)
  | 0x083 => some (.movw h d (imm32 w))
  | 0x084 => some (.sel h wd d a b (kOf (fieldC w)))
  | 0x085 => some (.mad64 h (m.getLsbD 0) d a b c)
  | 0x0A0 => some (.leaImm h (m.extractLsb' 0 3) d a imm)
  | _ => none

/-- Control and barriers, and the tool and instrumentation opcodes (03 R66, 02 R49 to R51). -/
def parseControl (w : Word64) : Option Instr :=
  let h := headOf w
  let m := modsA w
  let sc := Scope.ofCode (m.extractLsb' 0 3)
  let num := m.extractLsb' 3 4
  let off := off32 w
  let cnt := if sc = .core then none else some (Operand.ofBits (fieldA w))
  match (opcodeOf w).toNat with
  | 0x000 => some (.nop h)
  | 0x001 => some (.bra h off)
  | 0x002 => some (.brc h (BrcKind.ofCode (kindB w)) (kOf (regB w)) off)
  | 0x003 => some (.brx h (BrxKind.ofCode (kindB w)) (Operand.ofBits (regB w)) off)
  | 0x004 => some (.call h (Operand.ofBits (regB w)) off)
  | 0x005 => some (.ret h (Operand.ofBits (fieldA w)))
  | 0x006 => some (if m.getLsbD 0 then .meetPush h else .meetDrop h)
  | 0x007 => some (.exit h)
  | 0x008 => some (.refill h off)
  | 0x009 => some (.yield h)
  | 0x00A => some (.sleep h (imm24 w))
  | 0x00B => some (.bar h sc num cnt)
  | 0x00C => some (.barv h sc num cnt)
  | 0x00D => some (.barw h sc num)
  | 0x00E => some (.wprio h (w.extractLsb' 5 2))
  | 0x3F0 => some (.tramp h off)
  | 0x3F1 => some (.tret h)
  | 0x3F2 => some (.toolop h 0 (w.extractLsb' 0 47))
  | 0x3F3 => some (.toolop h 1 (w.extractLsb' 0 47))
  | 0x3F4 => some (.toolop h 2 (w.extractLsb' 0 47))
  | 0x3F5 => some (.toolop h 3 (w.extractLsb' 0 47))
  | 0x3F6 => some (.toolop h 4 (w.extractLsb' 0 47))
  | 0x3F7 => some (.toolop h 5 (w.extractLsb' 0 47))
  | n => if 0x3F8 ≤ n then some (.inop h.stop h.sw (w.extractLsb' 52 3) (w.extractLsb' 0 52)) else none

/-- Float, conversion, lattice, lane and mask (07 R179, R185 to R190, 06 R161). -/
def parseFloat (w : Word64) : Option Instr :=
  let h := headOf w
  let d := Operand.ofBits (fieldD w)
  let oa := Operand.ofBits (fieldA w)
  let ob := Operand.ofBits (fieldB w)
  let oc := Operand.ofBits (fieldC w)
  let m := modsA w
  let a := fsrcA w
  let b := fsrcB w
  let c := fsrcC w
  let r := Rnd.ofCode (m.extractLsb' 0 3)
  let kd := kOf (fieldD w)
  let ka := kOf (fieldA w)
  let kb := kOf (fieldB w)
  match (opcodeOf w).toNat with
  | 0x0C0 => some (.fadd h r d a b)
  | 0x0C1 => some (.fsub h r d a b)
  | 0x0C2 => some (.fmul h r d a b)
  | 0x0C3 => some (.ffma h r d a b c)
  | 0x0C4 => some (.fmin h d a b)
  | 0x0C5 => some (.fmax h d a b)
  | 0x0C6 => some (.fcmp h (FCond.ofCode (m.extractLsb' 0 3)) kd a b)
  | 0x0C7 => some (.fclass h d a)
  | 0x0C8 => some (.frcp h r d a)
  | 0x0C9 => some (.frsq h d a)
  | 0x0CA => some (.fsqrt h r d a)
  | 0x0CB => some (.fex2 h d a)
  | 0x0CC => some (.flg2 h d a)
  | 0x0CD => some (.fsin h d a)
  | 0x0CE => some (.fcos h d a)
  | 0x0CF => some (.ftanh h d a)
  | 0x0D0 => some (.fdot2 h (m.getLsbD 4) r d a b c)
  | 0x100 => some (.cvt h (CvtKind.ofCode m) d oa)
  | 0x101 => some (.fcvt h (FFmt.ofCode (m.extractLsb' 7 4)) (FFmt.ofCode (m.extractLsb' 3 4)) r d oa)
  | 0x102 => some (.fpack h (FFmt.ofCode (m.extractLsb' 7 4)) (m.extractLsb' 4 3) r d oa ob oc)
  | 0x103 => some (.funpk h (FFmt.ofCode (m.extractLsb' 7 4)) (m.extractLsb' 4 3) d oa)
  | 0x104 => some (.lgcvt h (m.getLsbD 3) r d oa)
  | 0x105 => some (.srnd h oa)
  | 0x110 => some (.qe8 h (m.extractLsb' 0 3) d oa ob)
  | 0x111 => some (.qe8m h (m.extractLsb' 0 3) d oa ob oc)
  | 0x112 => some (.de8 h (m.extractLsb' 0 3) d oa ob)
  | 0x113 => some (.e8scl h d oa)
  | 0x140 => some (.shfl h (ShflMode.ofCode (m.extractLsb' 0 2)) (m.getLsbD 2) d oa ob)
  | 0x141 => some (.matchLanes h (Width.ofCode (m.extractLsb' 0 2)) d oa)
  | 0x142 => some (.vote h (VoteTest.ofCode (m.extractLsb' 0 2)) (m.getLsbD 2) d ka)
  | 0x143 => some (.wred h (WOp.ofCode (m.extractLsb' 0 4)) (m.getLsbD 4) d oa)
  | 0x144 => some (.wpfx h (WOp.ofCode (m.extractLsb' 0 4)) (m.getLsbD 4) (m.getLsbD 5) d oa)
  | 0x145 => some (.elect h kd)
  | 0x146 => some (.kmov h (match (m.extractLsb' 0 2).toNat with
      | 0 => .kk kd ka
      | 1 => .kr kd oa
      | _ => .rk d ka))
  | 0x147 => some (.kand h kd ka kb)
  | 0x148 => some (.kor h kd ka kb)
  | 0x149 => some (.kxor h kd ka kb)
  | 0x14A => some (.knot h kd ka)
  | 0x14B => some (.kpop h d ka)
  | 0x14C => some (.kfirst h d ka)
  | _ => none

/-- Memory, atomics, fences, asynchronous operations (11 R287 to R316, 08 R212). -/
def parseMem (w : Word64) : Option Instr :=
  let h := headOf w
  let d := Operand.ofBits (fieldD w)
  let a := Operand.ofBits (fieldA w)
  let b := Operand.ofBits (fieldB w)
  let c := Operand.ofBits (fieldC w)
  let m := modsM w
  let mem := memOf w
  let sz := Size.ofCode (m.extractLsb' 0 3)
  let ord := m.getLsbD 3
  let sc := Scope.ofCode (m.extractLsb' 4 3)
  let nt := m.getLsbD 7
  let scA := Scope.ofCode (w.extractLsb' 0 3)
  let aop := AtomOp.ofCode (m.extractLsb' 0 3)
  let uns := m.getLsbD 3
  let wide := m.getLsbD 4
  let aord := Order.ofCode (m.extractLsb' 5 2)
  match (opcodeOf w).toNat with
  | 0x1C0 => some (.ld h sz ord sc nt d mem)
  | 0x1C1 => some (.st h sz ord sc nt d mem)
  | 0x1C2 => some (.ldsp h sz ord d mem)
  | 0x1C3 => some (.stsp h sz ord d mem)
  | 0x1C4 => some (.ldc h sz d a mem.off)
  | 0x1C5 => some (.zfill h mem)
  | 0x1C6 => some (.pref h (PLevel.ofCode (m.extractLsb' 0 2)) mem)
  | 0x200 => some (.atom h aop uns wide aord (atomScope w) d a b)
  | 0x201 => some (.atomsp h aop uns wide aord d a b)
  | 0x202 => some (.atomf h a b)
  | 0x203 => some (.red h aop uns wide (m.getLsbD 5) (atomScope w) d a)
  | 0x204 => some (.fence h scA)
  | 0x205 => some (.icinv h scA)
  | 0x206 => some (.tlbinv h scA (if w.getLsbD 3 then none else some (a, b)))
  | 0x240 => some (.cpy h (CpyDir.ofCode (w.extractLsb' 0 2)) (guardOfCpy (w.extractLsb' 2 4)) (w.getLsbD 6)
      (w.extractLsb' 7 4) d a b c)
  | 0x241 => some (.cseal h d)
  | 0x242 => some (.cwait h a)
  | 0x243 => some (if w.getLsbD 0 then .bxpSet h a b else .bxpAdd h a b)
  | 0x244 => some (.bwait h a)
  | 0x248 => some (.tsub h (m.getLsbD 0) mem)
  | 0x249 => some (.twait h d mem)
  | 0x24A => some (.tdesc h d a b)
  | 0x24B => some (.tdget h d a b)
  | 0x24C => some (.hsget h d a b)
  | 0x24D => some (.hsclr h d a b)
  | 0x250 => some (.weir h d a)
  | 0x251 => some (.pin h d a b m)
  | 0x252 => some (.unpin h d a)
  | _ => none

/-- Views, engines and system (09 R243, 04 R92, 17 R400). -/
def parseSystem (w : Word64) : Option Instr :=
  let h := headOf w
  let d := Operand.ofBits (fieldD w)
  let a := Operand.ofBits (fieldA w)
  let b := Operand.ofBits (fieldB w)
  let m := modsA w
  let mem := memOf w
  let low := (m.extractLsb' 0 2).toNat
  match (opcodeOf w).toNat with
  | 0x280 => some (if m.getLsbD 0 then .vdefVoc h d a b else .vdef h d a b)
  | 0x281 => some (.vld h (VSize.ofCode (m.extractLsb' 0 2)) d mem)
  | 0x282 => some (.vmap h d a b)
  | 0x283 => some (.vfind h d a b (kOf (fieldC w)))
  | 0x284 => some (.vtouch h a b)
  | 0x285 => some (.vpin h d a b)
  | 0x286 => some (.vunpin h d a b)
  | 0x287 => some (.vstat h (VStatOp.ofCode (m.extractLsb' 0 3)) d a b)
  | 0x288 => some (if low = 0 then .ssealAdv h d a b else if low = 1 then .ssealNew h d a b else .ssealDrop h d a b)
  | 0x289 => some (.detok h (m.getLsbD 0) d a)
  | 0x2C0 => some (.fork h (off32 w))
  | 0x2C1 => some (.rdv h)
  | 0x2C2 => some (.gset h (GCond.ofCode (m.extractLsb' 0 2)) (gOf (fieldD w)) (kOf (fieldA w)))
  | 0x2C3 => some (.dlv h (w.extractLsb' 0 2) (DlvCount.ofCode (w.extractLsb' 2 3)) (w.getLsbD 5) mem)
  | 0x2C4 => some (.qstat h d (match a with
      | .q n => n
      | _ => 0))
  | 0x2C8 => some (.slcfg h d a b)
  | 0x2C9 => some (.slpush h (RecSize.ofCode (m.extractLsb' 4 2)) (guardOfPush (m.extractLsb' 0 4)) a b)
  | 0x2CA => some (.slinfo h (m.getLsbD 0) d)
  | 0x2CB => some (.slcomb h d a)
  | 0x2CC => some (.pxpush h (RecSize.ofCode (m.extractLsb' 4 2)) (guardOfPush (m.extractLsb' 0 4)) a b)
  | 0x2CD => some (.pxflush h (m.getLsbD 0))
  | 0x300 => some (.tfence h)
  | 0x301 => some (.trap h (imm24 w))
  | 0x302 => some (.bkpt h (imm24 w))
  | 0x303 => some (.ccause h d a)
  | 0x304 => some (.hret h (m.getLsbD 0))
  | 0x305 => some (.rdsr h d (SysReg.ofCode (sysS w)))
  | 0x306 => some (.wrsr h (SysReg.ofCode (sysS w)) a)
  | 0x307 => some (.rdclk h (ClkMode.ofCode (m.extractLsb' 0 2)) d)
  | 0x308 => some (.wtimer h a)
  | 0x309 => some (if low = 0 then .fragMask h d a else if low = 1 then .fragState h d a
      else if low = 2 then .fragKill h d a else .fragResume h d a)
  | 0x30A => some (if low = 0 then .mboxLd h d a else if low = 1 then .mboxSt h a b else .mboxRing h)
  | 0x30B => some (.smark h (imm24 w))
  | 0x30C => some (if low = 0 then .haltStop h d a else if low = 1 then .haltGo h d a else .haltStep h d a)
  | _ => none

/-- The instruction whose fields a word holds, by opcode class (02 R44, R45). -/
def parse (w : Word64) : Option Instr :=
  let op := (opcodeOf w).toNat
  if op < 0x040 then parseControl w
  else if op < 0x0C0 then parseInt w
  else if op < 0x180 then parseFloat w
  else if op < 0x280 then parseMem w
  else if op < 0x340 then parseSystem w
  else if op < 0x3F0 then none
  else parseControl w

/-- The instruction a word at an instruction position stands for, or none: the word is ILLEGAL (02 R47). -/
def decode (w : Word64) : Option Instr :=
  match parse w with
  | some i => if i.wf && i.encode == w then some i else none
  | none => none

/-! ### Headers (02 R30) -/

/-- Bits 63:58 hold the header tag. -/
def isHeader (w : Word64) : Bool := w.extractLsb' 58 6 == 0b110110#6
def headerLength (w : Word64) : Nat := (w.extractLsb' 52 6).toNat
def headerVectors (w : Word64) : Nat := (w.extractLsb' 43 9).toNat
/-- The meeting header offset, in words, signed. -/
def headerMeet (w : Word64) : BitVec 16 := w.extractLsb' 4 16
def headerHint (w : Word64) : BitVec 2 := w.extractLsb' 2 2
def headerRefill (w : Word64) : Bool := w.getLsbD 1
def headerDivergent (w : Word64) : Bool := w.getLsbD 0

/-- Instructions that stand only as the last word of their block (02 R29). -/
def Instr.endsBlock : Instr → Bool
  | .bra .. | .brc .. | .brx .. | .call .. | .ret .. | .exit .. | .refill .. | .tret .. => true
  | _ => false

/-! ### Admin commands and the opcode table's words -/

/-- An admin command as a number of 512 bits, byte 0x00 lowest (16 R335, R337); an opcode that the table lacks, or a
DEBUG operation code that R337 does not list, gives none. -/
def decodeAdmin (w : BitVec 512) : Option Instr :=
  let c : AdminCmd :=
    { tag := w.extractLsb' 16 16, n := w.extractLsb' 32 32, a := w.extractLsb' 64 64, b := w.extractLsb' 128 64,
      c := w.extractLsb' 192 64, resv := w.extractLsb' 8 8 != 0 || w.extractLsb' 256 256 != 0 }
  match (w.extractLsb' 0 8).toNat with
  | 0x01 => some (.dike c)
  | 0x02 => some (.create c)
  | 0x03 => some (.destroy c)
  | 0x04 => some (.update c)
  | 0x05 => some (.mapq c)
  | 0x06 => some (.zeroRange c)
  | 0x07 => some (.zone c)
  | 0x08 => some (.cold c)
  | 0x09 => some (.disturb c)
  | 0x0A => some (.podclr c)
  | 0x0B =>
    match c.a.toNat with
    | 0 => some (.debugHaltStop c)
    | 1 => some (.debugHaltGo c)
    | 2 => some (.debugHaltStep c)
    | 4 => some (.debugFragMask c)
    | 5 => some (.debugFragState c)
    | 6 => some (.debugFragKill c)
    | 7 => some (.debugFragResume c)
    | _ => none
  | 0x0C => some (.traceBuf c)
  | 0x0D => some (.spare c)
  | 0x0E => some (.power c)
  | _ => none

/-- The 512 bits of an admin command, byte 0x00 lowest; a nonzero byte where R337 wants zero is put in byte 0x01. -/
def adminWord (op : Byte) (c : AdminCmd) : BitVec 512 :=
  0#256 ++ c.c ++ c.b ++ c.a ++ c.n ++ c.tag ++ (0#7 ++ bit c.resv) ++ op

/-- The bits of an admin command (16 R335, R337); any other instruction has none and reads 0. -/
def encodeAdmin : Instr → BitVec 512
  | .dike c => adminWord 0x01 c
  | .create c => adminWord 0x02 c
  | .destroy c => adminWord 0x03 c
  | .update c => adminWord 0x04 c
  | .mapq c => adminWord 0x05 c
  | .zeroRange c => adminWord 0x06 c
  | .zone c => adminWord 0x07 c
  | .cold c => adminWord 0x08 c
  | .disturb c => adminWord 0x09 c
  | .podclr c => adminWord 0x0A c
  | .debugHaltStop c | .debugHaltGo c | .debugHaltStep c | .debugFragMask c | .debugFragState c | .debugFragKill c
  | .debugFragResume c => adminWord 0x0B c
  | .traceBuf c => adminWord 0x0C c
  | .spare c => adminWord 0x0D c
  | .power c => adminWord 0x0E c
  | _ => 0

/-- What the decoder reads from an instruction whose bits are w: a 64-bit program word, or a 64-byte admin command. -/
def decodeTableWord (nbits w : Nat) : Option Instr :=
  if nbits ≤ 64 then decode (BitVec.ofNat 64 w) else decodeAdmin (BitVec.ofNat 512 w)

end Sys2Proof
end

