-- ==== Sys2Proof/Config.lean ====
section
/-! DEFINITION. What the spec leaves open: constants without a body, so that nothing can evaluate them, and the figures
that the B0 stepping fixes (spec 00 R2, R4; 02 R53; 16 R346). -/
namespace Sys2Proof.Config

/-- A byte of scratchpad that no group has written, by the group's seed and the offset (12 R327; log 6). -/
opaque spadByte : Nat → Nat → Byte

/-- An open choice of the part among n outcomes, taken modulo n (log 2). -/
opaque pick : Nat → Nat

/-- A value the spec does not state, by the counter `fresh` (log 2). -/
opaque freeWord : Nat → Word64

/-- A byte that the spec leaves undefined, by a fresh number and its address (04 R114; log 26). -/
opaque freeByte : Nat → Nat → Byte

/-- A byte that another package answers to an access of an engine, by the counter `fresh` and the address (16 R429; log 33). -/
opaque farByte : Nat → Nat → Byte

/-- Sensor readings of a die: temperature, supply, process count, fused threshold V1 in mV (18 R407, R409; log 5). -/
opaque dieTemp : Nat → Nat → BitVec 16
opaque dieVolt : Nat → Nat → BitVec 16
opaque dieProc : Nat → BitVec 16
opaque dieV1 : Nat → BitVec 16
opaque stackTemp : Nat → Nat → BitVec 16

/-- View-engine cycles of a build, a measurement (09 R430; log 7). -/
opaque buildCycles : Nat → Nat

/-- The BF16 code of an embedding element whose exact scaled value BF16 does not hold, by its stored code and the scale
(09 R228; log 18). -/
opaque rowScaled : Nat → Nat → BitVec 16

/-- Spare rows of the channels of a die: two per bank of each pseudo-channel; the spec gives no bank count (18 R405). -/
opaque sparesPerDie : Nat

/-- The DRAM row that holds a DPA and the bank of a row, which the spec does not number (18 R405; log 9). -/
opaque rowOf : Nat → Nat
opaque bankOf : Nat → Nat

/-- Rows that the fuses have repaired on a die and in a bank: spare rows that are taken from the start (18 R414; log 9). -/
opaque repairedRows : Nat → Nat
opaque repairedIn : Nat → Nat

/-- Populated bytes per channel on B0 (16 R346). -/
def channelBytes : Nat := 1207959552

/-- The encoding hash of B0 (02 R2, R53). -/
def encHash : Word32 := 0x9E4107C3#32

end Sys2Proof.Config
end

