-- ==== Sys2Proof/Machine/State.lean ====
section
/-! DEFINITION. The state of a WG24 package as plain data: threads, waves, groups, launches, contexts, engines, memory,
host registers (the list with its rules is INVENTORY.md, '## State'), why a step stops, and the state after reset
(spec 18 R414). -/
namespace Sys2Proof.Machine

/-- Why the machine stops with a fault. -/
inductive Fault
  /-- Raised by any access of the part whose translated address names no usable HBM byte of the package: the DPA lies
  in the metadata reserve or beyond the populated bytes, or bits 63:46 are nonzero (16 R346). Safe: the spec says no
  such byte exists and gives the access no effect. -/
  | noSuchAddress (addr : Nat)
  deriving DecidableEq, Repr

/-- Why the model gives a step no meaning. -/
inductive Refusal
  /-- Raised by an arm of `exec` whose instruction has no meaning yet. Safe: the run stops. -/
  | notModelled (mnemonic : String)
  deriving DecidableEq, Repr

/-- The causes of R368 that stop a lane or a wave; the flag bits 0 to 4 are no causes. -/
inductive Cause
  | arith | illegal | brtarget | depth | toolop | align | range | watch | page | expand
  | viewmiss | viewfail | viewpool | viewrange | poison | remote | remoteTimeout | spill
  | sluice | qempty | fragfull | trap | bkpt | step | timer | halted
  deriving DecidableEq, Repr

/-- Whether a thread lives (03 R58, R72), or is parked in a fragment entry (17 R369). -/
inductive Life
  | live
  | exited
  | frag (e : Nat)
  deriving DecidableEq, Repr

/-- What a word that a path group stands at waits for, before it is tried again (03 R59, R82, R83). -/
inductive Stall
  /-- translations that have been asked for: page and write (16 R347) -/
  | ats (pages : List (Nat × Bool))
  /-- answers to remote requests; the mark is the word's W bit (11 R286) -/
  | answers (reqs : List Nat) (w : Bool)
  /-- one of these pages of an access of the part: its translation, request or expansion (16 R429) -/
  | engine (pages : List Nat)
  /-- lines of the group's scratchpad (11 R297) -/
  | lines (ls : List Nat)
  /-- so many words of delivery queues (04 R103) -/
  | words (need : List (Nat × Nat))
  /-- room in a delivery queue for a `dlv` (04 R99) -/
  | room (q n : Nat)
  /-- so many entries of the core's item queue (03 R74) -/
  | items (n : Nat)
  /-- room for so many bulk copies (11 R307) -/
  | copyRoom (n : Nat)
  /-- copies of closed batches (11 R309) -/
  | batches (copies : List Nat)
  /-- byte barriers at these offsets (11 R311) -/
  | bytes (offs : List Nat)
  /-- a free access processor context (04 R96) -/
  | fork
  /-- a pending guard slot (04 R106) -/
  | guard (slot : BitVec 3)
  /-- passes over a view (09 R248) -/
  | passes (l : List (Nat × Nat))
  /-- room for so many tile tasks (08 R213) -/
  | taskRoom (n : Nat)
  /-- a counter in memory below its threshold (08 R214) -/
  | counter (pa low : Nat)
  /-- held guarded pushes in front at a unit (04 R107) -/
  | push (unit : Nat)
  /-- room at the scan units of a die (11 R316) -/
  | unit (die : Nat)
  deriving DecidableEq, Repr

/-- What a live thread waits for (03 R62, R76, R78, R88; 04 R100; 17 R389). -/
inductive Wait
  | none
  /-- held at a meeting header -/
  | held
  /-- held by the `tramp` execution with this number -/
  | tramp (id : Nat)
  /-- waits at its word, which is tried again -/
  | stall (why : Stall)
  /-- waits for a phase of a barrier, since a wall time -/
  | bar (sc : Scope) (num phase since : Nat)
  /-- a second arrival held until the open phase ends, since a wall time; the flag tells `bar` from `barv` -/
  | barHeld (sc : Scope) (num phase : Nat) (wait : Bool) (since : Nat)
  /-- an arrival by `barv.pod` in a degraded pod, since a wall time (03 R90) -/
  | barvPod (since : Nat)
  /-- sleeps until the run counter of its wave reaches a value -/
  | sleep (until_ : Nat)
  /-- waits for the partner of the m-th `rdv` -/
  | rdv (m : Nat)
  /-- `pxflush.wait`: bins with the record count that must have arrived, since a wall time -/
  | flush (targets : List (Nat × Nat)) (since : Nat)
  /-- waits for tile tasks to end -/
  | tasks (ids : List Nat)
  deriving DecidableEq, Repr

/-- A guard slot (04 R106); a pending one keeps the value it resolves to, known to the engine alone, the mask register it
waits for, and the lanes whose bits it takes. -/
inductive Guard
  | isTrue
  | isFalse
  | pending (value : Bool) (k : Nat) (m : LaneMask)
  deriving DecidableEq, Repr

/-- The return slot a `tramp` sets (03 R78): return address, meeting depth, the block it returns into, and the
number of the `tramp` execution. -/
structure Tramp where
  ret : Word64 := 0
  depth : Nat := 0
  hdr : Word64 := 0
  hword : Word64 := 0
  code : List Word64 := []
  id : Nat := 0
  deriving DecidableEq, Repr

/-- A queue word kept with a faulted thread (04 R105). -/
structure KeptWord where
  q : Nat := 0
  w : Word32 := 0
  poison : Bool := false
  deriving DecidableEq, Repr

/-- One thread (03 R58). `meets` holds the meeting stack, top first; `code` the instruction words of the block as
fetched when its header was entered (10 R276); `answers` what remote targets answered, none for a timeout (17 R386). `saved` is a barrier wait that a fault interrupted, with its
word (03 R91). -/
structure Lane where
  life : Life := .exited
  wait : Wait := .none
  pc : Word64 := 0
  hdr : Word64 := 0
  hword : Word64 := 0
  code : List Word64 := []
  meets : List Word32 := []
  tret : Option Tramp := none
  flags : BitVec 5 := 0
  rng : Word32 := 1
  item : Word64 := 0
  batch : Word32 := 0
  failed : List (Word32 × CopyFailure) := []
  arr : List (Nat × Nat) := []
  handler : Option Nat := none
  timerDue : Bool := false
  stopped : Bool := false
  stepFirst : Bool := false
  kept : List KeptWord := []
  skipWatch : Bool := false
  answers : List (Nat × Option RemoteAnswer) := []
  saved : Option (Word64 × Wait) := none
  deriving DecidableEq, Repr

/-- One word of a delivery queue: present, or reserved for a read of an address by a `dlv` that the program executed after
so many `rdv`s (04 R99 to R101). -/
inductive QWord
  | word (w : Word32) (poison : Bool)
  | reserved (addr : Word64) (sp : Bool) (rdvs : Nat)
  deriving DecidableEq, Repr

/-- What an access processor context has beside the registers of its one lane (04 R94, R96). -/
structure Ap where
  owner : Nat := 0
  index : Nat := 0
  queues : SMap (List QWord) := []
  ended : Bool := false
  code : Nat := 0
  atRdv : Bool := false
  rdvs : Nat := 0
  deriving DecidableEq, Repr

/-- One wave, or the address program of an access processor context as a wave of one lane. `parked` marks a wave of a
fired group whose records have not landed (04 R116), `swappable` one that stands at a word with the W bit while a long
latency result is in flight (03 R83). `full` is the number of fragment entries that a wave parked with FRAGFULL needs
(17 R372). `inBlock` is a lane of the path group that stands inside its block, `away` the `tramp` execution whose path
group holds the turn, with that group's lanes (03 R60, R78), `readySince` the wall time since which the wave is ready
(03 R85). -/
structure Wave where
  present : Bool := false
  key : Nat := 0
  ctx : Nat := 0
  core : Nat := 0
  slot : Nat := 0
  group : Nat := 0
  index : Nat := 0
  ap : Option Ap := none
  lanes : Lanes Lane := Vector.replicate 32 {}
  v : SMap (Lanes Word32) := []
  vpoison : SMap LaneMask := []
  s : SMap Word32 := []
  spoison : List Nat := []
  k : SMap LaneMask := []
  guards : SMap Guard := []
  causes : Word64 := 0
  fpen : BitVec 5 := 0
  timer : Word32 := 0
  run : Nat := 0
  prio : Nat := 0
  age : Nat := 0
  active : Bool := false
  swappable : Bool := false
  parked : Bool := false
  readySince : Nat := 0
  lastIssue : Nat := 0
  turnLow : Nat := 31
  inBlock : Option Nat := none
  away : Option (Nat × LaneMask) := none
  full : Nat := 0
  bound : Option Nat := none
  /-- the fault code of the last program, 0 for `exit`, once its context is free (04 R101, R102) -/
  ended : Option Nat := none
  rdvs : Nat := 0
  vfly : List Nat := []
  kfly : List (Nat × List Nat) := []
  deriving DecidableEq, Repr

/-- State of a fragment (17 R370). -/
inductive FragState
  | waiting
  | inHandler
  | parked
  deriving DecidableEq, Repr

/-- What a fragment waits for (17 R370). -/
inductive WaitObj
  | none
  | extents (l : List (Nat × Nat))
  | bin (h : Nat)
  | shadow (h : Nat)
  | share (die : Nat)
  deriving DecidableEq, Repr

/-- State of one page request a fragment or an engine waits for (16 R348). -/
inductive PageAnswer
  | pending
  | success
  | invalid
  | failure
  deriving DecidableEq, Repr

/-- The fault address and detail of one lane of a fragment, and the page it waits for (17 R370, R378). -/
structure FaultInfo where
  lane : Nat := 0
  addr : Word64 := 0
  detail : Word32 := 0
  page : Option Nat := none
  answer : PageAnswer := .pending
  kept : List KeptWord := []
  deriving DecidableEq, Repr

/-- A fragment entry (17 R370). -/
structure Frag where
  wave : Nat := 0
  lanes : LaneMask := 0
  pc : Word64 := 0
  hdr : Word64 := 0
  word : Word64 := 0
  cause : Cause := .illegal
  obj : WaitObj := .none
  st : FragState := .waiting
  info : List FaultInfo := []
  inner : Bool := false
  since : Nat := 0
  deriving DecidableEq, Repr

/-- The kernel object a launch or a fired group runs (02 R54, R56). -/
structure Kernel where
  obj : Word64 := 0
  refill : Bool := false
  usesAtomf : Bool := false
  entry : Nat := 0x100
  codeSize : Nat := 8
  vregs : Nat := 320
  sregs : Nat := 128
  depth : Nat := 16
  spBytes : Nat := 0
  gsize : Nat := 32
  items : Nat := 0
  safe : List Nat := []
  descReq : Nat := 0
  viewReq : Nat := 0
  redBytes : Nat := 0
  dataOff : Nat := 0
  dataSize : Nat := 0
  deriving DecidableEq, Repr

/-- One phase of a barrier: its number, what it expects (wider barriers), what has arrived (03 R86, R87); `others` counts
groups of other packages of the pod. -/
structure Barrier where
  phase : Nat := 0
  expected : Nat := 0
  threads : Nat := 0
  groups : List Nat := []
  others : Nat := 0
  deriving DecidableEq, Repr

/-- Halt state of a group (17 R389, 19 R416). -/
inductive Halt
  | running
  | stopping (kind : Nat)
  | stopped
  deriving DecidableEq, Repr

/-- One resident group (03 R72, R81; 04 R116; 11 R297). Scratchpad bytes that nothing has written are free values of
`spSeed` (12 R327). -/
structure Group where
  launch : Option Nat := none
  bin : Option Nat := none
  kern : Kernel := {}
  ctx : Nat := 0
  core : Nat := 0
  index : Nat := 0
  ngroups : Nat := 1
  waves : List Nat := []
  args : Word64 := 0
  prio : Nat := 0
  sp : List Host.Cell := []
  spSeed : Nat := 0
  spPoison : List Nat := []
  pend : SMap Nat := []
  bars : SMap Barrier := []
  halt : Halt := .running
  slCount : Nat := 0
  slAged : Bool := false
  slHandle : Nat := 0
  landing : List Nat := []
  deriving DecidableEq, Repr

/-- One record of a reduction log (10 R279, R280). -/
structure RedRec where
  group : Nat := 0
  thread : Nat := 0
  va : Word64 := 0
  val : Word32 := 0
  deriving DecidableEq, Repr

/-- A launch in progress (03 R79 to R81). -/
structure Launch where
  ctx : Nat := 0
  queue : Nat := 0
  record : Nat := 0
  kern : Kernel := {}
  prio : Nat := 0
  coResident : Bool := false
  ordered : Bool := false
  ngroups : Nat := 1
  placed : Nat := 0
  retired : Nat := 0
  items : Nat := 0
  nextItem : Nat := 0
  args : Word64 := 0
  status : Word64 := 0
  itemq : SMap (List Nat) := []
  log : List RedRec := []
  ending : Nat := 0
  deriving DecidableEq, Repr

/-- A host work queue, bound to a context (16 R337, R339). -/
structure Queue where
  ctx : Nat := 0
  ring : Word64 := 0
  entries : Nat := 16
  wb : Word64 := 0
  cons : BitVec 32 := 0
  prod : BitVec 32 := 0
  err : Bool := false
  /-- a write-back word awaits its translation; the last one could not be written -/
  wbPending : Bool := false
  wbFailed : Bool := false
  /-- a record that has been read and awaits translations: its index in the ring and its bytes -/
  held : Option (Nat × Nat) := none
  deriving DecidableEq, Repr

/-- The context record (16 R334). -/
structure CtxRec where
  heapBase : Word64 := 0
  heapLimit : Word64 := 0
  heapOff : Word64 := 0
  fn : Nat := 0
  prio : Nat := 0
  compress : Bool := false
  paged : Bool := false
  dike : Nat := 0
  alpha : Nat := 0
  beta : Nat := 0
  poolBase : Word64 := 0
  poolQuota : Nat := 0
  polderQuota : Nat := 0
  saveBase : Word64 := 0
  saveBytes : Nat := 0
  fqBase : Word64 := 0
  fqEntries : Nat := 64
  timeoutUs : Nat := 0
  proxyBase : Word64 := 0
  proxyBytes : Nat := 0
  binFirst : Nat := 0
  binCount : Nat := 0
  mgmtRing : Word64 := 0
  expRing : Word64 := 0
  hdlTab : Word64 := 0
  deriving DecidableEq, Repr

/-- A tensor descriptor (05 R147). -/
structure Desc where
  base : Word64 := 0
  fmt : Nat := 0
  rank : Nat := 0
  compressible : Bool := false
  hist : Bool := false
  side : Bool := false
  pad : Bool := false
  scale : Word32 := 0
  ext0 : Nat := 0
  ext1 : Nat := 0
  ext2 : Nat := 0
  ext3 : Nat := 0
  str1 : Word64 := 0
  str2 : Word64 := 0
  str3 : Word64 := 0
  sideAddr : Word64 := 0
  histAddr : Word64 := 0
  deriving DecidableEq, Repr

/-- A source (09 R217, R218). -/
structure Source where
  base : Word64 := 0
  capacity : Nat := 0
  packed : Bool := false
  gapTable : Word64 := 0
  segTable : Word64 := 0
  sealed : Nat := 0
  deriving DecidableEq, Repr

/-- State of an extent (09 R234). -/
inductive ExtState
  | absent
  | building
  | resident
  | evicting
  | failed
  deriving DecidableEq, Repr

/-- One element of a built extent: its value as a number of `elemBytes` bytes, its span start and span length. -/
structure Elem where
  val : Nat := 0
  off : Nat := 0
  len : Nat := 0
  deriving DecidableEq, Repr

/-- A directory record with the data of a resident extent (09 R234); its references are the fragments that wait on it.
`rebuild` marks one that is to be built when its eviction ends, `waitingSpace` a build that awaits the next scan. -/
structure Extent where
  st : ExtState := .absent
  pin : Bool := false
  entry : Bool := false
  counted : Bool := false
  known : Bool := false
  touches : Nat := 0
  cost : Nat := 0
  stamp : Nat := 0
  size : Nat := 0
  loc : Word64 := 0
  count : Nat := 0
  start : Nat := 0
  elems : List Elem := []
  rebuild : Bool := false
  waitingSpace : Bool := false
  deriving DecidableEq, Repr

/-- A defined view (09 R220). -/
structure View where
  src : Nat := 0
  code : Nat := 0
  strict : Bool := false
  voc : Nat := 0
  start : Nat := 0
  len : Nat := 0
  tensor : Nat := 0
  tokView : Nat := 0
  sep : Byte := 0
  delim : Byte := 0
  quote : Byte := 0
  quotes : Bool := false
  sealed : Nat := 0
  dir : Word64 := 0
  exts : SMap Extent := []
  deriving DecidableEq, Repr

/-- An entry of a vocabulary (09 R223). -/
structure VocEntry where
  id : Nat := 0
  str : List Byte := []
  deriving DecidableEq, Repr

/-- An installed vocabulary (09 R223, R224). -/
structure Vocab where
  unknown : Nat := 0
  entries : List VocEntry := []
  merges : List (Nat × Nat) := []
  classes : List Byte := []
  deriving DecidableEq, Repr

/-- A polder (11 R313, R314). -/
structure Polder where
  start : Word64 := 0
  len : Nat := 0
  fade : Nat := 0
  touched : Bool := false
  deriving DecidableEq, Repr

/-- A record in a shadow queue: its size and bytes, and the wall time it entered (04 R122, R123). -/
structure ShadowRec where
  size : RecSize := .r16
  bytes : Nat := 0
  enter : Nat := 0
  deriving DecidableEq, Repr

/-- A shadow queue of the proxy region (04 R122, R123); `entered` counts records its remote unit has taken or
refused, `pushed` those that entered the queue; it holds no slot while it is empty. -/
structure Shadow where
  die : Nat := 0
  bin : Nat := 0
  slot : Option Nat := none
  recs : List ShadowRec := []
  /-- bytes that have entered the ring since the slot was taken -/
  pos : Nat := 0
  pushed : Nat := 0
  entered : Nat := 0
  deriving DecidableEq, Repr

/-- A batch of records sent to another package (04 R123). -/
structure Batch where
  ctx : Nat := 0
  die : Nat := 0
  bin : Nat := 0
  size : RecSize := .r16
  recs : List Nat := []
  deriving DecidableEq, Repr

/-- The sample buffer of a context (18 R412, R413). -/
structure TraceBuf where
  base : Word64 := 0
  count : Nat := 64
  k : Nat := 4
  enable : Bool := false
  produced : Nat := 0
  lost : Nat := 0
  seen : SMap Nat := []
  deriving DecidableEq, Repr

/-- A tagged request in flight (18 R413). -/
structure Sample where
  access : Nat := 0
  frag : Word32 := 0
  ordinal : Word32 := 0
  off : Word32 := 0
  wall : Nat := 0
  line : Word64 := 0
  /-- its request to another package -/
  req : Option Nat := none
  deriving DecidableEq, Repr

/-- A paged translation held by the part (16 R347): page start, its bytes, and the answer. -/
structure TlbEntry where
  page : Nat := 0
  bytes : Nat := 65536
  addr : Word64 := 0
  read : Bool := true
  write : Bool := true
  deriving DecidableEq, Repr

/-- Who asked for a page and what for (16 R348, R429): a lane's access, or the engine operation with this tag. -/
structure PageReq where
  page : Nat := 0
  write : Bool := false
  tag : Nat := 0
  answer : PageAnswer := .pending
  deriving DecidableEq, Repr

/-- A context (16 R334, R345). `passes` lists the view passes that `vstat` waits for (09 R248), `ats` pages whose
translation has been asked for, `denied` pages whose ATS answer was missing, `pri` page requests, `exmap` the expansion map: page, and frame plus the
index of its ring entry. -/
structure Context where
  cfg : CtxRec := {}
  descs : SMap Desc := []
  sources : SMap Source := []
  views : SMap View := []
  vocs : SMap Vocab := []
  hand : Nat := 0
  passes : List (Nat × Nat) := []
  e8n : Word32 := 0
  gaprec : Word32 := 0
  fqprod : Word64 := 0
  fqcons : Word64 := 0
  fqlost : Word32 := 0
  wpaddr : SMap Word64 := []
  wpctl : SMap Word32 := []
  mbox : SMap Word32 := []
  bars : SMap Barrier := []
  polders : List Polder := []
  /-- aging ticks of its polders that have ended -/
  fadeTick : Nat := 0
  shadows : List Shadow := []
  trace : TraceBuf := {}
  samples : List Sample := []
  tlb : List TlbEntry := []
  exmap : List (Nat × Nat) := []
  expanding : List Nat := []
  expHead : Nat := 0
  ats : List (Nat × Bool) := []
  denied : List (Nat × Bool) := []
  pri : List PageReq := []
  mgmtCons : BitVec 32 := 0
  mgmtProd : BitVec 32 := 0
  ending : Bool := false
  lastRan : Nat := 0
  /-- what other packages answered the accesses of the part: the tag of the operation, the package, and the answer (16 R429) -/
  farAns : List (Nat × Nat × Option RemoteAnswer) := []
  /-- the free values that a spill has left in its save area, by a fresh number (16 R356, R357) -/
  spilled : Option Nat := none
  deriving DecidableEq, Repr

/-- A dike (16 R344, R353) with its rotation (03 R81). -/
structure Dike where
  quads : BitVec 288 := 0
  ways : BitVec 16 := 0
  polderWays : BitVec 16 := 0
  sliceUs : Nat := 10
  hbmWeight : Nat := 1
  linkWeight : Nat := 1
  running : Option Nat := none
  shadow : Option Nat := none
  spilling : Bool := false
  filling : Bool := false
  chosen : Option Nat := none
  sliceStart : Nat := 0
  rot : Nat := 0
  deriving DecidableEq, Repr

/-- A bulk copy in flight (11 R306 to R312). `landed` lists the landed units as target number times 2^32 plus unit. -/
structure Copy where
  ctx : Nat := 0
  wave : Nat := 0
  lane : Nat := 0
  group : Nat := 0
  batch : Word32 := 0
  dir : CpyDir := .gg
  dst : Word64 := 0
  src : Word64 := 0
  len : Nat := 0
  bar : Option Nat := none
  targets : List Nat := []
  landed : List Nat := []
  /-- units that have been read, each with its eight bytes and whether they were poisoned (11 R308) -/
  got : SMap (Nat × Bool) := []
  guard : Option (BitVec 3 × Guard) := none
  deriving DecidableEq, Repr

/-- A tile task (08 R195, R208). `raw` is its 128-byte record as a number, low byte first. -/
structure Task where
  ctx : Nat := 0
  wave : Nat := 0
  group : Nat := 0
  raw : Nat := 0
  guard : Option (BitVec 3 × Guard) := none
  running : Bool := false
  deriving DecidableEq, Repr

/-- A claimed accumulator slot (08 R199, R209). -/
structure AccSlot where
  owner : Nat := 0
  vals : SMap Word32 := []
  poison : List Nat := []
  deriving DecidableEq, Repr

/-- A record in a bin: its bytes as a number and the wall time it entered (04 R112, R115). -/
structure BinRec where
  bytes : Nat := 0
  enter : Nat := 0
  deriving DecidableEq, Repr

/-- A guarded push held at the sluice unit until its slot resolves (04 R107, R113). -/
structure HeldPush where
  ctx : Nat := 0
  wave : Nat := 0
  group : Nat := 0
  slot : BitVec 3 := 0
  guard : Guard := .isTrue
  h : Nat := 0
  size : RecSize := .r16
  proxy : Bool := false
  recs : List Nat := []
  lanes : LaneMask := 0
  pc : Word64 := 0
  hdr : Word64 := 0
  word : Word64 := 0
  deriving DecidableEq, Repr

/-- A configured sluice bin (04 R110, R114). -/
structure Bin where
  ctx : Nat := 0
  size : RecSize := .r16
  prio : Nat := 0
  count : Nat := 1
  ageUs : Nat := 1
  expert : Bool := false
  enable : Bool := false
  kern : Kernel := {}
  spillBase : Word64 := 0
  spillBytes : Nat := 4096
  counters : Word64 := 0
  combine : Nat := 0
  choices : Nat := 0
  slots : Nat := 0
  args : Word64 := 0
  recs : List BinRec := []
  fullSince : Option Nat := none
  turnKept : Bool := false
  deriving DecidableEq, Repr

/-- An accepted weir scan (11 R316 to R319). -/
structure Scan where
  ctx : Nat := 0
  die : Nat := 0
  base : Word64 := 0
  bytes : Nat := 0
  fmt : Nat := 0
  thr : Word32 := 0
  dst : Word64 := 0
  cap : Nat := 1
  cnt : Word64 := 0
  deriving DecidableEq, Repr

/-- An accepted detokeniser command (09 R253), with its stop strings. -/
structure DetokCmd where
  ctx : Nat := 0
  die : Nat := 0
  fin : Bool := false
  buf : Word64 := 0
  count : Nat := 0
  voc : Nat := 0
  stops : List (List Byte) := []
  dst : Nat := 0
  stream : Word64 := 0
  done : Word64 := 0
  deriving DecidableEq, Repr

/-- A pending `red` (11 R301), to be performed at the home L3. -/
structure PendingRed where
  ctx : Nat := 0
  core : Nat := 0
  pa : Nat := 0
  op : AtomOp := .add
  uns : Bool := false
  wide : Bool := false
  val : Word64 := 0
  /-- the translation epoch at its issue (10 R278) -/
  epoch : Word64 := 0
  deriving DecidableEq, Repr

/-- A page that system software has freed and that no access may touch any more before it is handed out again (10 R278):
the epoch of the free, a fresh number that every later access of the part exceeds, and what was then in flight: stores by
their addresses, view builds, and address programs with reads of `dlv`. -/
structure Freed where
  page : Nat := 0
  epoch : Word64 := 0
  no : Nat := 0
  stores : List Nat := []
  builds : List (Nat × Nat × Nat) := []
  programs : List Nat := []
  deriving DecidableEq, Repr

/-- A remote access in flight (11 R286, 17 R386): of a lane of a wave, of the program of an access processor context (`ap`,
whose key `wave` then is), or of an engine operation (`tag`, 16 R429). -/
structure RemoteReq where
  ctx : Nat := 0
  wave : Nat := 0
  group : Nat := 0
  lane : Nat := 0
  ap : Bool := false
  tag : Option Nat := none
  addr : Word64 := 0
  pa : Nat := 0
  bytes : Nat := 0
  wr : Option (BitVec 128) := none
  since : Nat := 0
  deriving DecidableEq, Repr

/-- Registers and counters of one function (16 R336, R340, R348). -/
structure Fn where
  winctx : Word32 := 0
  priStopped : Bool := false
  faultPending : List Nat := []
  mboxPending : List Nat := []
  raised0 : Nat := 0
  raised1 : Nat := 0
  deriving DecidableEq, Repr

/-- The admin registers of the physical function (16 R336 to R338). -/
structure Admin where
  base : Word64 := 0
  size : Nat := 0
  enable : Bool := false
  tail : BitVec 32 := 0
  head : BitVec 32 := 0
  cplBase : Word64 := 0
  cplSize : Nat := 0
  cplHead : BitVec 32 := 0
  cplLost : BitVec 32 := 0
  written : Nat := 0
  apBase : Word64 := 0
  ready : Bool := true
  fatal : Bool := false
  bellError : Bool := false
  raised2 : Nat := 0
  raised3 : Nat := 0
  /-- a completed command whose completion waits: tag, status, value (16 R338) -/
  waiting : Option (BitVec 16 × Byte × BitVec 32) := none
  /-- a command that has been taken and waits (16 R337) -/
  inProgress : Option Instr := none
  deriving DecidableEq, Repr

/-- Monitor counters of one die (18 R407, R409). -/
structure DieMon where
  stretch : Nat := 0
  sagAt : Nat := 0
  fbcnt : Word32 := 0
  ecccor : Word32 := 0
  eccunc : Word32 := 0
  sparesUsed : Nat := 0
  clkTgt : Nat := 1800
  hot : Bool := false
  deriving DecidableEq, Repr

/-- The activation-disturbance defence of one stack (16 R363). -/
structure Stack where
  mode : Nat := 0
  level : Nat := 64
  counts : SMap Nat := []
  /-- back-offs that alerts of the stack have caused -/
  alerts : Nat := 0
  deriving DecidableEq, Repr

/-- A place of the part's arrays where an error can strike (18 R401, R402). -/
inductive ArrayPlace
  /-- a byte of HBM, by its DPA -/
  | hbm (dpa : Nat)
  /-- a vector register of a lane of a wave -/
  | vreg (wave n : Nat) (lane : Fin 32)
  /-- a scalar register of a wave -/
  | sreg (wave n : Nat)
  /-- a byte of a group's scratchpad -/
  | scratch (group ofs : Nat)
  /-- a word of a delivery queue -/
  | queue (ap q i : Nat)
  /-- an accumulator of a slot -/
  | accum (slot n : Nat)
  /-- a cache line that holds a byte of HBM: a copy of the data on a die -/
  | cache (die dpa : Nat)
  /-- an instruction cache, a table or another array of a die that holds no granule of R402 -/
  | other (die : Nat)
  deriving DecidableEq, Repr

/-- What happens to the part beside the rows of the opcode table: accesses of the host, other packages, errors, and what
system software does. -/
inductive Outside
  /-- the host reads a register of BAR0: function, offset, bytes (16 R336) -/
  | readReg (fn off bytes : Nat)
  /-- a group of another package arrives at a `.pod` barrier of a context, with its expected count (03 R87) -/
  | podArrive (ctx num count : Nat)
  /-- the pod loses its path to a package (03 R90) -/
  | packageLost (pkg : Nat)
  /-- a batch of records that another package sends arrives at a bin (04 R123) -/
  | batchIn (ctx bin : Nat) (size : RecSize) (recs : List Nat)
  /-- an error strikes an array; the code corrects it or not (18 R401, R402) -/
  | arrayError (at_ : ArrayPlace) (corrected : Bool)
  /-- system software frees a physical page (10 R278) -/
  | pageFree (page : Nat)
  /-- the part advances its quiet epoch (10 R278) -/
  | quiet
  /-- a spare copy of a row carries its next line (18 R406) -/
  | copyLine (row : Nat)
  /-- self-test at a cold reset: the dies that fail (18 R414) -/
  | selfTest (dies : List Nat)
  deriving DecidableEq, Repr

/-- What the next step does. -/
inductive Turn
  /-- a wave issues for its path group -/
  | issue (wave : Nat)
  /-- an address program issues -/
  | issueAp (ap : Nat)
  /-- the part takes the next admin command (16 R337) -/
  | admin
  /-- a context's management queue takes its next entry (16 R339) -/
  | mgmt (ctx : Nat)
  /-- an engine or host event -/
  | env (i : Instr)
  /-- what a core, quad or die holds of one aligned 8-byte unit becomes visible one level further out (10 R266) -/
  | drain (level unit : Nat)
  /-- an event that has no row of its own -/
  | outside (e : Outside)
  /-- wall time passes -/
  | time (ns : Nat)
  deriving DecidableEq, Repr

/-- The machine. Tables leave out entries that hold their default. -/
structure State where
  /-- the wave in the issue stage; the tables below hold every other wave -/
  me : Wave := {}
  /-- the lanes of the issuing path group -/
  iss : LaneMask := 0
  /-- the word being issued -/
  word : Word64 := 0
  waves : SMap Wave := []
  aps : SMap Wave := []
  frags : SMap Frag := []
  groups : SMap Group := []
  launches : SMap Launch := []
  queues : SMap Queue := []
  ctxs : SMap Context := []
  dikes : SMap Dike := []
  copies : SMap Copy := []
  tasks : SMap Task := []
  tileRot : SMap Nat := []
  acc : SMap AccSlot := []
  bins : SMap Bin := []
  pushes : List HeldPush := []
  scans : SMap Scan := []
  detoks : SMap DetokCmd := []
  reds : List PendingRed := []
  remotes : SMap RemoteReq := []
  batches : SMap Batch := []
  fns : SMap Fn := []
  adm : Admin := {}
  dies : SMap DieMon := []
  hbmStacks : SMap Stack := []
  /-- HBM by pod physical address, host memory from 2^64 up; an unlisted byte reads 0 -/
  mem : List Host.Cell := []
  /-- stores that only the agents of a core, a quad or a die see yet, by the number of that level times 2^66 plus address:
  cores from 0, quads from 1,152, dies from 1,440 (10 R261, R266) -/
  dirty : List Host.Cell := []
  /-- poisoned 64-byte granules of `mem` -/
  poison : List Nat := []
  /-- bytes of the cold-page zone by slot times 65,536 plus offset; an unlisted byte reads 0 -/
  zoneData : List Host.Cell := []
  /-- slots that COLD has filled, and poisoned granules by slot times 1,024 plus granule -/
  zoneSlots : List Nat := []
  zonePoison : List Nat := []
  zoneStart : Nat := 0
  zoneBytes : Nat := 0
  /-- rows whose spare copy runs: a DPA of the row and the copy pointer (18 R406) -/
  rowCopies : SMap (Nat × Nat) := []
  sparesBy : SMap Nat := []
  /-- corrected errors by row since the last patrol visit (18 R405) -/
  rowErrors : SMap Nat := []
  wall : Nat := 0
  /-- cycles that every core's counter has counted since reset (01 R23) -/
  cycles : Nat := 0
  /-- the wave that issued first in the running cycle of a core, and whether its word is vector arithmetic (01 R15) -/
  paired : SMap (Nat × Bool) := []
  /-- the context of a core's access processor that issued last (04 R98) -/
  apTurn : SMap Nat := []
  xlepoch : Word64 := 0
  xlquiet : Word64 := 0
  quarantine : List Freed := []
  /-- dies that failed self-test and are fused off (18 R414) -/
  fused : List Nat := []
  powerLimit : Nat := 3600
  pkg : Nat := 0
  packages : Nat := 1
  portsDown : List Nat := []
  lost : List Nat := []
  degraded : Bool := false
  degradedAt : Nat := 0
  ageCount : Nat := 0
  /-- where the search for a core begins: behind the core that took the previous group (03 R81) -/
  search : Nat := 0
  fresh : Nat := 0
  agenda : List Turn := []
  tick : Nat := 0
  /-- what the last host read of BAR2 returned, and whether it was poisoned -/
  hostRead : Word64 := 0
  hostPoison : Bool := false
  stuck : Option Fault := none
  deriving DecidableEq, Repr

/-- The package right after a cold reset (18 R414): HBM zero, no poison, no context, dike, queue or polder, the wall
counter 0, the ready bit set, no wave resident. -/
def State.reset : State := {}

end Sys2Proof.Machine
end

