-- ==== Sys2Proof/Machine/Table.lean ====
section
/-! DEFINITION. Tables with rising keys: look up, set, erase; the byte cells of memory are such a table. -/
namespace Sys2Proof.Machine

namespace Table

/-- The first entry at a key. -/
def get? {α : Type} : List (Nat × α) → Nat → Option α
  | [], _ => none
  | (k', v) :: t, k => if k = k' then some v else get? t k

/-- Set the entry at a key, keeping the keys rising. -/
def set {α : Type} : List (Nat × α) → Nat → α → List (Nat × α)
  | [], k, v => [(k, v)]
  | (k', v') :: t, k, v =>
    if k = k' then (k, v) :: t
    else if k < k' then (k, v) :: (k', v') :: t
    else (k', v') :: set t k v

/-- Drop every entry at a key. -/
def erase {α : Type} : List (Nat × α) → Nat → List (Nat × α)
  | [], _ => []
  | (k', v) :: t, k => if k = k' then erase t k else (k', v) :: erase t k

/-- The entry at a key, or the default. -/
def getD {α : Type} (m : List (Nat × α)) (k : Nat) (d : α) : α := (get? m k).getD d

/-- Store a value at a key; the default leaves no entry. -/
def put {α : Type} [DecidableEq α] (m : List (Nat × α)) (k : Nat) (d v : α) : List (Nat × α) :=
  if v = d then erase m k else set m k v

/-- Change the entry at a key, if there is one. -/
def modify {α : Type} (m : List (Nat × α)) (k : Nat) (f : α → α) : List (Nat × α) :=
  match get? m k with
  | some v => set m k (f v)
  | none => m

/-- Change every entry. -/
def mapVals {α : Type} (m : List (Nat × α)) (f : Nat → α → α) : List (Nat × α) :=
  m.map fun e => (e.1, f e.1 e.2)

/-- A key above every key of the table. -/
def freshKey {α : Type} : List (Nat × α) → Nat
  | [] => 0
  | [(k, _)] => k + 1
  | _ :: e :: t => freshKey (e :: t)

/-- The keys rise strictly. -/
def rising {α : Type} : List (Nat × α) → Bool
  | [] => true
  | [_] => true
  | a :: b :: t => a.1 < b.1 && rising (b :: t)

end Table

/-- The canonical form of memory: addresses rise strictly and no entry holds the byte 0, which an unlisted address reads
as (18 R414). -/
def Memory.wf (m : List Host.Cell) : Bool := Table.rising m && m.all fun c => c.2 != 0

/-- Insert a number into a rising list. -/
def insertNat (n : Nat) : List Nat → List Nat
  | [] => [n]
  | m :: t => if n = m then m :: t else if n < m then n :: m :: t else m :: insertNat n t

end Sys2Proof.Machine
end

