-- ==== Sys2Proof/Machine/Mem.lean ====
section
/-! DEFINITION. Memory: bytes of HBM and host memory, a core's stores before others see them, poison, and translation
(spec 10 R262 to R266, 16 R346 to R351 and R429, 18 R402). -/
namespace Sys2Proof.Machine

/-! ### Bytes and numbers -/

/-- Host memory stands above every pod physical address (16 R341). -/
def hostBase : Nat := 2 ^ 64

/-- Distance between the overlays of two levels in `State.dirty`. -/
def corePitch : Nat := 2 ^ 66

/-- The levels at which agents see stores before others do: a core has its own number, a quad and a die these (10 R261). -/
def quadLevel (quad : Nat) : Nat := 1152 + quad

def dieLevel (die : Nat) : Nat := 1440 + die

/-- The level outside a level: the quad of a core, the die of a quad; none is memory. -/
def outer (u : Nat) : Option Nat :=
  if u < 1152 then some (quadLevel (u / 4)) else if u < 1440 then some (dieLevel ((u - 1152) / 12)) else none

/-- A level with those around it, innermost first. -/
def levelPath (u : Nat) : List Nat :=
  if u < 1152 then [u, quadLevel (u / 4), dieLevel (u / 48)]
  else if u < 1440 then [u, dieLevel ((u - 1152) / 12)] else [u]

/-- n bytes as a number, lowest address first (00 R6). -/
def leBytes (f : Nat → Byte) (a : Nat) : Nat → Nat
  | 0 => 0
  | n + 1 => (f a).toNat + 256 * leBytes f (a + 1) n

/-- Byte i of a number. -/
def byteOf (v i : Nat) : Byte := BitVec.ofNat 8 (v >>> (8 * i))

/-- Field of n bytes at an offset of an image held as a number. -/
def fieldAt (img off n : Nat) : Nat := (img >>> (8 * off)) % 2 ^ (8 * n)

/-- Whether n bytes at an offset of an image are zero. -/
def zeroAt (img off n : Nat) : Bool := fieldAt img off n == 0

/-- The n low bytes of a number as a list, lowest first. -/
def bytesOf (v : Nat) : Nat → List Byte
  | 0 => []
  | n + 1 => BitVec.ofNat 8 v :: bytesOf (v / 256) n

/-- A list of bytes as a number, lowest first. -/
def numOf : List Byte → Nat
  | [] => 0
  | b :: t => b.toNat + 256 * numOf t

/-! ### Where an address is homed (16 R346) -/

/-- Pages of 4,096 bytes below the metadata reserve of a channel. -/
def usablePages : Nat := Config.channelBytes / 4096 - (Config.channelBytes + 2097151) / 2097152

/-- A DPA that names a byte of the package outside the metadata reserve. -/
def usable (dpa : Nat) : Bool := dpa < 2 ^ 39 && dpa / 4096 / 384 < usablePages

/-- The package channel, 0 to 383, that homes a DPA. -/
def channelOf (dpa : Nat) : Nat := dpa / 4096 % 384

/-- The die that homes a DPA (01 R17). -/
def dieOf (dpa : Nat) : Nat := channelOf dpa / 16

/-- Local pod physical address of a DPA. -/
def localPa (s : State) (dpa : Nat) : Nat := s.pkg * 2 ^ 39 + dpa

/-- Whether a pod physical address is homed in this package. -/
def isLocal (s : State) (pa : Nat) : Bool := pa ≥ hostBase || pa / 2 ^ 39 == s.pkg

/-! ### Memory seen by everybody, and by one core -/

/-- The byte every agent beyond a core sees; a byte nothing has written is 0 (18 R414). -/
def memByte (s : State) (pa : Nat) : Byte := Table.getD s.mem pa 0

/-- The byte the agents of a level see: what that level holds comes first, then what the levels around it hold
(10 R261, R265). -/
def coreByte (s : State) (u pa : Nat) : Byte :=
  match s.dirty with
  | [] => memByte s pa
  | _ =>
    match (levelPath u).findSome? fun v => Table.get? s.dirty (v * corePitch + pa) with
    | some b => b
    | none => memByte s pa

/-- Nominal extents of a view. -/
def View.nominal (v : View) : Nat := (v.len + 65535) / 65536

def extOf (v : View) (n : Nat) : Extent := Table.getD v.exts n {}

/-- References: fragments that wait on an extent (09 R236). -/
def extRefs (s : State) (ctx h n : Nat) : Nat :=
  (s.frags.filter fun f => f.1 / 131072 == ctx && (match f.2.obj with
    | .extents l => f.2.cause == .viewmiss && l.contains (h, n)
    | _ => false)).length

/-- The state byte of a directory record (09 R234). -/
def stateByte (x : Extent) : Nat :=
  (match x.st with
    | .absent => 0 | .building => 1 | .resident => 2 | .evicting => 3 | .failed => 4) +
    (if x.pin then 8 else 0) + (if x.entry then 16 else 0) + (if x.counted then 32 else 0) + (if x.known then 64 else 0)

/-- The 32 bytes of a directory record as a number (09 R234). -/
def Extent.image (x : Extent) (refs : Nat) : Nat :=
  stateByte x + x.touches % 16 * 2 ^ 8 + x.cost % 2 ^ 16 * 2 ^ 16 + x.stamp % 2 ^ 16 * 2 ^ 32 + x.size % 2 ^ 16 * 2 ^ 48 +
    x.loc.toNat * 2 ^ 64 + x.count % 2 ^ 32 * 2 ^ 128 + x.start % 2 ^ 32 * 2 ^ 160 + refs % 2 ^ 16 * 2 ^ 192

/-- The byte at a physical address inside the directory of a view, which the part keeps in the view pool; an element count or a
real start that is not valid is free (09 R222, R234, log 40). -/
def directoryByte (s : State) (ctx : Nat) (c : Context) (pa : Nat) : Option Byte :=
  c.views.findSome? fun v =>
    let d := (v.2.dir + c.cfg.heapOff).toNat
    if d ≤ pa && pa < d + 32 * v.2.nominal then
      let n := (pa - d) / 32
      let o := (pa - d) % 32
      let x := extOf v.2 n
      if (16 ≤ o && o < 20 && !x.counted) || (20 ≤ o && o < 24 && !x.known) then some (Config.freeByte s.fresh pa)
      else some (byteOf (x.image (extRefs s ctx v.1 n)) o)
    else none

/-- The byte at a physical address inside a save area that a spill has written: the spec gives the sizes of its parts alone, so
its bytes are free (16 R356, R357, log 26). -/
def savedByte (c : Context) (pa : Nat) : Option Byte :=
  let a := (c.cfg.saveBase + c.cfg.heapOff).toNat
  match c.spilled with
  | some k => if a ≤ pa && pa < a + c.cfg.saveBytes then some (Config.freeByte k pa) else none
  | none => none

/-- The byte at a physical address that the part itself keeps for a context. -/
def recordByte (s : State) (pa : Nat) : Option Byte :=
  s.ctxs.findSome? fun c => (directoryByte s c.1 c.2 pa).orElse fun _ => savedByte c.2 pa

/-- The byte that a read by the agents of a level finds: the part's directory records come first. -/
def seenByte (s : State) (u pa : Nat) : Byte := (recordByte s pa).getD (coreByte s u pa)

/-- n bytes that a read by the agents of a level finds. -/
def seenRead (s : State) (u pa n : Nat) : Nat := leBytes (seenByte s u) pa n

/-- n bytes at an address, for every agent. -/
def memRead (s : State) (pa n : Nat) : Nat := leBytes (memByte s) pa n

/-- n bytes at an address, for the agents of a level. -/
def coreRead (s : State) (u pa n : Nat) : Nat := leBytes (coreByte s u) pa n

/-- Put n bytes of a number into a table of cells whose unlisted byte is 0. -/
def putBytes (m : List Host.Cell) (a v : Nat) : Nat → List Host.Cell
  | 0 => m
  | n + 1 => putBytes (Table.put m a 0 (BitVec.ofNat 8 v)) (a + 1) (v / 256) n

/-- Put n bytes of a number into a table of cells that lists what it holds. -/
def setBytes (m : List Host.Cell) (a v : Nat) : Nat → List Host.Cell
  | 0 => m
  | n + 1 => setBytes (Table.set m a (BitVec.ofNat 8 v)) (a + 1) (v / 256) n

/-- Drop the cells of n addresses. -/
def dropBytes (m : List Host.Cell) (a : Nat) : Nat → List Host.Cell
  | 0 => m
  | n + 1 => dropBytes (Table.erase m a) (a + 1) n

/-- Granules of 64 bytes that n bytes at an address cover whole (18 R402). -/
def wholeGranules (pa n : Nat) : List Nat :=
  let first := (pa + 63) / 64
  (List.range ((pa + n) / 64 - first)).map (first + ·)

/-- Whether a byte of the range lies in a poisoned granule. -/
def poisoned (s : State) (pa n : Nat) : Bool :=
  s.poison.any fun g => g * 64 < pa + n && pa < g * 64 + 64

/-- A write clears the poison of the granules it covers whole. -/
def clearPoison (s : State) (pa n : Nat) : State :=
  match s.poison with
  | [] => s
  | ps => { s with poison := ps.filter fun g => !(pa ≤ g * 64 && g * 64 + 64 ≤ pa + n) }

/-- A write that every agent sees: an engine's, the host's, or the part's. -/
def memWrite (s : State) (pa n v : Nat) : State :=
  clearPoison { s with mem := putBytes s.mem pa v n } pa n

/-- Cells of a level that satisfy a test on their address move to an outer level, or to memory. -/
def moveCells (s : State) (u : Nat) (dst : Option Nat) (p : Nat → Bool) : State :=
  match s.dirty with
  | [] => s
  | ds =>
    let mine := fun (c : Host.Cell) => c.1 / corePitch == u && p (c.1 % corePitch)
    let rest := ds.filter fun c => !mine c
    match dst with
    | none => { s with
        mem := (ds.filter mine).foldl (fun m c => Table.put m (c.1 % corePitch) 0 c.2) s.mem, dirty := rest }
    | some v => { s with
        dirty := (ds.filter mine).foldl (fun m c => Table.set m (v * corePitch + c.1 % corePitch) c.2) rest }

/-- What a level holds of an aligned 8-byte unit becomes visible one level further out, as a whole (10 R263, R266). -/
def drainUnit (s : State) (u unit : Nat) : State := moveCells s u (outer u) fun pa => pa / 8 == unit

/-- What a level and those around it hold of an aligned 8-byte unit reaches memory, the oldest first. -/
def drainPath (s : State) (u unit : Nat) : State :=
  (levelPath u).foldr (fun v s => moveCells s v none fun pa => pa / 8 == unit) s

/-- Everything that a level and those around it hold reaches memory, the oldest first. -/
def flushLevel (s : State) (u : Nat) : State := (levelPath u).foldr (fun v s => moveCells s v none fun _ => true) s

/-- Operands of `red` and `atom` combined (11 R300). -/
def atomValue (op : AtomOp) (uns wide : Bool) (old x cmp : Word64) : Word64 :=
  let lt : Bool := match uns, wide with
    | true, true => old.ult x
    | false, true => old.slt x
    | true, false => (old.setWidth 32).ult (x.setWidth 32)
    | false, false => (old.setWidth 32).slt (x.setWidth 32)
  match op with
  | .add => old + x
  | .min => if lt then old else x
  | .max => if lt then x else old
  | .and => old &&& x
  | .or => old ||| x
  | .xor => old ^^^ x
  | .exch => x
  | .cas => if old = cmp then x else old

/-- One update at the home L3: what its core sees of the location before others do
comes first (10 R264, 11 R301). -/
def atomAt (s : State) (core pa : Nat) (op : AtomOp) (uns wide : Bool) (x cmp : Word64) : Word64 × State :=
  let n := if wide then 8 else 4
  let s := drainPath s core (pa / 8)
  let old := BitVec.ofNat 64 (memRead s pa n)
  let new := atomValue op uns wide old x cmp
  (old, if new.toNat % 2 ^ (8 * n) = old.toNat then s else memWrite s pa n new.toNat)

/-- Perform one pending `red` (11 R301); a poisoned location stays poisoned. -/
def applyRed (s : State) (r : PendingRed) : State :=
  if poisoned s r.pa (if r.wide then 8 else 4) then s
  else (atomAt s r.core r.pa r.op r.uns r.wide r.val 0).2

/-- Perform the pending `red`s that satisfy a test, in their order. -/
def applyReds (s : State) (p : PendingRed → Bool) : State :=
  match s.reds with
  | [] => s
  | rs => (rs.filter p).foldl applyRed { s with reds := rs.filter fun r => !p r }

/-- The pending `red`s of a core are performed. -/
def applyOwn (s : State) (core : Nat) : State := applyReds s fun r => r.core == core

/-- Every store that the agents of a core see, and its `red`s, become visible to all: a release beyond the die (10 R267, R269). -/
def flushCore (s : State) (core : Nat) : State := applyOwn (flushLevel s core) core

/-- Every store becomes visible, and every `red` is performed: a release at `.sys` of a whole launch (03 R80, 12 R323). -/
def flushAll (s : State) : State :=
  let s := match s.dirty with
    | [] => s
    | ds => { s with mem := ds.foldr (fun c m => Table.put m (c.1 % corePitch) 0 c.2) s.mem, dirty := [] }
  applyReds s fun _ => true

/-- A release at a scope: the agents of the scope's instance see every store that the core's agents see, and no others need
to (10 R261, R267, R269). -/
def releaseAt (s : State) (core : Nat) (sc : Scope) : State :=
  let quad := quadLevel (core / 4)
  let die := dieLevel (core / 48)
  match sc with
  | .core => s
  | .quad => applyOwn (moveCells s core (some quad) fun _ => true) core
  | .die => applyOwn (moveCells (moveCells s quad (some die) fun _ => true) core (some die) fun _ => true) core
  | _ => flushCore s core

/-- Before a lane reads or writes a location, its core's pending `red`s to it are performed (10 R262). -/
def settleReds (s : State) (core pa n : Nat) : State :=
  applyReds s fun r => r.core == core && r.pa < pa + n && pa < r.pa + 8

/-- A write performed at once that the agents of a level see as the last one, such as a trap frame (17 R379): `red`s of that
core to the place come before it. -/
def partWrite (s : State) (u pa n v : Nat) : State :=
  let s := settleReds s u pa n
  memWrite { s with dirty := (levelPath u).foldl (fun ds x => dropBytes ds (x * corePitch + pa) n) s.dirty } pa n v

/-- A store of a lane, performed at its core's L1 (10 R265); one that covers a poisoned granule whole is performed at once
for every agent, so that the granule's poison ends with its bytes (18 R402, log 89). -/
def coreStore (s : State) (core pa n v : Nat) : State :=
  if (wholeGranules pa n).any s.poison.contains then partWrite s core pa n v
  else { s with dirty := setBytes s.dirty (core * corePitch + pa) v n }

/-! ### Contexts and translation -/

/-- A fresh number for a free value or a record of the model's own. -/
def freshNo (s : State) : Nat × State := (s.fresh, { s with fresh := s.fresh + 1 })

def ctxOf (s : State) (n : Nat) : Context := Table.getD s.ctxs n {}

def setCtx (s : State) (n : Nat) (f : Context → Context) : State :=
  { s with ctxs := Table.modify s.ctxs n f }

def fnOf (s : State) (n : Nat) : Fn := Table.getD s.fns n {}

def setFn (s : State) (n : Nat) (f : Fn → Fn) : State := { s with fns := Table.put s.fns n {} (f (fnOf s n)) }

/-- What a translation finds (16 R347). -/
inductive Tr
  /-- a byte of this package or of host memory -/
  | ok (pa : Nat)
  /-- a byte homed in another package -/
  | remote (pa : Nat)
  /-- a zone slot of the cold window (16 R351) -/
  | cold (slot : Nat)
  /-- an ATS answer is awaited -/
  | ats
  /-- a page request is needed (16 R348) -/
  | page
  /-- a PAGE fault without a request, with its detail (17 R378) -/
  | refused (detail : Nat)
  /-- no such byte (16 R346) -/
  | hole (addr : Nat)
  deriving DecidableEq, Repr

/-- The 64 KiB page of an address, by its first byte. -/
def pageOf (va : Word64) : Nat := va.toNat / 65536 * 65536

/-- Whether an address lies in a context's heap. -/
def inHeap (c : CtxRec) (va : Nat) : Bool :=
  c.heapBase.toNat ≤ va && va < c.heapBase.toNat + c.heapLimit.toNat

/-- A pod physical address as this package sees it. -/
def podAddr (s : State) (a : Nat) : Tr :=
  if a ≥ 2 ^ 46 then .hole a
  else if a / 2 ^ 39 ≠ s.pkg then .remote a
  else if usable (a % 2 ^ 39) then .ok a else .hole a

/-- A translated address of the host's tables (16 R341). -/
def hostAddr (s : State) (t : Nat) : Tr :=
  let b := s.adm.apBase.toNat
  if b ≤ t && t < b + 2 ^ 39 then podAddr s (localPa s (t - b))
  else if b + 2 ^ 39 ≤ t && t < b + 2 ^ 40 then .cold ((t - b - 2 ^ 39) / 65536)
  else .ok (hostBase + t)

/-- An expansion-map entry holds until system software writes its ring entry anew, with bit 0 set (16 R341, R352). -/
def exHolds (s : State) (c : CtxRec) (e : Nat × Nat) : Bool :=
  match podAddr s (c.expRing + c.heapOff + BitVec.ofNat 64 (8 * (e.2 % 65536))).toNat with
  | .ok pa => !(memByte s pa).getLsbD 0
  | _ => true

/-- The translation of one address of a context (16 R347). -/
def translate (s : State) (ctx : Nat) (va : Word64) (write : Bool) : Tr :=
  let c := ctxOf s ctx
  if inHeap c.cfg va.toNat then podAddr s (va + c.cfg.heapOff).toNat
  else if !c.cfg.paged then .refused 0
  else
    match c.exmap.find? fun e => e.1 = pageOf va && exHolds s c.cfg e with
    | some e => podAddr s (localPa s (e.2 / 65536 * 65536 + va.toNat % 65536))
    | none =>
      match c.tlb.find? fun e => e.page ≤ va.toNat && va.toNat < e.page + e.bytes with
      | some e =>
        if (if write then e.write else e.read) then hostAddr s (e.addr.toNat + (va.toNat - e.page))
        else if (fnOf s c.cfg.fn).priStopped then .refused 2 else .page
      | none =>
        if c.denied.contains (pageOf va, write) then
          if (fnOf s c.cfg.fn).priStopped then .refused 2 else .page
        else .ats

/-- Send an ATS request for a page, once (16 R347). -/
def askAts (s : State) (ctx : Nat) (page : Nat) (write : Bool) : State :=
  setCtx s ctx fun c => if c.ats.contains (page, write) then c else { c with ats := c.ats ++ [(page, write)] }

/-- Send a page request, once for each asker (16 R348). -/
def askPage (s : State) (ctx : Nat) (r : PageReq) : State :=
  setCtx s ctx fun c =>
    if c.pri.any fun q => q.page = r.page && q.tag = r.tag then c else { c with pri := c.pri ++ [r] }

/-! ### Accesses of the part and its engines (16 R429) -/

/-- What an access of an engine comes to. -/
inductive Got (α : Type)
  | ok (a : α)
  /-- a translation is awaited -/
  | wait
  /-- it cannot be translated, read or written -/
  | fail
  /-- no such byte -/
  | hole (addr : Nat)

/-- What another package answered the accesses of an operation of the part. -/
def farAnswer (s : State) (ctx tag pkg : Nat) : Option (Option RemoteAnswer) :=
  ((ctxOf s ctx).farAns.find? fun e => e.1 == tag && e.2.1 == pkg).map (·.2.2)

/-- An operation of the part awaits the answer of another package. -/
def farAwaited (s : State) (ctx tag pkg : Nat) : Bool :=
  s.remotes.any fun r => r.2.ctx == ctx && r.2.tag == some tag && r.2.pa / 2 ^ 39 == pkg

/-- What the answer of another package comes to; the part's own records and tables, with the tag 0, ask for none
(16 R429, log 33). -/
def farTr (s : State) (ctx tag pa : Nat) (write : Bool) : Got Nat :=
  if tag == 0 then (if s.lost.contains (pa / 2 ^ 39) then .fail else .ok pa)
  else if farAwaited s ctx tag (pa / 2 ^ 39) then .wait
  else
    match farAnswer s ctx tag (pa / 2 ^ 39) with
    | none => .wait
    | some (some (.data _)) => .ok pa
    | some (some .poison) => if write then .ok pa else .fail
    | some (some (.error _)) | some none => .fail

/-- A page that the part holds as read-only (16 R347). -/
def readOnlyPage (s : State) (ctx : Nat) (va : Word64) : Bool :=
  match (ctxOf s ctx).tlb.find? fun e => e.page ≤ va.toNat && va.toNat < e.page + e.bytes with
  | some e => e.read && !e.write
  | none => false

/-- The engine's translation of one address: a page request waits for its answer, and a refused one fails; a write that
meets a read-only page fails (16 R429). -/
def engineTr (s : State) (ctx tag : Nat) (va : Word64) (write : Bool) : Got Nat :=
  match translate s ctx va write with
  | .ok pa => .ok pa
  | .remote pa => farTr s ctx tag pa write
  | .cold _ => .wait
  | .ats => .wait
  | .page =>
    if write && readOnlyPage s ctx va then .fail
    else
      match (ctxOf s ctx).pri.find? fun q => q.page = pageOf va && q.tag = tag with
      | some q => if q.answer = .invalid || q.answer = .failure then .fail else .wait
      | none => .wait
  | .refused _ => .fail
  | .hole a => .hole a

/-- The addresses at which a range enters a new 64 KiB page. -/
def pageStarts (va : Word64) (n : Nat) : List Word64 :=
  if n = 0 then [] else
    va :: ((List.range ((va.toNat % 65536 + n - 1) / 65536)).map fun i =>
      BitVec.ofNat 64 (va.toNat / 65536 * 65536 + 65536 * (i + 1)))

/-- Whether every page of a range translates. -/
def engineRange (s : State) (ctx tag : Nat) (va : Word64) (n : Nat) (write : Bool) : Got Unit :=
  (pageStarts va n).foldl (fun g a =>
    match g with
    | .ok _ =>
      match engineTr s ctx tag a write with
      | .ok _ => .ok ()
      | .wait => .wait
      | .fail => .fail
      | .hole x => .hole x
    | g => g) (.ok ())

/-- Send one access of an operation of the part to another package, once (16 R429). -/
def askFar (s : State) (ctx tag : Nat) (va : Word64) (pa n : Nat) : State :=
  if tag == 0 || farAwaited s ctx tag (pa / 2 ^ 39) || (farAnswer s ctx tag (pa / 2 ^ 39)).isSome then s
  else
    let r : RemoteReq := { ctx := ctx, tag := some tag, addr := va, pa := pa, bytes := n, since := s.wall }
    let (k, s) := freshNo s
    { s with remotes := Table.set s.remotes k r }

/-- Ask for whatever the range still misses. -/
def engineAsk (s : State) (ctx tag : Nat) (va : Word64) (n : Nat) (write : Bool) : State :=
  (pageStarts va n).foldl (fun s a =>
    match translate s ctx a write with
    | .ats => askAts s ctx (pageOf a) write
    | .page => askPage s ctx { page := pageOf a, write := write, tag := tag }
    | .cold _ => setCtx s ctx fun c =>
        if c.expanding.contains (pageOf a) then c else { c with expanding := c.expanding ++ [pageOf a] }
    | .remote pa => askFar s ctx tag a pa n
    | _ => s) s

/-- The engine operation with this tag has taken its answers. -/
def engineDone (s : State) (ctx tag : Nat) : State :=
  match (ctxOf s ctx).pri, (ctxOf s ctx).farAns with
  | [], [] => s
  | _, _ => setCtx s ctx fun c => { c with pri := c.pri.filter fun q => q.tag ≠ tag,
                                           farAns := c.farAns.filter fun e => e.1 ≠ tag }

/-- The physical address of one byte of a range whose pages all translate. -/
def vaToPa (s : State) (ctx : Nat) (va : Word64) (write : Bool) : Nat :=
  match translate s ctx va write with
  | .ok pa | .remote pa => pa
  | _ => 0

/-- The byte at a physical address, as everybody sees it or as the agents of a level see it; what another package holds is a
free value (log 33). -/
def agentByte (s : State) (u : Option Nat) (pa : Nat) : Byte :=
  if !isLocal s pa then Config.farByte s.fresh pa
  else
    match u with
    | some c => seenByte s c pa
    | none => (recordByte s pa).getD (memByte s pa)

/-- One byte at a virtual address, as everybody sees it or as the agents of a level see it. -/
def vaByte (s : State) (ctx : Nat) (u : Option Nat) (va : Word64) : Byte := agentByte s u (vaToPa s ctx va false)

/-- Whether a poisoned granule meets a range. -/
def vaPoisoned (s : State) (ctx : Nat) (va : Word64) (n : Nat) : Bool :=
  match s.poison with
  | [] => false
  | _ => (List.range ((n + 63) / 64 + 1)).any fun i =>
      let a := if 64 * i < n then 64 * i else n - 1
      n ≠ 0 && poisoned s (vaToPa s ctx (va + BitVec.ofNat 64 a) false) 1

/-- Read n bytes as a number, for every agent, or for the agents of a level: a core's lanes, a die's engines (10 R261, R274). -/
def engineRead (s : State) (ctx tag : Nat) (core : Option Nat) (va : Word64) (n : Nat) : Got Nat :=
  match engineRange s ctx tag va n false with
  | .ok _ =>
    if vaPoisoned s ctx va n then .fail
    else .ok (leBytes (fun i => vaByte s ctx core (va + BitVec.ofNat 64 i)) 0 n)
  | .wait => .wait
  | .fail => .fail
  | .hole a => .hole a

/-- Write n bytes of a number at a virtual address whose pages all translate, one 8-byte unit or less at a time. -/
def vaWrite (s : State) (ctx : Nat) (core : Option Nat) (va : Word64) (v : Nat) : Nat → State
  | 0 => s
  | n + 1 =>
    let pa := vaToPa s ctx va true
    let s := match core with
      | some c => partWrite s c pa 1 (v % 256)
      | none => memWrite s pa 1 (v % 256)
    vaWrite s ctx core (va + 1) (v / 256) n

/-- n bytes of memory become undefined: free values of one number (00 R7). -/
def fillFree (m : List Host.Cell) (k pa : Nat) : Nat → List Host.Cell
  | 0 => m
  | n + 1 => fillFree (Table.put m pa 0 (Config.freeByte k pa)) k (pa + 1) n

/-- The parts of a range that lie in one 64 KiB page each. -/
def pageParts (va : Word64) (n : Nat) : List (Word64 × Nat) :=
  (pageStarts va n).map fun a => (a, min (65536 - a.toNat % 65536) (n - (a - va).toNat))

/-- The bytes of a range of a context become undefined, where they are the part's own. -/
def vaFree (s : State) (ctx : Nat) (va : Word64) (n : Nat) : State :=
  let (k, s) := freshNo s
  (pageParts va n).foldl (fun s p => match translate s ctx p.1 true with
    | .ok pa => { s with mem := fillFree s.mem k pa p.2 }
    | _ => s) s

/-- Clear the poison that a write of n bytes at a virtual address covers (18 R402). -/
def vaClearPoison (s : State) (ctx : Nat) (va : Word64) (n : Nat) : State :=
  match s.poison with
  | [] => s
  | _ => (List.range (n / 64)).foldl (fun s i =>
      let a := (va.toNat + 63) / 64 * 64 + 64 * i
      if a + 64 ≤ va.toNat + n then clearPoison s (vaToPa s ctx (BitVec.ofNat 64 a) true) 64 else s) s

/-- Write n bytes for an engine or the part; fails where it cannot be translated or written. -/
def engineWrite (s : State) (ctx tag : Nat) (core : Option Nat) (va : Word64) (n v : Nat) : Got State :=
  match engineRange s ctx tag va n true with
  | .ok _ => .ok (vaClearPoison (vaWrite s ctx core va v n) ctx va n)
  | .wait => .wait
  | .fail => .fail
  | .hole a => .hole a

/-- An engine's atomic add at the counter's home L3 (08 R211). -/
def engineAdd (s : State) (ctx tag : Nat) (va : Word64) (n amount : Nat) : Got State :=
  match engineTr s ctx tag va true with
  | .ok pa => .ok (memWrite s pa n ((memRead s pa n + amount) % 2 ^ (8 * n)))
  | .wait => .wait
  | .fail => .fail
  | .hole a => .hole a

/-- Whether a page that an access of the part asked for is still outstanding. -/
def pageAwaited (c : Context) (p : Nat) : Bool :=
  c.ats.any (fun a => a.1 == p) || c.expanding.contains p || c.pri.any fun q => q.page == p && q.answer == .pending

/-- Pages that a context waits for. -/
def pagesAwaited (c : Context) : List Nat :=
  (c.ats.map (·.1) ++ c.expanding ++ (c.pri.filter fun q => q.answer == .pending).map (·.page)).eraseDups

/-! ### The fault queue (17 R384, R385) -/

/-- A record of the fault queue. -/
structure FqRecord where
  type : Nat := 0
  cause : Nat := 0xFF
  nested : Bool := false
  frag : Nat := 0
  mask : Nat := 0
  detail : Nat := 0
  pc : Nat := 0
  addr : Nat := 0
  spec : Nat := 0
  deriving DecidableEq, Repr

/-- The 64 bytes of a record as a number. -/
def FqRecord.image (r : FqRecord) (n wall : Nat) : Nat :=
  n % 2 ^ 64 + r.type % 256 * 2 ^ 64 + r.cause % 256 * 2 ^ 72 + (if r.nested then 1 else 0) * 2 ^ 80 +
    r.frag % 2 ^ 32 * 2 ^ 96 + r.mask % 2 ^ 32 * 2 ^ 128 + r.detail % 2 ^ 32 * 2 ^ 160 + r.pc % 2 ^ 64 * 2 ^ 192 +
    r.addr % 2 ^ 64 * 2 ^ 256 + wall % 2 ^ 64 * 2 ^ 320 + r.spec % 2 ^ 64 * 2 ^ 384

/-- Raise vector 0 of a function for a context (16 R340). -/
def raiseFault (s : State) (ctx : Nat) : State :=
  setFn s (ctxOf s ctx).cfg.fn fun f =>
    { f with faultPending := insertNat ctx f.faultPending, raised0 := f.raised0 + 1 }

/-- Write a record to a context's fault queue: a full queue, or an entry that cannot be written, drops it. -/
def faultRecord (s : State) (ctx : Nat) (r : FqRecord) : State :=
  match Table.get? s.ctxs ctx with
  | none => s
  | some c =>
    let lost := setCtx s ctx fun c => { c with fqlost := if c.fqlost = 0xFFFFFFFF#32 then c.fqlost else c.fqlost + 1 }
    if (c.fqprod - c.fqcons).toNat = c.cfg.fqEntries then lost
    else
      let n := c.fqprod.toNat + 1
      let va := c.cfg.fqBase + BitVec.ofNat 64 (64 * ((n - 1) % c.cfg.fqEntries))
      match engineWrite s ctx 0 none va 64 (r.image n s.wall) with
      | .ok s =>
        let s := setCtx s ctx fun c => { c with fqprod := BitVec.ofNat 64 n }
        if c.fqcons = c.fqprod then raiseFault s ctx else s
      | _ => lost

end Sys2Proof.Machine
end

