-- ==== Sys2Proof/Machine/Ops.lean ====
section
/-! DEFINITION. The shared operations over waves and registers: reading and writing registers, moving threads on,
meetings, barriers, ending threads, fragments, and taking and leaving an exception (spec 03 R58 to R88, 17 R367 to R383,
19 R415 to R417). -/
namespace Sys2Proof.Machine

/-! ### Waves, groups, launches -/

/-- The wave with a key, wherever it stands. -/
def waveOf (s : State) (k : Nat) : Wave :=
  if s.me.present && s.me.ap.isNone && s.me.key == k then s.me else Table.getD s.waves k {}

/-- Change the wave with a key. -/
def modWave (s : State) (k : Nat) (f : Wave → Wave) : State :=
  if s.me.present && s.me.ap.isNone && s.me.key == k then { s with me := f s.me }
  else { s with waves := Table.modify s.waves k f }

/-- Every resident or saved wave. -/
def allWaves (s : State) : List Wave :=
  (if s.me.present && s.me.ap.isNone then [s.me] else []) ++ s.waves.map (·.2)

/-- The access processor context with a key. -/
def apOf (s : State) (k : Nat) : Wave :=
  if s.me.present && s.me.ap.isSome && s.me.key == k then s.me else Table.getD s.aps k {}

def modAp (s : State) (k : Nat) (f : Wave → Wave) : State :=
  if s.me.present && s.me.ap.isSome && s.me.key == k then { s with me := f s.me }
  else { s with aps := Table.modify s.aps k f }

def modMe (s : State) (f : Wave → Wave) : State := { s with me := f s.me }

def groupOf (s : State) (k : Nat) : Group := Table.getD s.groups k {}

def modGroup (s : State) (k : Nat) (f : Group → Group) : State := { s with groups := Table.modify s.groups k f }

/-- The waves of a group that hold their slots still. -/
def wavesOf (s : State) (gk : Nat) : List Nat :=
  (groupOf s gk).waves.filter fun k => (waveOf s k).present && (waveOf s k).group == gk

/-- The kernel the issuing wave runs. -/
def kernOf (s : State) : Kernel := (groupOf s s.me.group).kern

/-- Key of a wave slot, or of a fragment entry, on a core of a context. -/
def slotKey (ctx core slot : Nat) : Nat := ctx * 131072 + core * 64 + slot

/-- Change the lanes of a mask. -/
def mapLanes (w : Wave) (m : LaneMask) (f : Fin 32 → Lane → Lane) : Wave :=
  { w with lanes := lanesOf fun i => if m.getLsbD i then f i w.lanes[i] else w.lanes[i] }

/-- The lanes of a wave that satisfy a test. -/
def lanesWhere (w : Wave) (p : Lane → Bool) : LaneMask :=
  (List.finRange 32).foldl (fun m i => if p w.lanes[i] then m ||| (1#32 <<< i.val) else m) 0#32

/-- The numbers of the lanes of a mask, ascending. -/
def lanesIn (m : LaneMask) : List (Fin 32) := (List.finRange 32).filter fun i => m.getLsbD i

/-- The lowest lane of a mask. -/
def lowest (m : LaneMask) : Fin 32 := (lanesIn m).headD 0

/-- The mask of one lane. -/
def laneBit (l : Fin 32) : LaneMask := 1#32 <<< l.val

def maskOf (ls : List (Fin 32)) : LaneMask := ls.foldl (fun m l => m ||| laneBit l) 0

/-! ### Registers (01 R19, 02 R40, 18 R402) -/

def zeroRow : Lanes Word32 := Vector.replicate 32 0

/-- A vector register of a lane. -/
def readV (w : Wave) (n : Nat) (l : Fin 32) : Word32 := (Table.getD w.v n zeroRow)[l]

def readS (w : Wave) (n : Nat) : Word32 := Table.getD w.s n 0

def readK (w : Wave) (k : BitVec 4) : LaneMask := Table.getD w.k k.toNat 0

/-- Write a vector register for the lanes of a mask; a lane's own result clears the register's poison (18 R403). -/
def writeV (w : Wave) (n : Nat) (m : LaneMask) (f : Fin 32 → Word32) : Wave :=
  let row := Table.getD w.v n zeroRow
  { w with
    v := Table.put w.v n zeroRow (lanesOf fun i => if m.getLsbD i then f i else row[i]),
    vpoison := match w.vpoison with
      | [] => []
      | ps => Table.put ps n 0 (Table.getD ps n 0 &&& ~~~m) }

def writeS (w : Wave) (n : Nat) (x : Word32) : Wave :=
  { w with s := Table.put w.s n 0 x, spoison := w.spoison.filter (· ≠ n) }

def writeK (w : Wave) (k : BitVec 4) (x : LaneMask) : Wave := { w with k := Table.put w.k k.toNat 0 x }

/-- Write the bits of the lanes of a mask in a mask register (07 R175). -/
def writeKBits (w : Wave) (k : BitVec 4) (m : LaneMask) (bits : LaneMask) : Wave :=
  writeK w k ((readK w k &&& ~~~m) ||| (bits &&& m))

/-- Write one value per lane to a 32-bit destination; %zero discards it, and a scalar takes it once, if a lane is active
(02 R35, R40). -/
def writeDst (w : Wave) (d : Operand) (m : LaneMask) (f : Fin 32 → Word32) : Wave :=
  match d with
  | .v n => writeV w n.val m f
  | .s n => if m == 0 then w else writeS w n.val (f (lowest m))
  | _ => w

/-- Write one 64-bit value per lane to an even pair (02 R43). -/
def writePair (w : Wave) (d : Operand) (m : LaneMask) (f : Fin 32 → Word64) : Wave :=
  match d with
  | .v n => writeV (writeV w n.val m fun i => (f i).setWidth 32) (n.val + 1) m fun i => ((f i) >>> 32).setWidth 32
  | .s n =>
    if m == 0 then w
    else writeS (writeS w n.val ((f (lowest m)).setWidth 32)) (n.val + 1) ((f (lowest m) >>> 32).setWidth 32)
  | _ => w

def writeW (w : Wave) (wd : Width) (d : Operand) (m : LaneMask) (f : Fin 32 → Word64) : Wave :=
  match wd with
  | .w32 => writeDst w d m fun i => (f i).setWidth 32
  | .w64 => writePair w d m f

/-! ### Causes (17 R368) -/

def Cause.bitNo : Cause → Nat
  | .arith => 5 | .illegal => 8 | .brtarget => 9 | .depth => 10 | .toolop => 11 | .align => 12 | .range => 13
  | .watch => 14 | .page => 15 | .expand => 16 | .viewmiss => 17 | .viewfail => 18 | .viewpool => 19
  | .viewrange => 20 | .poison => 21 | .remote => 22 | .remoteTimeout => 23 | .spill => 24 | .sluice => 25
  | .qempty => 26 | .fragfull => 27 | .trap => 28 | .bkpt => 29 | .step => 30 | .timer => 31 | .halted => 32

def causeBit (c : Cause) : Word64 := 1#64 <<< c.bitNo

def setCause (w : Wave) (c : Cause) : Wave := { w with causes := w.causes ||| causeBit c }

/-! ### Time (01 R23) -/

/-- A context is resident: it holds its dike (16 R353). -/
def residentCtx (s : State) (ctx : Nat) : Bool :=
  (Table.getD s.dikes (ctxOf s ctx).cfg.dike {}).running == some ctx

/-- One run cycle of a wave: its timer counts down, and fires at 0 (01 R23, 17 R396). -/
def tickWave (w : Wave) : Wave :=
  let w := { w with run := w.run + 1 }
  if w.timer == 0 then w
  else if w.timer == 1 then
    setCause { w with timer := 0, lanes := lanesOf fun i =>
      let l := w.lanes[i]
      if l.life == .exited then l else { l with timerDue := true } } .timer
  else { w with timer := w.timer - 1 }

/-- n run cycles of one wave: its timer counts down, and fires at 0. -/
def passWave (n : Nat) (w : Wave) : Wave :=
  if n == 0 then w
  else if w.timer != 0 && w.timer.toNat ≤ n then tickWave { w with run := w.run + n - 1, timer := 1 }
  else { w with run := w.run + n, timer := if w.timer == 0 then 0 else w.timer - BitVec.ofNat 32 n }

/-! ### Scratchpad bytes (11 R282, 12 R327) -/

/-- A byte of a group's scratchpad; one that nothing has written is a free value. -/
def spByte (g : Group) (o : Nat) : Byte := (Table.get? g.sp o).getD (Config.spadByte g.spSeed o)

def spRead (g : Group) (o n : Nat) : Nat := leBytes (spByte g) o n

def spWrite (g : Group) (o n v : Nat) : Group :=
  { g with sp := setBytes g.sp o v n,
           spPoison := g.spPoison.filter fun x => !(o ≤ x * 64 && x * 64 + 64 ≤ o + n) }

/-- Lines of 128 bytes that a scratchpad range touches. -/
def linesOf (ofs n : Nat) : List Nat :=
  if n = 0 then [] else (List.range ((ofs + n - 1) / 128 + 1 - ofs / 128)).map (ofs / 128 + ·)

/-- Whether every line of a range is present (11 R297). -/
def linesPresent (g : Group) (ofs n : Nat) : Bool := (linesOf ofs n).all fun i => Table.getD g.pend i 0 == 0

/-! ### Identities (17 R371, R376) -/

/-- The %frag value of a wave's root entry, or of one of its spare entries. -/
def fragIdent (w : Wave) (entry : Option Nat) : Nat :=
  (w.core / 48) * 2 ^ 19 + (w.core % 48) * 2 ^ 13 + w.slot * 2 ^ 7 +
    (match entry with
      | none => 64
      | some e => e % 64)

/-- A group's handle: the slot of its lowest-numbered wave, entry bits zero. -/
def groupHandle (g : Group) : Nat :=
  let k := g.waves.headD 0
  (g.core / 48) * 2 ^ 19 + (g.core % 48) * 2 ^ 13 + (k % 64) * 2 ^ 7

/-- Ordinal of a package quad among the quads of a dike. -/
def quadOrdinal (d : Dike) (q : Nat) : Nat := ((List.range q).filter fun i => d.quads.getLsbD i).length

/-- Package quad of a core. -/
def quadOf (core : Nat) : Nat := core / 4

/-- The byte offset of a thread's trap frame from the handler table (17 R376). -/
def frameOffset (s : State) (w : Wave) (l : Nat) : Nat :=
  let d := Table.getD s.dikes (ctxOf s w.ctx).cfg.dike {}
  4096 + 512 * (((quadOrdinal d (quadOf w.core) * 4 + w.core % 48 % 4) * 64 + w.slot) * 32 + l)

/-- Safe-point ordinal and signed offset in words of a code address in the block of a header; an entry whose word has a
clear S bit is not used (02 R36, R57). -/
def safeOrdinal (k : Kernel) (hdr pc : Word64) (code : List Word64) : Nat × Nat :=
  let o := (pc - k.obj).toNat
  let h := (hdr - k.obj).toNat
  let before := k.safe.filter fun x => h < x && x ≤ o && (code.getD ((x - h) / 8 - 1) 0).getLsbD 63
  match before.getLast? with
  | some x => (((k.safe.filter fun y => y < x).length), (o - x) / 8)
  | none => (0xFFFFFFFF, o / 8)

/-- A word is a safe point when its S bit is set and the table holds its offset (02 R36). -/
def isSafePoint (k : Kernel) (pc word : Word64) : Bool :=
  word.getLsbD 63 && k.safe.contains (pc - k.obj).toNat

/-! ### Code (02 R26 to R28, 10 R276) -/

/-- A meeting stack entry names a header by its offset from the kernel object, in words (03 R58). -/
def headerIndex (k : Kernel) (a : Word64) : Word32 := BitVec.ofNat 32 ((a - k.obj).toNat / 8)

/-- One code word at an address: what its fetch finds. -/
inductive Fetch
  | word (w : Word64)
  | ats
  /-- it is homed in another package that has not answered -/
  | send (pa : Nat)
  | fault (c : Cause) (detail : Nat) (page : Option Nat)
  | hole (addr : Nat)
  deriving DecidableEq, Repr

/-- Fetch one aligned word of code for a core; `ans` holds what other packages have answered (11 R286). -/
def fetchWord (s : State) (ctx core : Nat) (ans : List (Nat × Option RemoteAnswer)) (a : Word64) : Fetch :=
  match translate s ctx a false with
  | .ok pa => .word (BitVec.ofNat 64 (seenRead s core pa 8))
  | .remote pa =>
    match ((ans.find? fun e => e.1 == pa).map (·.2) : Option (Option RemoteAnswer)) with
    | none => .send pa
    | some (some (.data v)) => .word (v.setWidth 64)
    | some (some .poison) => .fault .poison 0 none
    | some (some (.error c)) => .fault .remote (pa / 2 ^ 39 % 128 * 256 + c.toNat) none
    | some none => .fault .remoteTimeout (pa / 2 ^ 39 % 128 * 256) none
  | .ats => .ats
  | .page => .fault .page 0 (some (pageOf a))
  | .cold _ => .fault .expand 0 (some (pageOf a))
  | .refused d => .fault .page d none
  | .hole x => .hole x

/-- What the fetches of the words behind a header find, in their order; the part never reads beyond the length (02 R28). -/
def blockFetches (s : State) (ctx core : Nat) (ans : List (Nat × Option RemoteAnswer)) (hdr : Word64) (n : Nat) : List Fetch :=
  (List.range n).map fun i => fetchWord s ctx core ans (hdr + BitVec.ofNat 64 (8 * (i + 1)))

/-- The words of the block behind a header word, where they can all be read. -/
def fetchBlock (s : State) (ctx core : Nat) (ans : List (Nat × Option RemoteAnswer)) (hdr : Word64) (n : Nat) : List Word64 :=
  (blockFetches s ctx core ans hdr n).map fun x => match x with
    | .word w => w
    | _ => 0

/-- Whether entering the block raises ILLEGAL at its header (02 R28, fourth row). -/
def headerBad (h : Word64) (code : List Word64) : Bool :=
  headerLength h == 0 || headerVectors h > 320 || (headerDivergent h && headerMeet h == 0) ||
    (headerHint h != 0 && headerLength h == 1 &&
      (match decode (code.headD 0) with
        | some i => !i.endsBlock
        | none => true))

/-- The address of a block's meeting header (02 R32). -/
def meetingOf (hdr hword : Word64) : Word64 := hdr + ((headerMeet hword).signExtend 64 <<< 3)

/-! ### Threads move on (03 R59 to R62) -/

/-- A thread has no words of a block: it stands at a header position, or at a resume point whose block is to be fetched
anew (02 R27, 19 R415). -/
def unfetched (l : Lane) : Bool := l.code.isEmpty

/-- A thread stands at a header position. -/
def atHeader (l : Lane) : Bool := unfetched l && l.pc == l.hdr

/-- A thread stands at the header at an address; it is held when the top of its stack names that header (03 R62). -/
def arrive (k : Kernel) (l : Lane) (a : Word64) : Lane :=
  { l with pc := a, hdr := a, hword := 0, code := [],
           wait := if l.meets.head? = some (headerIndex k a) then .held else .none }

/-- A thread that completed its word goes to the next one, which may be the header behind its block (02 R27). -/
def nextWord (k : Kernel) (l : Lane) : Lane :=
  let l := { l with wait := .none, kept := [], answers := [], skipWatch := false, stepFirst := false }
  let pc := l.pc + 8
  if (pc - l.hdr).toNat ≤ 8 * l.code.length then { l with pc := pc } else arrive k l pc

/-- Whether a held thread's partners have all arrived at its meeting (03 R62). -/
def partnersIn (w : Wave) (i : Fin 32) : Bool :=
  let l := w.lanes[i]
  let d := l.meets.length
  (List.finRange 32).all fun j =>
    let p := w.lanes[j]
    j == i || p.life == .exited || p.meets.length < d || p.meets.drop (p.meets.length - d) != l.meets ||
      (p.life == .live && p.wait == .held && p.hdr == l.hdr && p.meets.length == d && !p.stopped)

/-- Release every meeting whose partners have all arrived: they pop and stand at the header together. -/
def settleMeetings (w : Wave) : Wave :=
  if (List.finRange 32).any fun i => w.lanes[i].wait == .held then
    { w with lanes := lanesOf fun i =>
        let l := w.lanes[i]
        if l.life == .live && l.wait == .held && !l.stopped && partnersIn w i then
          { l with wait := .none, meets := l.meets.tail }
        else l }
  else w

/-- Release the threads of a `tramp` none of whose lanes is still away (03 R78). -/
def settleTramps (k : Kernel) (w : Wave) : Wave :=
  let away := fun (id : Nat) => (List.finRange 32).any fun j =>
    w.lanes[j].life != .exited && (match w.lanes[j].tret with
      | some t => t.id == id
      | none => false)
  if (List.finRange 32).any fun i => (match w.lanes[i].wait with
      | .tramp id => !away id
      | _ => false) then
    { w with lanes := lanesOf fun i =>
        let l := w.lanes[i]
        match l.wait with
        | .tramp id =>
          if l.life == .live && !away id then
            if atHeader l then arrive k { l with wait := .none } l.pc else { l with wait := .none }
          else l
        | _ => l }
  else w

/-- The lanes of a path group that shares a thread's program counter and block (03 R59); a thread that waits at its
word shares it with threads in the same wait. -/
def sameGroup (a b : Lane) : Bool :=
  let norm := fun (x : Wait) => match x with
    | .stall _ => Wait.none
    | x => x
  a.pc == b.pc && a.hdr == b.hdr && norm a.wait == norm b.wait && a.code == b.code

/-- A thread that can issue or try its word again. -/
def issuable (l : Lane) : Bool :=
  l.life == .live && !l.stopped && (match l.wait with
    | .held | .tramp _ => false
    | .barHeld sc .. => sc == .pod
    | _ => true)

/-- The path group of a lane. -/
def pathGroup (w : Wave) (i : Fin 32) : LaneMask :=
  lanesWhere w fun l => issuable l && sameGroup l w.lanes[i]

/-! ### Barriers (03 R86 to R88) -/

/-- Scope instance that holds a core, and the key of one of its barriers. -/
def scopeInstance (sc : Scope) (core : Nat) : Nat :=
  match sc with
  | .core => core
  | .quad => core / 4
  | .die => core / 48
  | _ => 0

def barrierKey (sc : Scope) (core num : Nat) : Nat := (sc.code.toNat * 2048 + scopeInstance sc core) * 16 + num

/-- The phase in which a thread last arrived at a barrier. -/
def arrivedIn (l : Lane) (key : Nat) : Option Nat := Table.get? l.arr key

/-- Every thread of a group that has not exited has arrived in a phase; a thread that is halted or in a fragment is not
counted as arrived (03 R86, R91, 17 R369). -/
def groupArrived (s : State) (gk key phase : Nat) : Bool :=
  (wavesOf s gk).all fun k =>
    let w := waveOf s k
    (List.finRange 32).all fun i =>
      let l := w.lanes[i]
      l.life == .exited || (l.life == .live && !l.stopped && arrivedIn l key == some phase)

/-- The state of a barrier: a group's own for `.core`, the context's for a wider scope. -/
def barrierOf (s : State) (gk : Nat) (sc : Scope) (key : Nat) : Barrier :=
  match sc with
  | .core => Table.getD (groupOf s gk).bars key {}
  | _ => Table.getD (ctxOf s (groupOf s gk).ctx).bars key {}

def setBarrier (s : State) (gk : Nat) (sc : Scope) (key : Nat) (b : Barrier) : State :=
  match sc with
  | .core => modGroup s gk fun g => { g with bars := Table.set g.bars key b }
  | _ => setCtx s (groupOf s gk).ctx fun c => { c with bars := Table.set c.bars key b }

/-- A thread held at a second arrival arrives in the new phase and goes on, once it has the words of its block again; threads that had arrived for a group whose
own arrival was not counted keep their arrival in the new phase (03 R87, R88). -/
def carryLane (k : Kernel) (key old : Nat) (counted : Bool) (now : Nat) (l : Lane) : Lane :=
  if l.life == .exited then l
  else
    match l.wait with
    | .barHeld sc num ph wt since =>
      if ph == old && arrivedIn l key == some old && barrierKey sc 0 num % 16 == key % 16 &&
          sc.code.toNat == key / 16 / 2048 then
        let l := { l with arr := Table.set l.arr key (old + 1) }
        if wt then { l with wait := .bar sc num (old + 1) (max since now) }
        else if unfetched l then { l with wait := .bar sc num old since }
        else nextWord k l
      else l
    | .bar sc num ph since =>
      if !counted && ph == old && arrivedIn l key == some old && sc.code.toNat == key / 16 / 2048 && num == key % 16 then
        { l with arr := Table.set l.arr key (old + 1), wait := .bar sc num (old + 1) since }
      else l
    | _ =>
      if !counted && arrivedIn l key == some old then { l with arr := Table.set l.arr key (old + 1) } else l

/-- Threads held at a second arrival at a barrier. -/
def heldAt (w : Wave) (key : Nat) : Bool :=
  (List.finRange 32).any fun i => (match w.lanes[i].wait with
    | .barHeld sc num _ _ _ => w.lanes[i].life == .live && barrierKey sc w.core num == key
    | _ => false)

/-- A group that has arrived at a barrier in a phase, but for a thread that is halted or in a fragment now (03 R91). -/
def groupAway (s : State) (gk key phase : Nat) : Bool :=
  (wavesOf s gk).any fun k =>
    let w := waveOf s k
    (List.finRange 32).any fun i =>
      let l := w.lanes[i]
      l.life != .exited && (l.life != .live || l.stopped) && arrivedIn l key == some phase

/-- Arrivals of groups that count in the open phase of a wider barrier. -/
def wideCount (s : State) (key : Nat) (b : Barrier) : Nat :=
  (b.groups.filter fun k => !groupAway s k key b.phase).length + b.others

/-- Groups of a context in the scope instance of a barrier. -/
def membersOf (s : State) (ctx : Nat) (sc : Scope) (key : Nat) : List (Nat × Group) :=
  s.groups.filter fun e => e.2.ctx == ctx && scopeInstance sc e.2.core == key / 16 % 2048

/-- The arrival of a group at a wider barrier, once the last of its threads has arrived; the first group of a phase brings
the expected count (03 R87). -/
def arriveGroup (s : State) (gk : Nat) (sc : Scope) (key : Nat) : State :=
  let b := barrierOf s gk sc key
  let own := Table.getD (groupOf s gk).bars key {}
  if own.threads > 0 && own.phase == b.phase && !b.groups.contains gk && groupArrived s gk key b.phase then
    setBarrier s gk sc key { b with
      groups := insertNat gk b.groups,
      expected := if b.groups.isEmpty && b.others == 0 then own.expected else b.expected }
  else s

/-- The open phase of a wider barrier completes: the next one opens, and held threads arrive in it (03 R87, R88). -/
def endWide (s : State) (ctx : Nat) (sc : Scope) (key : Nat) (b : Barrier) : State :=
  let s := setCtx s ctx fun c => { c with bars := Table.set c.bars key { phase := b.phase + 1 } }
  (membersOf s ctx sc key).foldl (fun s e =>
    let counted := b.groups.contains e.1
    let again := (wavesOf s e.1).any fun k => heldAt (waveOf s k) key
    let s := modGroup s e.1 fun g =>
      let o := Table.getD g.bars key {}
      let o := { o with phase := b.phase + 1, threads := if counted && !again then 0 else o.threads }
      { g with bars := Table.set g.bars key o }
    (wavesOf s e.1).foldl (fun s k => modWave s k fun w =>
      settleMeetings { w with lanes := lanesOf fun i => carryLane e.2.kern key b.phase counted s.wall w.lanes[i] }) s) s

/-- Whether the open phase of a wider barrier has what it expects. -/
def wideFull (s : State) (ctx key : Nat) : Bool :=
  let b := Table.getD (ctxOf s ctx).bars key {}
  residentCtx s ctx && wideCount s key b > 0 && wideCount s key b ≥ b.expected

/-- End a phase if its count is met, and carry the held threads into the next one; a phase they fill ends too. -/
def settleBarrier (s : State) (gk : Nat) (sc : Scope) (key : Nat) : Nat → State
  | 0 => s
  | fuel + 1 =>
    let g := groupOf s gk
    match sc with
    | .core =>
      let b := barrierOf s gk sc key
      if residentCtx s g.ctx && b.threads > 0 && groupArrived s gk key b.phase then
        let held := (wavesOf s gk).any fun k => heldAt (waveOf s k) key
        let s := setBarrier s gk sc key { phase := b.phase + 1, threads := if held then 1 else 0 }
        let s := (wavesOf s gk).foldl (fun s k => modWave s k fun w =>
          settleMeetings { w with lanes := lanesOf fun i => carryLane g.kern key b.phase true s.wall w.lanes[i] }) s
        settleBarrier s gk sc key fuel
      else s
    | _ =>
      let s := arriveGroup s gk sc key
      if wideFull s g.ctx key then
        (membersOf s g.ctx sc key).foldl (fun s e => settleBarrier s e.1 sc key fuel)
          (endWide s g.ctx sc key (barrierOf s gk sc key))
      else s

/-- The scope whose code a barrier key carries. -/
def keyScope (key : Nat) : Scope := Scope.ofCode (BitVec.ofNat 3 (key / 16 / 2048))

/-- Test every barrier that a group has an open phase of, after a thread exited or arrived. -/
def settleBarriers (s : State) (gk : Nat) : State :=
  ((groupOf s gk).bars.filter fun e => e.2.threads > 0).foldl
    (fun s e => settleBarrier s gk (keyScope e.1) e.1 34) s

/-! ### Ending threads (03 R72, 04 R97) -/

/-- A thread that ends keeps nothing. -/
def exitLane (l : Lane) : Lane :=
  { l with life := .exited, wait := .none, meets := [], tret := none, kept := [], answers := [], handler := none,
           timerDue := false, stopped := false, stepFirst := false, arr := [] }

/-- Change the guards of a wave and those that its commands carry. -/
def mapGuards (s : State) (wk : Nat) (f : Guard → Guard) : State :=
  let gk := (waveOf s wk).group
  { modWave s wk (fun w => { w with guards := Table.mapVals w.guards fun _ g => f g }) with
    copies := Table.mapVals s.copies fun _ c =>
      if c.wave = wk && c.group = gk then { c with guard := c.guard.map fun g => (g.1, f g.2) } else c,
    tasks := Table.mapVals s.tasks fun _ t =>
      if t.wave = wk && t.group = gk then { t with guard := t.guard.map fun g => (g.1, f g.2) } else t,
    pushes := s.pushes.map fun p => if p.wave = wk && p.group = gk then { p with guard := f p.guard } else p }

def guardIs (b : Bool) : Guard := if b then .isTrue else .isFalse

/-- A guard whose value has landed. -/
def landGuard : Guard → Guard
  | .pending v _ _ => guardIs v
  | g => g

/-- The values that the commands of a wave still wait for land before its slot is free (04 R106, R107). -/
def landGuards (s : State) (wk : Nat) : State :=
  if s.copies.isEmpty && s.tasks.isEmpty && s.pushes.isEmpty then s else mapGuards s wk landGuard

/-- A remote access of a lane of a wave (14 R326). -/
def owesAnswer (r : RemoteReq) (k : Nat) : Bool := r.wave == k && !r.ap && r.tag.isNone

/-- Free a wave slot whose threads have all exited and that holds no fragment entry: its `red`s are performed first, its
killed lanes' remote accesses have been answered (14 R326) and its address program stops (04 R97). -/
def freeWave (s : State) (k : Nat) : State :=
  let w := waveOf s k
  if w.present && (List.finRange 32).all (fun i => w.lanes[i].life == .exited) &&
      !(s.frags.any fun f => f.2.wave == k) && !(s.remotes.any fun r => owesAnswer r.2 k) then
    let s := applyReds s fun r => r.core == w.core && r.ctx == w.ctx
    let s := landGuards s k
    let s := match w.bound with
      | some a => { s with aps := Table.erase s.aps a, remotes := s.remotes.filter fun r => !(r.2.ap && r.2.wave == a) }
      | none => s
    if s.me.present && s.me.ap.isNone && s.me.key == k then { s with me := {}, iss := 0 }
    else { s with waves := Table.erase s.waves k }
  else s

/-- What follows when threads of a wave moved or ended: meetings, returns from trampolines, barriers, the slot. -/
def settleWave (s : State) (k : Nat) : State :=
  let gk := (waveOf s k).group
  let kern := (groupOf s gk).kern
  let s := modWave s k fun w => settleMeetings (settleTramps kern w)
  freeWave (settleBarriers s gk) k

/-- The issuing lanes of a mask complete their word and go on (03 R60). -/
def advanceMe (s : State) (m : LaneMask) : State :=
  let k := kernOf s
  modMe s fun w => mapLanes w m fun _ l => nextWord k l

/-- The issuing lanes of a mask wait at their word, which is tried again. -/
def stallMe (s : State) (m : LaneMask) (why : Stall) : State :=
  modMe s fun w => mapLanes w m fun _ l => { l with wait := .stall why }

/-- The issuing lanes of a mask wait for translations that are asked for now. -/
def stallAts (s : State) (m : LaneMask) (pages : List (Nat × Bool)) : State :=
  stallMe (pages.foldl (fun s p => askAts s s.me.ctx p.1 p.2) s) m (.ats pages)

/-- Settle the issuing wave after a word. -/
def settleMe (s : State) : State := if s.me.ap.isSome then s else settleWave s s.me.key

/-! ### Faults, fragments and handlers (17 R367 to R383, R415) -/

/-- One lane's fault (17 R378). -/
structure LaneFault where
  lane : Fin 32 := 0
  cause : Cause := .illegal
  addr : Word64 := 0
  detail : Word32 := 0
  page : Option Nat := none
  obj : WaitObj := .none
  /-- it parks as a nested fault wherever the lane is (17 R383) -/
  parks : Bool := false
  deriving DecidableEq, Repr

/-- A fault that parks as a nested one: of a lane in a handler, or one that says so (17 R380, R383). -/
def nestedFault (w : Wave) (f : LaneFault) : Bool := f.parks || w.lanes[f.lane].handler.isSome

/-- The faults of one instruction by cause; nested ones, which take another course, stand apart (17 R369, R380, log 80). -/
def groupFaults (w : Wave) : List LaneFault → List (List LaneFault)
  | [] => []
  | f :: t =>
    let same := fun (x : LaneFault) => x.cause == f.cause && nestedFault w x == nestedFault w f
    let rest := groupFaults w t
    match rest.find? fun g => g.any same with
    | some _ => rest.map fun g => if g.any same then f :: g else g
    | none => [f] :: rest

/-- Free entries of the fragment pool of a core, lowest first (17 R369). -/
def freeEntries (s : State) (ctx core : Nat) : List Nat :=
  (List.range 64).filter fun e => (Table.get? s.frags (slotKey ctx core e)).isNone

/-- Entries a wave holds. -/
def heldEntries (s : State) (wk : Nat) : Nat := (s.frags.filter fun f => f.2.wave == wk).length

/-- Bytes of a number at an offset of an image. -/
def putAt (off n v : Nat) : Nat := (v % 2 ^ (8 * n)) <<< (8 * off)

/-- What a trap frame records of a thread beside the thread itself (17 R377). -/
structure FrameIn where
  causes : Nat := 0
  pc : Word64 := 0
  hdr : Word64 := 0
  word : Word64 := 0
  addr : Word64 := 0
  detail : Word32 := 0
  ident : Nat := 0
  debug : Bool := false

/-- Bytes 0x000 to 0x0FF of a trap frame (17 R377). -/
def frameImage (s : State) (w : Wave) (l : Fin 32) (i : FrameIn) : Nat :=
  let x := w.lanes[l]
  let (hword, code) := if x.hdr == i.hdr && !unfetched x then (x.hword, x.code) else
    match fetchWord s w.ctx w.core [] i.hdr with
    | .word h => (h, fetchBlock s w.ctx w.core [] i.hdr (headerLength h))
    | _ => (0, [])
  let so := safeOrdinal (groupOf s w.group).kern i.hdr i.pc code
  let ret := match x.tret with
    | some t => t.ret.toNat
    | none => 0
  putAt 0 8 i.causes + putAt 8 8 i.pc.toNat + putAt 16 8 i.word.toNat + putAt 24 8 i.addr.toNat +
    putAt 0x20 4 i.detail.toNat + putAt 0x24 4 i.ident + putAt 0x28 1 x.meets.length +
    putAt 0x29 1 ((if x.tret.isSome then 1 else 0) + (if i.debug then 2 else 0)) +
    putAt 0x2C 4 so.1 + putAt 0x30 4 so.2 + putAt 0x34 4 x.flags.toNat + putAt 0x38 8 ret +
    ((List.range 16).foldl (fun n j => n + putAt (0x40 + 4 * j) 4 (x.meets.reverse.getD j 0).toNat) 0) +
    putAt 0x80 8 hword.toNat + putAt 0x88 8 w.run + putAt 0x90 8 i.hdr.toNat

/-- Write one thread's frame header; none where the context has no table or the frame cannot be written. -/
def writeFrame (s : State) (w : Wave) (l : Fin 32) (i : FrameIn) : Option State :=
  let t := (ctxOf s w.ctx).cfg.hdlTab
  if t == 0 then none
  else
    match engineWrite s w.ctx 0 (some w.core) (t + BitVec.ofNat 64 (frameOffset s w l.val)) 256 (frameImage s w l i) with
    | .ok s => some s
    | _ => none

/-- A fragment's frame record for one of its lanes. -/
def Frag.frameIn (f : Frag) (fk : Nat) (w : Wave) (l : Fin 32) : FrameIn :=
  let i := (f.info.find? fun x => x.lane == l.val).getD {}
  { causes := (causeBit f.cause).toNat, pc := f.pc, hdr := f.hdr, word := f.word, addr := i.addr, detail := i.detail,
    ident := fragIdent w (some fk) }

/-- The handler table of a context, where it can be read and its zero fields are zero (17 R375). -/
def handlerTable (s : State) (ctx : Nat) : Option Nat :=
  let t := (ctxOf s ctx).cfg.hdlTab
  if t == 0 then none
  else
    match engineRead s ctx 0 none t 4096 with
    | .ok v => if fieldAt v 0 4 ≤ 1 && zeroAt v 4 60 && zeroAt v 0x240 3520 then some v else none
    | _ => none

/-- Whether a debugger is attached (17 R388). -/
def attached (t : Option Nat) : Bool := (t.getD 0) % 2 == 1

/-- The handler of a cause; 0 for none. -/
def handlerEntry (t : Option Nat) (c : Cause) : Nat := fieldAt (t.getD 0) (0x40 + 8 * c.bitNo) 8

/-- A fragment that waits for the part or the host (17 R368). -/
def Frag.waitsForPart (f : Frag) : Bool :=
  match f.cause with
  | .expand | .viewmiss | .spill => true
  | .page => f.info.any fun i => i.page.isSome && i.answer == .pending
  | _ => false

def setFrag (s : State) (fk : Nat) (f : Frag) : State := { s with frags := Table.set s.frags fk f }

/-- Free a handler fragment none of whose lanes remains in its handler (17 R383). -/
def freeHandler (s : State) (fk : Nat) : State :=
  match Table.get? s.frags fk with
  | none => s
  | some f =>
    let w := waveOf s f.wave
    if f.st == .inHandler && (lanesIn f.lanes).all fun l => w.lanes[l].handler != some fk then
      { s with frags := Table.erase s.frags fk }
    else s

/-- Park a fragment for the debugger or system software, and record it; lanes of a nested fault stay in their handler
(17 R380, R382, R383). -/
def parkFrag (s : State) (fk : Nat) (f : Frag) (nested : Bool) : State :=
  let w := waveOf s f.wave
  let s := setFrag s fk { f with st := .parked, inner := nested }
  let s := if nested then s else
    (lanesIn f.lanes).foldl (fun s l => (writeFrame s w l (f.frameIn fk w l)).getD s) s
  let i := (f.info.find? fun x => x.lane == (lowest f.lanes).val).getD {}
  faultRecord s w.ctx
    { type := 1, cause := f.cause.bitNo, nested := nested, frag := fragIdent w (some fk), mask := f.lanes.toNat,
      detail := i.detail.toNat, pc := f.pc.toNat, addr := i.addr.toNat }

/-- A group begins to stop; threads that wait, or are in a fragment, count as stopped where they stand (17 R389). -/
def beginStop (s : State) (gk kind : Nat) : State :=
  let g := groupOf s gk
  if g.halt == .running then
    let s := modGroup s gk fun g => { g with halt := .stopping kind }
    (wavesOf s gk).foldl (fun s k => modWave s k fun w => { w with lanes := lanesOf fun i =>
      let l := w.lanes[i]
      match l.life with
      | .exited => l
      | .frag _ => { l with stopped := true }
      | .live => if l.wait == .none && l.handler.isNone then l else { l with stopped := true } }) s
  else s

/-- Taking an exception: the lanes of a fragment enter their handler (17 R379). The part writes their frames, the entry's
state becomes 10, and the lanes become one path group at the handler's header. -/
def enterHandler (s : State) (fk : Nat) (f : Frag) (a : Word64) : State :=
  let w := waveOf s f.wave
  let fail := parkFrag s fk f true
  match fetchWord s w.ctx w.core [] a with
  | .ats => askAts s w.ctx (pageOf a) false
  | x =>
    if a.toNat % 8 == 0 && (match x with
        | .word h => isHeader h
        | .send _ => true
        | _ => false) then
      match (lanesIn f.lanes).foldl (fun (o : Option State) l => o.bind fun s => writeFrame s w l (f.frameIn fk w l))
          (some s) with
      | none => fail
      | some s =>
        modWave (setFrag s fk { f with st := .inHandler }) f.wave fun w => mapLanes w f.lanes fun _ l =>
          { l with life := .live, wait := .none, handler := some fk, pc := a, hdr := a, hword := 0, code := [],
                   kept := [], answers := [], skipWatch := false }
    else fail

/-- Deliver a fragment: it waits for its repair, enters its handler, or parks (17 R368, R379 to R382, R388, R394).
`late` marks a SPILL that has been parked for 1 ms. -/
def deliver (s : State) (fk : Nat) (late : Bool) : State :=
  match Table.get? s.frags fk with
  | none => s
  | some f =>
    let w := waveOf s f.wave
    if f.waitsForPart && !late then s
    else if f.inner then parkFrag s fk f true
    else
      let tab := handlerTable s w.ctx
      if (f.cause == .bkpt || f.cause == .watch) && attached tab then
        let s := parkFrag s fk f false
        if f.cause == .bkpt then beginStop s w.group 2 else s
      else if handlerEntry tab f.cause == 0 then parkFrag s fk f false
      else if (groupOf s w.group).halt != .running then s
      else enterHandler s fk f (BitVec.ofNat 64 (handlerEntry tab f.cause))

/-- Fragments of a context that wait for a handler, not for a repair, are delivered again. -/
def redeliver (s : State) (ctx : Nat) : State :=
  (s.frags.filter fun f => f.1 / 131072 == ctx && f.2.st == .waiting && !f.2.waitsForPart).foldl
    (fun s f => deliver s f.1 false) s

/-- The phase of an arrival that no completion follows (03 R90). -/
def neverPhase : Nat := 2 ^ 62

/-- A barrier wait that a fault interrupts stays with the thread (03 R91); one whose phase was closed is no wait. -/
def savedWait (l : Lane) : Option (Word64 × Wait) :=
  match l.wait with
  | .bar _ _ ph _ | .barHeld _ _ ph _ _ => if ph == neverPhase then none else some (l.pc, l.wait)
  | .barvPod _ => some (l.pc, l.wait)
  | _ => none

/-- The wait that is in force again when a thread resumes at a word (03 R91). -/
def waitAgain (l : Lane) (pc : Word64) : Wait :=
  match l.saved with
  | some (a, w) => if a == pc then w else .none
  | none => .none

/-- Form one fragment from lanes that fault with one cause where they stand. -/
def formFrag (s : State) (wk fk : Nat) (word : Word64) (fs : List LaneFault) : State :=
  match fs with
  | [] => s
  | f :: _ =>
    let w := waveOf s wk
    let m := maskOf (fs.map (·.lane))
    let l0 := w.lanes[lowest m]
    if !w.present then s else
    let halted := (groupOf s w.group).halt != .running
    let obj := match f.obj with
      | .extents _ => WaitObj.extents (fs.flatMap fun x => match x.obj with
          | .extents l => l
          | _ => []).eraseDups
      | o => o
    let info := fs.map fun x =>
      ({ lane := x.lane.val, addr := x.addr, detail := x.detail, page := x.page,
         kept := w.lanes[x.lane].kept } : FaultInfo)
    let s := setFrag s fk
      { wave := wk, lanes := m, pc := l0.pc, hdr := l0.hdr, word := word, cause := f.cause, obj := obj, info := info,
        inner := nestedFault w f, since := s.wall }
    modWave s wk fun w => setCause (mapLanes w m fun _ l =>
      { l with life := .frag (fk % 64), wait := .none, stopped := l.stopped || halted,
               saved := if l.handler.isSome then l.saved else savedWait l }) f.cause

/-- The whole wave parks with FRAGFULL: it needs n entries (17 R372). -/
def fragFull (s : State) (n : Nat) : State := modMe s fun w => setCause { w with full := n } .fragfull

/-- Whether a wave has the fragment entries it parked for (17 R372). -/
def fullOver (s : State) (w : Wave) : Bool :=
  w.full == 0 || (w.full ≤ (freeEntries s w.ctx w.core).length && heldEntries s w.key + w.full ≤ 16)

/-- An address program ends by a fault with a code of 04 R101. -/
def apEnd (s : State) (code : Nat) : State :=
  modMe s fun w => { w with
    ap := w.ap.map fun a => { a with ended := true, code := code },
    lanes := w.lanes.set 0 (exitLane w.lanes[0]) }

/-- A context whose program has ended and whose queues are empty is free (04 R97). -/
def freeAp (s : State) (a : Nat) : State :=
  match (apOf s a).ap with
  | some p =>
    if p.ended && p.queues.all (fun q => q.2.isEmpty) then
      let s := if s.me.present && s.me.ap.isSome && s.me.key == a then { s with me := {}, iss := 0 }
        else { s with aps := Table.erase s.aps a }
      modWave s p.owner fun w => { w with bound := none, ended := some p.code }
    else s
  | none => s

/-- The issuing address program ends, and its context is free unless its queues still hold words (04 R97, R101). -/
def apStop (s : State) (code : Nat) : State := freeAp (apEnd s code) s.me.key

/-- The code of 04 R101 for a cause. -/
def Cause.apCode : Cause → Nat
  | .brtarget => 2
  | .align | .range => 3
  | .remote => 4
  | .remoteTimeout => 5
  | _ => 1

/-- An instruction of the issuing path group: `commit` performs it for the lanes that do not fault, and the others form
fragments; it commits for no lane when the entries are too few (17 R369, R372). A fault of an address program ends it. -/
def commitWith (s : State) (fs : List LaneFault) (commit : State → State) : State :=
  match fs with
  | [] => settleMe (commit s)
  | f :: _ =>
    if s.me.ap.isSome then apStop s f.cause.apCode
    else
      let wk := s.me.key
      let groups := groupFaults s.me fs
      let free := freeEntries s s.me.ctx s.me.core
      if groups.length ≤ free.length && heldEntries s wk + groups.length ≤ 16 then
        let keys := free.map (slotKey s.me.ctx s.me.core)
        let s := commit s
        let s := (groups.zip keys).foldl (fun s p => formFrag s wk p.2 s.word p.1) s
        let s := (groups.zip keys).foldl (fun s p => deliver s p.2 false) s
        settleWave s wk
      else fragFull s groups.length

/-- Every lane of a mask faults with one cause. -/
def faultLanes (m : LaneMask) (c : Cause) (addr : Word64 := 0) (detail : Word32 := 0) : List LaneFault :=
  (lanesIn m).map fun l => { lane := l, cause := c, addr := addr, detail := detail }

/-- ILLEGAL at decode: every lane of the issuing path group faults, and nothing of the word takes place (02 R48). -/
def illegalWord (s : State) : State := commitWith s (faultLanes s.iss .illegal) id

/-- A killed lane resolves false a guard slot whose value it was to produce (17 R374, 04 R107): one that takes its bit while
that bit is still in flight. -/
def killGuards (s : State) (wk : Nat) (m : LaneMask) : State :=
  let w := waveOf s wk
  let owed := fun (k : Nat) (bits : LaneMask) => (lanesIn (m &&& bits)).any fun l => (Table.getD w.kfly (k % 16) []).contains l.val
  if w.kfly.isEmpty then s
  else mapGuards s wk fun g => match g with
    | .pending v k bits => if owed k bits then .isFalse else .pending v k bits
    | g => g

/-- Kill lanes: they end as if they had executed `exit` (17 R374). What their remote accesses answer is discarded. -/
def killLanes (s : State) (wk : Nat) (m : LaneMask) : State :=
  modWave (killGuards s wk m) wk fun w => mapLanes w m fun _ l => exitLane l

/-- What fetching the block of a resume point anew comes to (19 R415). -/
inductive Resume
  /-- the resume point is an instruction position of a block with this header word and these words -/
  | inside (hword : Word64) (code : List Word64)
  /-- the lanes fault at the resume point -/
  | fault (c : Cause) (addr : Word64) (detail : Nat) (page : Option Nat)
  /-- a translation is awaited -/
  | wait (pages : List Nat)
  /-- another package has not answered -/
  | send (pas : List (Word64 × Nat))
  | hole (addr : Nat)
  deriving DecidableEq, Repr

/-- What the fetch of a whole block comes to, once each of its words has been fetched: a word that cannot be fetched stops
the entry into the block (02 R28, 16 R347, log 82). -/
def blockFetch (hdr h : Word64) (xs : List Fetch) : Resume :=
  let at_ := fun (p : Fetch × Nat) => hdr + BitVec.ofNat 64 (8 * (p.2 + 1))
  let ps := xs.zip (List.range xs.length)
  match xs.findSome? fun x => match x with
    | .hole a => some a
    | _ => none with
  | some a => .hole a
  | none =>
    let waits := (ps.filterMap fun p => if p.1 == .ats then some (pageOf (at_ p)) else none).eraseDups
    let sends := ps.filterMap fun p => match p.1 with
      | .send pa => some (at_ p, pa)
      | _ => none
    if !waits.isEmpty then .wait waits
    else if !sends.isEmpty then .send sends
    else
      match ps.findSome? fun p => match p.1 with
        | .fault c d pg => some (at_ p, c, d, pg)
        | _ => none with
      | some (a, c, d, pg) => .fault c a d pg
      | none => .inside h (xs.map fun x => match x with
          | .word w => w
          | _ => 0)

/-- Take the block's extent from its header, fetched anew (19 R415). -/
def resumePlace (s : State) (ctx core : Nat) (ans : List (Nat × Option RemoteAnswer)) (pc hdr : Word64) : Resume :=
  match fetchWord s ctx core ans hdr with
  | .ats => .wait [pageOf hdr]
  | .send pa => .send [(hdr, pa)]
  | .fault c d p => .fault c hdr d p
  | .hole a => .hole a
  | .word h =>
    if !isHeader h then .fault .brtarget 0 0 none
    else if (pc - hdr).toNat > 8 * headerLength h then .fault .illegal 0 0 none
    else blockFetch hdr h (blockFetches s ctx core ans hdr (headerLength h))

/-- Resume lanes of a wave at a point in the block of a header (17 R373, 19 R415, R417): they fetch the block anew when they
next issue. `infos` gives back the queue words kept with them; lanes of a group that is not running stand stopped. -/
def resumeLanes (s : State) (wk : Nat) (m : LaneMask) (pc hdr : Word64) (infos : List FaultInfo) (skip : Bool) : State :=
  let w := waveOf s wk
  let g := groupOf s w.group
  let base := fun (i : Fin 32) (l : Lane) =>
    { l with life := Life.live, wait := Wait.none, skipWatch := skip, stopped := g.halt != .running, stepFirst := false,
             kept := ((infos.find? fun x => x.lane == i.val).map (·.kept)).getD [],
             saved := if l.handler.isSome then l.saved else none }
  settleWave (modWave s wk fun w => mapLanes w m fun i l =>
    if pc == hdr then arrive g.kern (base i l) pc
    else { base i l with pc := pc, hdr := hdr, hword := 0, code := [], wait := waitAgain l pc }) wk

/-- A released thread inside a block fetches its words anew (19 R415). -/
def refetch (l : Lane) : Lane := if l.life == .live && l.pc != l.hdr then { l with hword := 0, code := [] } else l

/-- A fragment resumes: its entry is freed and its lanes become a path group at the resume point (17 R373). A repair
fragment's lanes are still in their handler (17 R380). -/
def resumeFrag (s : State) (fk : Nat) : State :=
  match Table.get? s.frags fk with
  | none => s
  | some f =>
    resumeLanes { s with frags := Table.erase s.frags fk } f.wave f.lanes f.pc f.hdr f.info (f.cause == .watch)

/-- A fragment is killed: its lanes end and its entry is freed (17 R374). -/
def killFrag (s : State) (fk : Nat) : State :=
  match Table.get? s.frags fk with
  | none => s
  | some f =>
    settleWave { killLanes s f.wave f.lanes with frags := Table.erase s.frags fk } f.wave

/-! ### Transfers of control (02 R28, 03 R67) -/

/-- What a check of a transfer target finds. -/
inductive Target
  | ok
  | wait
  | send (pa : Nat)
  | fault (c : Cause) (detail : Nat) (page : Option Nat)
  | hole (addr : Nat)
  deriving DecidableEq, Repr

/-- A transfer names an aligned word with the header tag; `tag` adds a further condition on that header. -/
def checkTarget (s : State) (a : Word64) (tag : Word64 → Bool) : Target :=
  if a.toNat % 8 != 0 then .fault .brtarget 0 none
  else
    match fetchWord s s.me.ctx s.me.core s.me.lanes[lowest s.iss].answers a with
    | .word h => if isHeader h && tag h then .ok else .fault .brtarget 0 none
    | .ats => .wait
    | .send pa => .send pa
    | .fault c d p => .fault c d p
    | .hole x => .hole x

/-- What a lane does at the last word of its block: fall through, go to an address, or fault (03 R61). -/
inductive Succ
  | fall
  | goto (a : Word64)
  | fault (f : LaneFault)
  deriving DecidableEq, Repr

/-- A lane's transfer to an address, or its fault at the transferring word. -/
def succTo (s : State) (l : Fin 32) (a : Word64) (tag : Word64 → Bool) : Succ :=
  match checkTarget s a tag with
  | .ok | .wait | .send _ | .hole _ => .goto a
  | .fault c d p =>
    .fault { lane := l, cause := c, addr := a, detail := if c == .brtarget then 0 else BitVec.ofNat 32 d, page := p }

/-- Ask for the page requests of faulting lanes (16 R348). -/
def askFaults (s : State) (fs : List LaneFault) : State :=
  fs.foldl (fun s f => match f.cause, f.page with
    | .page, some p => askPage s s.me.ctx { page := p }
    | .expand, some p => setCtx s s.me.ctx fun c =>
        if c.expanding.contains p then c else { c with expanding := c.expanding ++ [p] }
    | _, _ => s) s

/-- The header behind the block of the issuing lanes. -/
def fallThrough (l : Lane) : Word64 := l.hdr + BitVec.ofNat 64 (8 * (l.code.length + 1))

/-- Push a meeting for a lane, unless its top already names it; none where the stack is full (03 R61). -/
def pushMeet (k : Kernel) (l : Lane) (m : Word64) : Option Lane :=
  if l.meets.head? = some (headerIndex k m) then some l
  else if l.meets.length ≥ k.depth then none
  else some { l with meets := headerIndex k m :: l.meets }

/-- The fault of a lane that would push a meeting header: DEPTH where its stack is full, so that it never pushes; else
BRTARGET where the word there lacks the header tag, or cannot be fetched (03 R61, 02 R32, log 83). -/
def meetFault (s : State) (k : Kernel) (meet : Word64) (l : Fin 32) : Option LaneFault :=
  if s.me.lanes[l].meets.head? == some (headerIndex k meet) then none
  else if s.me.lanes[l].meets.length ≥ k.depth then
    some { lane := l, cause := .depth, detail := BitVec.ofNat 32 k.depth }
  else if checkTarget s meet (fun _ => true) != .ok then some { lane := l, cause := .brtarget, addr := meet }
  else none

/-- The end of a block for the issuing path group (03 R61, 02 R32): every lane has its successor; a split in a divergent
block pushes the meeting header, or the lane that would push it faults. `pre` acts first, for the lanes that transfer. -/
def endBlock (s : State) (succ : Fin 32 → Succ) (pre : LaneMask → State → State) : State :=
  let ls := lanesIn s.iss
  let l0 := s.me.lanes[lowest s.iss]
  let k := kernOf s
  let next := fun (l : Fin 32) => match succ l with
    | .goto a => a
    | _ => fallThrough s.me.lanes[l]
  let fs0 := ls.filterMap fun l => match succ l with
    | .fault f => some f
    | _ => none
  let go := ls.filter fun l => !(fs0.any fun f => f.lane == l)
  let split := headerDivergent l0.hword && (go.map next).eraseDups.length > 1
  let meet := meetingOf l0.hdr l0.hword
  let fs1 := if split then go.filterMap (meetFault s k meet) else []
  let move := maskOf (go.filter fun l => !(fs1.any fun f => f.lane == l))
  let fs := fs0 ++ fs1
  commitWith (askFaults s fs) fs fun s => modMe (pre move s) fun w => mapLanes w move fun i l =>
    let l := { l with kept := [], answers := [], skipWatch := false, stepFirst := false }
    let l := if split then (pushMeet k l meet).getD l else l
    arrive k l (next i)

/-- Targets whose check waits for a translation. -/
def waitTargets (s : State) (as : List Word64) : List Word64 :=
  as.filter fun a => a.toNat % 8 == 0 && checkTarget s a (fun _ => true) == .wait

/-- Targets homed in another package that has not answered. -/
def sendTargets (s : State) (as : List Word64) : List (Word64 × Nat) :=
  as.filterMap fun a => match checkTarget s a (fun _ => true) with
    | .send pa => some (a, pa)
    | _ => none

/-- Send a remote access of a lane of the issuing wave or of an address program, once (11 R286). -/
def sendRemote (s : State) (l : Fin 32) (a : Word64) (pa n : Nat) (wr : Option (BitVec 128)) : State :=
  if s.remotes.any fun r => r.2.wave == s.me.key && r.2.ap == s.me.ap.isSome && r.2.tag.isNone && r.2.lane == l.val &&
      r.2.pa == pa then s
  else
    let r : RemoteReq :=
      { ctx := s.me.ctx, wave := s.me.key, group := s.me.group, lane := l.val, ap := s.me.ap.isSome, addr := a, pa := pa,
        bytes := n, wr := wr, since := s.wall }
    let (k, s) := freshNo s
    { s with remotes := Table.set s.remotes k r }

/-- Requests of the issuing wave or program that have no answer yet. -/
def openRemotes (s : State) : List Nat :=
  (s.remotes.filter fun r => r.2.wave == s.me.key && r.2.ap == s.me.ap.isSome && r.2.tag.isNone).map (·.1)

/-- The issuing lanes of a mask wait for what other packages answer; a set W bit makes the wave swappable (11 R286). -/
def stallAnswers (s : State) (m : LaneMask) : State := stallMe s m (.answers (openRemotes s) (s.word.getLsbD 62))

/-- The issuing path group waits for words of code homed in another package, which its lowest lane asks for. -/
def stallCode (s : State) (as : List (Word64 × Nat)) : State :=
  stallAnswers (as.foldl (fun s a => sendRemote s (lowest s.iss) a.1 a.2 8 none) s) s.iss

/-- Whether a target lies at no byte of the part. -/
def holeTarget (s : State) (as : List Word64) : Option Nat :=
  as.findSome? fun a => match checkTarget s a (fun _ => true) with
    | .hole x => some x
    | _ => none

/-- Run a transfer once every translation it needs is there; until then its lanes wait at the word. -/
def withTargets (s : State) (as : List Word64) (go : State → State) : State :=
  match holeTarget s as with
  | some x => { s with stuck := some (.noSuchAddress x) }
  | none =>
    match waitTargets s as, sendTargets s as with
    | [], [] => go s
    | [], rs => stallCode s rs
    | ws, _ => stallAts s s.iss (ws.map fun a => (pageOf a, false))

end Sys2Proof.Machine
end

