-- ==== Sys2Proof/Machine/Operands.lean ====
section
/-! DEFINITION. Operand forms: the guard, sources, specials, delivery-queue pops, and the shape every register
instruction shares (spec 02 R35, R40 to R43, 04 R103 to R105, 18 R403). -/
namespace Sys2Proof.Machine

/-- All lanes. -/
def allLanes : LaneMask := 0xFFFFFFFF#32

/-- The active lanes: the issuing lanes whose bit of the guard register, exclusive-ORed with the sense, is 1 (02 R35). -/
def active (s : State) (h : Head) : LaneMask :=
  if h.k == 0 then s.iss
  else s.iss &&& (readK s.me h.k ^^^ (if h.inv then allLanes else 0))

/-- A special operand of a lane (01 R22's identities, 02 R40, 17 R371, R376). -/
def special (s : State) (x : Special) (l : Fin 32) : Word32 :=
  let w := s.me
  let g := groupOf s w.group
  match x with
  | .lane => BitVec.ofNat 32 l.val
  | .wave => BitVec.ofNat 32 w.slot
  | .core => BitVec.ofNat 32 (w.core % 48)
  | .quad => BitVec.ofNat 32 (w.core % 48 / 4)
  | .die => BitVec.ofNat 32 (w.core / 48)
  | .pkg => BitVec.ofNat 32 s.pkg
  | .group => BitVec.ofNat 32 g.index
  | .ngroups => BitVec.ofNat 32 g.ngroups
  | .gsize => BitVec.ofNat 32 g.kern.gsize
  | .item => w.lanes[l].item.setWidth 32
  | .frag => BitVec.ofNat 32 (fragIdent w w.lanes[l].handler)
  | .frame => BitVec.ofNat 32 (frameOffset s w l.val)

/-- The queue word a lane holds for the instruction being issued (04 R103, R105). -/
def keptWord (l : Lane) (q : Nat) : Option KeptWord := l.kept.find? fun k => k.q == q

/-- A 32-bit source of a lane. -/
def src32 (s : State) (o : Operand) (l : Fin 32) : Word32 :=
  match o with
  | .v n => readV s.me n.val l
  | .q n => ((keptWord s.me.lanes[l] n.val).map (·.w)).getD 0
  | .special x => special s x l
  | .zero => 0
  | .s n => readS s.me n.val

/-- A 64-bit source of a lane: an even pair, or zero (02 R43). -/
def src64 (s : State) (o : Operand) (l : Fin 32) : Word64 :=
  match o with
  | .v n => pairOf (readV s.me n.val l) (readV s.me (n.val + 1) l)
  | .s n => pairOf (readS s.me n.val) (readS s.me (n.val + 1))
  | _ => 0

/-- A source of a width, low bits first. -/
def srcW (s : State) (w : Width) (o : Operand) (l : Fin 32) : Word64 :=
  match w with
  | .w32 => (src32 s o l).setWidth 64
  | .w64 => src64 s o l

/-! ### Poisoned sources (18 R403) -/

/-- A lane reads a poisoned word among n words of an operand. -/
def operandPoisoned (w : Wave) (o : Operand) (n : Nat) (l : Fin 32) : Bool :=
  match o with
  | .v i => (List.range n).any fun j => (Table.getD w.vpoison (i.val + j) 0).getLsbD l
  | .s i => (List.range n).any fun j => w.spoison.contains (i.val + j)
  | .q i => ((keptWord w.lanes[l] i.val).map (·.poison)).getD false
  | _ => false

/-- The lanes of a mask that read a poisoned source; each source with the words it reads. -/
def poisonLanes (s : State) (srcs : List (Operand × Nat)) (m : LaneMask) : LaneMask :=
  if s.me.vpoison.isEmpty && s.me.spoison.isEmpty && (queuesClear s.me) then 0
  else maskOf ((lanesIn m).filter fun l => srcs.any fun e => operandPoisoned s.me e.1 e.2 l)
where
  queuesClear (w : Wave) : Bool := (List.finRange 32).all fun l => w.lanes[l].kept.isEmpty

/-! ### Delivery-queue pops (04 R103 to R105) -/

/-- The queues among the sources. -/
def queuesIn (srcs : List (Operand × Nat)) : List Nat :=
  (srcs.filterMap fun e => match e.1 with
    | .q n => some n.val
    | _ => none).eraseDups

/-- Words at the head of a queue that are present. -/
def readyWords : List QWord → Nat
  | .word _ _ :: t => readyWords t + 1
  | _ => 0

/-- The queue of the program bound to the issuing wave. -/
def boundQueue (s : State) (q : Nat) : List QWord :=
  match s.me.bound with
  | some a => (((apOf s a).ap.map fun p => Table.getD p.queues q []).getD [])
  | none => []

/-- Whether the bound program can still deliver words to a queue. -/
def canDeliver (s : State) (q need : Nat) : Bool :=
  match s.me.bound with
  | some a =>
    match (apOf s a).ap with
    | some p => !p.ended || need ≤ (Table.getD p.queues q []).length
    | none => false
  | none => false

/-- Lanes of a mask that still need a word of a queue. -/
def needers (w : Wave) (m : LaneMask) (q : Nat) : List (Fin 32) :=
  (lanesIn m).filter fun l => (keptWord w.lanes[l] q).isNone

/-- Pop one word of a queue for each lane that needs one, in ascending lane order. -/
def popQueue (s : State) (m : LaneMask) (q : Nat) : State :=
  let ls := needers s.me m q
  let words := (boundQueue s q).take ls.length
  let s := match s.me.bound with
    | some a => modAp s a fun w => { w with ap := w.ap.map fun p =>
        { p with queues := Table.put p.queues q [] ((Table.getD p.queues q []).drop ls.length) } }
    | none => s
  modMe s fun w => (ls.zip words).foldl (fun w p =>
    match p.2 with
    | .word x bad => mapLanes w (laneBit p.1) fun _ l => { l with kept := l.kept ++ [{ q := q, w := x, poison := bad }] }
    | _ => w) w

/-- Run an instruction once its queue sources hold a word for every active lane; the wave waits until then, and the
active lanes fault with QEMPTY when no more words can come; where two queues run short, the detail names the first one that
the instruction names (04 R104, log 84). Nothing is popped when the wave parks with FRAGFULL. -/
def withPops (s : State) (srcs : List (Operand × Nat)) (m : LaneMask) (run : State → State) : State :=
  match queuesIn srcs with
  | [] => run s
  | qs =>
    if qs.all fun q => (needers s.me m q).length ≤ readyWords (boundQueue s q) then
      let s' := run (qs.foldl (fun s q => popQueue s m q) s)
      if s'.me.full != 0 then fragFull s s'.me.full
      else
        match s.me.bound with
        | some a => freeAp s' a
        | none => s'
    else
      match qs.find? fun q => !canDeliver s q (needers s.me m q).length &&
          readyWords (boundQueue s q) < (needers s.me m q).length with
      | some q =>
        let code := match s.me.bound with
          | some a => (((apOf s a).ap).map (·.code)).getD 0
          | none => s.me.ended.getD 0
        commitWith s (faultLanes m .qempty 0 (BitVec.ofNat 32 (q + 16 * code))) fun s =>
          advanceMe s (s.iss &&& ~~~m)
      | none => stallMe s s.iss (.words (qs.map fun q => (q, (needers s.me m q).length)))

/-! ### The shape of a register instruction (02 R35, R41) -/

/-- An instruction that reads registers and writes registers: it waits for its queue words, lanes with a poisoned source
fault, `commit` acts for the active lanes that remain, and every lane that does not fault goes on. -/
def regInstr (h : Head) (scalar : Bool) (srcs : List (Operand × Nat)) (s : State)
    (commit : LaneMask → State → State) : State :=
  let m := active s h
  withPops s srcs m fun s =>
    let bad := poisonLanes s srcs m
    let bad := if scalar && bad != 0 then m else bad
    commitWith s (faultLanes bad .poison) fun s => advanceMe (commit (m &&& ~~~bad) s) (s.iss &&& ~~~bad)

/-- Words that a source of a width reads. -/
def widthWords : Width → Nat
  | .w32 => 1
  | .w64 => 2

/-- An instruction that writes one value per lane and raises nothing (07 R171, R176, R178). -/
def aluInstr (h : Head) (w : Width) (d : Operand) (srcs : List (Operand × Nat)) (s : State)
    (val : State → Fin 32 → Word64) : State :=
  regInstr h d.isScalar srcs s fun m s => modMe s fun me => writeW me w d m (val s)

/-- An instruction that writes the bits of its active lanes in a mask register (07 R175). -/
def cmpInstr (h : Head) (k : BitVec 4) (srcs : List (Operand × Nat)) (s : State) (test : State → Fin 32 → Bool) : State :=
  regInstr h false srcs s fun m s => modMe s fun me =>
    writeKBits me k m (maskOf ((lanesIn m).filter (test s)))

/-- Raise arithmetic flags on the lanes of a mask and in the cause bitmap (05 R143). -/
def raiseFlags (w : Wave) (m : LaneMask) (f : Fin 32 → BitVec 5) : Wave :=
  let all := (lanesIn m).foldl (fun (x : BitVec 5) l => x ||| f l) 0#5
  if all == 0 then w
  else { mapLanes w m fun i l => { l with flags := l.flags ||| f i } with
    causes := w.causes ||| all.setWidth 64 }

/-- An instruction that writes one 32- or 64-bit value per lane and raises flags: a scalar form raises its flags on every
lane that passes the guard (05 R143). -/
def fltInstr (h : Head) (w : Width) (d : Operand) (srcs : List (Operand × Nat)) (s : State)
    (val : State → Fin 32 → Word64 × BitVec 5) : State :=
  regInstr h d.isScalar srcs s fun m s =>
    modMe s fun me =>
      let l0 := lowest m
      raiseFlags (writeW me w d m fun l => (val s l).1) m fun l => (val s (if d.isScalar then l0 else l)).2

/-- An instruction that executes once for the path group when a lane passes the guard (07 R194, 04 R93). -/
def onceInstr (h : Head) (srcs : List (Operand × Nat)) (s : State) (act : LaneMask → State → State) : State :=
  regInstr h true srcs s fun m s => if m == 0 then s else act m s

/-- The answer of a meaning that cannot leave the part's memory. -/
def done (s : State) : Host.Outcome State Fault Refusal := .next s

/-- The answer of a meaning that touches memory: a stop where an access named no byte of the part. -/
def finish (s : State) : Host.Outcome State Fault Refusal :=
  match s.stuck with
  | some f => .fault f
  | none => .next s

end Sys2Proof.Machine
end

