-- ==== Sys2Proof/Machine/Control.lean ====
section
/-! DEFINITION. Control and barrier instructions (spec 03 R66 to R78, R86 to R90; 02 R49 to R51). -/
namespace Sys2Proof.Machine

/-- A word without effect: every lane of the path group goes on. -/
def passOn (s : State) : State := commitWith s [] fun s => advanceMe s s.iss

def execNop (_ : Head) (s : State) : Host.Outcome State Fault Refusal := done (passOn s)

/-- `inop` has no guard and no effect (02 R51). -/
def execInop (_ _ : Bool) (_ : BitVec 3) (_ : BitVec 52) (s : State) : Host.Outcome State Fault Refusal :=
  done (passOn s)

/-- Program counter of the issuing path group. -/
def issuePc (s : State) : Word64 := s.me.lanes[lowest s.iss].pc

/-- Target of a relative transfer (02 R38). -/
def relTarget (s : State) (off : BitVec 32) : Word64 := issuePc s + (off.signExtend 64 <<< 3)

/-- Addresses whose translation a transfer needs: its targets, and the meeting header of a divergent block. -/
def targetList (s : State) (as : List Word64) : List Word64 :=
  let l0 := s.me.lanes[lowest s.iss]
  as.eraseDups ++ (if headerDivergent l0.hword && s.me.ap.isNone then [meetingOf l0.hdr l0.hword] else [])

/-- Transfer lanes to their targets; a lane without one falls through. Lanes of `bad` read a poisoned register. -/
def branchTo (s : State) (bad : LaneMask) (target : Fin 32 → Option Word64) (tag : Word64 → Bool)
    (pre : LaneMask → State → State) : State :=
  withTargets s (targetList s ((lanesIn (s.iss &&& ~~~bad)).filterMap target)) fun s =>
    endBlock s (fun l =>
      if bad.getLsbD l then .fault { lane := l, cause := .poison }
      else match target l with
        | some a => succTo s l a tag
        | none => .fall) pre

def noTag (_ : Word64) : Bool := true

def noPre (_ : LaneMask) (s : State) : State := s

/-- `bra` (03 R68). -/
def execBra (h : Head) (off : BitVec 32) (s : State) : Host.Outcome State Fault Refusal :=
  let m := active s h
  finish (branchTo s 0 (fun l => if m.getLsbD l then some (relTarget s off) else none) noTag noPre)

/-- The lanes that `brc` moves (03 R68). -/
def brcTaken (kind : BrcKind) (k m : LaneMask) : LaneMask :=
  match kind with
  | .set => m &&& k
  | .clear => m &&& ~~~k
  | .any => if m &&& k != 0 then m else 0
  | .all => if m != 0 && (m &&& k) == m then m else 0

def execBrc (h : Head) (kind : BrcKind) (k : BitVec 4) (off : BitVec 32) (s : State) :
    Host.Outcome State Fault Refusal :=
  let t := brcTaken kind (readK s.me k) (active s h)
  finish (branchTo s 0 (fun l => if t.getLsbD l then some (relTarget s off) else none) noTag noPre)

/-- The target of `brx` for a lane (03 R69). -/
def brxTarget (s : State) (kind : BrxKind) (r : Operand) (off : BitVec 32) (l : Fin 32) : Word64 :=
  match kind with
  | .vec | .scalar => src64 s r l
  | .rel => issuePc s + (((off.signExtend 64) + (src32 s r l).signExtend 64) <<< 3)

def execBrx (h : Head) (kind : BrxKind) (r : Operand) (off : BitVec 32) (s : State) :
    Host.Outcome State Fault Refusal :=
  let m := active s h
  let bad := poisonLanes s [(r, match kind with
    | .rel => 1
    | _ => 2)] m
  finish (branchTo s bad (fun l => if m.getLsbD l then some (brxTarget s kind r off l) else none) noTag noPre)

/-- `call` writes the address of the header behind its block for each active lane that moves (03 R70). -/
def execCall (h : Head) (link : Operand) (off : BitVec 32) (s : State) : Host.Outcome State Fault Refusal :=
  let m := active s h
  finish (branchTo s 0 (fun l => if m.getLsbD l then some (relTarget s off) else none) noTag fun mv s =>
    modMe s fun w => writePair w link (m &&& mv) fun l => fallThrough w.lanes[l])

def execRet (h : Head) (link : Operand) (s : State) : Host.Outcome State Fault Refusal :=
  let m := active s h
  finish (branchTo s (poisonLanes s [(link, 2)] m) (fun l => if m.getLsbD l then some (src64 s link l) else none)
    noTag noPre)

/-- `meet.drop` pops; a lane of depth 0 faults (03 R71). -/
def execMeetDrop (h : Head) (s : State) : Host.Outcome State Fault Refusal :=
  let m := active s h
  let bad := m &&& lanesWhere s.me fun l => l.meets.isEmpty
  done (commitWith s (faultLanes bad .depth 0 (BitVec.ofNat 32 (kernOf s).depth)) fun s =>
    advanceMe (modMe s fun w => mapLanes w (m &&& ~~~bad) fun _ l => { l with meets := l.meets.tail }) (s.iss &&& ~~~bad))

/-- `meet.push` pushes the meeting header of the block (03 R71). -/
def execMeetPush (h : Head) (s : State) : Host.Outcome State Fault Refusal :=
  let m := active s h
  let l0 := s.me.lanes[lowest s.iss]
  let meet := meetingOf l0.hdr l0.hword
  let k := kernOf s
  if headerMeet l0.hword == 0 then done (illegalWord s)
  else
    finish (withTargets s [meet] fun s =>
      let fs := (lanesIn m).filterMap (meetFault s k meet)
      let bad := maskOf (fs.map (·.lane))
      commitWith s fs fun s =>
        advanceMe (modMe s fun w => mapLanes w (m &&& ~~~bad) fun _ l => (pushMeet k l meet).getD l) (s.iss &&& ~~~bad))

/-- `exit` ends each active lane; an address program ends (03 R72, 04 R97). -/
def execExit (h : Head) (s : State) : Host.Outcome State Fault Refusal :=
  let m := active s h
  done (if s.me.ap.isSome then
      if m == 0 then passOn s else freeAp (apEnd s 0) s.me.key
    else commitWith s [] fun s => advanceMe (modMe s fun w => mapLanes w m fun _ l => exitLane l) (s.iss &&& ~~~m))

/-- The entries of an item queue after a draw: what a lane drew that then faults at its word stays in the queue, since it
draws again when it resumes (03 R74, 17 R367). -/
def leftItems (draw : List (Fin 32 × Nat)) (moved : LaneMask) (q : List Nat) : List Nat :=
  ((draw.filter fun p => !moved.getLsbD p.1).map (·.2)) ++ q.drop draw.length

/-- `refill`: the active lanes draw consecutive entries of the core's item queue; they wait while it runs short, and those
that find the counter exhausted go to the header behind the block (03 R74). -/
def execRefill (h : Head) (off : BitVec 32) (s : State) : Host.Outcome State Fault Refusal :=
  let g := groupOf s s.me.group
  let m := active s h
  match g.launch with
  | none => done (illegalWord s)
  | some lk =>
    let la := Table.getD s.launches lk {}
    let q := Table.getD la.itemq s.me.core []
    let ls := lanesIn m
    if !g.kern.refill then done (illegalWord s)
    else if q.length < ls.length && la.nextItem < la.items then
      done (stallMe s s.iss (.items ls.length))
    else
      let target := relTarget s off
      let draw := ls.zip q
      let drawn := maskOf (draw.map (·.1))
      finish (withTargets s (targetList s (if drawn == 0 then [] else [target])) fun s =>
        endBlock s (fun l => if drawn.getLsbD l then succTo s l target headerRefill else .fall) fun mv s =>
          let s := { s with launches := Table.modify s.launches lk fun la =>
            { la with itemq := Table.set la.itemq s.me.core (leftItems draw mv q) } }
          modMe s fun w => draw.foldl (fun w p => if mv.getLsbD p.1 then
            mapLanes w (laneBit p.1) fun _ l => { l with item := BitVec.ofNat 64 p.2 } else w) w)

/-! ### What a wait is over by (03 R82 to R84) -/

/-- Copies in flight on a core. -/
def copiesOn (s : State) (core : Nat) : Nat := (s.copies.filter fun c => c.2.wave % 131072 / 64 == core).length

/-- What a byte barrier of a group holds: whether it is complete, and its error bit (11 R311). -/
def barWordOf (g : Group) (o : Nat) : Bool × Bool :=
  let w := spRead g o 8
  (w / 2 ^ 32 ≥ w % 2 ^ 31, w.testBit 31)

/-- The delivery queues of a wave's bound program, and of an address program itself. -/
def queuesOf (s : State) (w : Wave) : SMap (List QWord) :=
  match w.ap with
  | some p => p.queues
  | none => ((w.bound.bind fun a => (apOf s a).ap).map (·.queues)).getD []

/-- Whether a program is bound to a wave that has not ended. -/
def programRuns (s : State) (w : Wave) : Bool :=
  ((w.bound.bind fun a => (apOf s a).ap).map fun p => !p.ended).getD false

/-- The lowest free context of a core's access processor (04 R96). -/
def apKey (ctx core i : Nat) : Nat := ctx * 131072 + core * 16 + i

def freeApKey (s : State) (ctx core : Nat) : Option Nat :=
  ((List.range 16).map (apKey ctx core)).find? fun k => !(apOf s k).present

/-- The package of a bin handle. -/
def handlePkg (h : Nat) : Nat := h / 2 ^ 14 % 128

/-- Whether a handle's bin lies on another package: a proxy push goes to a shadow queue. -/
def remotePush (s : State) (proxy : Bool) (h : Nat) : Bool := proxy && handlePkg h != s.pkg

/-- The unit that a push goes to: the bin's sluice unit, or the culvert of the issuing die. -/
def pushUnit (s : State) (die h : Nat) (proxy : Bool) : Nat :=
  if remotePush s proxy h then 24 + die else h % 2 ^ 14 / 512

/-- Commands held at a unit (04 R107). -/
def heldAtUnit (s : State) (u : Nat) : Bool := s.pushes.any fun p => pushUnit s (p.wave % 131072 / 64 / 48) p.h p.proxy == u

/-- Whether what a word waits for is there. -/
def stallOver (s : State) (w : Wave) (st : Stall) : Bool :=
  let c := ctxOf s w.ctx
  let g := groupOf s w.group
  match st with
  | .ats ps => ps.all fun p => !c.ats.contains p
  | .answers rs _ => rs.all fun r => (Table.get? s.remotes r).isNone
  | .engine ps => ps.isEmpty || ps.any fun p => !pageAwaited c p
  | .lines ls => ls.all fun i => Table.getD g.pend i 0 == 0
  | .words ns => !programRuns s w || ns.all fun n => n.2 ≤ readyWords (Table.getD (queuesOf s w) n.1 [])
  | .room q n => (Table.getD (queuesOf s w) q []).length + n ≤ 256
  | .items n =>
    let la := Table.getD s.launches (g.launch.getD 0) {}
    n ≤ (Table.getD la.itemq w.core []).length || la.nextItem ≥ la.items
  | .copyRoom n => copiesOn s w.core + n ≤ 256
  | .batches cs => cs.all fun k => (Table.get? s.copies k).isNone
  | .bytes os => os.all fun o => (barWordOf g o).1
  | .fork => !programRuns s w && (freeApKey s w.ctx w.core).isSome
  | .guard i => match Table.getD w.guards i.toNat .isTrue with
    | .pending .. => false
    | _ => true
  | .passes l => l.any fun p => !c.passes.contains p
  | .taskRoom n => (s.tasks.filter fun t => t.2.wave == w.key && !t.2.running).length + n ≤ 16
  | .counter pa low => seenRead s w.core pa 8 ≥ low
  | .push u => !heldAtUnit s u
  | .unit die => (s.scans.filter fun e => e.2.die == die).length < 16

/-- Words of a program that stand before its m-th `rdv` and have not landed (04 R100). -/
def owedWords (p : Ap) (m : Nat) : Bool :=
  p.queues.any fun q => q.2.any fun x => match x with
    | .reserved _ _ n => n < m
    | _ => false

/-- Whether the partner of a wave's m-th `rdv` has been issued, with the words before it delivered (04 R100). -/
def rdvMet (p : Ap) (m : Nat) : Bool := (p.ended || p.rdvs ≥ m) && !owedWords p m

/-- The package that a `.pod` barrier cannot reach. -/
def lostPackage (s : State) : Word32 := BitVec.ofNat 32 ((s.lost.headD 0) * 256)

/-- Whether a wait on the pod has lasted for the remote timeout while the pod is degraded (03 R90). -/
def podLate (s : State) (ctx : Nat) (since : Nat) : Bool :=
  s.degraded && s.wall ≥ since + (ctxOf s ctx).cfg.timeoutUs * 1000

/-- The targets of a `pxflush.wait` whose records have not all been entered or dropped (04 R124). -/
def flushOpen (s : State) (ctx : Nat) (ts : List (Nat × Nat)) : List (Nat × Nat) :=
  ts.filter fun t => (ctxOf s ctx).shadows.any fun q => q.die * 2 ^ 40 + q.bin == t.1 && q.entered < t.2

/-- A `pxflush.wait` that covers records for a lost package has lasted for the remote timeout in a degraded pod. -/
def flushLate (s : State) (ctx : Nat) (ts : List (Nat × Nat)) (since : Nat) : Bool :=
  podLate s ctx since && (flushOpen s ctx ts).any fun t => s.lost.contains (handlePkg (t.1 % 2 ^ 40))

/-- Whether a thread's wait is over, so that its word can issue. -/
def waitOver (s : State) (w : Wave) (l : Lane) : Bool :=
  match l.wait with
  | .none => true
  | .stall st => stallOver s w st
  | .held | .tramp _ => false
  | .barHeld sc _ _ _ since => sc == .pod && podLate s w.ctx since
  | .bar sc num ph since =>
    (barrierOf s w.group sc (barrierKey sc w.core num)).phase > ph || (sc == .pod && podLate s w.ctx since)
  | .barvPod since => !s.degraded || podLate s w.ctx since
  | .sleep t => (match w.ap with
      | some a => (waveOf s a.owner).run
      | none => w.run) ≥ t
  | .rdv m => match w.ap with
      | some a => (waveOf s a.owner).rdvs ≥ m
      | none => ((w.bound.bind fun a => (apOf s a).ap).map fun p => rdvMet p m).getD true
  | .flush ts since => (flushOpen s w.ctx ts).isEmpty || flushLate s w.ctx ts since
  | .tasks ids => ids.all fun i => (Table.get? s.tasks i).isNone

/-- A thread can issue, or its word be tried again. -/
def laneReady (s : State) (w : Wave) (i : Fin 32) : Bool := issuable w.lanes[i] && waitOver s w w.lanes[i]

/-- A wave is ready when one of its path groups can issue; one that is parked, at a word with the W bit while results are in
flight, or as a whole with FRAGFULL, is not (03 R82 to R84, 17 R372). -/
def waveReady (s : State) (w : Wave) : Bool :=
  w.present && !w.parked && !(w.swappable && !w.vfly.isEmpty) && fullOver s w && (List.finRange 32).any (laneReady s w)

/-- A wave that is not ready while time passes up to a wall time is ready since then at the earliest (03 R85). -/
def noteReady (s : State) (t : Nat) (w : Wave) : Wave := if waveReady s w then w else { w with readySince := t }

/-- Wall time passes: every core's cycle counter runs on, and so do the run counters and timers of resident waves, one cycle
a nanosecond (01 R23, log 10). -/
def passTime (s : State) (ns : Nat) : State :=
  let f := fun (w : Wave) => if residentCtx s w.ctx then passWave ns w else w
  { s with
    wall := s.wall + ns,
    cycles := s.cycles + ns,
    paired := [],
    me := if s.me.present && s.me.ap.isNone then f s.me else s.me,
    waves := Table.mapVals s.waves fun _ w => f (noteReady s (s.wall + ns) w) }

/-- Time passes until a wall time, if that is still to come. -/
def passTo (s : State) (t : Nat) : State := if s.wall < t then passTime s (t - s.wall) else s

/-- The pending wave to swap in: ready, of highest priority, then oldest (03 R83). -/
def swapIn (s : State) (ctx core : Nat) : Option Wave :=
  (allWaves s).foldl (fun o w =>
    if w.ctx == ctx && w.core == core && !w.active && waveReady s w then
      match o with
      | some b => if w.prio > b.prio || (w.prio == b.prio && w.age < b.age) then some w else o
      | none => some w
    else o) none

/-- `yield`: the wave becomes the youngest pending one if a ready one takes its slot (03 R76). -/
def execYield (h : Head) (s : State) : Host.Outcome State Fault Refusal :=
  done (if active s h == 0 then passOn s
    else
      let s := match swapIn s s.me.ctx s.me.core with
        | none => s
        | some b =>
          let s := { s with ageCount := s.ageCount + 1 }
          let s := modMe s fun w => { w with active := false, age := s.ageCount, readySince := s.wall }
          modWave s b.key fun w => { w with active := true }
      passOn s)

/-- The run counter that a sleep of the issuing wave or program counts (01 R23). -/
def runNow (s : State) : Nat :=
  match s.me.ap with
  | some a => (waveOf s a.owner).run
  | none => s.me.run

/-- `sleep n` parks the path group for n run cycles (03 R76). -/
def execSleep (h : Head) (n : BitVec 24) (s : State) : Host.Outcome State Fault Refusal :=
  done (match s.me.lanes[lowest s.iss].wait with
    | .sleep t => if runNow s ≥ t then passOn s else s
    | _ =>
      if active s h == 0 || n == 0 then passOn s
      else commitWith s [] fun s => modMe s fun w =>
        mapLanes w s.iss fun _ l => { l with wait := .sleep (runNow s + n.toNat) })

/-! ### Barriers (03 R86 to R88, R90) -/

/-- Lanes that wait for a phase: they go on once it has completed. -/
def barWaiting (sc : Scope) (num ph since : Nat) (s : State) : State :=
  if (barrierOf s s.me.group sc (barrierKey sc s.me.core num)).phase > ph then passOn s
  else if sc == .pod && podLate s s.me.ctx since then
    commitWith s (faultLanes s.iss .remoteTimeout 0 (lostPackage s)) id
  else s

/-- Arrive at a barrier with the active lanes; `wait` tells `bar` from `barv` (03 R86 to R88). In a degraded pod a `barv.pod`
waits at its word too (03 R90, log 85). Where path groups or waves of the first group to arrive at a wider barrier give
different counts, the count of its last arrival stands (R87, log 86). -/
def barArrive (sc : Scope) (num : Nat) (count : Nat) (wait : Bool) (m : LaneMask) (s : State) : State :=
  let key := barrierKey sc s.me.core num
  let ph := (barrierOf s s.me.group sc key).phase
  let again := m &&& lanesWhere s.me fun l => arrivedIn l key == some ph
  let first := m &&& ~~~again
  commitWith (releaseAt s s.me.core sc) [] fun s =>
    let s := if first == 0 then s else modGroup s s.me.group fun g =>
      let o := Table.getD g.bars key {}
      let n := if o.phase == ph then o.threads else 0
      { g with bars := Table.set g.bars key { o with phase := ph, threads := n + (lanesIn first).length, expected := count } }
    let s := modMe s fun w => mapLanes w first fun _ l => { l with arr := Table.set l.arr key ph }
    let s := if wait then modMe s fun w => mapLanes w first fun _ l => { l with wait := .bar sc num ph s.wall }
      else if sc == .pod && s.degraded then modMe s fun w => mapLanes w first fun _ l => { l with wait := .barvPod s.wall }
      else advanceMe s first
    let s := modMe s fun w => mapLanes w again fun _ l => { l with wait := .barHeld sc num ph wait s.wall }
    advanceMe s (s.iss &&& ~~~m)

/-- `bar` and `barv`; a poisoned count is a poisoned source (18 R403). -/
def barWord (h : Head) (sc : Scope) (num : BitVec 4) (cnt : Option Operand) (wait : Bool) (s : State) : State :=
  match s.me.lanes[lowest s.iss].wait with
  | .bar sc' num' ph since => barWaiting sc' num' ph since s
  | .barvPod since =>
    if !s.degraded then passOn s
    else if podLate s s.me.ctx since then commitWith s (faultLanes s.iss .remoteTimeout 0 (lostPackage s)) id
    else s
  | .barHeld _ _ _ _ since =>
    if podLate s s.me.ctx since then commitWith s (faultLanes s.iss .remoteTimeout 0 (lostPackage s)) id else s
  | _ =>
    let m := active s h
    let n := match cnt with
      | some o => (src32 s o 0).toNat
      | none => 1
    let bad : LaneMask := match cnt with
      | some o => poisonLanes s [(o, 1)] m
      | none => 0
    if m == 0 then passOn s
    else if bad != 0 then
      commitWith s (faultLanes m .poison) fun s => advanceMe s (s.iss &&& ~~~m)
    else if n == 0 || n > 16777216 then illegalWord s
    else barArrive sc num.toNat n wait m s

def execBar (h : Head) (sc : Scope) (num : BitVec 4) (cnt : Option Operand) (s : State) :
    Host.Outcome State Fault Refusal := done (barWord h sc num cnt true s)

def execBarv (h : Head) (sc : Scope) (num : BitVec 4) (cnt : Option Operand) (s : State) :
    Host.Outcome State Fault Refusal := done (barWord h sc num cnt false s)

/-- `barw` waits for the phase of a thread's last arrival (03 R88). -/
def execBarw (h : Head) (sc : Scope) (num : BitVec 4) (s : State) : Host.Outcome State Fault Refusal :=
  done (match s.me.lanes[lowest s.iss].wait with
    | .bar sc' num' ph since => barWaiting sc' num' ph since s
    | _ =>
      let key := barrierKey sc s.me.core num.toNat
      let open_ := (barrierOf s s.me.group sc key).phase
      let hold := active s h &&& lanesWhere s.me fun l => (match arrivedIn l key with
        | some p => p ≥ open_
        | none => false)
      commitWith s [] fun s =>
        let s := modMe s fun w => mapLanes w hold fun _ l =>
          { l with wait := .bar sc num.toNat ((arrivedIn l key).getD 0) s.wall }
        advanceMe s (s.iss &&& ~~~hold))

/-- `wprio` (03 R77). -/
def execWprio (h : Head) (p : BitVec 2) (s : State) : Host.Outcome State Fault Refusal :=
  done (onceInstr h [] s fun _ s => modMe s fun w => { w with prio := p.toNat })

/-! ### Trampolines (03 R78) -/

/-- `tramp`: active lanes go to the target with their return slot set; the others are held at the next word. -/
def execTramp (h : Head) (off : BitVec 32) (s : State) : Host.Outcome State Fault Refusal :=
  let m := active s h
  let t := relTarget s off
  if m == 0 then done (passOn s)
  else
    finish (withTargets s [t] fun s =>
      let set := m &&& lanesWhere s.me fun l => l.tret.isSome
      let fs := faultLanes set .illegal ++ ((lanesIn (m &&& ~~~set)).filterMap fun l => match succTo s l t noTag with
        | .fault f => some f
        | _ => none)
      let bad := maskOf (fs.map (·.lane))
      let go := m &&& ~~~bad
      let (id, s) := freshNo s
      let k := kernOf s
      commitWith (askFaults s fs) fs fun s => modMe s fun w =>
        let w := if go == 0 then w else { w with away := some (id, s.iss) }
        let w := mapLanes w go fun _ l =>
          arrive k { l with tret := some { ret := l.pc + 8, depth := l.meets.length, hdr := l.hdr, hword := l.hword,
                                           code := l.code, id := id },
                            kept := [], answers := [], skipWatch := false, stepFirst := false } t
        mapLanes w (s.iss &&& ~~~m) fun _ l =>
          let l := nextWord k l
          if go == 0 then l else { l with wait := .tramp id })

/-- A lane back at the word after its `tramp`, where it waits for the other lanes of that `tramp`. -/
def trampBack (l : Lane) (t : Tramp) : Lane :=
  let back := { l with tret := none, pc := t.ret, wait := .tramp t.id, kept := [], answers := [], skipWatch := false,
                       stepFirst := false }
  if (t.ret - t.hdr).toNat > 8 * t.code.length then { back with hdr := t.ret, hword := 0, code := [] }
  else { back with hdr := t.hdr, hword := t.hword, code := t.code }

/-- `tret` ends the trampoline of its active lanes. A guarded one that ends a divergent block leaves lanes at several next
addresses and pushes no meeting: the meeting state stays as it is without the trampoline (03 R78, log 87). -/
def execTret (h : Head) (s : State) : Host.Outcome State Fault Refusal :=
  let m := active s h
  let k := kernOf s
  let fs := (lanesIn m).filterMap fun l => match s.me.lanes[l].tret with
    | none => some ({ lane := l, cause := .illegal } : LaneFault)
    | some t =>
      if t.depth == s.me.lanes[l].meets.length then none
      else some { lane := l, cause := .depth, detail := BitVec.ofNat 32 k.depth }
  let bad := maskOf (fs.map (·.lane))
  done (commitWith s fs fun s =>
    let s := modMe s fun w => mapLanes w (m &&& ~~~bad) fun _ l => match l.tret with
      | some t => trampBack l t
      | none => l
    advanceMe s (s.iss &&& ~~~m))

/-- `toolop`: each active lane faults with TOOLOP (02 R50). -/
def execToolop (h : Head) (n : Fin 6) (_ : BitVec 47) (s : State) : Host.Outcome State Fault Refusal :=
  let m := active s h
  done (commitWith s (faultLanes m .toolop 0 (BitVec.ofNat 32 n.val)) fun s => advanceMe s (s.iss &&& ~~~m))

end Sys2Proof.Machine
end

