-- ==== Sys2Proof/Machine/Issue.lean ====
section
/-! DEFINITION. What stands around an instruction: which path group issues, entering a block, what may not stand at a word,
stops and timers, and what is kept when the word is done (spec 02 R27 to R29, R42, R47, R48, 03 R59 to R65 and R82 to R85,
04 R93, R95 and R106, 17 R394 and R396). -/
namespace Sys2Proof.Machine

/-! ### The registers an instruction names (02 R42) -/

/-- Registers of a data size. -/
def dataWords : Size → Nat
  | .b64 => 2
  | .b128 => 4
  | _ => 1

def viewWords : VSize → Nat
  | .b64 => 2
  | _ => 1

/-- The operands of a program instruction, each with the registers it names, destinations first. -/
def operandsOf : Instr → List (Operand × Nat)
  | .brx _ kind r _ => [(r, match kind with
      | .rel => 1
      | _ => 2)]
  | .call _ l _ | .ret _ l => [(l, 2)]
  | .bar _ _ _ (some o) | .barv _ _ _ (some o) => [(o, 1)]
  | .iadd _ ty _ d a b | .isub _ ty _ d a b | .imul _ ty _ d a b | .imulh _ ty d a b | .imin _ ty d a b
  | .imax _ ty d a b => let n := widthWords ty.width; [(d, n), (a, n), (b, n)]
  | .iaddImm _ ty _ d a _ | .isubImm _ ty _ d a _ | .imulImm _ ty _ d a _ | .iminImm _ ty d a _ | .imaxImm _ ty d a _
  | .bfxImm _ ty d a _ => let n := widthWords ty.width; [(d, n), (a, n)]
  | .imad _ ty _ d a b c => let n := widthWords ty.width; [(d, n), (a, n), (b, n), (c, n)]
  | .iabs _ w _ d a | .ineg _ w _ d a | .not _ w d a | .andImm _ w d a _ | .orImm _ w d a _ | .xorImm _ w d a _
  | .shlImm _ w d a _ | .shrImm _ w d a _ | .sarImm _ w d a _ | .rotImm _ w d a _ | .brev _ w d a | .mov _ w d a =>
    [(d, widthWords w), (a, widthWords w)]
  | .idot4 _ _ _ _ d a b c => [(d, 1), (a, 1), (b, 1), (c, 1)]
  | .and _ w d a b | .or _ w d a b | .xor _ w d a b | .sel _ w d a b _ =>
    [(d, widthWords w), (a, widthWords w), (b, widthWords w)]
  | .bool3 _ w _ d a b c => [(d, widthWords w), (a, widthWords w), (b, widthWords w), (c, widthWords w)]
  | .shl _ w d a b | .shr _ w d a b | .sar _ w d a b | .rot _ w d a b => [(d, widthWords w), (a, widthWords w), (b, 1)]
  | .bfx _ ty d a b => [(d, widthWords ty.width), (a, widthWords ty.width), (b, 1)]
  | .bfi _ w d a b c => [(d, widthWords w), (a, widthWords w), (b, 1), (c, widthWords w)]
  | .popc _ w d a | .clz _ w d a | .matchLanes _ w d a => [(d, 1), (a, widthWords w)]
  | .icmp _ ty _ _ a b => [(a, widthWords ty.width), (b, widthWords ty.width)]
  | .icmpImm _ ty _ _ a _ => [(a, widthWords ty.width)]
  | .lea _ _ _ d a b => [(d, 2), (a, 2), (b, 1)]
  | .leaImm _ _ d a _ => [(d, 2), (a, 2)]
  | .movi _ w d _ => [(d, widthWords w)]
  | .movw _ d _ => [(d, 1)]
  | .mad64 _ _ d a b c => [(d, 2), (a, 1), (b, 1), (c, 2)]
  | .fadd _ _ d a b | .fsub _ _ d a b | .fmul _ _ d a b | .fmin _ d a b | .fmax _ d a b => [(d, 1), (a.o, 1), (b.o, 1)]
  | .ffma _ _ d a b c | .fdot2 _ _ _ d a b c => [(d, 1), (a.o, 1), (b.o, 1), (c.o, 1)]
  | .fcmp _ _ _ a b => [(a.o, 1), (b.o, 1)]
  | .fclass _ d a | .frcp _ _ d a | .frsq _ d a | .fsqrt _ _ d a | .fex2 _ d a | .flg2 _ d a | .fsin _ d a | .fcos _ d a
  | .ftanh _ d a => [(d, 1), (a.o, 1)]
  | .cvt _ kind d a => [(d, widthWords kind.dstWidth), (a, widthWords kind.srcWidth)]
  | .fcvt _ _ _ _ d a | .funpk _ _ _ d a | .lgcvt _ _ _ d a => [(d, 1), (a, 1)]
  | .fpack _ _ _ _ d a b c => [(d, 1), (a, 1), (b, 1), (c, 1)]
  | .srnd _ a => [(a, 1)]
  | .qe8 _ _ d a b => [(d, 1), (a, 8), (b, 1)]
  | .qe8m _ _ d a b c => [(d, 1), (a, 8), (b, 1), (c, 1)]
  | .de8 _ _ d a b => [(d, 8), (a, 1), (b, 1)]
  | .e8scl _ d a => [(d, 1), (a, 8)]
  | .shfl _ _ wide d a b => [(d, widthWords (widthOf wide)), (a, widthWords (widthOf wide)), (b, 1)]
  | .vote _ _ _ d _ | .kpop _ d _ | .kfirst _ d _ => [(d, 1)]
  | .wred _ _ _ d a | .wpfx _ _ _ _ d a => [(d, 1), (a, 1)]
  | .kmov _ (.kr _ a) => [(a, 1)]
  | .kmov _ (.rk d _) => [(d, 1)]
  | .ld _ sz _ _ _ d m => [(d, dataWords sz), (m.base, 2), (m.index, 1)]
  | .st _ sz _ _ _ x m => [(x, dataWords sz), (m.base, 2), (m.index, 1)]
  | .ldsp _ sz _ d m => [(d, dataWords sz), (m.base, 1), (m.index, 1)]
  | .stsp _ sz _ x m => [(x, dataWords sz), (m.base, 1), (m.index, 1)]
  | .ldc _ sz d base _ => [(d, dataWords sz), (base, 1)]
  | .zfill _ m | .pref _ _ m | .tsub _ _ m => [(m.base, 2), (m.index, 1)]
  | .atom _ op _ wide _ _ d base x =>
    let n := widthWords (widthOf wide); [(d, n), (base, 2), (x, if op == .cas then 2 * n else n)]
  | .atomsp _ op _ wide _ d base x =>
    let n := widthWords (widthOf wide); [(d, n), (base, 1), (x, if op == .cas then 2 * n else n)]
  | .atomf _ base x => [(base, 2), (x, 1)]
  | .red _ _ _ wide _ _ x base => [(x, widthWords (widthOf wide)), (base, 2)]
  | .tlbinv _ _ (some (a, b)) => [(a, 2), (b, 1)]
  | .cpy _ dir _ _ _ d a b c =>
    let n := fun (x : Bool) => if x then 2 else 1
    [(d, n (dir == .gg || dir == .gs)), (a, n (dir == .gg || dir == .sg)), (b, 1), (c, 1)]
  | .cseal _ d => [(d, 1)]
  | .cwait _ b | .bwait _ b => [(b, 1)]
  | .bxpAdd _ b n | .bxpSet _ b n => [(b, 1), (n, 1)]
  | .twait _ t m => [(t, 2), (m.base, 2), (m.index, 1)]
  | .tdesc _ d a b | .tdget _ d a b | .hsget _ d a b | .hsclr _ d a b => [(d, 1), (a, 2), (b, 1)]
  | .weir _ d a | .detok _ _ d a => [(d, 1), (a, 2)]
  | .pin _ d base len _ => [(d, 1), (base, 2), (len, 1)]
  | .unpin _ d base => [(d, 1), (base, 2)]
  | .vdef _ d a b | .vdefVoc _ d a b => [(d, 1), (a, 2), (b, 1)]
  | .vld _ sz d m => [(d, viewWords sz), (m.base, 1), (m.index, 2)]
  | .vmap _ d a b => [(d, 2), (a, 1), (b, 2)]
  | .vfind _ d a b _ => [(d, 2), (a, 1), (b, 1)]
  | .vtouch _ a b => [(a, 1), (b, 2)]
  | .vpin _ d a b | .vunpin _ d a b => [(d, 1), (a, 1), (b, 2)]
  | .vstat _ op d a b => [(d, match op with
      | .dense | .anch => 2
      | _ => 1), (a, 1), (b, 2)]
  | .ssealAdv _ d a b | .ssealNew _ d a b | .ssealDrop _ d a b => [(d, 1), (a, 1), (b, 2)]
  | .dlv _ _ _ _ m => [(m.base, 2), (m.index, 1)]
  | .qstat _ d _ | .slinfo _ _ d => [(d, 1)]
  | .slcfg _ d a b => [(d, 1), (a, 2), (b, 1)]
  | .slpush _ sz _ a b | .pxpush _ sz _ a b => [(a, sz.words), (b, 1)]
  | .slcomb _ d base => [(d, 1), (base, 1)]
  | .ccause _ d a => [(d, 2), (a, 2)]
  | .rdsr _ d sr => [(d, widthWords sr.width)]
  | .wrsr _ sr a => [(a, widthWords sr.width)]
  | .rdclk _ _ d => [(d, 2)]
  | .wtimer _ a => [(a, 1)]
  | .fragMask _ d a | .fragState _ d a | .fragKill _ d a | .fragResume _ d a | .mboxLd _ d a | .haltStop _ d a
  | .haltGo _ d a | .haltStep _ d a => [(d, 1), (a, 1)]
  | .mboxSt _ a b => [(a, 1), (b, 1)]
  | .nop _ | .bra _ _ | .brc _ _ _ _ | .meetDrop _ | .meetPush _ | .exit _ | .refill _ _ | .yield _ | .sleep _ _
  | .bar _ _ _ none | .barv _ _ _ none | .barw _ _ _ | .wprio _ _ | .tramp _ _ | .tret _ | .toolop _ _ _ | .inop _ _ _ _
  | .elect _ _ | .kmov _ (.kk _ _) | .kand _ _ _ _ | .kor _ _ _ _ | .kxor _ _ _ _ | .knot _ _ _ | .fence _ _ | .icinv _ _
  | .tlbinv _ _ none | .fork _ _ | .rdv _ | .gset _ _ _ _ | .pxflush _ _ | .tfence _ | .trap _ _ | .bkpt _ _ | .hret _ _
  | .mboxRing _ | .smark _ _ => []
  | .dike _ | .create _ | .destroy _ | .update _ | .mapq _ | .zeroRange _ | .zone _ | .cold _ | .disturb _ | .podclr _
  | .debugHaltStop _ | .debugHaltGo _ | .debugHaltStep _ | .debugFragMask _ | .debugFragState _ | .debugFragKill _
  | .debugFragResume _ | .traceBuf _ | .spare _ | .power _ => []
  | .adminDoorbell _ | .admctl _ | .doorbell .. | .mgmtDoorbell .. | .faultPendingClear .. | .mailboxPendingClear ..
  | .prien .. | .registerWrite .. | .hostBar2 .. | .mgmtSsealNew .. | .mgmtSsealDrop .. | .mgmtSsealAdv ..
  | .mgmtVdefVoc .. => []
  | .launchRecord _ | .distributorTurn _ | .nodeGroupStart _ | .itemQueueRefill .. | .groupRetire _ | .reductionLogApply _
  | .waveSwap _ | .forcedSwap _ | .loadResultReturn .. | .sleepExpiry _ | .waveTimerExpiry _ | .dlvReadReturn ..
  | .guardResolve .. | .redApply _ | .copyLand .. | .copyFail .. | .tileTaskStart _ | .tileTaskEnd _ | .tileTaskFail ..
  | .extentBuildEnd .. | .evictionRescan _ | .viewSweep .. | .detokProcess _ | .weirScanDone _ | .polderFadeTick _
  | .sluiceAgeReady _ | .spillTimeout _ | .shadowQueueAge .. | .remoteBatchEntry .. => []
  | .priSuccess .. | .priInvalidRequest .. | .priResponseFailure .. | .atsInvalidation .. | .expansionDone ..
  | .timeSliceEnd _ | .contextSwitch _ | .bankSpillDone _ | .bankFillDone _ | .haltComplete _ | .remoteResponse ..
  | .remoteTimeout _ | .inbound .. | .portFailure _ | .supplySag .. | .stretchRelease _ | .powerSample _ | .thermalStep ..
  | .thermalTrip _ | .patrolScrub .. | .rowSpareSwitch _ | .traceSampleReturn .. | .coldReset | .flrVf _ | .flrPf
  | .extentEvictionEnd .. | .passEnd .. | .adminCommandComplete | .atsCompletion .. | .podDegradedTimeout _
  | .stackAlert _ | .refreshCommand .. => []

/-- Every named register lies below the declared counts. -/
def declared (vregs sregs : Nat) (os : List (Operand × Nat)) : Bool :=
  os.all fun e => match e.1 with
    | .v n => n.val + e.2 ≤ vregs
    | .s n => n.val + e.2 ≤ sregs
    | _ => true

/-! ### Address programs (04 R93, R95) -/

/-- Operands that an address program may name. -/
def apOperand (e : Operand × Nat) : Bool :=
  match e.1 with
  | .s n => n.val + e.2 ≤ 32
  | .zero => true
  | .special .lane | .special .item | .special .frag | .special .frame => false
  | .special _ => true
  | .v _ | .q _ => false

/-- Whether an address program executes an instruction. -/
def apExecutes (i : Instr) : Bool :=
  let op := (i.encode.extractLsb' 52 10).toNat
  let dst := match (operandsOf i).head? with
    | some (.s _, _) => true
    | _ => false
  (match i with
    | .icmp .. | .icmpImm .. => true
    | .kmov .. | .kand .. | .kor .. | .kxor .. | .knot .. | .kpop .. | .kfirst .. => true
    | .nop .. | .bra .. | .brc .. | .sleep .. | .exit .. | .rdv .. | .dlv .. => true
    | .brx _ .scalar _ _ => true
    | _ => 0x040 ≤ op && op < 0x0C0 && dst) && (operandsOf i).all apOperand

/-- `dlv` executes in no wave. -/
def waveExecutes : Instr → Bool
  | .dlv .. => false
  | _ => true

/-- Whether a decoded instruction may stand at this word of the issuing path group: block ends, declared counts, and the
agents that execute it (02 R29, R42, 04 R93, R95). -/
def mayStand (s : State) (i : Instr) : Bool :=
  let l := s.me.lanes[lowest s.iss]
  (!i.endsBlock || (l.pc - l.hdr).toNat == 8 * l.code.length) &&
    (if s.me.ap.isSome then apExecutes i
      else waveExecutes i && declared (kernOf s).vregs (kernOf s).sregs (operandsOf i))

/-- The instruction that the word at an instruction position stands for, or none: it raises ILLEGAL at decode
(02 R28, R47, R48). -/
def wordInstr (s : State) (w : Word64) : Option Instr :=
  if isHeader w then none
  else
    match decode w with
    | some i => if mayStand s i then some i else none
    | none => none

/-! ### Results in flight (03 R83, 04 R106) -/

/-- Numbers of the registers that an operand list names. -/
def regNumbers (os : List (Operand × Nat)) : List Nat :=
  os.flatMap fun e => match e.1 with
    | .v n => (List.range e.2).map (n.val + ·)
    | .s n => (List.range e.2).map (384 + n.val + ·)
    | _ => []

/-- A word that pops a delivery queue. -/
def popsQueue (i : Instr) : Bool := (operandsOf i).any fun e => match e.1 with
  | .q _ => true
  | _ => false

/-- Register destinations whose result has a long latency: loads, view loads, atomics with return, sluice reads, delivery
pops (03 R83). -/
def longResult (i : Instr) : List (Operand × Nat) :=
  match i with
  | .ld .. | .ldsp .. | .ldc .. | .atom .. | .atomsp .. | .vld .. | .vmap .. | .vfind .. | .slinfo .. => (operandsOf i).take 1
  | .qstat .. => []
  | _ => if popsQueue i then (operandsOf i).take 1 else []

/-- The mask register that an instruction writes per lane. -/
def maskResult : Instr → Option Nat
  | .icmp _ _ _ k _ _ | .icmpImm _ _ _ k _ _ | .fcmp _ _ k _ _ | .vfind _ _ _ _ k | .elect _ k => some k.toNat
  | _ => none

/-- A register read waits for its producer, so what an instruction names is in flight no more; the mask of a compare
that waits so is itself in flight. -/
def takeFlight (w : Wave) (i : Instr) (m : LaneMask) : Wave :=
  match w.vfly with
  | [] => w
  | fly =>
    let named := regNumbers (operandsOf i)
    let hit := fly.any named.contains
    { w with
      vfly := fly.filter fun r => !named.contains r,
      kfly := match maskResult i with
        | some k => if hit then Table.set w.kfly k ((lanesIn m).map (·.val)) else w.kfly
        | none => w.kfly }

/-- Long-latency results of a word are in flight once it has issued. A mask bit of a lane whose fragment is to execute
the word again is in flight too; one of lane 0 that lands gives its value to a guard that waits for it. -/
def landFlight (s : State) (wk : Nat) (i : Instr) (m : LaneMask) : State :=
  let w := waveOf s wk
  if !w.present then s
  else
    let gone := lanesIn m |>.filter fun l => match w.lanes[l].life with
      | .frag _ => true
      | _ => false
    let stays := lanesIn m |>.filter fun l => !gone.contains l && !(match w.lanes[l].wait with
      | .stall _ => true
      | _ => false)
    let new := if stays.isEmpty then [] else regNumbers (longResult i)
    let s := match new with
      | [] => s
      | _ => modWave s wk fun w => { w with vfly := new.foldl (fun t r => insertNat r t) w.vfly }
    match maskResult i with
    | none => s
    | some k =>
      let old := Table.getD w.kfly k []
      let s := match i with
        | .vfind .. =>
          let now := ((old.filter fun x => !stays.any fun l => l.val == x) ++ (lanesIn m).map (·.val)).eraseDups
          modWave s wk fun w => { w with kfly := Table.put w.kfly k [] now }
        | _ =>
          let now := (old ++ gone.map (·.val)).eraseDups
          if gone.isEmpty then s else modWave s wk fun w => { w with kfly := Table.put w.kfly k [] now }
      if stays.contains 0 then
        mapGuards s wk fun g => match g with
          | .pending v k' bits =>
            if k' == 16 + k then .pending ((Table.getD (waveOf s wk).k k 0).getLsbD 0) k bits else .pending v k' bits
          | g => g
      else s

/-! ### Whose turn it is (03 R60, R82) -/

/-- A resident context whose quads have their accumulators and tile queues back (16 R356). -/
def quadsReady (s : State) (ctx : Nat) : Bool :=
  let d := Table.getD s.dikes (ctxOf s ctx).cfg.dike {}
  d.running == some ctx && !d.spilling && !d.filling

/-- Lanes above a number, then the others, ascending. -/
def turnOrder (low : Nat) : List (Fin 32) :=
  (List.finRange 32).filter (fun i => i.val > low) ++ (List.finRange 32).filter fun i => i.val ≤ low

/-- The lowest thread of a path group that can issue: a turn names a path group by it (03 R60). -/
def leadsGroup (s : State) (w : Wave) (i : Fin 32) : Bool := laneReady s w i && lowest (pathGroup w i) == i

/-- A thread that stands at an instruction position and can go on. -/
def insideBlock (l : Lane) : Bool := l.life == .live && !atHeader l && l.wait == .none && !l.stopped

/-- A thread that a `tramp` execution has sent away. -/
def isAway (l : Lane) (id : Nat) : Bool := l.life != .exited && (match l.tret with
  | some t => t.id == id
  | none => false)

/-- The path group, among those that satisfy a test, to which the turn passes: its lowest thread is the smallest one above
that of the finishing group, or the smallest of all (03 R60). -/
def passTurn (s : State) (w : Wave) (p : LaneMask → Bool) : LaneMask :=
  match (turnOrder w.turnLow).find? fun i => leadsGroup s w i && p (pathGroup w i) with
  | some j => pathGroup w j
  | none => 0

/-- The path group that issues next: the one inside its block goes on; while a `tramp` of the path group that holds the turn
lasts, the turn stays among the threads it sent away (03 R78, log 88); otherwise it passes on (03 R59, R60). A wave that
parked with FRAGFULL goes on with the path group it parked at (17 R372). -/
def nextGroup (s : State) (w : Wave) : LaneMask :=
  let pass := match w.away with
    | some (id, _) =>
      let m := passTurn s w fun g => (lanesIn g).any fun i => isAway w.lanes[i] id
      if m != 0 then m else passTurn s w fun _ => true
    | none => passTurn s w fun _ => true
  if !fullOver s w then 0
  else
    match w.inBlock with
    | some l =>
      let i : Fin 32 := Fin.ofNat 32 l
      if laneReady s w i && (insideBlock w.lanes[i] || w.full != 0) then pathGroup w i else pass
    | none => pass

/-- The turn after a word of the lanes of a mask: it stays with those that stand inside their block, and passes on from their
lowest lane otherwise. -/
def turnAfter (w : Wave) (m : LaneMask) : Wave :=
  match (lanesIn m).find? fun i => insideBlock w.lanes[i] with
  | some i => { w with inBlock := some i.val }
  | none => { w with inBlock := none, turnLow := (lowest m).val }

/-- After a word the turn stays with the path group while some of it stands inside its block, and passes on otherwise; it
returns to the path group of a `tramp` with the last thread that was away. -/
def keepTurn (w : Wave) (m : LaneMask) : Wave :=
  if w.full != 0 then { w with inBlock := some (lowest m).val }
  else
    match w.away with
    | some (id, g) =>
      if (List.finRange 32).any fun i => isAway w.lanes[i] id then turnAfter w m
      else
        let left := g &&& lanesWhere w fun l => l.life != .exited
        turnAfter { w with away := none } (if left == 0 then g else left)
    | none => turnAfter w m

/-! ### Entering a block (02 R27, R28) -/

/-- The tag under which an address program's fetch asks for pages. -/
def apTag (k : Nat) : Nat := 2 ^ 45 + k

/-- A fault of an address program's fetch: a page that is asked for is waited for, unless it is refused (04 R101). -/
def apFetchFault (s : State) (c : Cause) (page : Option Nat) : State :=
  match page with
  | none => apStop s c.apCode
  | some p =>
    match (ctxOf s s.me.ctx).pri.find? fun q => q.page = p && q.tag = apTag s.me.key with
    | some q => if q.answer == .invalid || q.answer == .failure then apStop (engineDone s s.me.ctx (apTag s.me.key)) c.apCode
        else stallMe s s.iss (.engine [p])
    | none =>
      let s := if c == .expand then setCtx s s.me.ctx fun x =>
          if x.expanding.contains p then x else { x with expanding := x.expanding ++ [p] }
        else askPage s s.me.ctx { page := p, tag := apTag s.me.key }
      stallMe s s.iss (.engine [p])

/-- The header conditions that an address program's headers can fail (02 R28, 04 R95). -/
def apHeaderBad (h : Word64) (code : List Word64) : Bool :=
  headerBad (h &&& 0xFFF000000000000C#64) code

/-- A fetch that faults stops the issuing path group where it stands (02 R28, 04 R101). -/
def fetchFault (s : State) (c : Cause) (a : Word64) (d : Nat) (p : Option Nat) : State :=
  if s.me.ap.isSome then apFetchFault s c p
  else
    let fs := (lanesIn s.iss).map fun l =>
      ({ lane := l, cause := c, addr := a, detail := BitVec.ofNat 32 d, page := p } : LaneFault)
    commitWith (askFaults s fs) fs id

/-- The issuing path group takes the words of a block, at the position it stands at; a barrier wait stays in force. -/
def takeBlock (s : State) (pc h : Word64) (code : List Word64) : State :=
  modMe s fun w => mapLanes w s.iss fun _ l =>
    { l with pc := pc, hword := h, code := code, answers := [], wait := match l.wait with
      | .stall _ => .none
      | x => x }

/-- What the fetch of a block comes to, but for the block itself. -/
def fetchTrouble (s : State) (r : Resume) (go : Word64 → List Word64 → State) : State :=
  match r with
  | .inside h code => go h code
  | .wait ps => stallAts s s.iss (ps.map fun p => (p, false))
  | .send as => stallCode s as
  | .hole x => { s with stuck := some (.noSuchAddress x) }
  | .fault c a d p => fetchFault s c a d p

/-- The issuing path group enters the block of the header it stands at, or fetches the block of its resume point anew
(02 R27, R28, 19 R415). -/
def enterBlock (s : State) : State :=
  let l0 := s.me.lanes[lowest s.iss]
  let a := l0.hdr
  let ap := s.me.ap.isSome
  if vaPoisoned s s.me.ctx a 8 then fetchFault s .poison a 0 none
  else if l0.pc != a then
    fetchTrouble s (resumePlace s s.me.ctx s.me.core l0.answers l0.pc a) (takeBlock s l0.pc)
  else
    match fetchWord s s.me.ctx s.me.core l0.answers a with
    | .ats => stallAts s s.iss [(pageOf a, false)]
    | .send pa => stallCode s [(a, pa)]
    | .hole x => { s with stuck := some (.noSuchAddress x) }
    | .fault c d p => fetchFault s c a d p
    | .word h =>
      let s := { s with word := h }
      if !isHeader h then illegalWord s
      else
        let xs := blockFetches s s.me.ctx s.me.core l0.answers a (headerLength h)
        fetchTrouble s (blockFetch a h xs) fun h code =>
          if if ap then apHeaderBad h code else headerBad h code then illegalWord s
          else takeBlock s (a + 8) h code

/-! ### Stops and timers before a word (17 R388, R394, R396) -/

/-- Lanes of the path group that stop before the word: it is a safe point, and their group is stopping. -/
def stopsHere (s : State) (word : Word64) : LaneMask :=
  match (groupOf s s.me.group).halt with
  | .stopping _ =>
    let l0 := s.me.lanes[lowest s.iss]
    if isSafePoint (kernOf s) l0.pc word && l0.wait == .none then
      s.iss &&& lanesWhere s.me fun l => !l.stepFirst
    else 0
  | _ => 0

/-- Lanes for which a TIMER is due and that are about to issue. -/
def timersHere (s : State) : LaneMask :=
  s.iss &&& lanesWhere s.me fun l => l.timerDue && l.handler.isNone && (match l.wait with
    | .none | .stall _ => true
    | _ => false)

/-- Deliver TIMER: the lanes trap at the word they were about to issue, or their marks clear (17 R396). -/
def deliverTimer (s : State) (m : LaneMask) : State :=
  let clear := fun (s : State) => modMe s fun w => mapLanes w m fun _ l => { l with timerDue := false }
  if handlerEntry (handlerTable s s.me.ctx) .timer == 0 then clear s
  else commitWith s (faultLanes m .timer) clear

/-! ### What the next word of a wave is -/

/-- What issuing a wave comes to. -/
inductive Job
  /-- nothing but this state -/
  | state (s : State)
  /-- an instruction at a state whose issue stage holds the wave -/
  | run (i : Instr) (s : State)

/-- The word at which the issuing path group stands. -/
def wordHere (s : State) : Word64 :=
  let l := s.me.lanes[lowest s.iss]
  l.code.getD ((l.pc - l.hdr).toNat / 8 - 1) 0

/-- The issue stage holds a wave and its path group: it enters a block, faults at decode, stops, takes a timer, waits
under the switch marker, or runs its word (17 R394). -/
def issueJob (s : State) : Job :=
  let l0 := s.me.lanes[lowest s.iss]
  if unfetched l0 then .state (enterBlock s)
  else
    let word := wordHere s
    let s := { s with word := word }
    if vaPoisoned s s.me.ctx l0.pc 8 then .state (fetchFault s .poison l0.pc 0 none)
    else
      match wordInstr s word with
      | none => .state (illegalWord s)
      | some i =>
        if stopsHere s word != 0 then
          .state (modMe s fun w => mapLanes w (stopsHere s word) fun _ l => { l with stopped := true })
        else if timersHere s != 0 then .state (deliverTimer s (timersHere s))
        else if word.getLsbD 62 && !s.me.vfly.isEmpty then .state (modMe s fun w => { w with swappable := true })
        else .run i (modMe s fun w => takeFlight w i s.iss)

/-- Take a wave into the issue stage with its next path group. -/
def stage (s : State) (w : Wave) : State :=
  { s with me := { w with full := 0 }, iss := nextGroup s w, waves := Table.erase s.waves w.key }

/-- Take an access processor context into the issue stage. -/
def stageAp (s : State) (w : Wave) : State :=
  { s with me := w, iss := if laneReady s w 0 then 1 else 0, aps := Table.erase s.aps w.key }

/-- Threads of a stopping group that wait at their word count as stopped where they stand; a step waits for them
(17 R389, 03 R91). -/
def markWaiting (s : State) (w : Wave) : Wave :=
  match (groupOf s w.group).halt with
  | .stopping k =>
    if k == 1 then w
    else { w with lanes := lanesOf fun i =>
      let l := w.lanes[i]
      if l.life == .live && (l.wait != .none || l.handler.isSome) then { l with stopped := true } else l }
  | _ => w

/-- The wave leaves the issue stage after its word. -/
def unstage (s : State) (m : LaneMask) : State :=
  if !s.me.present then { s with me := {}, iss := 0, word := 0 }
  else if s.me.ap.isSome then
    { s with aps := Table.set s.aps s.me.key s.me, me := {}, iss := 0, word := 0 }
  else
    let w := { markWaiting s (keepTurn s.me m) with lastIssue := s.wall }
    { s with waves := Table.set s.waves w.key w, me := {}, iss := 0, word := 0 }

end Sys2Proof.Machine
end

