-- ==== Sys2Proof/Machine/Access.lean ====
section
/-! DEFINITION. One lane's memory access: its address, the causes in their order, watchpoints, translation, remote
targets, and the scratchpad (spec 11 R282 to R286, R297, 17 R386, R392). -/
namespace Sys2Proof.Machine

/-- What the check of one lane's access comes to. -/
inductive Chk
  /-- it may be performed at this physical address -/
  | ok (pa : Nat)
  /-- its remote target has answered -/
  | far (pa : Nat) (v : BitVec 128)
  | fault (f : LaneFault)
  /-- an ATS answer for this page is awaited -/
  | ats (page : Nat) (write : Bool)
  /-- its remote target has not answered -/
  | send (pa : Nat)
  /-- it waits for something that is not a translation or a remote target: a scratchpad line, a counter -/
  | absent (why : Stall)
  | hole (addr : Nat)
  deriving DecidableEq, Repr

/-- What an access does, for watchpoints, permissions and poison. -/
structure Kind where
  load : Bool := false
  store : Bool := false
  /-- kinds that a watchpoint sees -/
  watchLoad : Bool := false
  watchStore : Bool := false
  deriving DecidableEq, Repr

/-- The watchpoint that an access of n bytes meets (17 R392). -/
def watchHit (c : Context) (sp : Bool) (k : Kind) (a n : Nat) : Option Nat :=
  (List.range 4).find? fun i =>
    let ctl := Table.getD c.wpctl i 0
    let lo := (Table.getD c.wpaddr i 0).toNat
    let len := ctl.toNat / 256
    ctl.getLsbD 0 && (ctl.getLsbD 3 == sp) && len != 0 &&
      ((ctl.getLsbD 1 && k.watchLoad) || (ctl.getLsbD 2 && k.watchStore)) && a < lo + len && lo < a + n

/-- A lane's answer from a remote target, if it has come. -/
def remoteAnswer (l : Lane) (pa : Nat) : Option (Option RemoteAnswer) := (l.answers.find? fun e => e.1 == pa).map (·.2)

/-- The package of a pod physical address in the place of the detail word (17 R378). -/
def pkgDetail (pa : Nat) (code : Nat) : Word32 := BitVec.ofNat 32 (pa / 2 ^ 39 % 128 * 256 + code)

/-- The check of an access to global memory, n bytes at an address: ALIGN, WATCH, translation, POISON, REMOTE (11 R284). -/
def globalChk (s : State) (l : Fin 32) (a : Word64) (n : Nat) (k : Kind) : Chk :=
  let bad := fun (c : Cause) (d : Word32) => Chk.fault { lane := l, cause := c, addr := a, detail := d }
  let lane := s.me.lanes[l]
  if a.toNat % n != 0 then bad .align (BitVec.ofNat 32 n)
  else
    match if lane.skipWatch then none else watchHit (ctxOf s s.me.ctx) false k a.toNat n with
    | some i => bad .watch (BitVec.ofNat 32 i)
    | none =>
      match translate s s.me.ctx a k.store with
      | .ok pa => if k.load && poisoned s pa n then bad .poison 0 else .ok pa
      | .ats => .ats (pageOf a) k.store
      | .page => .fault { lane := l, cause := .page, addr := a, page := some (pageOf a) }
      | .cold _ => .fault { lane := l, cause := .expand, addr := a, page := some (pageOf a) }
      | .refused d => bad .page (BitVec.ofNat 32 d)
      | .hole x => .hole x
      | .remote pa =>
        match remoteAnswer lane pa with
        | none => .send pa
        | some (some (.data v)) => .far pa v
        | some (some .poison) => if k.load then bad .poison 0 else .far pa 0
        | some (some (.error c)) => bad .remote (pkgDetail pa c.toNat)
        | some none => bad .remoteTimeout (pkgDetail pa 0)

def spPoisoned (g : Group) (ofs n : Nat) : Bool := g.spPoison.any fun x => x * 64 < ofs + n && ofs < x * 64 + 64

/-- The check of an access to the group's scratchpad: ALIGN, RANGE, WATCH, presence, POISON. -/
def spChk (s : State) (l : Fin 32) (ofs : Word32) (n : Nat) (k : Kind) : Chk :=
  let g := groupOf s s.me.group
  let o := ofs.toNat
  let bad := fun (c : Cause) (d : Nat) =>
    Chk.fault { lane := l, cause := c, addr := ofs.setWidth 64, detail := BitVec.ofNat 32 d }
  if o % n != 0 then bad .align n
  else if o + n > g.kern.spBytes then bad .range n
  else
    match if s.me.lanes[l].skipWatch then none else watchHit (ctxOf s s.me.ctx) true k o n with
    | some i => bad .watch i
    | none =>
      if !linesPresent g o n then .absent (.lines (linesOf o n))
      else if k.load && spPoisoned g o n then bad .poison 0
      else .ok o

/-! ### Running a memory instruction -/

/-- Touch the polders of a context that an access meets (11 R314). -/
def touchPolders (s : State) (ctx : Nat) (a n : Nat) : State :=
  match (ctxOf s ctx).polders with
  | [] => s
  | _ => setCtx s ctx fun c => { c with polders := c.polders.map fun p =>
      if p.start.toNat < a + n && a < p.start.toNat + p.len then { p with touched := true } else p }

/-- The lanes that access: all active ones, or the lowest alone for a scalar instruction (11 R290). -/
def accessLanes (scalar : Bool) (m : LaneMask) : List (Fin 32) :=
  if scalar then (if m == 0 then [] else [lowest m]) else lanesIn m

/-- A fault of a scalar access is a fault of every active lane (11 R285). -/
def spreadFault (scalar : Bool) (m : LaneMask) (f : LaneFault) : List LaneFault :=
  if scalar then (lanesIn m).map fun l => { f with lane := l } else [f]

/-- The issuing path group waits for what its lanes' checks miss: translations and remote answers are asked for. -/
def waitChecks (cs : List (Fin 32 × Chk)) (send : State → Fin 32 → Nat → State) (s : State) : State :=
  let pages := cs.filterMap fun c => match c.2 with
    | .ats p w => some (p, w)
    | _ => none
  let s := cs.foldl (fun s c => match c.2 with
    | .ats p w => askAts s s.me.ctx p w
    | .send pa => send s c.1 pa
    | _ => s) s
  match pages with
  | [] =>
    if cs.any fun c => match c.2 with
      | .send _ => true
      | _ => false then stallAnswers s s.iss
    else
      stallMe s s.iss ((cs.findSome? fun c => match c.2 with
        | .absent why => some why
        | _ => none).getD (.ats []))
  | ps => stallMe s s.iss (.ats ps)

/-- A memory instruction. Each lane's access is checked first; a stop, an awaited translation, an awaited answer or an
absent line holds the path group with nothing performed. Then lanes that take a cause form fragments, and `act`
performs the accesses of the others, in ascending lane order. -/
def memInstr (h : Head) (scalar : Bool) (srcs : List (Operand × Nat)) (s : State)
    (chk : State → Fin 32 → Chk) (send : State → Fin 32 → Nat → State)
    (act : List (Fin 32 × Chk) → State → State) : State :=
  let m := active s h
  withPops s srcs m fun s =>
    let bad := poisonLanes s srcs m
    let bad := if scalar && bad != 0 then m else bad
    let cs := (accessLanes scalar (m &&& ~~~bad)).map fun l => (l, chk s l)
    match cs.findSome? fun c => match c.2 with
      | .hole x => some x
      | _ => none with
    | some x => { s with stuck := some (.noSuchAddress x) }
    | none =>
      let waits := cs.filter fun c => match c.2 with
        | .ats _ _ | .send _ | .absent _ => true
        | _ => false
      if waits.isEmpty then
        let fs := faultLanes bad .poison ++ cs.flatMap fun c => match c.2 with
          | .fault f => spreadFault scalar (m &&& ~~~bad) f
          | _ => []
        let out := maskOf (fs.map (·.lane))
        commitWith (askFaults s fs) fs fun s =>
          advanceMe (act (cs.filter fun c => match c.2 with
            | .ok _ | .far _ _ => true
            | _ => false) s) (s.iss &&& ~~~out)
      else
        waitChecks waits send s

/-- Instructions that are not lanes' accesses and need no remote target. -/
def noSend (s : State) (_ : Fin 32) (_ : Nat) : State := s

/-- What an access of the part for a context waits for: pages, or the answers of other packages (16 R429). -/
def partStall (s : State) (ctx : Nat) : Stall :=
  match pagesAwaited (ctxOf s ctx) with
  | [] => .answers ((s.remotes.filter fun r => r.2.ctx == ctx && r.2.tag.isSome).map (·.1)) true
  | ps => .engine ps

/-- A uniform instruction that writes a status or a value once per path group, or waits at its word (04 R93, 17 R389,
R390): `op` acts and answers the value, or nothing while it waits for what `why` says. -/
def statusInstr (h : Head) (d : Operand) (srcs : List (Operand × Nat)) (s : State)
    (op : State → Option Word32 × State) (why : State → Stall := fun s => partStall s s.me.ctx) : State :=
  let m := active s h
  if m == 0 then commitWith s [] fun s => advanceMe s s.iss
  else if poisonLanes s srcs m != 0 then
    commitWith s (faultLanes m .poison) fun s => advanceMe s (s.iss &&& ~~~m)
  else
    match op s with
    | (some x, s) => settleMe (advanceMe (modMe s fun w => writeDst w d m fun _ => x) s.iss)
    | (none, s) => stallMe s s.iss (why s)

/-! ### Sampling of line requests (18 R412, R413) -/

/-- The 256-byte line of an address, which one request fetches (11 R294). -/
def lineOf (a : Word64) : Word64 := a &&& ~~~255#64

/-- Count line requests of a core of a context whose sample buffer is enabled, and tag every 2^k-th one; `req` is the request to
another package that carries them. -/
def sampleLines (s : State) (addrs : List Word64) (access : Nat) (req : Option Nat) : State :=
  let t := (ctxOf s s.me.ctx).trace
  if !t.enable then s
  else
    let l := s.me.lanes[lowest s.iss]
    let so := safeOrdinal (kernOf s) l.hdr l.pc l.code
    (addrs.map lineOf).eraseDups.foldl (fun s a =>
      let n := Table.getD (ctxOf s s.me.ctx).trace.seen s.me.core 0 + 1
      let s := setCtx s s.me.ctx fun c => { c with trace := { c.trace with seen := Table.set c.trace.seen s.me.core n } }
      if n % 2 ^ t.k == 0 then
        let x : Sample := { access := access, frag := BitVec.ofNat 32 (fragIdent s.me s.me.lanes[lowest s.iss].handler),
                            ordinal := BitVec.ofNat 32 so.1, off := BitVec.ofNat 32 so.2, wall := s.wall, line := a,
                            req := req }
        setCtx s s.me.ctx fun c => { c with samples := c.samples ++ [x] }
      else s) s

/-- Count the line requests of the accesses that no other package has answered. -/
def sampleLocal (s : State) (cs : List (Fin 32 × Chk)) (addr : Fin 32 → Word64) (access : Nat) : State :=
  sampleLines s (cs.filterMap fun c => match c.2 with
    | .far _ _ => none
    | _ => some (addr c.1)) access none

/-- Send a lane's access to another package; lanes of the path group that meet in a line send one line request, which is
counted and tagged now, at its issue. -/
def sendSampled (s : State) (l : Fin 32) (a : Word64) (pa n : Nat) (wr : Option (BitVec 128)) (access : Nat) : State :=
  let mine := fun (r : RemoteReq) => r.wave == s.me.key && r.ap == s.me.ap.isSome && r.tag.isNone &&
    s.iss.getLsbD r.lane && lineOf r.addr == lineOf a
  let s := if s.remotes.any fun r => mine r.2 then s else sampleLines s [a] access (some s.fresh)
  sendRemote s l a pa n wr

end Sys2Proof.Machine
end

