-- ==== Sys2Proof/Machine/Flags.lean ====
section
/-! DEFINITION. Number formats, the one rounding, and the arithmetic flags (spec 05 R126 to R143, 07 R179 to R184). Exact
values are dyadic: a sign, a natural number and a power of two. -/
namespace Sys2Proof.Machine

/-! ### Flags (05 R143) -/

def fNX : BitVec 5 := 1#5
def fUF : BitVec 5 := 2#5
def fOF : BitVec 5 := 4#5
def fDZ : BitVec 5 := 8#5
def fNV : BitVec 5 := 16#5

def flagIf (b : Bool) (f : BitVec 5) : BitVec 5 := if b then f else 0

/-! ### Binary formats (05 R127, R128) -/

def mantBits : FFmt → Nat
  | .f32 => 23 | .f16 => 10 | .bf16 => 7 | .e4m3 => 3 | .e5m2 => 2 | .e2m1 => 1

def expBias : FFmt → Nat
  | .f32 => 127 | .f16 => 15 | .bf16 => 127 | .e4m3 => 7 | .e5m2 => 15 | .e2m1 => 1

/-- Largest finite magnitude code. -/
def maxCode : FFmt → Nat
  | .f32 => 0x7F7FFFFF | .f16 => 0x7BFF | .bf16 => 0x7F7F | .e4m3 => 0x7E | .e5m2 => 0x7B | .e2m1 => 0x7

/-- Formats with infinities. -/
def hasInf : FFmt → Bool
  | .f32 | .f16 | .bf16 | .e5m2 => true
  | .e4m3 | .e2m1 => false

/-- The canonical NaN; +0 for E2M1, which has none (05 R130). -/
def nanCode : FFmt → Nat
  | .f32 => 0x7FC00000 | .f16 => 0x7E00 | .bf16 => 0x7FC0 | .e4m3 => 0x7F | .e5m2 => 0x7E | .e2m1 => 0

/-- What a code of a format stands for. -/
inductive FVal
  | nan (signalling : Bool)
  | inf (neg : Bool)
  /-- (−1)^neg × m × 2^e; a zero keeps its sign -/
  | fin (neg : Bool) (m : Nat) (e : Int)
  deriving DecidableEq, Repr

/-- The value of a magnitude code, extended past the largest finite one (05 R127, R136). -/
def magValue (f : FFmt) (c : Nat) : Nat × Int :=
  let p := 2 ^ mantBits f
  let ex := c / p
  if ex = 0 then (c, 1 - (expBias f : Int) - mantBits f)
  else (c % p + p, (ex : Int) - expBias f - mantBits f)

/-- Decode the low bits of a word. -/
def decodeF (f : FFmt) (x : Nat) : FVal :=
  let x := x % 2 ^ f.bits
  let neg := x / 2 ^ (f.bits - 1) == 1
  let c := x % 2 ^ (f.bits - 1)
  if c ≤ maxCode f then
    let v := magValue f c
    .fin neg v.1 v.2
  else if hasInf f && c == maxCode f + 1 then .inf neg
  else .nan (hasInf f && c / 2 ^ (mantBits f - 1) % 2 == 0)

/-- Sign and magnitude code of a format. -/
def signCode (f : FFmt) (neg : Bool) (c : Nat) : Nat := (if neg then 2 ^ (f.bits - 1) else 0) + c

/-- Shift left by an integer, dropping bits on the right. -/
def shiftBy (m : Nat) (k : Int) : Nat := if 0 ≤ k then m <<< k.toNat else m >>> (-k).toNat

/-- The neighbours of m × 2^e, m > 0: the lower magnitude code, and the distance from it as a fraction num / den of the
step to the next (05 R136). -/
def neighbours (f : FFmt) (m : Nat) (e : Int) : Nat × Nat × Nat :=
  let top : Int := (Nat.log2 m : Int) + e
  let emin : Int := 1 - (expBias f : Int)
  let q : Int := (if top ≥ emin then top else emin) - mantBits f
  let base : Nat := if top ≥ emin then (top - emin).toNat * 2 ^ mantBits f else 0
  if e ≥ q then (base + m <<< (e - q).toNat, 0, 1)
  else
    let sh := (q - e).toNat
    (base + m >>> sh, m % 2 ^ sh, 2 ^ sh)

/-- Whether the higher neighbour is chosen (05 R135, R138). `even` says the lower code is even. -/
def chooseHi (r : Rnd) (st : Word32) (neg even : Bool) (num den : Nat) : Bool :=
  match r with
  | .rn => 2 * num > den || (2 * num == den && !even)
  | .rz => false
  | .rp => !neg && num > 0
  | .rm => neg && num > 0
  | .rs => num > 0 && st.toNat < num * 2 ^ 32 / den

/-- What an overflow delivers (05 R136). -/
def overflowCode (f : FFmt) (r : Rnd) (neg : Bool) : Nat :=
  if !hasInf f then maxCode f
  else match r with
    | .rn | .rs => maxCode f + 1
    | .rz => maxCode f
    | .rp => if neg then maxCode f else maxCode f + 1
    | .rm => if neg then maxCode f + 1 else maxCode f

/-- Round(x, mode) for x = (−1)^neg × m × 2^e into a format, with its flags (05 R136, R138). -/
def roundTo (f : FFmt) (r : Rnd) (st : Word32) (neg : Bool) (m : Nat) (e : Int) : Nat × BitVec 5 :=
  if m = 0 then (signCode f neg 0, 0)
  else
    let (lo, num, den) := neighbours f m e
    let c := if chooseHi r st neg (lo % 2 == 0) num den then lo + 1 else lo
    if c > maxCode f then (signCode f neg (overflowCode f r neg), fOF ||| fNX)
    else
      let inexact := num != 0
      (signCode f neg c, flagIf inexact fNX ||| flagIf (inexact && c < 2 ^ mantBits f) fUF)

/-- The canonical NaN with NV when a signalling NaN or an invalid case made it. -/
def nanResult (f : FFmt) (invalid : Bool) : Nat × BitVec 5 := (nanCode f, flagIf invalid fNV)

def FVal.isNan : FVal → Bool
  | .nan _ => true
  | _ => false

def FVal.isSig : FVal → Bool
  | .nan s => s
  | _ => false

def FVal.isInf : FVal → Bool
  | .inf _ => true
  | _ => false

def FVal.isZero : FVal → Bool
  | .fin _ m _ => m == 0
  | _ => false

def FVal.neg : FVal → Bool
  | .nan _ => false
  | .inf n => n
  | .fin n _ _ => n

/-- A float source with abs and neg applied to its sign bit (07 R179). -/
def applySign (neg abs : Bool) (bits : Nat) (x : Nat) : Nat :=
  let p := 2 ^ (bits - 1)
  let x := x % (2 * p)
  let x := if abs then x % p else x
  if neg then (x + p) % (2 * p) else x

/-! ### Exact sums and products -/

/-- A signed dyadic: an integer times a power of two. -/
structure Dyad where
  z : Int := 0
  e : Int := 0
  deriving DecidableEq, Repr

def Dyad.add (a b : Dyad) : Dyad :=
  if a.e ≤ b.e then { z := a.z + b.z * 2 ^ (b.e - a.e).toNat, e := a.e }
  else { z := a.z * 2 ^ (a.e - b.e).toNat + b.z, e := b.e }

def Dyad.mul (a b : Dyad) : Dyad := { z := a.z * b.z, e := a.e + b.e }

def Dyad.ofVal : FVal → Dyad
  | .fin n m e => { z := if n then -(m : Int) else m, e := e }
  | _ => {}

/-- Round a sum whose exact value is a dyadic; an exact zero takes the given sign. -/
def roundDyad (f : FFmt) (r : Rnd) (d : Dyad) (zeroNeg : Bool) : Nat × BitVec 5 :=
  if d.z = 0 then (signCode f zeroNeg 0, 0) else roundTo f r 0 (d.z < 0) d.z.natAbs d.e

/-- A term of a sum: a NaN, an infinity, or an exact value with its sign. -/
structure Term where
  nan : Bool := false
  inf : Bool := false
  neg : Bool := false
  d : Dyad := {}
  deriving DecidableEq, Repr

def termOf (v : FVal) : Term := { nan := v.isNan, inf := v.isInf, neg := v.neg, d := Dyad.ofVal v }

/-- The product of two values, and whether it is 0 × ∞ (05 R130). -/
def prodTerm (a b : FVal) : Term × Bool :=
  let bad := (a.isZero && b.isInf) || (a.isInf && b.isZero)
  ({ nan := a.isNan || b.isNan || bad, inf := !a.isNan && !b.isNan && !bad && (a.isInf || b.isInf),
     neg := a.neg != b.neg, d := (Dyad.ofVal a).mul (Dyad.ofVal b) }, bad)

/-- The sum of terms rounded once into FP32 (07 R179, R184). -/
def sumTerms (ts : List Term) (invalid : Bool) (r : Rnd) : Nat × BitVec 5 :=
  let opp := (ts.any fun t => t.inf && t.neg) && ts.any fun t => t.inf && !t.neg
  if (ts.any (·.nan)) || opp then nanResult .f32 (invalid || opp)
  else
    match ts.find? (·.inf) with
    | some t => (signCode .f32 t.neg (maxCode .f32 + 1), flagIf invalid fNV)
    | none =>
      let d := ts.foldl (fun (a : Dyad) t => a.add t.d) {}
      let zeroNeg := if ts.all (·.neg) then true else if ts.all fun t => !t.neg then false else r == .rm
      let (x, f) := roundDyad .f32 r d zeroNeg
      (x, f ||| flagIf invalid fNV)

def f32 (x : Word32) : FVal := decodeF .f32 x.toNat

def fAdd (r : Rnd) (a b : FVal) : Nat × BitVec 5 :=
  let ts := [termOf a, termOf b]
  sumTerms ts (a.isSig || b.isSig) r

def fMul (r : Rnd) (a b : FVal) : Nat × BitVec 5 :=
  let (t, bad) := prodTerm a b
  if t.nan then nanResult .f32 (a.isSig || b.isSig || bad)
  else if t.inf then (signCode .f32 t.neg (maxCode .f32 + 1), 0)
  else roundDyad .f32 r t.d t.neg

def fFma (r : Rnd) (a b c : FVal) : Nat × BitVec 5 :=
  let (t, bad) := prodTerm a b
  let ts := [t, termOf c]
  sumTerms ts (a.isSig || b.isSig || c.isSig || bad) r

/-- `fdot2` (07 R184). -/
def fDot2 (r : Rnd) (a0 a1 b0 b1 c : FVal) : Nat × BitVec 5 :=
  let (p0, bad0) := prodTerm a0 b0
  let (p1, bad1) := prodTerm a1 b1
  let ts := [p0, p1, termOf c]
  sumTerms ts ([a0, a1, b0, b1, c].any FVal.isSig || bad0 || bad1) r

/-- Order of two values that are not NaN; equal zeros compare equal. -/
def fLess (a b : FVal) : Bool :=
  match a, b with
  | .inf n, .inf m => n && !m
  | .inf n, _ => n
  | _, .inf m => !m
  | .fin _ _ _, .fin _ _ _ => ((Dyad.ofVal a).add { z := -(Dyad.ofVal b).z, e := (Dyad.ofVal b).e }).z < 0
  | _, _ => false

/-- −0 below +0 (07 R180). -/
def fBelow (a b : FVal) : Bool := fLess a b || (a.isZero && b.isZero && a.neg && !b.neg)

/-- `fmin` and `fmax` on the words of two operands after abs and neg (07 R180). -/
def fPick (max : Bool) (x y : Nat) : Nat × BitVec 5 :=
  let a := decodeF .f32 x
  let b := decodeF .f32 y
  let nv := flagIf (a.isSig || b.isSig) fNV
  if a.isNan && b.isNan then (nanCode .f32, nv)
  else if a.isNan then (y, nv)
  else if b.isNan then (x, nv)
  else if max then (if fBelow a b then y else x, nv) else (if fBelow b a then y else x, nv)

/-- `fcmp` (07 R181). -/
def fTest (c : FCond) (a b : FVal) : Bool × BitVec 5 :=
  let un := a.isNan || b.isNan
  let sig := flagIf (a.isSig || b.isSig) fNV
  match c with
  | .eq => (!un && !fLess a b && !fLess b a, sig)
  | .ne => (un || fLess a b || fLess b a, sig)
  | .lt => (!un && fLess a b, flagIf un fNV)
  | .le => (!un && !fLess b a, flagIf un fNV)
  | .gt => (!un && fLess b a, flagIf un fNV)
  | .ge => (!un && !fLess a b, flagIf un fNV)
  | .un => (un, sig)
  | .ord => (!un, sig)

/-- `fclass` (07 R182). -/
def fClassBit (x : Nat) : Nat :=
  match decodeF .f32 x with
  | .nan true => 8
  | .nan false => 9
  | .inf true => 0
  | .inf false => 7
  | .fin n _ _ =>
    let c := x % 2 ^ 31
    if c = 0 then (if n then 3 else 4)
    else if c < 2 ^ 23 then (if n then 2 else 5)
    else (if n then 1 else 6)

/-! ### LG6 (05 R131 to R133) -/

/-- Significand of T[j] in units of 2^−23. -/
def lgTable (j : Nat) : Nat :=
  match j with
  | 0 => 0x800000 | 1 => 0x9837F0 | 2 => 0xB504F3 | _ => 0xD744FD

/-- The magnitude of log L in units of 2^−27; L = 0 is zero and L = 32 the overflow point 16. -/
def lgMag (l : Nat) : Nat := if l = 0 then 0 else lgTable (l % 4) <<< (l / 4)

/-- The value of an LG6 code. -/
def decodeLg (x : Nat) : FVal :=
  let c := x % 64
  if c = 32 then .nan false else .fin (c ≥ 32) (lgMag (c % 32)) (-27)

/-- The value of the product of two LG6 codes (05 R132). -/
def lgProduct (x y : Nat) : FVal :=
  let a := x % 64
  let b := y % 64
  if a = 32 || b = 32 then .nan false
  else if a = 0 || b = 0 then .fin false 0 0
  else
    let d : Int := (a % 32 : Int) + (b % 32 : Int) - 32
    let n := d.fdiv 4
    .fin ((a ≥ 32) != (b ≥ 32)) (lgTable (d - 4 * n).toNat) (n - 23)

/-- Round a value into LG6 (05 R133). -/
def roundLg (r : Rnd) (st : Word32) (v : FVal) : Nat × BitVec 5 :=
  match v with
  | .nan s => (32, flagIf s fNV)
  | .inf n => ((if n then 32 else 0) + 31, fOF ||| fNX)
  | .fin n m e =>
    if m = 0 then (0, 0)
    else
      let k := e + 27
      let x := if 0 ≤ k then m <<< k.toNat else m
      let den := if 0 ≤ k then 1 else 2 ^ (-k).toNat
      let lo := (List.range 33).foldl (fun b l => if lgMag l * den ≤ x then l else b) 0
      if lo = 32 then ((if n then 32 else 0) + 31, fOF ||| fNX)
      else
        let num := x - lgMag lo * den
        let c := if chooseHi r st n (lo % 2 == 0) num ((lgMag (lo + 1) - lgMag lo) * den) then lo + 1 else lo
        if c = 32 then ((if n then 32 else 0) + 31, fOF ||| fNX)
        else if c = 0 then (0, fUF ||| fNX)
        else ((if n then 32 else 0) + c, flagIf (num != 0) fNX)

/-! ### Conversions (05 R130, R136, R138, R141, R142) -/

/-- One step of a lane's generator (05 R137). -/
def rngStep (x : Word32) : Word32 :=
  let x := x ^^^ (x <<< 13)
  let x := x ^^^ (x >>> 17)
  x ^^^ (x <<< 5)

/-- The generator state that `srnd` gives a lane (05 R137). -/
def rngSeed (s : Word32) (l : Nat) : Word32 :=
  let x := s ^^^ (0x9E3779B9#32 * BitVec.ofNat 32 (l + 1))
  if x = 0 then 1 else x

/-- Convert a value to a float format, rounding once. -/
def convF (f : FFmt) (r : Rnd) (st : Word32) (v : FVal) : Nat × BitVec 5 :=
  match v with
  | .nan s => (nanCode f, flagIf (s || f == .e2m1) fNV)
  | .inf n => if hasInf f then (signCode f n (maxCode f + 1), 0) else (signCode f n (maxCode f), fOF ||| fNX)
  | .fin n m e => roundTo f r st n m e

def intLo (f : IFmt) : Int :=
  match f with
  | .z8 | .z16 | .z32 | .z64 => -(2 ^ (f.bits - 1) : Int)
  | _ => 0

def intHi (f : IFmt) : Int :=
  match f with
  | .z8 | .z16 | .z32 | .z64 => (2 ^ (f.bits - 1) : Int) - 1
  | _ => (2 ^ f.bits : Int) - 1

/-- The integer in the low bits of a register, under a format. -/
def decodeI (f : IFmt) (x : Nat) : Int :=
  let u := x % 2 ^ f.bits
  if intLo f < 0 && u ≥ 2 ^ (f.bits - 1) then (u : Int) - 2 ^ f.bits else u

/-- The register image of an integer of a format: Z8 and Z16 are sign-extended, N8 and N16 zero-filled (07 R169). -/
def encodeI (f : IFmt) (z : Int) : Word64 :=
  match f with
  | .z64 | .n64 => BitVec.ofInt 64 z
  | _ => (BitVec.ofInt 32 z).setWidth 64

/-- Float to integer (05 R142). -/
def floatToInt (f : IFmt) (r : Rnd) (v : FVal) : Word64 × BitVec 5 :=
  match v with
  | .nan _ => (0, fNV)
  | .inf n => (encodeI f (if n then intLo f else intHi f), fNV)
  | .fin n m e =>
    let lo := shiftBy m e
    let den := if e < 0 then 2 ^ (-e).toNat else 1
    let num := if e < 0 then m % den else 0
    let c := if chooseHi r 0 n (lo % 2 == 0) num den then lo + 1 else lo
    let z : Int := if n then -(c : Int) else c
    if z < intLo f then (encodeI f (intLo f), fNV)
    else if z > intHi f then (encodeI f (intHi f), fNV)
    else (encodeI f z, flagIf (num != 0) fNX)

/-- Integer to float (05 R142). -/
def intToFloat (f : FFmt) (r : Rnd) (z : Int) : Nat × BitVec 5 := roundTo f r 0 (z < 0) z.natAbs 0

/-- Integer to integer: exact, wrapped, or clamped (07 R185). -/
def intToInt (d : IFmt) (sat : Bool) (z : Int) : Word64 :=
  if sat then encodeI d (if z < intLo d then intLo d else if z > intHi d then intHi d else z)
  else encodeI d (decodeI d (z.emod (2 ^ 64)).toNat)

end Sys2Proof.Machine
end

