-- ==== Sys2Proof/Machine/Launch.lean ====
section
/-! DEFINITION. Kernel objects, group placement, retirement and the status word (spec 02 R54 to R56, 03 R72 to R75, R79 to
R81, 10 R280, R281). -/
namespace Sys2Proof.Machine

/-! ### Tags of engine operations, under which page requests are sent (16 R348, R429) -/

def tagLaunch (q : Nat) : Nat := 2 ^ 40 + q
def tagFinish (l : Nat) : Nat := 2 ^ 41 + l
def tagCopy (c : Nat) : Nat := 2 ^ 42 + c
def tagTask (t : Nat) : Nat := 2 ^ 43 + t
def tagLane (wave lane : Nat) : Nat := 2 ^ 50 + wave * 64 + lane
def tagBuild (view ext : Nat) : Nat := 2 ^ 60 + view * 2 ^ 24 + ext
def tagOther (n : Nat) : Nat := 2 ^ 44 + n

/-! ### Kernel objects (02 R54 to R56) -/

/-- What reading a kernel object comes to. -/
inductive KRead
  | wait
  | unread
  | hole (addr : Nat)
  | refused (status : Nat)
  | ok (k : Kernel)
  deriving DecidableEq, Repr

/-- The kernel that a header image describes, without its safe points. -/
def kernelOf (va : Word64) (h : Nat) : Kernel :=
  { obj := va, refill := (fieldAt h 0x0A 2).testBit 0, usesAtomf := (fieldAt h 0x0A 2).testBit 1,
    entry := fieldAt h 0x0C 4, codeSize := fieldAt h 0x10 4, vregs := fieldAt h 0x14 2, sregs := fieldAt h 0x16 1,
    depth := fieldAt h 0x17 1, spBytes := fieldAt h 0x18 4, gsize := fieldAt h 0x1C 2, items := fieldAt h 0x20 8,
    descReq := fieldAt h 0x30 4, viewReq := fieldAt h 0x34 4, redBytes := fieldAt h 0x38 8,
    dataOff := fieldAt h 0x40 4, dataSize := fieldAt h 0x44 4 }

/-- Two ranges that do not meet. -/
def apart (a n b m : Nat) : Bool := a + n ≤ b || b + m ≤ a

/-- Waves of one group (02 R54). -/
def groupWaves (k : Kernel) : Nat := (k.gsize + 31) / 32

/-- Bytes of register bank one wave takes (01 R20). -/
def waveBank (k : Kernel) : Nat := 32 * 4 * ((k.vregs + k.depth + 7) / 8 * 8)

/-- Every field within its limits (02 R54). -/
def kernelRange (k : Kernel) (h : Nat) : Bool :=
  let so := fieldAt h 0x28 4
  let sc := fieldAt h 0x2C 4
  k.entry ≥ 0x100 && k.entry % 8 == 0 && k.entry < 0x100 + k.codeSize && k.codeSize ≥ 8 && k.codeSize % 8 == 0 &&
    1 ≤ k.vregs && k.vregs ≤ 320 && k.sregs ≤ 128 && k.depth ≤ 16 && k.spBytes ≤ 262144 && k.spBytes % 128 == 0 &&
    1 ≤ k.gsize && k.gsize ≤ 1024 && (k.refill || k.items == 0) && sc ≤ 16777216 &&
    (if sc == 0 then so == 0 else so % 64 == 0 && apart so (64 * sc) 0x100 k.codeSize) &&
    k.descReq ≤ 4096 && k.viewReq ≤ 65536 && (k.usesAtomf == (k.redBytes != 0)) && k.redBytes % 256 == 0 &&
    (if k.dataSize == 0 then k.dataOff == 0
      else k.dataOff % 8 == 0 && apart k.dataOff k.dataSize 0x100 k.codeSize && apart k.dataOff k.dataSize so (64 * sc))

/-- The first check of R55 that a header fails, in its order, but for the safe-point table. -/
def kernelStatus (va : Word64) (h : Nat) : Nat :=
  let k := kernelOf va h
  if fieldAt h 0 4 != 0x4F4B4757 || fieldAt h 8 2 != 1 || va.toNat % 256 != 0 then 0x10
  else if fieldAt h 4 4 != Config.encHash.toNat then 0x11
  else if fieldAt h 0x0A 2 > 3 || !zeroAt h 0x1E 2 || !zeroAt h 0x48 184 then 0x12
  else if !kernelRange k h then 0x13
  else 0

/-- The safe-point offsets of a table image, or none where it is malformed (02 R56, log 78). -/
def safePoints (k : Kernel) (img count : Nat) : Option (List Nat) :=
  let offs := (List.range count).map fun i => fieldAt img (64 * i) 4
  let asc := (offs.zip offs.tail).all fun p => p.1 < p.2
  if asc && offs.all (fun o => o % 8 == 0 && 0x100 ≤ o && o < 0x100 + k.codeSize) &&
      (List.range count).all fun i => fieldAt img (64 * i + 6) 1 ≤ k.depth && zeroAt img (64 * i + 7) 1 then
    some offs else none

/-- Read and check a kernel object (02 R55). -/
def readKernel (s : State) (ctx tag : Nat) (core : Option Nat) (va : Word64) : KRead :=
  match engineRead s ctx tag core va 256 with
  | .wait => .wait
  | .fail => .unread
  | .hole a => .hole a
  | .ok h =>
    let st := kernelStatus va h
    if st != 0 then .refused st
    else
      let k := kernelOf va h
      let count := fieldAt h 0x2C 4
      match engineRead s ctx tag core (va + BitVec.ofNat 64 (fieldAt h 0x28 4)) (64 * count) with
      | .wait => .wait
      | .fail => .unread
      | .hole a => .hole a
      | .ok t =>
        match safePoints k t count with
        | none => .refused 0x14
        | some ps => if groupWaves k * waveBank k > 1048576 then .refused 0x15 else .ok { k with safe := ps }

/-- Ask for the translations that reading a kernel object still misses. -/
def askKernel (s : State) (ctx tag : Nat) (core : Option Nat) (va : Word64) : State :=
  match engineRead s ctx tag core va 256 with
  | .wait => engineAsk s ctx tag va 256 false
  | .ok h => engineAsk s ctx tag (va + BitVec.ofNat 64 (fieldAt h 0x28 4)) (64 * fieldAt h 0x2C 4) false
  | _ => s

/-! ### Cores of a dike, and what fits (03 R81) -/

/-- The cores of a dike, ascending. -/
def dikeCores (d : Dike) : List Nat :=
  ((List.range 288).filter fun q => d.quads.getLsbD q).flatMap fun q => (List.range 4).map (4 * q + ·)

/-- Whether a launch keeps an item queue on a core. -/
def queuesItems (s : State) (lk core : Nat) : Bool :=
  (Table.get? (Table.getD s.launches lk {}).itemq core).isSome ||
    s.groups.any fun g => g.2.launch == some lk && g.2.core == core

/-- Whether one group of a kernel fits a core: wave slots, register bank, scratchpad, an item queue (03 R73, R81). -/
def fits (s : State) (ctx core : Nat) (k : Kernel) (lk : Option Nat) : Bool :=
  let mine := (allWaves s).filter fun w => w.ctx == ctx && w.core == core
  let n := groupWaves k
  let bank := mine.foldl (fun b w => b + waveBank (groupOf s w.group).kern) 0
  let sp := (s.groups.filter fun g => g.2.ctx == ctx && g.2.core == core).foldl (fun b g => b + g.2.kern.spBytes) 0
  mine.length + n ≤ 64 && bank + n * waveBank k ≤ 1048576 && sp + k.spBytes ≤ 262144 &&
    (match lk with
      | some l => !k.refill || queuesItems s l core ||
          (s.launches.filter fun e => e.2.kern.refill && queuesItems s e.1 core).length < 8
      | none => true)

/-- The core that takes the next group: round-robin from the core after the last one. -/
def pickCore (s : State) (ctx : Nat) (k : Kernel) (lk : Option Nat) : Option Nat :=
  let d := Table.getD s.dikes (ctxOf s ctx).cfg.dike {}
  let cs := dikeCores d
  ((cs.filter (· ≥ s.search)) ++ cs.filter (· < s.search)).find? fun c => fits s ctx c k lk

/-! ### Starting a group (03 R74, R75, R81, 04 R116) -/

/-- A core claims item indices when its queue holds fewer than 32 (03 R73). -/
def claimItems (la : Launch) (core : Nat) : Launch :=
  let q := Table.getD la.itemq core []
  if q.length < 32 && la.nextItem < la.items then
    let n := min 32 (la.items - la.nextItem)
    { la with itemq := Table.set la.itemq core (q ++ (List.range n).map (la.nextItem + ·)), nextItem := la.nextItem + n }
  else la

/-- Draw one item, if the queue and the counter are not both exhausted. -/
def drawItem (la : Launch) (core : Nat) : Option Nat × Launch :=
  let la := claimItems la core
  match Table.getD la.itemq core [] with
  | [] => (none, la)
  | i :: t => (some i, { la with itemq := Table.set la.itemq core t })

/-- A new thread at the entry header (03 R81); one that finds no item starts exited (03 R74). -/
def newLane (k : Kernel) (l : Nat) (item : Option Nat) : Lane :=
  match item with
  | none => {}
  | some i =>
    arrive k { life := .live, rng := rngSeed 0 l, item := BitVec.ofNat 64 i } (k.obj + BitVec.ofNat 64 k.entry)

/-- The items of a group's threads: drawn, or index × size + thread (03 R74, R75). -/
def groupItems (s : State) (lk : Option Nat) (core : Nat) (k : Kernel) (index : Nat) : List (Option Nat) × State :=
  match lk with
  | some l =>
    if k.refill then
      let (xs, la) := (List.range k.gsize).foldl (fun (p : List (Option Nat) × Launch) _ =>
        let (i, la) := drawItem p.2 core
        (p.1 ++ [i], la)) ([], Table.getD s.launches l {})
      (xs, { s with launches := Table.set s.launches l la })
    else ((List.range k.gsize).map fun t => some (index * k.gsize + t), s)
  | none => ((List.range k.gsize).map fun t => some t, s)

/-- Free wave slots of a context on a core, which the waves of a group take lowest first: R21 does not say which %wave a wave
gets (log 94). -/
def freeSlots (s : State) (ctx core : Nat) : List Nat :=
  (List.range 64).filter fun i => !((allWaves s).any fun w => w.key == slotKey ctx core i)

/-- Place one group on a core (03 R81). Records of a fired group land before its waves start (04 R116). -/
def placeGroup (s : State) (ctx core : Nat) (g : Group) (args : Word64) (prio : Nat) : State :=
  let k := g.kern
  let (items, s) := groupItems s g.launch core k g.index
  let (gk, s) := freshNo s
  let n := groupWaves k
  let slots := (freeSlots s ctx core).take n
  let act := ((allWaves s).filter fun w => w.ctx == ctx && w.core == core && w.active).length
  let (seed, s) := freshNo s
  let lanesAt := fun i => lanesOf fun l => newLane k l.val ((items.getD (i * 32 + l.val) none))
  let regs : SMap Word32 := if k.sregs ≥ 2 then
    Table.put (Table.put [] 0 0 (args.setWidth 32)) 1 0 ((args >>> 32).setWidth 32) else []
  let s := { s with
    groups := Table.set s.groups gk { g with ctx := ctx, core := core, args := args, prio := prio, spSeed := seed,
                                             waves := slots.map (slotKey ctx core) },
    search := core + 1,
    ageCount := s.ageCount + n }
  let s := (slots.zip (List.range n)).foldl (fun s p =>
    let w : Wave := { present := true, key := slotKey ctx core p.1, ctx := ctx, core := core, slot := p.1, group := gk,
                      index := p.2, lanes := lanesAt p.2, s := regs, prio := prio, age := s.ageCount - n + p.2,
                      active := act + p.2 < 8, readySince := s.wall, lastIssue := s.wall,
                      parked := !g.landing.isEmpty }
    { s with waves := Table.set s.waves w.key w }) s
  slots.foldl (fun s i => freeWave s (slotKey ctx core i)) s

/-! ### Status words (03 R80, 16 R429) -/

/-- Write a launch's status word with release at `.sys`, or a LAUNCH record where it cannot be written; none while the
write waits for a translation. -/
def writeStatus (s : State) (ctx tag queue record : Nat) (va : Option Word64) (status groups : Nat) : Option State :=
  let fail := faultRecord s ctx
    { type := 8, detail := status, addr := (va.getD 0).toNat, spec := queue % 2 ^ 17 + record % 2 ^ 16 * 2 ^ 32 }
  match va with
  | none => some fail
  | some a =>
    if a.toNat % 8 != 0 then some fail
    else
      match engineWrite (flushAll s) ctx tag none a 8 (groups * 2 ^ 32 + status) with
      | .ok s => some s
      | .wait => none
      | .hole _ | .fail => some fail

/-! ### Ending groups and launches (03 R72, R80, 10 R280, R281) -/

/-- End every thread of a group. -/
def killGroup (s : State) (gk : Nat) : State :=
  (wavesOf s gk).foldl (fun s k =>
    let s := { killLanes s k allLanes with frags := s.frags.filter fun f => f.2.wave != k }
    freeWave s k) s

/-- End a launch with a fault status: no further group is placed, and running groups are ended. -/
def endLaunch (s : State) (lk status : Nat) : State :=
  let s := { s with launches := Table.modify s.launches lk fun la =>
    if la.ending == 0 then { la with ending := status, log := [] } else la }
  (s.groups.filter fun g => g.2.launch == some lk).foldl (fun s g => killGroup s g.1) s

/-- Whether every group that was or will be placed has retired. -/
def launchOver (la : Launch) : Bool := la.retired == (if la.ending != 0 then la.placed else la.ngroups)

/-- The reduction log in the order of R280: by group, by thread, then in program order. -/
def logOrder (log : List RedRec) : List RedRec :=
  log.mergeSort fun a b => a.group < b.group || (a.group == b.group && a.thread ≤ b.thread)

/-- Apply one record of the log, or nothing while it awaits a translation or another package, which performs a record homed
there. One that cannot be translated or written, or whose location is poisoned, is skipped and recorded (10 R280, 11 R302,
16 R429, 18 R403). -/
def applyLog (s : State) (ctx tag : Nat) (r : RedRec) : Option State :=
  let skip := some (faultRecord s ctx { type := 5, addr := r.va.toNat, spec := r.group })
  match engineTr s ctx tag r.va true with
  | .wait => none
  | .fail | .hole _ => skip
  | .ok pa =>
    if !isLocal s pa then some s
    else if poisoned s pa 4 then skip
    else
      let x := f32 (BitVec.ofNat 32 (memRead s pa 4))
      some (memWrite (touchPolders s ctx r.va.toNat 4) pa 4 (fAdd .rn x (f32 r.val)).1)

/-- Apply the records of a log in their order as far as their addresses answer; the others are left. -/
def applyRecs (s : State) (ctx tag : Nat) : List RedRec → State × List RedRec
  | [] => (s, [])
  | r :: t =>
    match applyLog s ctx tag r with
    | some s => applyRecs (engineDone s ctx tag) ctx tag t
    | none => (engineAsk s ctx tag r.va 4 true, r :: t)

/-- Finish a launch all of whose groups have retired: apply its log, then write its status. -/
def finishLaunch (s : State) (lk : Nat) : State :=
  match Table.get? s.launches lk with
  | none => s
  | some la =>
    if !launchOver la then s
    else
      let (s, left) := applyRecs (flushAll s) la.ctx (tagFinish lk) (logOrder la.log)
      let s := { s with launches := Table.set s.launches lk { la with log := left } }
      if !left.isEmpty then s
      else
        let st := if la.ending != 0 then la.ending else 1
        match writeStatus s la.ctx (tagFinish lk) la.queue la.record (some la.status) st la.retired with
        | some s => { engineDone s la.ctx (tagFinish lk) with launches := Table.erase s.launches lk }
        | none => engineAsk s la.ctx (tagFinish lk) la.status 8 true

/-- A group whose waves are freed and whose copies, tasks and pushes have ended retires; its scratchpad and accumulator
slots are released (03 R72). -/
def groupDone (s : State) (gk : Nat) : Bool :=
  match Table.get? s.groups gk with
  | none => false
  | some _ =>
    !((allWaves s).any fun w => w.group == gk) && !(s.copies.any fun c => c.2.group == gk) &&
      !(s.tasks.any fun t => t.2.group == gk) && !(s.pushes.any fun p => p.group == gk)

def retireGroup (s : State) (gk : Nat) : State :=
  if groupDone s gk then
    let g := groupOf s gk
    let s := { s with groups := Table.erase s.groups gk, acc := s.acc.filter fun a => a.2.owner != gk + 1 }
    match g.launch with
    | none => s
    | some lk =>
      let s := { s with launches := Table.modify s.launches lk fun la => { la with retired := la.retired + 1 } }
      let la := Table.getD s.launches lk {}
      if launchOver la && la.log.isEmpty then finishLaunch s lk else s
  else s

end Sys2Proof.Machine
end

