-- ==== Sys2Proof/Machine/System.lean ====
section
/-! DEFINITION. System instructions: trap fences and software traps, the return from a handler, system registers, clocks,
fragments, halts, the debug mailbox and markers (spec 17 R383 to R400, 05 R145 and R146, 18 R409 and R412, 19 R415 to R417). -/
namespace Sys2Proof.Machine

/-! ### Traps (17 R387) -/

/-- Lanes that trap after the word: their resume point is the word they would issue next (17 R379). -/
def trapAfter (s : State) (fs : List LaneFault) : State := commitWith s fs fun s => advanceMe s s.iss

/-- `tfence` traps the active lanes whose flags meet the wave's enable (05 R145). -/
def execTfence (h : Head) (s : State) : Host.Outcome State Fault Refusal :=
  done (trapAfter s (((lanesIn (active s h)).filter fun l => s.me.lanes[l].flags &&& s.me.fpen != 0).map fun l =>
    { lane := l, cause := .arith, detail := (s.me.lanes[l].flags &&& s.me.fpen).setWidth 32 }))

def execTrap (h : Head) (n : BitVec 24) (s : State) : Host.Outcome State Fault Refusal :=
  done (trapAfter s (faultLanes (active s h) .trap 0 (n.setWidth 32)))

/-- `bkpt` faults at its own word (17 R379). -/
def execBkpt (h : Head) (n : BitVec 24) (s : State) : Host.Outcome State Fault Refusal :=
  let m := active s h
  done (commitWith s (faultLanes m .bkpt 0 (n.setWidth 32)) fun s => advanceMe s (s.iss &&& ~~~m))

/-- The cause bitmap after `ccause`: HALTED stays set while the group is halted (17 R398). -/
def clearedCauses (s : State) (a : Word64) : Word64 :=
  let keep := if (groupOf s s.me.group).halt == .stopped then causeBit .halted else 0
  s.me.causes &&& (~~~a ||| keep)

def execCcause (h : Head) (d a : Operand) (s : State) : Host.Outcome State Fault Refusal :=
  done (onceInstr h [(a, 2)] s fun m s => modMe s fun w =>
    { writePair w d m (fun _ => w.causes) with causes := clearedCauses s (src64 s a 0) })

/-! ### Return from a handler (17 R383, 19 R415) -/

/-- Address of a lane's trap frame (17 R376). -/
def frameAddr (s : State) (l : Fin 32) : Word64 :=
  (ctxOf s s.me.ctx).cfg.hdlTab + BitVec.ofNat 64 (frameOffset s s.me l.val)

/-- What `hret` finds for one active lane. -/
inductive Back
  | fault (f : LaneFault)
  | ats (page : Nat)
  | send (addr : Word64) (pa n : Nat)
  | hole (addr : Nat)
  | kill
  | resume (pc hdr : Word64)
  deriving DecidableEq, Repr

/-- One field of a lane's trap frame, loaded as a plain load at `.core` (17 R383), for `go`. -/
def frameField (s : State) (l : Fin 32) (o n : Nat) (go : Nat → Back) : Back :=
  let a := frameAddr s l + BitVec.ofNat 64 o
  match globalChk s l a n { load := true } with
  | .fault f => .fault f
  | .ats p _ => .ats p
  | .send pa => .send a pa n
  | .hole x => .hole x
  | .ok pa => go (seenRead (settleReds s s.me.core pa n) s.me.core pa n)
  | .far _ v => go (v.toNat % 2 ^ (8 * n))
  | .absent _ => .kill

/-- The checks of R383 for a lane, in their order: it loads the depth, then the resume point and its header. -/
def hretLane (s : State) (kill : Bool) (l : Fin 32) : Back :=
  let x := s.me.lanes[l]
  if x.handler.isNone then .fault { lane := l, cause := .illegal, parks := true }
  else
    frameField s l 0x28 1 fun depth =>
      if depth != x.meets.length then .fault { lane := l, cause := .depth, detail := BitVec.ofNat 32 (kernOf s).depth }
      else
        frameField s l 8 8 fun p => frameField s l 0x90 8 fun h =>
          let pc := BitVec.ofNat 64 p
          let hdr := BitVec.ofNat 64 h
          if kill then .kill
          else if pc.toNat % 8 != 0 || hdr.toNat % 8 != 0 then .fault { lane := l, cause := .brtarget, addr := pc }
          else .resume pc hdr

/-- The lanes for which `hret` finds a result. -/
def backLanes (bs : List (Fin 32 × Back)) (p : Back → Bool) : LaneMask :=
  maskOf ((bs.filter fun b => p b.2).map (·.1))

/-- Lanes of one handler that share a resume point leave it together. -/
def leaveHandler (s : State) (wk : Nat) (m : LaneMask) (pc hdr : Word64) : State :=
  let w := waveOf s wk
  let frag := (w.lanes[lowest m].handler.bind (Table.get? s.frags)).getD {}
  let same := frag.pc == pc
  let s := modWave s wk fun w => mapLanes w m fun _ l => { l with handler := none }
  resumeLanes s wk m pc hdr (if same then frag.info else []) (same && frag.cause == .watch)

/-- What `hret` does for its lanes once every load of a frame has its answer. -/
def hretCommit (s : State) (m : LaneMask) (bs : List (Fin 32 × Back)) : State :=
  let fs := bs.filterMap fun b => match b.2 with
    | .fault f => some f
    | _ => none
  let wk := s.me.key
  let pts := (bs.filterMap fun b => match b.2 with
    | .resume pc hd => some (pc, hd, s.me.lanes[b.1].handler)
    | _ => none).eraseDups
  let ends := backLanes bs (· == .kill)
  let homes := (bs.filterMap fun b => match b.2 with
    | .kill | .resume _ _ => s.me.lanes[b.1].handler
    | _ => none).eraseDups
  commitWith (askFaults s fs) fs fun s0 =>
    let s := advanceMe s0 (s0.iss &&& ~~~m)
    let s := if ends == 0 then s else killLanes s wk ends
    let s := pts.foldl (fun s p =>
      leaveHandler s wk (maskOf ((bs.filter fun b => b.2 == .resume p.1 p.2.1 &&
        s0.me.lanes[b.1].handler == p.2.2).map (·.1))) p.1 p.2.1) s
    homes.foldl freeHandler s

/-- `hret` ends a handler for each active lane (17 R383); its lanes fetch their block anew when they next issue (19 R415). -/
def execHret (h : Head) (kill : Bool) (s : State) : Host.Outcome State Fault Refusal :=
  let m := active s h
  let bs := (lanesIn m).map fun l => (l, hretLane s kill l)
  let asks := bs.filterMap fun b => match b.2 with
    | .ats p => some (p, false)
    | _ => none
  let sends := bs.filterMap fun b => match b.2 with
    | .send a pa n => some (b.1, a, pa, n)
    | _ => none
  match bs.findSome? fun b => match b.2 with
    | .hole a => some a
    | _ => none with
  | some a => finish { s with stuck := some (.noSuchAddress a) }
  | none =>
    finish (if !asks.isEmpty then stallAts s s.iss asks
      else if !sends.isEmpty then
        stallAnswers (sends.foldl (fun s x => sendRemote s x.1 x.2.1 x.2.2.1 x.2.2.2 none) s) s.iss
      else hretCommit s m bs)

/-! ### System registers (17 R399) -/

/-- `ctxinfo` and `podstat` (16 R365). -/
def ctxInfo (s : State) (ctx : Nat) : Word32 :=
  let c := (ctxOf s ctx).cfg
  BitVec.ofNat 32 (ctx % 4096 + c.prio % 8 * 4096 + c.dike % 512 * 32768)

def podStat (s : State) : Word32 := BitVec.ofNat 32 ((if s.degraded then 1 else 0) + (s.packages - 1) % 128 * 256)

def dieMon (s : State) (die : Nat) : DieMon := Table.getD s.dies die {}

/-- The monitor registers of a die; a sensor's reading is a free value of the number `n` (18 R409). -/
def readDie (s : State) (die : Nat) (sr : SysReg) (n : Nat) : Word64 :=
  let d := dieMon s die
  let used := Config.repairedRows die + d.sparesUsed
  match sr with
  | .diecap => BitVec.ofNat 64 (16 * Config.channelBytes)
  | .dietemp => (Config.dieTemp die n).setWidth 64
  | .dievolt => (Config.dieVolt die n).setWidth 64
  | .dieproc => (Config.dieProc die).setWidth 64
  | .fbstat => BitVec.ofNat 64 d.stretch + ((Config.dieV1 die).setWidth 64 <<< 16)
  | .fbcnt => d.fbcnt.setWidth 64
  | .hbmtemp => (Config.stackTemp (die / 2) n).setWidth 64
  | .ecccor => d.ecccor.setWidth 64
  | .eccunc => d.eccunc.setWidth 64
  | .spares => BitVec.ofNat 64 (used % 65536 + (Config.sparesPerDie - used) % 65536 * 65536)
  | .clktgt => BitVec.ofNat 64 d.clkTgt
  | _ => 0

/-- The value of a register that is not a lane's own, for the issuing wave (17 R399). -/
def readSr (s : State) (sr : SysReg) (n : Nat) : Word64 :=
  let w := s.me
  let c := ctxOf s w.ctx
  match sr with
  | .devid => 0x0D5E0B24#64
  | .stepid => 0xB0#64
  | .enchash => Config.encHash.setWidth 64
  | .fpflags => 0
  | .srstate => 0
  | .fpen => w.fpen.setWidth 64
  | .e8ncnt => c.e8n.setWidth 64
  | .gaprec => c.gaprec.setWidth 64
  | .xlepoch => s.xlepoch
  | .xlquiet => s.xlquiet
  | .ctxinfo => (ctxInfo s w.ctx).setWidth 64
  | .podstat => (podStat s).setWidth 64
  | .cause => w.causes
  | .hdltab => c.cfg.hdlTab
  | .grpid => BitVec.ofNat 64 (groupHandle (groupOf s w.group))
  | .fqprod => c.fqprod
  | .fqcons => c.fqcons
  | .fqlost => c.fqlost.setWidth 64
  | .wtime => w.timer.setWidth 64
  | .wpaddr i => Table.getD c.wpaddr i.val 0
  | .wpctl i => (Table.getD c.wpctl i.val 0).setWidth 64
  | .diecap | .dietemp | .dievolt | .dieproc | .fbstat | .fbcnt | .hbmtemp | .ecccor | .eccunc | .spares | .clktgt =>
    readDie s (w.core / 48) sr n

/-- A lane's own register (05 R146). -/
def laneSr (l : Lane) (sr : SysReg) : Word32 :=
  match sr with
  | .srstate => l.rng
  | _ => l.flags.setWidth 32

/-- `rdsr` (17 R399): a lane's own register reads per lane, or as the OR over the active lanes in a scalar. -/
def execRdsr (h : Head) (d : Operand) (sr : SysReg) (s : State) : Host.Outcome State Fault Refusal :=
  done (regInstr h false [] s fun m s =>
    if sr.perLane then
      let all := (lanesIn m).foldl (fun x l => x ||| laneSr s.me.lanes[l] sr) 0#32
      modMe s fun w => writeDst w d m fun l => if d.isScalar then all else laneSr w.lanes[l] sr
    else
      let (n, s) := freshNo s
      let x := readSr s sr n
      modMe s fun w => writeW w sr.width d m fun _ => x)

/-- A write of a lane's own register. -/
def setLaneSr (l : Lane) (sr : SysReg) (x : Word32) : Lane :=
  match sr with
  | .srstate => { l with rng := if x == 0 then 1 else x }
  | _ => { l with flags := x.setWidth 5 }

/-- A write of a register that the wave or its context has. -/
def setSr (s : State) (sr : SysReg) (x : Word64) : State :=
  let ctx := s.me.ctx
  match sr with
  | .fpen => modMe s fun w => { w with fpen := x.setWidth 5 }
  | .e8ncnt => setCtx s ctx fun c => { c with e8n := x.setWidth 32 }
  | .gaprec => setCtx s ctx fun c => { c with gaprec := x.setWidth 32 }
  | .fqcons => setCtx s ctx fun c =>
      if x.toNat < c.fqcons.toNat || c.fqprod.toNat < x.toNat then c else { c with fqcons := x }
  | .wpaddr i => setCtx s ctx fun c => { c with wpaddr := Table.put c.wpaddr i.val 0 x }
  | .wpctl i => setCtx s ctx fun c => { c with wpctl := Table.put c.wpctl i.val 0 (x.setWidth 32 &&& 0xFFFFFF0F#32) }
  | _ => s

def execWrsr (h : Head) (sr : SysReg) (a : Operand) (s : State) : Host.Outcome State Fault Refusal :=
  done (if sr.perLane then
      regInstr h false [(a, 1)] s fun m s => modMe s fun w => mapLanes w m fun i l => setLaneSr l sr (src32 s a i)
    else onceInstr h [(a, widthWords sr.width)] s fun _ s =>
      setSr s sr (srcW s sr.width a 0))

/-! ### Clocks (17 R395, R396) -/

/-- A counter of R23 for the issuing wave. -/
def readClk (s : State) (mode : ClkMode) : Word64 :=
  match mode with
  | .wall => BitVec.ofNat 64 s.wall
  | .cyc => BitVec.ofNat 64 (s.cycles)
  | .run => BitVec.ofNat 64 s.me.run

def execRdclk (h : Head) (mode : ClkMode) (d : Operand) (s : State) : Host.Outcome State Fault Refusal :=
  done (aluInstr h .w64 d [] s fun s _ => readClk s mode)

def execWtimer (h : Head) (a : Operand) (s : State) : Host.Outcome State Fault Refusal :=
  done (onceInstr h [(a, 1)] s fun _ s => modMe s fun w => { w with timer := src32 s a 0 })

/-! ### Fragments by their identity (17 R390) -/

/-- The key of the entry that a %frag value names in a context, if it is live (17 R371). -/
def fragNamed (s : State) (ctx : Nat) (a : Word32) : Option Nat :=
  let n := a.toNat
  let core := n / 2 ^ 13 % 64
  let fk := slotKey ctx (n / 2 ^ 19 % 32 * 48 + core) (n % 64)
  if n ≥ 2 ^ 24 || n.testBit 6 || core ≥ 48 then none
  else
    match Table.get? s.frags fk with
    | some f => if (waveOf s f.wave).slot == n / 128 % 64 && f.wave / 64 == fk / 64 then some fk else none
    | none => none

/-- The state code of an entry (17 R370). -/
def FragState.code : FragState → Nat
  | .waiting => 1
  | .inHandler => 2
  | .parked => 3

/-- The lanes of a fragment: of one in its handler, those that remain there (17 R383). -/
def fragLanes (s : State) (fk : Nat) (f : Frag) : LaneMask :=
  if f.st == .inHandler then f.lanes &&& lanesWhere (waveOf s f.wave) fun l => l.handler == some fk else f.lanes

def fragMask (s : State) (ctx : Nat) (a : Word32) : Word32 :=
  match fragNamed s ctx a with
  | some fk => match Table.get? s.frags fk with
    | some f => fragLanes s fk f
    | none => 0
  | none => 0

def fragState (s : State) (ctx : Nat) (a : Word32) : Word32 :=
  match fragNamed s ctx a with
  | some fk => match Table.get? s.frags fk with
    | some f =>
      let depth := (waveOf s f.wave).lanes[lowest (fragLanes s fk f)].meets.length
      BitVec.ofNat 32 (f.cause.bitNo % 64 + f.st.code * 64 + depth % 32 * 256)
    | none => 0
  | none => 0

/-- The parked fragment that a %frag value names. -/
def parkedNamed (s : State) (ctx : Nat) (a : Word32) : Option (Nat × Frag) :=
  match fragNamed s ctx a with
  | none => none
  | some fk =>
    match Table.get? s.frags fk with
    | some f => if f.st == .parked then some (fk, f) else none
    | none => none

/-- Kill a parked fragment (17 R374). -/
def fragKill (s : State) (ctx : Nat) (a : Word32) : Option Word32 × State :=
  match parkedNamed s ctx a with
  | none => (some 1, s)
  | some (fk, _) => (some 0, killFrag s fk)

/-- Resume a parked fragment; its lanes fetch the block of its resume point anew when they next issue (17 R373, 19 R415). -/
def fragResume (s : State) (ctx : Nat) (a : Word32) : Option Word32 × State :=
  match parkedNamed s ctx a with
  | none => (some 1, s)
  | some (fk, _) => (some 0, resumeFrag s fk)

def execFragMask (h : Head) (d a : Operand) (s : State) : Host.Outcome State Fault Refusal :=
  done (statusInstr h d [(a, 1)] s fun s => (some (fragMask s s.me.ctx (src32 s a 0)), s))

def execFragState (h : Head) (d a : Operand) (s : State) : Host.Outcome State Fault Refusal :=
  done (statusInstr h d [(a, 1)] s fun s => (some (fragState s s.me.ctx (src32 s a 0)), s))

def execFragKill (h : Head) (d a : Operand) (s : State) : Host.Outcome State Fault Refusal :=
  done (statusInstr h d [(a, 1)] s fun s => fragKill s s.me.ctx (src32 s a 0))

def execFragResume (h : Head) (d a : Operand) (s : State) : Host.Outcome State Fault Refusal :=
  finish (statusInstr h d [(a, 1)] s fun s => fragResume s s.me.ctx (src32 s a 0))

/-! ### Halting groups (17 R389, 19 R416, R417) -/

/-- The group that a handle names in a context. -/
def groupNamed (s : State) (ctx a : Nat) : Option Nat :=
  (s.groups.find? fun e => e.2.ctx == ctx && groupHandle e.2 == a &&
    !(wavesOf s e.1).isEmpty).map (·.1)

/-- Change every thread of a group. -/
def modThreads (s : State) (gk : Nat) (f : Wave → Wave) : State :=
  let ks := wavesOf s gk
  ks.foldl settleWave (ks.foldl (fun s k => modWave s k f) s)

/-- HOK, HNONE, HSTATE. -/
def hOk : Word32 := 0x00#32
def hNone : Word32 := 0xA0#32
def hState : Word32 := 0xA1#32

/-- `halt.stop`. -/
def haltStop (s : State) (ctx a : Nat) : Word32 × State :=
  match groupNamed s ctx a with
  | none => (hNone, s)
  | some gk => if (groupOf s gk).halt == .running then (hOk, beginStop s gk 0) else (hState, s)

/-- `halt.go` releases every stopped thread, which fetches its block anew (19 R415); fragments that wait for their handler
enter it. -/
def haltGo (s : State) (ctx a : Nat) : Word32 × State :=
  match groupNamed s ctx a with
  | none => (hNone, s)
  | some gk =>
    if (groupOf s gk).halt != .stopped then (hState, s)
    else
      let s := modGroup s gk fun g => { g with halt := .running }
      let s := modThreads s gk fun w => { w with
        causes := w.causes &&& ~~~causeBit .halted,
        lanes := lanesOf fun i => refetch { w.lanes[i] with stopped := false, stepFirst := false } }
      (hOk, redeliver s ctx)

/-- A stopped thread that a step lets go: it issues the word it stands at, unless a hold keeps it (03 R91). -/
def stepLane (l : Lane) : Lane :=
  if l.life == .live && l.handler.isNone then
    { refetch l with stopped := false, stepFirst := !atHeader l && (match l.wait with
        | .held | .tramp _ | .barHeld .. => false
        | _ => true) }
  else l

def haltStep (s : State) (ctx a : Nat) : Word32 × State :=
  match groupNamed s ctx a with
  | none => (hNone, s)
  | some gk =>
    if (groupOf s gk).halt != .stopped then (hState, s)
    else
      let s := modGroup s gk fun g => { g with halt := .stopping 1 }
      (hOk, modThreads s gk fun w => { w with lanes := lanesOf fun i => stepLane w.lanes[i] })

/-- An operation on a group as a status instruction. -/
def haltInstr (h : Head) (d a : Operand) (s : State) (op : State → Nat → Nat → Word32 × State) : State :=
  statusInstr h d [(a, 1)] s fun s =>
    let r := op s s.me.ctx (src32 s a 0).toNat
    (some r.1, r.2)

def execHaltStop (h : Head) (d a : Operand) (s : State) : Host.Outcome State Fault Refusal :=
  done (haltInstr h d a s haltStop)

def execHaltGo (h : Head) (d a : Operand) (s : State) : Host.Outcome State Fault Refusal :=
  done (haltInstr h d a s haltGo)

def execHaltStep (h : Head) (d a : Operand) (s : State) : Host.Outcome State Fault Refusal :=
  done (haltInstr h d a s haltStep)

/-- The frame record of a stopped thread (17 R389). -/
def stopFrame (s : State) (w : Wave) (l : Fin 32) (bits : Nat) : FrameIn :=
  let x := w.lanes[l]
  match x.life with
  | .frag e =>
    let fk := slotKey w.ctx w.core e
    let f := (Table.getD s.frags fk {}).frameIn fk w l
    { f with causes := f.causes + bits, debug := true }
  | _ =>
    let word := if atHeader x then x.hword else x.code.getD ((x.pc - x.hdr).toNat / 8 - 1) 0
    { causes := bits, pc := x.pc, hdr := x.hdr, word := word, ident := fragIdent w none, debug := true }

/-- HALT_COMPLETE: every thread of a stopping group has stopped (17 R389). -/
def execHaltComplete (gk : Nat) (s : State) : Host.Outcome State Fault Refusal :=
  let g := groupOf s gk
  let ws := (wavesOf s gk).map (waveOf s)
  let threads := ws.foldl (fun n w => n + (lanesIn (lanesWhere w fun l => l.life != .exited)).length) 0
  match g.halt with
  | .stopping kind =>
    if threads == 0 || ws.any (fun w => (List.finRange 32).any fun i =>
        w.lanes[i].life != .exited && !w.lanes[i].stopped) then done s
    else
      let bits := causeBit .halted ||| (if kind == 1 then causeBit .step else 0)
      let s := modGroup s gk fun g => { g with halt := .stopped }
      let s := ws.foldl (fun s w =>
        let s := modWave s w.key fun w => { w with causes := w.causes ||| bits }
        (lanesIn (lanesWhere w fun l => l.life != .exited && l.handler.isNone)).foldl (fun s l =>
          (writeFrame s w l (stopFrame s w l bits.toNat)).getD s) s) s
      done (faultRecord s g.ctx
        { type := 7, cause := 32, frag := groupHandle g, detail := kind, spec := threads })
  | _ => done s

/-! ### The debug mailbox and markers (17 R393, R397) -/

/-- A word index that R393 faults. -/
def mboxFault (s : State) (m : LaneMask) (i : Word32) : State :=
  commitWith s (faultLanes m .range (i.setWidth 64) 4) fun s => advanceMe s (s.iss &&& ~~~m)

def execMboxLd (h : Head) (d a : Operand) (s : State) : Host.Outcome State Fault Refusal :=
  let i := src32 s a 0
  let m := active s h
  done (if m != 0 && poisonLanes s [(a, 1)] m == 0 && i.toNat ≥ 64 then mboxFault s m i
    else onceInstr h [(a, 1)] s fun m s => modMe s fun w =>
      writeDst w d m fun _ => Table.getD (ctxOf s w.ctx).mbox i.toNat 0)

def execMboxSt (h : Head) (a b : Operand) (s : State) : Host.Outcome State Fault Refusal :=
  let i := src32 s a 0
  let m := active s h
  done (if m != 0 && poisonLanes s [(a, 1), (b, 1)] m == 0 && i.toNat ≥ 64 then mboxFault s m i
    else onceInstr h [(a, 1), (b, 1)] s fun _ s =>
      setCtx (releaseAt s s.me.core .sys) s.me.ctx fun c => { c with mbox := Table.put c.mbox i.toNat 0 (src32 s b 0) })

/-- `mbox.ring` raises the function's vector 1 (16 R340). -/
def execMboxRing (h : Head) (s : State) : Host.Outcome State Fault Refusal :=
  done (onceInstr h [] s fun _ s => setFn (releaseAt s s.me.core .sys) (ctxOf s s.me.ctx).cfg.fn fun f =>
    { f with mboxPending := insertNat s.me.ctx f.mboxPending, raised1 := f.raised1 + 1 })

/-- Append a record to a context's sample buffer: its first word is its sequence number. A ring that already holds its
count of records is full, and a record that cannot be written is lost too (18 R412, R413). -/
def traceRecord (s : State) (ctx img : Nat) : State :=
  let t := (ctxOf s ctx).trace
  let lost := setCtx s ctx fun c => { c with trace := { c.trace with lost := c.trace.lost + 1 } }
  if t.produced ≥ t.count then lost
  else
    let n := t.produced + 1
    match engineWrite s ctx 0 none (t.base + BitVec.ofNat 64 (64 * t.produced)) 64 (n + img) with
    | .ok s => setCtx s ctx fun c => { c with trace := { c.trace with produced := n } }
    | _ => lost

/-- `smark` appends a marker record, with tracing on (17 R397). -/
def execSmark (h : Head) (n : BitVec 24) (s : State) : Host.Outcome State Fault Refusal :=
  done (onceInstr h [] s fun _ s =>
    let l := s.me.lanes[lowest s.iss]
    let so := safeOrdinal (kernOf s) l.hdr l.pc l.code
    if (ctxOf s s.me.ctx).trace.enable then
      traceRecord s s.me.ctx (putAt 8 1 2 + putAt 0x0C 4 (fragIdent s.me l.handler) + putAt 0x10 4 so.1 +
        putAt 0x14 4 so.2 + putAt 0x18 8 s.wall + putAt 0x30 4 n.toNat)
    else s)

end Sys2Proof.Machine
end

