-- ==== Sys2Proof/Machine/Admin.lean ====
section
/-! DEFINITION. The admin queue: completions and the commands DIKE to POWER (spec 16 R333 to R338, R342, R344, R346, R351,
R364, 17 R390, 18 R405, R408, R411, R412). -/
namespace Sys2Proof.Machine

/-! ### Completions (16 R338) -/

/-- A completion before it has its place in the ring. -/
structure Cpl where
  tag : Nat := 0
  status : Nat := 0
  kind : Nat := 0
  value : Nat := 0
  addr : Nat := 0
  ctx : Nat := 0
  die : Nat := 0
  deriving DecidableEq, Repr

/-- The 32 bytes of a completion with its phase bit. -/
def Cpl.image (c : Cpl) (phase wall : Nat) : Nat :=
  putAt 0 2 c.tag + putAt 2 1 c.status + putAt 3 1 (phase * 128 + c.kind) + putAt 4 4 c.value + putAt 8 8 c.addr +
    putAt 0x10 8 wall + putAt 0x18 4 (c.ctx % 4096 + c.die % 32 * 65536)

/-- Whether the ring has room for one more completion. -/
def cplRoom (a : Admin) : Bool := (a.written + 1 + 2 ^ 32 - a.cplHead.toNat) % 2 ^ 32 ≤ a.cplSize

/-- Write the next completion, and raise vector 2 where the driver had consumed all before it. -/
def putCpl (s : State) (c : Cpl) : State :=
  let a := s.adm
  let m := a.written
  let img := c.image (1 - m / a.cplSize % 2) s.wall
  let s := memWrite s (hostBase + a.cplBase.toNat + 32 * (m % a.cplSize)) 32 img
  { s with adm := { a with written := m + 1,
                           raised2 := if a.cplHead.toNat == m % 2 ^ 32 then a.raised2 + 1 else a.raised2 } }

/-- An event of kinds 2 to 7 is written, or dropped and counted (16 R338, 18 R411). -/
def eventCpl (s : State) (c : Cpl) : State :=
  if cplRoom s.adm then putCpl s c
  else { s with adm := { s.adm with
    cplLost := if s.adm.cplLost == 0xFFFFFFFF#32 then s.adm.cplLost else s.adm.cplLost + 1 } }

/-- A command is complete: its completion is written, or waits for room. -/
def completeCmd (s : State) (tag : BitVec 16) (status : Byte) (value : Word32) : State :=
  let s := { s with adm := { s.adm with inProgress := none } }
  if cplRoom s.adm then putCpl s { tag := tag.toNat, status := status.toNat, value := value.toNat }
  else { s with adm := { s.adm with waiting := some (tag, status, value) } }

/-! ### The shape of a command (16 R335, R337) -/

def aRead : Byte := 0x90#8
def aResv : Byte := 0x91#8
def aRange : Byte := 0x92#8
def aBusy : Byte := 0x93#8
def aOver : Byte := 0x94#8
def aOpc : Byte := 0x95#8

/-- What a command comes to. -/
inductive Cmd
  | refused (status : Byte)
  | ok (value : Word32) (s : State)
  /-- taken, but not complete -/
  | wait (s : State)

/-- Run a command whose fields marked — are `zeros`: any other status than AOK leaves every state unchanged. -/
def runCmd (i : Instr) (c : AdminCmd) (zeros : Bool) (s : State) (r : Cmd) : Host.Outcome State Fault Refusal :=
  if c.resv || !zeros then done (completeCmd s c.tag aResv 0)
  else
    match r with
    | .refused st => done (completeCmd s c.tag st 0)
    | .ok v t => finish (completeCmd t c.tag 0 v)
    | .wait t => finish { t with adm := { t.adm with inProgress := some i } }

/-- The installed context that a command names. -/
def withCtx (s : State) (c : AdminCmd) (f : Nat → Context → Cmd) : Cmd :=
  match Table.get? s.ctxs c.n.toNat with
  | some x => if x.ending then .refused aRange else f c.n.toNat x
  | none => .refused aRange

/-- A record in host memory, where it can be read: a poisoned one cannot (16 R335, R337, R429). -/
def hostRecord (s : State) (a : Word64) (n : Nat) : Option Nat :=
  if poisoned s (hostBase + a.toNat) n then none else some (memRead s (hostBase + a.toNat) n)

/-- DPA bytes below every channel's metadata reserve (16 R346). -/
def usableBytes : Nat := usablePages * 384 * 4096

/-! ### Dikes (16 R344) -/

/-- The dike that a record defines. -/
def dikeOf (r : Nat) : Dike :=
  { quads := BitVec.ofNat 288 (fieldAt r 0 36), ways := BitVec.ofNat 16 (fieldAt r 0x24 2),
    polderWays := BitVec.ofNat 16 (fieldAt r 0x26 2), sliceUs := fieldAt r 0x28 4, hbmWeight := fieldAt r 0x2C 1,
    linkWeight := fieldAt r 0x2D 1 }

/-- Ways that dikes other than n hold exclusively. -/
def takenWays (s : State) (n : Nat) : BitVec 16 :=
  (s.dikes.filter fun e => e.1 != n).foldl (fun x e => x ||| e.2.ways) 0#16

/-- Every field within its limits. -/
def dikeRange (s : State) (n : Nat) (d : Dike) : Bool :=
  n ≤ 287 && d.quads != 0 && d.polderWays &&& ~~~(if d.ways == 0 then ~~~takenWays s n else d.ways) == 0 &&
    10 ≤ d.sliceUs && d.sliceUs ≤ 100000 && 1 ≤ d.hbmWeight && 1 ≤ d.linkWeight

def execDike (c : AdminCmd) (s : State) : Host.Outcome State Fault Refusal :=
  let n := c.n.toNat
  let others := s.dikes.filter fun e => e.1 != n
  runCmd (.dike c) c (c.b == 0 && c.c == 0) s (match hostRecord s c.a 64 with
    | none => .refused aRead
    | some r =>
      let d := dikeOf r
      if !zeroAt r 0x2E 18 then .refused aResv
      else if !dikeRange s n d then .refused aRange
      else if s.ctxs.any fun e => e.2.cfg.dike == n then .refused aBusy
      else if others.any fun e => e.2.quads &&& d.quads != 0 || e.2.ways &&& d.ways != 0 then .refused aOver
      else .ok 0 { s with dikes := Table.set s.dikes n d })

/-! ### Context records (16 R334, R346, R357) -/

/-- The context record of 256 bytes; a remote timeout of 0 stands for 64. -/
def ctxRecOf (r : Nat) : CtxRec :=
  let w := fun (o : Nat) => BitVec.ofNat 64 (fieldAt r o 8)
  let t := fieldAt r 0x54 4
  { heapBase := w 0, heapLimit := w 8, heapOff := w 0x10, fn := fieldAt r 0x18 2, prio := fieldAt r 0x1A 1,
    compress := (fieldAt r 0x1B 1).testBit 0, paged := (fieldAt r 0x1B 1).testBit 1, dike := fieldAt r 0x1C 2,
    alpha := fieldAt r 0x1E 1 % 16, beta := fieldAt r 0x1E 1 / 16, poolBase := w 0x20, poolQuota := fieldAt r 0x28 8,
    polderQuota := fieldAt r 0x30 8, saveBase := w 0x38, saveBytes := fieldAt r 0x40 8, fqBase := w 0x48,
    fqEntries := fieldAt r 0x50 4, timeoutUs := if t == 0 then 64 else t, proxyBase := w 0x58,
    proxyBytes := fieldAt r 0x60 4, binFirst := fieldAt r 0x64 2, binCount := fieldAt r 0x66 2, mgmtRing := w 0x68,
    expRing := w 0x70, hdlTab := w 0x78 }

def ctxZeros (r : Nat) : Bool := fieldAt r 0x1B 1 < 4 && zeroAt r 0x1F 1 && zeroAt r 0x80 128

def powerOfTwo (n lo hi : Nat) : Bool := lo ≤ n && n ≤ hi && 2 ^ n.log2 == n

/-- A region of n bytes wholly inside the heap. -/
def insideHeap (c : CtxRec) (a : Word64) (n : Nat) : Bool :=
  n == 0 || (c.heapBase.toNat ≤ a.toNat && a.toNat + n ≤ c.heapBase.toNat + c.heapLimit.toNat)

/-- The heap's addresses are pod physical ones, and those of this package are usable. -/
def heapUsable (s : State) (c : CtxRec) : Bool :=
  let pa := (c.heapBase + c.heapOff).toNat
  let top := pa + c.heapLimit.toNat
  let lo := s.pkg * 2 ^ 39
  c.heapLimit == 0 || (top ≤ 2 ^ 46 && (top ≤ lo || lo + 2 ^ 39 ≤ pa || min top (lo + 2 ^ 39) ≤ lo + usableBytes))

/-- Quads of a dike. -/
def quadCount (d : Dike) : Nat := ((List.range 288).filter fun q => d.quads.getLsbD q).length

/-- Every field within its limits. -/
def ctxRange (s : State) (c : CtxRec) : Bool :=
  let mib2 := 2097152
  let nq := quadCount (Table.getD s.dikes c.dike {})
  c.heapBase.toNat % mib2 == 0 && c.heapLimit.toNat % mib2 == 0 && (c.heapBase + c.heapOff).toNat % mib2 == 0 &&
    c.fn ≤ 1024 && c.prio ≤ 7 && c.dike ≤ 287 && (Table.get? s.dikes c.dike).isSome &&
    c.poolBase.toNat % 4096 == 0 && c.poolQuota % 4096 == 0 && c.polderQuota % 256 == 0 &&
    c.saveBase.toNat % 4096 == 0 && c.saveBytes ≥ 6400 * 1024 * nq && c.fqBase.toNat % 64 == 0 &&
    powerOfTwo c.fqEntries 64 65536 && c.timeoutUs ≤ 65535 && c.proxyBase.toNat % 4096 == 0 && c.proxyBytes % 4096 == 0 &&
    c.binFirst ≤ 12287 && c.binFirst + c.binCount ≤ 12288 && c.mgmtRing.toNat % 64 == 0 && c.expRing.toNat % 64 == 0 &&
    (c.paged || c.expRing == 0) && c.hdlTab.toNat % 4096 == 0 && insideHeap c c.poolBase c.poolQuota &&
    insideHeap c c.saveBase c.saveBytes && insideHeap c c.fqBase (64 * c.fqEntries) &&
    insideHeap c c.proxyBase c.proxyBytes && insideHeap c c.mgmtRing 4096 &&
    insideHeap c c.expRing (if c.paged then 512 else 0) &&
    insideHeap c c.hdlTab (if c.hdlTab == 0 then 0 else 4096 + 4194304 * nq) && heapUsable s c

/-- Two ranges of bins that meet. -/
def binsMeet (c d : CtxRec) : Bool :=
  c.binCount != 0 && d.binCount != 0 && c.binFirst < d.binFirst + d.binCount && d.binFirst < c.binFirst + c.binCount

def execCreate (c : AdminCmd) (s : State) : Host.Outcome State Fault Refusal :=
  let n := c.n.toNat
  runCmd (.create c) c (c.b == 0 && c.c == 0) s (match hostRecord s c.a 256 with
    | none => .refused aRead
    | some r =>
      let x := ctxRecOf r
      if !ctxZeros r then .refused aResv
      else if n ≥ 4096 || !ctxRange s x then .refused aRange
      else if (Table.get? s.ctxs n).isSome then .refused aBusy
      else if s.ctxs.any fun e => binsMeet e.2.cfg x then .refused aOver
      else .ok 0 { s with ctxs := Table.set s.ctxs n { cfg := x, fadeTick := s.wall / 2 ^ 20 } })

/-- A record with the fields that UPDATE replaces taken from another (16 R335). -/
def updated (old new : CtxRec) : CtxRec :=
  { old with prio := new.prio, poolQuota := new.poolQuota, polderQuota := new.polderQuota, alpha := new.alpha,
             beta := new.beta, timeoutUs := new.timeoutUs }

def execUpdate (c : AdminCmd) (s : State) : Host.Outcome State Fault Refusal :=
  runCmd (.update c) c (c.b == 0 && c.c == 0) s (withCtx s c fun n old => match hostRecord s c.a 256 with
    | none => .refused aRead
    | some r =>
      let x := ctxRecOf r
      if !ctxZeros r then .refused aResv
      else if !ctxRange s x || updated old.cfg x != x then .refused aRange
      else .ok 0 (setCtx s n fun k => { k with cfg := x }))

/-! ### Ending a context (16 R342, R345) -/

/-- The first two steps of R342: every launch ends with KILLED, and what the context holds in queues, bins, views and
tables that it alone sees is released; accesses in progress go on. -/
def endContext (s : State) (n : Nat) : State :=
  let s := setCtx s n fun c => { c with
    ending := true, views := [], vocs := [], sources := [], polders := [], shadows := [], passes := [],
    trace := { c.trace with enable := false }, samples := [] }
  let s := (s.launches.filter fun e => e.2.ctx == n).foldl (fun s e => endLaunch s e.1 0x31) s
  let s := (s.groups.filter fun e => e.2.ctx == n && e.2.launch.isNone).foldl (fun s e => killGroup s e.1) s
  let s := { s with
    queues := s.queues.filter fun e => e.2.ctx != n,
    bins := s.bins.filter fun e => e.2.ctx != n,
    pushes := s.pushes.filter fun p => p.ctx != n,
    copies := s.copies.filter fun e => e.2.ctx != n || !e.2.landed.isEmpty,
    tasks := s.tasks.filter fun e => e.2.ctx != n || e.2.running,
    aps := s.aps.filter fun e => e.2.ctx != n }
  (s.launches.filter fun e => e.2.ctx == n).foldl (fun s e => finishLaunch s e.1) s

/-- Every access of a context has been performed, those at other packages among them (16 R342). -/
def ctxQuiet (s : State) (n : Nat) : Bool :=
  !(s.launches.any fun e => e.2.ctx == n) && !(s.groups.any fun e => e.2.ctx == n) &&
    !(s.copies.any fun e => e.2.ctx == n) && !(s.tasks.any fun e => e.2.ctx == n) &&
    !(s.scans.any fun e => e.2.ctx == n) && !(s.detoks.any fun e => e.2.ctx == n) &&
    !(s.remotes.any fun r => r.2.ctx == n)

/-- The context is gone, once its stores and `red`s are performed: what belongs to it is released (16 R342, R345). -/
def eraseContext (s : State) (n : Nat) : State :=
  let s := flushAll s
  let off := fun (o : Option Nat) => if o == some n then none else o
  { s with
    ctxs := Table.erase s.ctxs n,
    waves := s.waves.filter fun e => e.2.ctx != n,
    aps := s.aps.filter fun e => e.2.ctx != n,
    frags := s.frags.filter fun e => e.1 / 131072 != n,
    dikes := Table.mapVals s.dikes fun _ d =>
      { d with running := off d.running, shadow := off d.shadow, chosen := off d.chosen } }

/-- What DESTROY comes to, from its second look on. -/
def destroyed (s : State) (n : Nat) : Cmd := if ctxQuiet s n then .ok 0 (eraseContext s n) else .wait s

def execDestroy (c : AdminCmd) (s : State) : Host.Outcome State Fault Refusal :=
  runCmd (.destroy c) c (c.a == 0 && c.b == 0 && c.c == 0) s
    (withCtx s c fun n _ => destroyed (endContext s n) n)

/-! ### Work queues (16 R337, R339) -/

def execMapq (c : AdminCmd) (s : State) : Host.Outcome State Fault Refusal :=
  let q := (c.b.setWidth 32).toNat
  let e := (c.b >>> 32).toNat
  runCmd (.mapq c) c true s (withCtx s c fun n x =>
    if q > 131071 || (c.a != 0 && !(c.a.toNat % 64 == 0 && c.c.toNat % 8 == 0 && powerOfTwo e 16 65536 &&
        insideHeap x.cfg c.a (64 * e) && insideHeap x.cfg c.c 8)) then .refused aRange
    else
      match Table.get? s.queues q with
      | some old =>
        if old.ctx != n then .refused aBusy
        else if c.a == 0 then .ok 0 { s with queues := Table.erase s.queues q }
        else .ok 0 { s with queues := Table.set s.queues q { ctx := n, ring := c.a, entries := e, wb := c.c } }
      | none =>
        if c.a == 0 then .ok 0 s
        else .ok 0 { s with queues := Table.set s.queues q { ctx := n, ring := c.a, entries := e, wb := c.c } })

/-! ### Memory commands (16 R335, R351) -/

/-- A DPA range of whole 64 KiB units below the metadata reserve. -/
def unitRange (a b : Word64) : Bool := a.toNat % 65536 == 0 && b.toNat % 65536 == 0 && a.toNat + b.toNat ≤ usableBytes

/-- Drop the cells of a range. -/
def clearRange (m : List Host.Cell) (a n : Nat) : List Host.Cell := m.filter fun c => c.1 < a || a + n ≤ c.1

def execZeroRange (c : AdminCmd) (s : State) : Host.Outcome State Fault Refusal :=
  let pa := localPa s c.a.toNat
  runCmd (.zeroRange c) c (c.n == 0 && c.c == 0) s
    (if !unitRange c.a c.b then .refused aRange
    else .ok 0 (clearPoison { s with mem := clearRange s.mem pa c.b.toNat } pa c.b.toNat))

def execZone (c : AdminCmd) (s : State) : Host.Outcome State Fault Refusal :=
  runCmd (.zone c) c (c.n == 0 && c.c == 0) s
    (if !unitRange c.a c.b then .refused aRange
    else .ok 0 { s with zoneStart := c.a.toNat, zoneBytes := c.b.toNat, zoneData := [], zoneSlots := [], zonePoison := [] })

/-- Copy the cells of a range to another place of a second table. -/
def copyCells (src : List Host.Cell) (a n : Nat) (dst : List Host.Cell) (b : Nat) : List Host.Cell :=
  (src.filter fun c => a ≤ c.1 && c.1 < a + n).foldl (fun m c => Table.put m (c.1 - a + b) 0 c.2) (clearRange dst b n)

/-- The tag under which COLD asks for its page. -/
def tagCold : Nat := tagOther (2 ^ 30)

/-- What COLD comes to: the page's bytes and poison stand in the slot. -/
def coldPage (s : State) (n : Nat) (va : Word64) (slot : Nat) : Cmd :=
  match engineTr s n tagCold va false with
  | .wait => .wait (engineAsk s n tagCold va 65536 false)
  | .fail => .refused aRead
  | .hole x => .wait { s with stuck := some (.noSuchAddress x) }
  | .ok pa =>
    let bad := (s.poison.filter fun g => pa ≤ g * 64 && g * 64 < pa + 65536).map fun g => slot * 1024 + (g * 64 - pa) / 64
    .ok 0 (engineDone { s with
      zoneData := copyCells s.mem pa 65536 s.zoneData (slot * 65536),
      zoneSlots := insertNat slot s.zoneSlots,
      zonePoison := bad.foldl (fun l g => insertNat g l) (s.zonePoison.filter fun g => g / 1024 != slot) } n tagCold)

def execCold (c : AdminCmd) (s : State) : Host.Outcome State Fault Refusal :=
  runCmd (.cold c) c (c.c == 0) s (withCtx s c fun n x =>
    if c.a.toNat % 65536 != 0 || !x.cfg.paged || inHeap x.cfg c.a.toNat || s.zoneBytes == 0 || c.b.toNat ≥ 2 ^ 23 then
      .refused aRange
    else coldPage s n c.a c.b.toNat)

/-! ### Stacks, the pod, rows and power (16 R363, R364, R366, 18 R405, R408) -/

def execDisturb (c : AdminCmd) (s : State) : Host.Outcome State Fault Refusal :=
  let lv := c.b.toNat
  runCmd (.disturb c) c (c.a == 0) s
    (if c.n.toNat ≤ 11 && ((c.c == 0 && 16 ≤ lv && lv ≤ 255) || (c.c == 1 && 64 ≤ lv && lv ≤ 4095)) then
      .ok 0 { s with hbmStacks := Table.set s.hbmStacks c.n.toNat { mode := c.c.toNat, level := lv } }
    else .refused aRange)

/-- PODCLR, after the pod is formed anew: its packages can be reached (03 R90). -/
def execPodclr (c : AdminCmd) (s : State) : Host.Outcome State Fault Refusal :=
  runCmd (.podclr c) c (c.n == 0 && c.a == 0 && c.b == 0 && c.c == 0) s (.ok 0 { s with degraded := false, lost := [] })

/-- Change the monitor counters of a die. -/
def modDie (s : State) (die : Nat) (f : DieMon → DieMon) : State := { s with dies := Table.set s.dies die (f (dieMon s die)) }

/-- Spare rows of a bank that are taken; those that the fuses took at reset are a free value (18 R414, log 9). -/
def sparesTaken (s : State) (bank : Nat) : Nat := (Table.get? s.sparesBy bank).getD (Config.repairedIn bank)

/-- Begin to spare the row that holds a DPA, its copy pointer at line 0; nothing where its bank has no spare left
(18 R405, R406). -/
def startSparing (s : State) (dpa : Nat) : Option State :=
  let row := Config.rowOf dpa
  let bank := Config.bankOf row
  if (Table.get? s.rowCopies row).isSome then some s
  else if sparesTaken s bank ≥ 2 then none
  else
    some { modDie s (dieOf dpa) (fun d => { d with sparesUsed := d.sparesUsed + 1 }) with
      rowCopies := Table.set s.rowCopies row (dpa, 0),
      sparesBy := Table.set s.sparesBy bank (sparesTaken s bank + 1) }

def execSpare (c : AdminCmd) (s : State) : Host.Outcome State Fault Refusal :=
  runCmd (.spare c) c (c.n == 0 && c.b == 0 && c.c == 0) s
    (if !usable c.a.toNat then .refused aRange
    else match startSparing s c.a.toNat with
      | none => .refused aBusy
      | some t => .ok 0 t)

def execPower (c : AdminCmd) (s : State) : Host.Outcome State Fault Refusal :=
  runCmd (.power c) c (c.n == 0 && c.a == 0 && c.b == 0) s
    (if 1200 ≤ c.c.toNat && c.c.toNat ≤ 3600 then .ok 0 { s with powerLimit := c.c.toNat } else .refused aRange)

/-! ### DEBUG (17 R389, R390) -/

/-- A DEBUG operation: what `halt` or `frag` writes to d stands in the completion's value. -/
def debugCmd (i : Instr) (c : AdminCmd) (s : State) (op : State → Nat → Word32 → Option Word32 × State) :
    Host.Outcome State Fault Refusal :=
  runCmd i c (c.c == 0 && c.b >>> 32 == 0) s (withCtx s c fun n _ =>
    match op s n (c.b.setWidth 32) with
    | (some v, t) => .ok v t
    | (none, t) => .wait t)

/-- An operation on a group by its handle. -/
def onGroup (op : State → Nat → Nat → Word32 × State) (s : State) (n : Nat) (a : Word32) : Option Word32 × State :=
  let r := op s n a.toNat
  (some r.1, r.2)

def execDebugHaltStop (c : AdminCmd) (s : State) : Host.Outcome State Fault Refusal :=
  debugCmd (.debugHaltStop c) c s (onGroup haltStop)

def execDebugHaltGo (c : AdminCmd) (s : State) : Host.Outcome State Fault Refusal :=
  debugCmd (.debugHaltGo c) c s (onGroup haltGo)

def execDebugHaltStep (c : AdminCmd) (s : State) : Host.Outcome State Fault Refusal :=
  debugCmd (.debugHaltStep c) c s (onGroup haltStep)

def execDebugFragMask (c : AdminCmd) (s : State) : Host.Outcome State Fault Refusal :=
  debugCmd (.debugFragMask c) c s fun s n a => (some (fragMask s n a), s)

def execDebugFragState (c : AdminCmd) (s : State) : Host.Outcome State Fault Refusal :=
  debugCmd (.debugFragState c) c s fun s n a => (some (fragState s n a), s)

def execDebugFragKill (c : AdminCmd) (s : State) : Host.Outcome State Fault Refusal :=
  debugCmd (.debugFragKill c) c s fragKill

def execDebugFragResume (c : AdminCmd) (s : State) : Host.Outcome State Fault Refusal :=
  debugCmd (.debugFragResume c) c s fragResume

/-! ### TRACE (18 R412) -/

/-- The buffer that TRACE sets. -/
def traceOf (c : AdminCmd) : TraceBuf :=
  { base := c.a, count := (c.b.setWidth 32).toNat, k := (c.b >>> 32).toNat % 256, enable := c.b.getLsbD 63 }

/-- Set the buffer once every sampled request in flight has written its record; the value is the lost count of the buffer
that the command disabled. -/
def traceSet (s : State) (n : Nat) (x : Context) (t : TraceBuf) (disabled : Bool) : Cmd :=
  if x.samples.isEmpty then
    .ok (if disabled then BitVec.ofNat 32 x.trace.lost else 0) (setCtx s n fun c => { c with trace := t })
  else .wait (setCtx s n fun c => { c with trace := { c.trace with enable := false } })

def execTraceBuf (c : AdminCmd) (s : State) : Host.Outcome State Fault Refusal :=
  let t := traceOf c
  runCmd (.traceBuf c) c (c.c == 0 && c.b.toNat / 2 ^ 40 % 2 ^ 23 == 0) s (withCtx s c fun n x =>
    if c.a.toNat % 4096 != 0 || !powerOfTwo t.count 64 (2 ^ 24) || t.k < 4 || t.k > 24 ||
        !insideHeap x.cfg t.base (64 * t.count) then .refused aRange
    else traceSet s n x t x.trace.enable)

/-! ### The end of a command that waits (16 R337, R338, R342) -/

/-- A second look at the command in progress. -/
def retryCmd (s : State) : Instr → Host.Outcome State Fault Refusal
  | .destroy c => runCmd (.destroy c) c true s (destroyed s c.n.toNat)
  | .traceBuf c =>
    runCmd (.traceBuf c) c true s (withCtx s c fun n x => traceSet s n x (traceOf c) true)
  | .cold c => execCold c s
  | .debugFragResume c => execDebugFragResume c s
  | _ => done s

/-- Contexts of a function that was reset go once their accesses have been performed (18 R414). -/
def reapContexts (s : State) : State :=
  (s.ctxs.filter fun e => e.2.ending && s.adm.inProgress.isNone).foldl
    (fun s e => if ctxQuiet s e.1 then eraseContext s e.1 else s) s

/-- ADMIN_COMMAND_COMPLETE: a completion that waited for room is written, or the command in progress completes. -/
def execAdminCommandComplete (s : State) : Host.Outcome State Fault Refusal :=
  match s.adm.waiting with
  | some (t, st, v) =>
    if cplRoom s.adm then
      done (putCpl { s with adm := { s.adm with waiting := none } } { tag := t.toNat, status := st.toNat, value := v.toNat })
    else done s
  | none =>
    match s.adm.inProgress with
    | some i => retryCmd s i
    | none => done (reapContexts s)

/-! ### Taking a command (16 R337) -/

/-- Whether the part can take the next command. -/
def adminReady (s : State) : Bool :=
  s.adm.ready && s.adm.enable && s.adm.tail != s.adm.head && s.adm.waiting.isNone && s.adm.inProgress.isNone && !s.adm.fatal

/-- The command's bits, where its ring entry can be read, and the state after it has been taken. -/
def takeCommand (s : State) : Option (BitVec 512) × State :=
  let a := s.adm
  ((hostRecord s (a.base + BitVec.ofNat 64 (64 * (a.head.toNat % a.size))) 64).map (BitVec.ofNat 512),
    { s with adm := { a with head := a.head + 1 } })

/-- A ring entry that cannot be read: AREAD; the tag of its completion is a free value (16 R335, log 54). -/
def unreadCommand (s : State) : State :=
  let (n, s) := freshNo s
  completeCmd s (BitVec.ofNat 16 (Config.pick n)) aRead 0

/-- A command that names no operation: AOPC, or for a DEBUG operation code ARANGE (16 R335, R337). -/
def badCommand (s : State) (w : BitVec 512) : State :=
  let tag := w.extractLsb' 16 16
  if w.extractLsb' 0 8 != 0x0B#8 then completeCmd s tag aOpc 0
  else if w.extractLsb' 8 8 != 0 || w.extractLsb' 256 256 != 0 || w.extractLsb' 192 64 != 0 || w.extractLsb' 160 32 != 0 then
    completeCmd s tag aResv 0
  else completeCmd s tag aRange 0

end Sys2Proof.Machine
end

