-- ==== Sys2Proof/Machine/Memory.lean ====
section
/-! DEFINITION. Loads, stores, atomics, reductions, fences and invalidations (spec 11 R287 to R305; 10 R267, R276 to R281). -/
namespace Sys2Proof.Machine

/-- Access size in bytes (11 R288). -/
def sizeBytes : Size → Nat
  | .n8 | .z8 => 1
  | .n16 | .z16 => 2
  | .b32 => 4
  | .b64 => 8
  | .b128 => 16

/-- Registers that a size reads or writes. -/
def sizeWords : Size → Nat
  | .b64 => 2
  | .b128 => 4
  | _ => 1

/-- Extend a loaded value: `.z` sign-extends, `.n` zero-extends (11 R289). -/
def extendLoad (sz : Size) (v : BitVec 128) : BitVec 128 :=
  match sz with
  | .n8 => (v.setWidth 8).setWidth 128
  | .z8 => ((v.setWidth 8).signExtend 32).setWidth 128
  | .n16 => (v.setWidth 16).setWidth 128
  | .z16 => ((v.setWidth 16).signExtend 32).setWidth 128
  | _ => v

/-- Write a loaded value to the registers of its size. -/
def writeSize (w : Wave) (sz : Size) (d : Operand) (m : LaneMask) (f : Fin 32 → BitVec 128) : Wave :=
  match sz with
  | .b64 => writePair w d m fun l => (f l).setWidth 64
  | .b128 =>
    match d with
    | .v n => (List.range 4).foldl (fun w i => writeV w (n.val + i) m fun l => (f l).extractLsb' (32 * i) 32) w
    | .s n => if m == 0 then w else
        (List.range 4).foldl (fun w i => writeS w (n.val + i) ((f (lowest m)).extractLsb' (32 * i) 32)) w
    | _ => w
  | _ => writeDst w d m fun l => (f l).setWidth 32

/-- The data a lane stores: low bytes of its register, its pair, or its four registers. -/
def storeData (s : State) (sz : Size) (x : Operand) (l : Fin 32) : BitVec 128 :=
  match sz with
  | .b64 => (src64 s x l).setWidth 128
  | .b128 =>
    match x with
    | .v n => (pairOf (readV s.me (n.val + 2) l) (readV s.me (n.val + 3) l)) ++
        (pairOf (readV s.me n.val l) (readV s.me (n.val + 1) l))
    | .s n => (pairOf (readS s.me (n.val + 2)) (readS s.me (n.val + 3))) ++
        (pairOf (readS s.me n.val) (readS s.me (n.val + 1)))
    | _ => 0
  | _ => (src32 s x l).setWidth 128

/-- The global address of a lane (11 R282). -/
def gAddr (s : State) (m : MemOp) (size : Nat) (l : Fin 32) : Word64 :=
  src64 s m.base l + (src32 s m.index l).setWidth 64 + m.off.signExtend 64 * BitVec.ofNat 64 size

/-- The scratchpad offset of a lane. -/
def spAddr (s : State) (m : MemOp) (size : Nat) (l : Fin 32) : Word32 :=
  src32 s m.base l + src32 s m.index l + m.off.signExtend 32 * BitVec.ofNat 32 size

/-- The bytes at a place that a check found, as a core's lanes see them. -/
def loadAt (s : State) (n : Nat) : Chk → BitVec 128
  | .ok pa => BitVec.ofNat 128 (seenRead s s.me.core pa n)
  | .far _ v => v
  | _ => 0

/-- The value found for a lane. -/
def valueOf (vs : List (Fin 32 × BitVec 128)) (l : Fin 32) : BitVec 128 :=
  ((vs.find? fun e => e.1 == l).map (·.2)).getD 0

/-- Perform the pending `red`s of the core to the places that are about to be read or written. -/
def settlePlaces (s : State) (n : Nat) (cs : List (Fin 32 × Chk)) : State :=
  cs.foldl (fun s c => match c.2 with
    | .ok pa => settleReds s s.me.core pa n
    | _ => s) s

def execLd (h : Head) (sz : Size) (_acq : Bool) (_sc : Scope) (_nt : Bool) (d : Operand) (m : MemOp) (s : State) :
    Host.Outcome State Fault Refusal :=
  let n := sizeBytes sz
  finish (memInstr h d.isScalar [(m.base, 2), (m.index, 1)] s
    (fun s l => globalChk s l (gAddr s m n l) n { load := true, watchLoad := true })
    (fun s l pa => sendSampled s l (gAddr s m n l) pa n none sz.code.toNat)
    fun cs s0 =>
      let s := settlePlaces s0 n cs
      let vs := cs.map fun c => (c.1, extendLoad sz (loadAt s n c.2))
      let s := modMe s fun w => writeSize w sz d (maskOf (cs.map (·.1))) (valueOf vs)
      let s := sampleLocal s cs (gAddr s0 m n) sz.code.toNat
      cs.foldl (fun s c => touchPolders s s.me.ctx (gAddr s0 m n c.1).toNat n) s)

def execSt (h : Head) (sz : Size) (rel : Bool) (sc : Scope) (_nt : Bool) (x : Operand) (m : MemOp) (s : State) :
    Host.Outcome State Fault Refusal :=
  let n := sizeBytes sz
  finish (memInstr h x.isScalar [(x, sizeWords sz), (m.base, 2), (m.index, 1)] s
    (fun s l => globalChk s l (gAddr s m n l) n { store := true, watchStore := true })
    (fun s l pa => sendSampled s l (gAddr s m n l) pa n (some (storeData s sz x l)) (8 + sz.code.toNat))
    fun cs s0 =>
      let s := if rel && !cs.isEmpty then releaseAt s0 s0.me.core sc else s0
      let s := sampleLocal (settlePlaces s n cs) cs (gAddr s0 m n) (8 + sz.code.toNat)
      cs.foldl (fun s c =>
        let s := touchPolders s s.me.ctx (gAddr s0 m n c.1).toNat n
        match c.2 with
        | .ok pa => coreStore s s.me.core pa n (storeData s0 sz x c.1).toNat
        | _ => s) s)

/-- Change the group of the issuing wave. -/
def modMyGroup (s : State) (f : Group → Group) : State := modGroup s s.me.group f

def execLdsp (h : Head) (sz : Size) (_acq : Bool) (d : Operand) (m : MemOp) (s : State) :
    Host.Outcome State Fault Refusal :=
  let n := sizeBytes sz
  done (memInstr h d.isScalar [(m.base, 1), (m.index, 1)] s
    (fun s l => spChk s l (spAddr s m n l) n { load := true, watchLoad := true }) noSend
    fun cs s =>
      let g := groupOf s s.me.group
      let vs := cs.map fun c => (c.1, extendLoad sz (match c.2 with
        | .ok o => BitVec.ofNat 128 (spRead g o n)
        | _ => 0))
      modMe s fun w => writeSize w sz d (maskOf (cs.map (·.1))) (valueOf vs))

def execStsp (h : Head) (sz : Size) (_rel : Bool) (x : Operand) (m : MemOp) (s : State) :
    Host.Outcome State Fault Refusal :=
  let n := sizeBytes sz
  done (memInstr h x.isScalar [(x, sizeWords sz), (m.base, 1), (m.index, 1)] s
    (fun s l => spChk s l (spAddr s m n l) n { store := true, watchStore := true }) noSend
    fun cs s0 => cs.foldl (fun s c => match c.2 with
      | .ok o => modMyGroup s fun g => spWrite g o n (storeData s0 sz x c.1).toNat
      | _ => s) s0)

/-- The check of a read of the data section (11 R282, R283, R291). -/
def dataChk (s : State) (l : Fin 32) (ofs : Word32) (n : Nat) : Chk :=
  let k := kernOf s
  let bad := fun (c : Cause) (a : Word64) (d : Nat) =>
    Chk.fault { lane := l, cause := c, addr := a, detail := BitVec.ofNat 32 d }
  if ofs.toNat % n != 0 then bad .align (ofs.setWidth 64) n
  else if ofs.toNat + n > k.dataSize then bad .range (ofs.setWidth 64) n
  else
    let a := k.obj + BitVec.ofNat 64 (k.dataOff + ofs.toNat)
    let last := a + BitVec.ofNat 64 (n - 1)
    let far := fun (pa : Nat) => match remoteAnswer s.me.lanes[l] pa with
      | none => Chk.send pa
      | some (some (.data v)) => .far pa v
      | some (some .poison) => bad .poison a 0
      | some (some (.error c)) => bad .remote a (pkgDetail pa c.toNat).toNat
      | some none => bad .remoteTimeout a (pkgDetail pa 0).toNat
    let trouble := fun (x : Word64) (t : Tr) => match t with
      | .ok _ => none
      | .remote pa => some (far pa)
      | .ats => some (Chk.ats (pageOf x) false)
      | .page => some (.fault { lane := l, cause := .page, addr := x, page := some (pageOf x) })
      | .cold _ => some (.fault { lane := l, cause := .expand, addr := x, page := some (pageOf x) })
      | .refused d => some (bad .page x d)
      | .hole y => some (.hole y)
    match trouble a (translate s s.me.ctx a false), trouble last (translate s s.me.ctx last false) with
    | some c, _ | none, some c => c
    | none, none => if vaPoisoned s s.me.ctx a n then bad .poison a 0 else .ok a.toNat

/-- The place of a read of the data section. -/
def dataAddr (s : State) (base : Operand) (off : BitVec 12) (n : Nat) (l : Fin 32) : Word32 :=
  src32 s base l + off.signExtend 32 * BitVec.ofNat 32 n

def execLdc (h : Head) (sz : Size) (d base : Operand) (off : BitVec 12) (s : State) :
    Host.Outcome State Fault Refusal :=
  let n := sizeBytes sz
  finish (memInstr h d.isScalar [(base, 1)] s
    (fun s l => dataChk s l (dataAddr s base off n l) n)
    (fun s l pa => sendSampled s l
      ((kernOf s).obj + BitVec.ofNat 64 ((kernOf s).dataOff + (dataAddr s base off n l).toNat)) pa n none sz.code.toNat)
    fun cs s0 =>
      let va := fun (l : Fin 32) => (kernOf s0).obj + BitVec.ofNat 64 ((kernOf s0).dataOff + (dataAddr s0 base off n l).toNat)
      let s := cs.foldl (fun s c => match c.2 with
        | .ok a => settleReds s s.me.core (vaToPa s s.me.ctx (BitVec.ofNat 64 a) false) n
        | _ => s) s0
      let vs := cs.map fun c => (c.1, extendLoad sz (match c.2 with
        | .ok a => BitVec.ofNat 128
            (leBytes (fun i => vaByte s s.me.ctx (some s.me.core) (BitVec.ofNat 64 i)) a n)
        | .far _ v => v
        | _ => 0))
      let s := sampleLocal s cs va sz.code.toNat
      let s := cs.foldl (fun s c => touchPolders s s.me.ctx (va c.1).toNat n) s
      modMe s fun w => writeSize w sz d (maskOf (cs.map (·.1))) (valueOf vs))

/-- `zfill` writes 256 zero bytes at each active lane's address (11 R292). -/
def execZfill (h : Head) (m : MemOp) (s : State) : Host.Outcome State Fault Refusal :=
  finish (memInstr h false [(m.base, 2), (m.index, 1)] s
    (fun s l => globalChk s l (gAddr s m 256 l) 256 { store := true, watchStore := true })
    (fun s l pa => sendSampled s l (gAddr s m 256 l) pa 256 (some 0) 8)
    fun cs s0 =>
      let s := sampleLocal (settlePlaces s0 256 cs) cs (gAddr s0 m 256) 8
      cs.foldl (fun s c =>
        let s := touchPolders s s.me.ctx (gAddr s0 m 256 c.1).toNat 256
        match c.2 with
        | .ok pa => coreStore s s.me.core pa 256 0
        | _ => s) s)

/-- `pref` never faults and changes no state that a program can read (11 R293). -/
def execPref (h : Head) (_lvl : PLevel) (_m : MemOp) (s : State) : Host.Outcome State Fault Refusal :=
  done (regInstr h false [] s fun _ s => s)

/-- Size code of an atomic in a sample (11 R288, 18 R413). -/
def wordCode (wide : Bool) : Nat := if wide then Size.b64.code.toNat else Size.b32.code.toNat

/-! ### Atomics (11 R298 to R302) -/

/-- Registers of an atomic's operand, and its compare and new values (11 R299). -/
def atomWords (op : AtomOp) (wide : Bool) : Nat := (if wide then 2 else 1) * (if op = .cas then 2 else 1)

def atomOperands (s : State) (op : AtomOp) (wide : Bool) (x : Operand) (l : Fin 32) : Word64 × Word64 :=
  let second : Operand := match x with
    | .v n => .v (Fin.ofNat 320 (n.val + (if wide then 2 else 1)))
    | .s n => .s (Fin.ofNat 128 (n.val + (if wide then 2 else 1)))
    | o => o
  if op = .cas then (srcW s (widthOf wide) second l, srcW s (widthOf wide) x l)
  else (srcW s (widthOf wide) x l, 0)

def Order.isRel : Order → Bool
  | .rel | .ar => true
  | _ => false

def atomBytes (wide : Bool) : Nat := if wide then 8 else 4

def execAtom (h : Head) (op : AtomOp) (uns wide : Bool) (ord : Order) (sc : Scope) (d base x : Operand) (s : State) :
    Host.Outcome State Fault Refusal :=
  let n := atomBytes wide
  finish (memInstr h d.isScalar [(base, 2), (x, atomWords op wide)] s
    (fun s l => globalChk s l (src64 s base l) n
      { load := d != .zero, store := true, watchLoad := true, watchStore := true })
    (fun s l pa => sendSampled s l (src64 s base l) pa n (some ((atomOperands s op wide x l).1.setWidth 128))
      (16 + wordCode wide))
    fun cs s0 =>
      let s := if Order.isRel ord && !cs.isEmpty then releaseAt s0 s0.me.core sc else s0
      let s := sampleLocal (settlePlaces s n cs) cs (src64 s0 base) (16 + wordCode wide)
      let (s, vs) := cs.foldl (fun (p : State × List (Fin 32 × BitVec 128)) c =>
        let s := touchPolders p.1 p.1.me.ctx (src64 s0 base c.1).toNat n
        let (y, z) := atomOperands s0 op wide x c.1
        match c.2 with
        | .ok pa =>
          let (old, s) := atomAt s s.me.core pa op uns wide y z
          (s, (c.1, old.setWidth 128) :: p.2)
        | .far _ v => (s, (c.1, v) :: p.2)
        | _ => (s, p.2)) (s, [])
      modMe s fun w => writeW w (widthOf wide) d (maskOf (cs.map (·.1))) fun l => (valueOf vs l).setWidth 64)

def execAtomsp (h : Head) (op : AtomOp) (uns wide : Bool) (_ord : Order) (d base x : Operand) (s : State) :
    Host.Outcome State Fault Refusal :=
  let n := atomBytes wide
  done (memInstr h d.isScalar [(base, 1), (x, atomWords op wide)] s
    (fun s l => spChk s l (src32 s base l) n
      { load := d != .zero, store := true, watchLoad := true, watchStore := true }) noSend
    fun cs s0 =>
      let (s, vs) := cs.foldl (fun (p : State × List (Fin 32 × BitVec 128)) c =>
        match c.2 with
        | .ok o =>
          let (y, z) := atomOperands s0 op wide x c.1
          let old := BitVec.ofNat 64 (spRead (groupOf p.1 p.1.me.group) o n)
          let new := atomValue op uns wide old y z
          let s := if op = .cas && new = old then p.1 else modMyGroup p.1 fun g => spWrite g o n new.toNat
          (s, (c.1, old.setWidth 128) :: p.2)
        | _ => p) (s0, [])
      modMe s fun w => writeW w (widthOf wide) d (maskOf (cs.map (·.1))) fun l => (valueOf vs l).setWidth 64)

/-- The thread index of a lane of the issuing wave within its group (03 R75). -/
def threadIndex (s : State) (l : Fin 32) : Nat := s.me.index * 32 + l.val

/-- `atomf` logs its updates; a full log ends the launch with REDLOG (10 R279, R281). -/
def execAtomf (h : Head) (base x : Operand) (s : State) : Host.Outcome State Fault Refusal :=
  let g := groupOf s s.me.group
  match g.launch with
  | none => done (illegalWord s)
  | some lk =>
    if !g.kern.usesAtomf then done (illegalWord s)
    else
      finish (memInstr h false [(base, 2), (x, 1)] s
        (fun s l => match globalChk s l (src64 s base l) 4 { store := true, watchStore := true } with
          | .send pa => .ok pa
          | c => c) noSend
        fun cs s0 =>
          let la := Table.getD s0.launches lk {}
          if (la.log.length + cs.length) * 16 > g.kern.redBytes then endLaunch s0 lk 0x30
          else
            let recs := cs.map fun c =>
              ({ group := g.index, thread := threadIndex s0 c.1, va := src64 s0 base c.1, val := src32 s0 x c.1 } : RedRec)
            { s0 with launches := Table.modify s0.launches lk fun la => { la with log := la.log ++ recs } })

/-- `red`: updates of the active lanes, performed later at the home L3 (11 R301). -/
def execRed (h : Head) (op : AtomOp) (uns wide rel : Bool) (sc : Scope) (x base : Operand) (s : State) :
    Host.Outcome State Fault Refusal :=
  let n := atomBytes wide
  finish (memInstr h x.isScalar [(x, if wide then 2 else 1), (base, 2)] s
    (fun s l => globalChk s l (src64 s base l) n { store := true, watchStore := true })
    (fun s l pa => sendSampled s l (src64 s base l) pa n (some ((srcW s (widthOf wide) x l).setWidth 128))
      (24 + wordCode wide))
    fun cs s0 =>
      let s := if rel && !cs.isEmpty then releaseAt s0 s0.me.core sc else s0
      let s := sampleLocal s cs (src64 s0 base) (24 + wordCode wide)
      cs.foldl (fun s c =>
        let s := touchPolders s s.me.ctx (src64 s0 base c.1).toNat n
        match c.2 with
        | .ok pa => { s with reds := s.reds ++ [{ ctx := s.me.ctx, core := s.me.core, pa := pa, op := op, uns := uns,
                                                  wide := wide, val := srcW s0 (widthOf wide) x c.1,
                                                  epoch := s.xlepoch }] }
        | _ => s) s)

/-! ### Fences and invalidations (11 R303 to R305) -/

def execFence (h : Head) (sc : Scope) (s : State) : Host.Outcome State Fault Refusal :=
  done (onceInstr h [] s fun _ s => releaseAt s s.me.core sc)

/-- `icinv`: the agent's writes, its `red`s among them, are performed throughout the scope; instruction caches hold nothing that
a header entry does not fetch anew in this model (10 R276). -/
def execIcinv (h : Head) (sc : Scope) (s : State) : Host.Outcome State Fault Refusal :=
  done (onceInstr h [] s fun _ s => applyOwn (releaseAt s s.me.core sc) s.me.core)

/-- Drop the translations of a context that lie in a range of pages; the expansion map stays (16 R347, R349). -/
def dropTlb (s : State) (ctx : Nat) (p : Nat → Nat → Bool) : State :=
  setCtx s ctx fun c => { c with tlb := c.tlb.filter fun e => !p e.page e.bytes,
                                 denied := c.denied.filter fun e => !p e.1 65536 }

/-- A core of a level. -/
def levelCore (u : Nat) : Nat := if u < 1152 then u else if u < 1440 then 4 * (u - 1152) else 48 * (u - 1440)

/-- Every store and `red` of the agents in the instance of a scope around a core is performed (10 R277). -/
def performAll (s : State) (sc : Scope) (core : Nat) : State :=
  let inside := fun (c : Nat) => scopeInstance sc c == scopeInstance sc core
  let us := (s.dirty.map fun c => c.1 / corePitch).eraseDups.filter fun u => inside (levelCore u)
  let s := (core :: us).foldl flushLevel s
  applyReds s fun r => inside r.core

/-- Remote accesses of a context that were translated through an entry of a range and have not been answered: those of lanes
on cores of the scope's instance, and those of engines where the scope holds them; `.all` covers the heap too (11 R305). -/
def openThrough (s : State) (sc : Scope) (core ctx : Nat) (all : Bool) (p : Nat → Nat → Bool) : List Nat :=
  (s.remotes.filter fun r => r.2.ctx == ctx && (all || !inHeap (ctxOf s ctx).cfg r.2.addr.toNat && p r.2.addr.toNat 1) &&
    (if r.2.tag.isSome then sc != .core && sc != .quad
      else scopeInstance sc (if r.2.ap then (apOf s r.2.wave).core else (waveOf s r.2.wave).core) == scopeInstance sc core)).map (·.1)

/-- `tlbinv` drops the entries of a range, and completes when every access that was translated through one has been
performed (10 R277). -/
def invalidate (s : State) (sc : Scope) (all : Bool) (p : Nat → Nat → Bool) (m : LaneMask) : State :=
  let pass := fun (s : State) => commitWith s [] fun s => advanceMe s s.iss
  if m == 0 then pass s
  else
    match s.me.lanes[lowest s.iss].wait with
    | .stall (.answers ks _) =>
      if ks.all fun k => (Table.get? s.remotes k).isNone then pass s else s
    | _ =>
      let s := dropTlb (performAll s sc s.me.core) s.me.ctx p
      match openThrough s sc s.me.core s.me.ctx all p with
      | [] => pass s
      | ks => stallMe s s.iss (.answers ks (s.word.getLsbD 62))

def execTlbinv (h : Head) (sc : Scope) (range : Option (Operand × Operand)) (s : State) :
    Host.Outcome State Fault Refusal :=
  let m := active s h
  match range with
  | none => done (invalidate s sc true (fun _ _ => true) m)
  | some (a, b) =>
    let va := src64 s a 0
    let n := (src32 s b 0).toNat
    if m != 0 && poisonLanes s [(a, 2), (b, 1)] m != 0 then
      done (commitWith s (faultLanes m .poison) fun s => advanceMe s (s.iss &&& ~~~m))
    else if m != 0 && (va.toNat % 65536 != 0 || n == 0) then
      done (commitWith s (faultLanes m .align va (src32 s b 0)) fun s => advanceMe s (s.iss &&& ~~~m))
    else
      done (invalidate s sc false (fun page bytes => page < va.toNat + 65536 * n && va.toNat < page + bytes) m)

end Sys2Proof.Machine
end

