-- ==== Sys2Proof/Machine/Async.lean ====
section
/-! DEFINITION. Bulk copies, batches, byte barriers, polders and weir scans (spec 11 R297, R306 to R319, 04 R107, R108, 10 R271,
R272). -/
namespace Sys2Proof.Machine

/-! ### Copies in the sequencer (11 R306 to R308) -/

def coreOfWave (wk : Nat) : Nat := wk % 131072 / 64

/-- Whether the destination of a copy is scratchpad, and whether its source is. -/
def CpyDir.toSp : CpyDir → Bool
  | .sg | .ss => true
  | _ => false

def CpyDir.fromSp : CpyDir → Bool
  | .gs | .ss => true
  | _ => false

/-- One copy's operands for a lane. -/
structure CopyArgs where
  dst : Word64 := 0
  src : Word64 := 0
  len : Word32 := 0
  bar : Option Word32 := none

def copyArgs (s : State) (dir : CpyDir) (d a b c : Operand) (l : Fin 32) : CopyArgs :=
  { dst := if CpyDir.toSp dir then (src32 s d l).setWidth 64 else src64 s d l,
    src := if CpyDir.fromSp dir then (src32 s a l).setWidth 64 else src64 s a l,
    len := src32 s b l,
    bar := if c == .zero then none else some (src32 s c l) }

/-- The first failing check of a copy, ALIGN before RANGE (11 R307, 17 R378). -/
def copyFault (spBytes : Nat) (dir : CpyDir) (x : CopyArgs) (l : Fin 32) : Option LaneFault :=
  let f := fun (c : Cause) (a : Word64) (low op : Nat) =>
    some ({ lane := l, cause := c, addr := a, detail := BitVec.ofNat 32 (low + 256 * op) } : LaneFault)
  let bar := x.bar.getD 0
  if x.dst.toNat % 16 != 0 then f .align x.dst 16 0
  else if x.src.toNat % 16 != 0 then f .align x.src 16 1
  else if x.len.toNat % 16 != 0 then f .align (x.len.setWidth 64) 16 2
  else if bar.toNat % 8 != 0 then f .align (bar.setWidth 64) 8 3
  else if CpyDir.toSp dir && x.dst.toNat + x.len.toNat > spBytes then f .range x.dst 16 0
  else if CpyDir.fromSp dir && x.src.toNat + x.len.toNat > spBytes then f .range x.src 16 1
  else if x.bar.isSome && bar.toNat + 8 > spBytes then f .range (bar.setWidth 64) 8 3
  else none

/-- Groups into which a copy writes: its own, or those of its launch on the cores of a multicast mask (11 R308). -/
def copyTargets (s : State) (mc : BitVec 4) : List Nat :=
  if mc == 0 then [s.me.group]
  else (s.groups.filter fun g => g.2.ctx == s.me.ctx && g.2.launch == (groupOf s s.me.group).launch &&
    (g.2.launch.isSome || g.1 == s.me.group) && g.2.core / 4 == s.me.core / 4 && mc.getLsbD (g.2.core % 4)).map (·.1)

/-- Add to or take from the pending counts of the lines of a range in a group. -/
def addPending (s : State) (gk ofs n : Nat) : State :=
  modGroup s gk fun g => { g with pend := (linesOf ofs n).foldl (fun p i => Table.put p i 0 (Table.getD p i 0 + 1)) g.pend }

def dropPending (s : State) (gk line : Nat) : State :=
  modGroup s gk fun g => { g with pend := Table.put g.pend line 0 (Table.getD g.pend line 0 - 1) }

/-! ### Byte barriers (11 R310) -/

/-- Change the landed count, the error bit and the expected count of a byte barrier. -/
def modBarrier (s : State) (gk : Nat) (bar : Option Nat) (f : Nat → Bool → Nat → Nat × Bool × Nat) : State :=
  match bar with
  | none => s
  | some o => modGroup s gk fun g =>
      let w := spRead g o 8
      let (l, e, x) := f (w / 2 ^ 32) (w.testBit 31) (w % 2 ^ 31)
      spWrite g o 8 (l % 2 ^ 32 * 2 ^ 32 + (if e then 2 ^ 31 else 0) + x % 2 ^ 31)

def barLand (s : State) (gk : Nat) (bar : Option Nat) (n : Nat) : State :=
  modBarrier s gk bar fun l e x => (l + n, e, x)

/-! ### Landing, failure and discard (11 R308 to R312, 04 R108) -/

/-- Bytes of a unit, units of a copy. -/
def copyUnits (c : Copy) : Nat := c.len / 8

/-- A copy all of whose units have landed in every target leaves the sequencer. -/
def endCopy (s : State) (ck : Nat) : State :=
  match Table.get? s.copies ck with
  | none => s
  | some c =>
    if c.landed.length ≥ c.targets.length * copyUnits c then
      engineDone { s with copies := Table.erase s.copies ck } c.ctx (tagCopy ck)
    else s

/-- Mark a batch of a thread failed; the first cause stays (11 R312). -/
def markFailed (s : State) (c : Copy) (why : CopyFailure) : State :=
  if (waveOf s c.wave).group == c.group then
    modWave s c.wave fun w => mapLanes w (laneBit (Fin.ofNat 32 c.lane)) fun _ l =>
      if l.life == .exited || l.failed.any (fun e => e.1 == c.batch) then l
      else { l with failed := l.failed ++ [(c.batch, why)] }
  else s

/-- Lines of a target of a copy that still lack bytes. -/
def openLines (c : Copy) (t : Nat) : List Nat :=
  (linesOf c.dst.toNat c.len).filter fun line =>
    (List.range (copyUnits c)).any fun u => (c.dst.toNat + 8 * u) / 128 == line && !c.landed.contains (t * 2 ^ 32 + u)

/-- Lower the pending counts that a copy still holds. -/
def releaseLines (s : State) (c : Copy) : State :=
  if CpyDir.toSp c.dir then
    (c.targets.zip (List.range c.targets.length)).foldl (fun s t =>
      (openLines c t.2).foldl (fun s line => dropPending s t.1 line) s) s
  else s

/-- A failed copy counts its whole length as landed, sets the error bit and marks its batch. -/
def failCopy (s : State) (ck : Nat) (why : CopyFailure) : State :=
  match Table.get? s.copies ck with
  | none => s
  | some c =>
    let s := releaseLines s c
    let s := (c.targets.zip (List.range c.targets.length)).foldl (fun s t =>
      let left := c.len - 8 * (c.landed.filter fun u => u / 2 ^ 32 == t.2).length
      modBarrier s t.1 c.bar fun l _ x => (l + left, true, x)) s
    engineDone { markFailed s c why with copies := Table.erase s.copies ck } c.ctx (tagCopy ck)

/-- A copy discarded by its guard: zero bytes, and every target expects its length less (04 R108, 11 R308). -/
def discardCopy (s : State) (ck : Nat) : State :=
  match Table.get? s.copies ck with
  | none => s
  | some c =>
    let s := releaseLines s c
    let s := c.targets.foldl (fun s t => modBarrier s t c.bar fun l e x => (l, e, x - c.len)) s
    { s with copies := Table.erase s.copies ck }

/-- Copies of a core's sequencer in their order. -/
def sequencer (s : State) (core : Nat) : List (Nat × Copy) := s.copies.filter fun c => coreOfWave c.2.wave == core

/-- The sequencer discards what stands ahead of the first pending guard with a false slot, and ends copies without a
byte or a target. -/
def runSequencer (s : State) (core : Nat) : State :=
  ((sequencer s core).foldl (fun (p : State × Bool) c =>
    if p.2 then p
    else
      match c.2.guard with
      | some (_, .pending ..) => (p.1, true)
      | some (_, .isFalse) => (discardCopy p.1 c.1, false)
      | _ => (endCopy p.1 c.1, false)) (s, false)).1

/-- Whether a copy stands behind a command whose guard is pending, or has one itself. -/
def copyHeld (s : State) (ck : Nat) (c : Copy) : Bool :=
  (sequencer s (coreOfWave c.wave)).any fun e => e.1 ≤ ck && (match e.2.guard with
    | some (_, .pending ..) => true
    | _ => false)

/-- Issue one copy; the issue is a release toward its source reads, at `.die` (10 R267). -/
def addCopy (s : State) (dir : CpyDir) (guard : Option (BitVec 3)) (targets : List Nat) (l : Fin 32) (x : CopyArgs) : State :=
  let g := guard.map fun i => (i, Table.getD s.me.guards i.toNat .isTrue)
  let c : Copy := { ctx := s.me.ctx, wave := s.me.key, lane := l.val, group := s.me.group, batch := s.me.lanes[l].batch,
                    dir := dir, dst := x.dst, src := x.src, len := x.len.toNat, bar := x.bar.map (·.toNat),
                    targets := targets, guard := g }
  let (k, s) := freshNo s
  let s := { s with copies := Table.set s.copies k c }
  if CpyDir.toSp dir then targets.foldl (fun s t => addPending s t c.dst.toNat c.len) s else s

def execCpy (h : Head) (dir : CpyDir) (guard : Option (BitVec 3)) (_nt : Bool) (mc : BitVec 4) (d a b c : Operand)
    (s : State) : Host.Outcome State Fault Refusal :=
  let m := active s h
  let srcs := [(d, if CpyDir.toSp dir then 1 else 2), (a, if CpyDir.fromSp dir then 1 else 2), (b, 1), (c, 1)]
  let uni := d.uniform && a.uniform && b.uniform && c.uniform
  done (withPops s srcs m fun s =>
    let bad := poisonLanes s srcs m
    let bad := if uni && bad != 0 then m else bad
    let ls := lanesIn (m &&& ~~~bad)
    let own := if uni then ls.take 1 else ls
    let sp := (kernOf s).spBytes
    let fs := own.flatMap fun l => match copyFault sp dir (copyArgs s dir d a b c l) l with
      | some f => spreadFault uni (m &&& ~~~bad) f
      | none => []
    let all := faultLanes bad .poison ++ fs
    let out := maskOf (all.map (·.lane))
    let go := own.filter fun l => !out.getLsbD l.val
    if copiesOn s s.me.core + go.length > 256 then stallMe s s.iss (.copyRoom go.length)
    else
      commitWith s all fun s =>
        let ts := copyTargets s mc
        let s := if go.isEmpty then s else releaseAt s s.me.core .die
        let s := go.foldl (fun s l => addCopy s dir guard ts l (copyArgs s dir d a b c l)) s
        advanceMe (runSequencer s s.me.core) (s.iss &&& ~~~out))

/-- The place of a byte of a copy's source or destination. -/
inductive Spot
  | sp (gk ofs : Nat)
  | mem (pa : Nat)
  | wait
  | fail (why : CopyFailure)
  | hole (addr : Nat)
  deriving DecidableEq, Repr

/-- Why a translation of a copy failed (11 R312). -/
def copyWhy (s : State) (ck : Nat) (c : Copy) (a : Word64) (write : Bool) : CopyFailure :=
  match translate s c.ctx a write with
  | .remote pa =>
    match farAnswer s c.ctx (tagCopy ck) (pa / 2 ^ 39) with
    | some none => .remoteTimeout
    | _ => .remote
  | _ => .page

def copySpot (s : State) (ck : Nat) (c : Copy) (sp : Bool) (gk : Nat) (a : Word64) (write : Bool) : Spot :=
  if sp then .sp gk a.toNat
  else
    match engineTr s c.ctx (tagCopy ck) a write with
    | .ok pa => .mem pa
    | .wait => .wait
    | .fail => .fail (copyWhy s ck c a write)
    | .hole x => .hole x

/-- The level of the copy engine that serves a wave: the die (10 R261). -/
def copyLevel (c : Copy) : Nat := dieLevel (coreOfWave c.wave / 48)

/-- Eight bytes at a spot, as the die's copy engine reads them, and whether they are poisoned. -/
def spotRead (s : State) (u : Nat) : Spot → Nat × Bool
  | .sp gk o => (spRead (groupOf s gk) o 8, spPoisoned (groupOf s gk) o 8)
  | .mem pa => (leBytes (agentByte s (some u)) pa 8, poisoned s pa 8)
  | _ => (0, false)

def spotWrite (s : State) (u : Nat) (v : Nat) : Spot → State
  | .sp gk o => modGroup s gk fun g => spWrite g o 8 v
  | .mem pa => partWrite s u pa 8 v
  | _ => s

/-- Poison of the 64-byte granule at a spot. -/
def spotPoison (s : State) (bad : Bool) : Spot → State
  | .sp gk o => modGroup s gk fun g => { g with
      spPoison := if bad then insertNat (o / 64) g.spPoison else g.spPoison.filter (· ≠ o / 64) }
  | .mem pa => { s with poison := if bad then insertNat (pa / 64) s.poison else s.poison.filter (· ≠ pa / 64) }
  | _ => s

/-- The poison of a landing: a poisoned unit poisons its granule, and a granule whose every byte has landed unpoisoned in a
target is clean (11 R312, 18 R402). -/
def landPoison (s : State) (c : Copy) (t u : Nat) (dst : Spot) : State :=
  let d := c.dst.toNat + 8 * u
  let near := ((List.range 8).map fun i => d / 64 * 64 + 8 * i).map fun a => (a, (a - c.dst.toNat) / 8)
  let landed := fun (p : Nat × Nat) => c.dst.toNat ≤ p.1 && p.1 < c.dst.toNat + c.len && c.landed.contains (t * 2 ^ 32 + p.2)
  let bad := fun (n : Nat) => (Table.getD c.got n (0, false)).2
  if bad u then spotPoison s true dst
  else if near.all landed && !(near.any fun p => bad p.2) then spotPoison s false dst else s

/-- A unit of a copy lands in a target: its bytes, its poison, the byte barrier and the line's presence. -/
def landUnit (s : State) (ck : Nat) (c : Copy) (t u gk : Nat) (dst : Spot) : State :=
  let off := BitVec.ofNat 64 (8 * u)
  let d := c.dst.toNat + 8 * u
  let c := { c with landed := insertNat (t * 2 ^ 32 + u) c.landed }
  let s := spotWrite s (copyLevel c) (Table.getD c.got u (0, false)).1 dst
  let s := landPoison s c t u dst
  let s := touchPolders s c.ctx (c.dst + off).toNat (if CpyDir.toSp c.dir then 0 else 8)
  let s := barLand { s with copies := Table.set s.copies ck c } gk c.bar 8
  let s := if CpyDir.toSp c.dir && !(openLines c t).contains (d / 128) then dropPending s gk (d / 128) else s
  endCopy s ck

/-- The copy engine reads a unit of a copy's source, once for all its targets (11 R308). -/
def readUnit (s : State) (ck : Nat) (c : Copy) (u : Nat) : Got Copy :=
  if (Table.get? c.got u).isSome then .ok c
  else
    match copySpot s ck c (CpyDir.fromSp c.dir) c.group (c.src + BitVec.ofNat 64 (8 * u)) false with
    | .hole x => .hole x
    | .fail _ => .fail
    | .wait => .wait
    | src => .ok { c with got := Table.set c.got u (spotRead s (copyLevel c) src) }

/-- COPY_LAND: unit u mod 2^32 of a copy lands in target u / 2^32 (11 R271, R297, R308, R310, 18 R402). -/
def execCopyLand (copy unit : Nat) (s : State) : Host.Outcome State Fault Refusal :=
  match Table.get? s.copies copy with
  | none => done s
  | some c =>
    let t := unit / 2 ^ 32
    let u := unit % 2 ^ 32
    match c.targets[t]? with
    | none => done s
    | some gk =>
      if u ≥ copyUnits c || c.landed.contains unit || copyHeld s copy c then done s
      else
        let src := c.src + BitVec.ofNat 64 (8 * u)
        let dst := c.dst + BitVec.ofNat 64 (8 * u)
        match readUnit s copy c u with
        | .hole x => finish { s with stuck := some (.noSuchAddress x) }
        | .fail => done (failCopy s copy (copyWhy s copy c src false))
        | .wait => done (engineAsk s c.ctx (tagCopy copy) src 8 false)
        | .ok c' =>
          let s := touchPolders s c.ctx src.toNat (if CpyDir.fromSp c.dir then 0 else 8)
          match copySpot s copy c (CpyDir.toSp c.dir) gk dst true with
          | .hole x => finish { s with stuck := some (.noSuchAddress x) }
          | .fail w => done (failCopy s copy w)
          | .wait => done (engineAsk { s with copies := Table.set s.copies copy c' } c.ctx (tagCopy copy) dst 8 true)
          | spot => done (landUnit s copy c' t u gk spot)

/-- Whether a copy has a translation that failed with a cause: of a unit that is still to be read or to land (11 R312). -/
def copyFails (s : State) (ck : Nat) (c : Copy) (why : CopyFailure) : Bool :=
  let failed := fun (x : Spot) => match x with
    | .fail w => w == why
    | _ => false
  (List.range (copyUnits c)).any fun u =>
    let off := BitVec.ofNat 64 (8 * u)
    (Table.get? c.got u).isNone && failed (copySpot s ck c (CpyDir.fromSp c.dir) c.group (c.src + off) false) ||
      (c.targets.zip (List.range c.targets.length)).any fun t => !c.landed.contains (t.2 * 2 ^ 32 + u) &&
        failed (copySpot s ck c (CpyDir.toSp c.dir) t.1 (c.dst + off) true)

/-- COPY_FAIL: a copy ends in failure in the cases of R312: a refused translation, or an error of another package or none of its
responses in time. -/
def execCopyFail (copy : Nat) (why : CopyFailure) (s : State) : Host.Outcome State Fault Refusal :=
  match Table.get? s.copies copy with
  | none => done s
  | some c => if copyHeld s copy c || !copyFails s copy c why then done s else done (failCopy s copy why)

/-! ### Batches (11 R309, R312) -/

def execCseal (h : Head) (d : Operand) (s : State) : Host.Outcome State Fault Refusal :=
  done (regInstr h false [] s fun m s => modMe s fun w =>
    mapLanes (writeDst w d m fun l => w.lanes[l].batch) m fun _ l => { l with batch := l.batch + 1 })

/-- Whether a batch is closed and named by a wait for b. -/
def batchCovered (l : Lane) (b m : Word32) : Bool := m != l.batch && (b - m).toNat < 2 ^ 31 && (l.batch - m).toNat < 2 ^ 31

/-- The copies in flight of the closed batches that a lane waits for. -/
def batchesOpen (s : State) (wk : Nat) (l : Fin 32) (b : Word32) : List Nat :=
  let w := waveOf s wk
  (s.copies.filter fun c => c.2.wave == wk && c.2.group == w.group && c.2.lane == l.val &&
    batchCovered w.lanes[l] b c.2.batch).map (·.1)

/-- Whether every closed batch that a lane waits for is complete. -/
def batchesDone (s : State) (wk : Nat) (l : Fin 32) (b : Word32) : Bool := (batchesOpen s wk l b).isEmpty

/-- The oldest failed batch that a lane's wait covers. -/
def oldestFailed (l : Lane) (b : Word32) : Option (Word32 × CopyFailure) :=
  (l.failed.filter fun e => batchCovered l b e.1).foldl (fun o e => match o with
    | none => some e
    | some x => if (l.batch - e.1).toNat > (l.batch - x.1).toNat then some e else some x) none

def CopyFailure.cause : CopyFailure → Cause
  | .page => .page
  | .remote => .remote
  | .remoteTimeout => .remoteTimeout

/-- `cwait` waits for the closed batches, and faults a lane once for the oldest failed one. -/
def execCwait (h : Head) (b : Operand) (s : State) : Host.Outcome State Fault Refusal :=
  let m := active s h
  let bad := poisonLanes s [(b, 1)] m
  let ls := lanesIn (m &&& ~~~bad)
  done (if ls.all fun l => batchesDone s s.me.key l (src32 s b l) then
      let hits := ls.filterMap fun l => (oldestFailed s.me.lanes[l] (src32 s b l)).map fun e => (l, e)
      let fs := faultLanes bad .poison ++ hits.map fun x =>
        ({ lane := x.1, cause := CopyFailure.cause x.2.2,
           detail := BitVec.ofNat 32 (3 + x.2.1.toNat % 2 ^ 24 * 256) } : LaneFault)
      let out := maskOf (fs.map (·.lane))
      commitWith s fs fun s =>
        let s := hits.foldl (fun s x => modMe s fun w => mapLanes w (laneBit x.1) fun _ l =>
          { l with failed := l.failed.filter fun e => e.1 != x.2.1 }) s
        advanceMe s (s.iss &&& ~~~out)
    else stallMe s s.iss (.batches (ls.flatMap fun l => batchesOpen s s.me.key l (src32 s b l))))

/-! ### Byte barriers at work (11 R311) -/

/-- The check of a byte barrier's offset: ALIGN before RANGE, detail 8 (17 R378). -/
def barFault (spBytes : Nat) (o : Word32) (l : Fin 32) : Option LaneFault :=
  let f := fun (c : Cause) => some ({ lane := l, cause := c, addr := o.setWidth 64, detail := 8 } : LaneFault)
  if o.toNat % 8 != 0 then f .align else if o.toNat + 8 > spBytes then f .range else none

/-- An instruction over byte barriers: once when its operands are uniform, else for each active lane in order. -/
def barInstr (h : Head) (srcs : List (Operand × Nat)) (b : Operand) (s : State)
    (act : State → Fin 32 → State) : State :=
  let m := active s h
  let uni := srcs.all fun e => e.1.uniform
  withPops s srcs m fun s =>
    let bad := poisonLanes s srcs m
    let bad := if uni && bad != 0 then m else bad
    let own := if uni then (lanesIn (m &&& ~~~bad)).take 1 else lanesIn (m &&& ~~~bad)
    let fs := faultLanes bad .poison ++ own.flatMap fun l => match barFault (kernOf s).spBytes (src32 s b l) l with
      | some f => spreadFault uni (m &&& ~~~bad) f
      | none => []
    let out := maskOf (fs.map (·.lane))
    commitWith s fs fun s =>
      advanceMe ((own.filter fun l => !out.getLsbD l.val).foldl act s) (s.iss &&& ~~~out)

def execBxpAdd (h : Head) (b n : Operand) (s : State) : Host.Outcome State Fault Refusal :=
  done (barInstr h [(b, 1), (n, 1)] b s fun s l =>
    modBarrier s s.me.group (some (src32 s b l).toNat) fun x e y => (x, e, min (y + (src32 s n l).toNat) 0x7FFFFFFF))

def execBxpSet (h : Head) (b n : Operand) (s : State) : Host.Outcome State Fault Refusal :=
  done (barInstr h [(b, 1), (n, 1)] b s fun s l =>
    modBarrier s s.me.group (some (src32 s b l).toNat) fun _ _ _ => (0, false, min (src32 s n l).toNat 0x7FFFFFFF))

/-- What `bwait` finds at a barrier: whether it is complete, and its error bit. -/
def barState (s : State) (o : Word32) : Bool × Bool := barWordOf (groupOf s s.me.group) o.toNat

def execBwait (h : Head) (b : Operand) (s : State) : Host.Outcome State Fault Refusal :=
  let m := active s h
  let uni := b.uniform
  done (withPops s [(b, 1)] m fun s =>
    let bad := poisonLanes s [(b, 1)] m
    let bad := if uni && bad != 0 then m else bad
    let own := if uni then (lanesIn (m &&& ~~~bad)).take 1 else lanesIn (m &&& ~~~bad)
    let chk := own.map fun l => (l, barFault (kernOf s).spBytes (src32 s b l) l)
    if chk.any fun c => c.2.isNone && !(barState s (src32 s b c.1)).1 then
      stallMe s s.iss (.bytes ((chk.filter fun c => c.2.isNone).map fun c => (src32 s b c.1).toNat))
    else
      let fs := faultLanes bad .poison ++ chk.flatMap fun c => match c.2 with
        | some f => spreadFault uni (m &&& ~~~bad) f
        | none =>
          if (barState s (src32 s b c.1)).2 then
            spreadFault uni (m &&& ~~~bad)
              { lane := c.1, cause := .page, addr := (src32 s b c.1).setWidth 64, detail := 4 }
          else []
      let out := maskOf (fs.map (·.lane))
      commitWith s fs fun s => advanceMe s (s.iss &&& ~~~out))

/-! ### Polders (11 R313 to R315) -/

/-- Bytes of a window of a context's heap homed on a die. -/
def homeBytes (s : State) (ctx : Nat) (start : Word64) (len die : Nat) : Nat :=
  let pa := (start + (ctxOf s ctx).cfg.heapOff).toNat
  let blocks := (pa + len + 4095) / 4096 - pa / 4096
  (List.range blocks).foldl (fun n i =>
    let b := (pa / 4096 + i) * 4096
    if dieOf (b % 2 ^ 39) == die then n + (min (pa + len) (b + 4096) - max pa b) else n) 0

/-- Whether a window lies wholly within a context's heap. -/
def windowInHeap (c : CtxRec) (start len : Nat) : Bool :=
  c.heapBase.toNat ≤ start && start + len ≤ c.heapBase.toNat + c.heapLimit.toNat

/-- Whether every home die has room for a window in the dike's polder ways of 4 MiB each (16 R353). -/
def polderRoom (s : State) (ctx : Nat) (start : Word64) (len : Nat) : Bool :=
  let dk := (ctxOf s ctx).cfg.dike
  let share := ((List.range 16).filter fun i => (Table.getD s.dikes dk {}).polderWays.getLsbD i).length * 4194304
  (List.range 24).all fun die =>
    let new := homeBytes s ctx start len die
    let old := (s.ctxs.filter fun c => c.2.cfg.dike == dk).foldl (fun n c =>
      c.2.polders.foldl (fun n p => n + homeBytes s c.1 p.start p.len die) n) 0
    new == 0 || old + new ≤ share

/-- The status of `pin` and the state it leaves. -/
def pinWindow (s : State) (a : Word64) (n : Word32) (fade : BitVec 8) : Word32 × State :=
  let c := ctxOf s s.me.ctx
  let len := n.toNat
  let meets := c.polders.filter fun p => p.start.toNat < a.toNat + len && a.toNat < p.start.toNat + p.len
  let same := fun (p : Polder) => p.start == a && p.len == len
  if a.toNat % 256 != 0 || len % 256 != 0 || len == 0 then (0x88, s)
  else if !windowInHeap c.cfg a.toNat len then (0x89, s)
  else if (meets.any fun p => !same p) then (0x8A, s)
  else if !meets.isEmpty then
    let ps := c.polders.map fun p => if same p then { p with fade := fade.toNat } else p
    (0, setCtx s s.me.ctx fun c => { c with polders := ps })
  else if c.polders.length ≥ 64 then (0x8B, s)
  else if (c.polders.foldl (fun b p => b + p.len) 0) + len > c.cfg.polderQuota then (0x8C, s)
  else if !polderRoom s s.me.ctx a len then (0x8D, s)
  else (0, setCtx s s.me.ctx fun c => { c with polders := c.polders ++ [{ start := a, len := len, fade := fade.toNat }] })

def execPin (h : Head) (d base len : Operand) (fade : BitVec 8) (s : State) : Host.Outcome State Fault Refusal :=
  done (statusInstr h d [(base, 2), (len, 1)] s fun s =>
    let r := pinWindow s (src64 s base 0) (src32 s len 0) fade
    (some r.1, r.2))

def execUnpin (h : Head) (d base : Operand) (s : State) : Host.Outcome State Fault Refusal :=
  done (statusInstr h d [(base, 2)] s fun s =>
    let a := src64 s base 0
    if ((ctxOf s s.me.ctx).polders.any fun p => p.start == a) then
      (some 0, setCtx s s.me.ctx fun c => { c with polders := c.polders.filter fun p => p.start != a })
    else (some 0x8E, s))

/-- A polder after an aging tick; none once its fade counter has reached 0 (11 R314). -/
def fadePolder (p : Polder) : Option Polder :=
  if p.touched then some { p with touched := false }
  else if p.fade ≤ 1 then none
  else some { p with fade := p.fade - 1 }

/-- The number of the aging tick that is to end next for a context: ticks end at the multiples of 2^20 ns (11 R314). -/
def nextTick (s : State) (ctx : Nat) : Nat := (ctxOf s ctx).fadeTick + 1

/-- POLDER_FADE_TICK: the next aging tick of 2^20 ns ends for a context (11 R314); time passes until then. -/
def execPolderFadeTick (ctx : Nat) (s : State) : Host.Outcome State Fault Refusal :=
  let n := nextTick s ctx
  let s := passTo s (n * 2 ^ 20)
  done (setCtx s ctx fun c => { c with polders := c.polders.filterMap fadePolder, fadeTick := n })

/-! ### Weir scans (11 R316 to R319) -/

/-- Bytes of an element of a scan format; 0 for a format that no scan takes. -/
def weirSize (fmt : Nat) : Nat :=
  match fmt with
  | 0x0 | 0xA | 0xE => 4
  | 0x1 | 0x2 => 2
  | _ => 0

/-- The scan that a command image describes. -/
def scanOf (ctx die r : Nat) : Scan :=
  { ctx := ctx, die := die, base := BitVec.ofNat 64 (fieldAt r 0 8), bytes := fieldAt r 8 8, fmt := fieldAt r 0x10 1,
    thr := BitVec.ofNat 32 (fieldAt r 0x18 4), dst := BitVec.ofNat 64 (fieldAt r 0x20 8), cap := fieldAt r 0x28 4,
    cnt := BitVec.ofNat 64 (fieldAt r 0x30 8) }

/-- The first failing status of a command (11 R317). -/
def weirStatus (c : CtxRec) (r : Nat) (x : Scan) : Nat :=
  if !zeroAt r 0x11 7 || !zeroAt r 0x1C 4 || !zeroAt r 0x2C 4 || !zeroAt r 0x38 8 then 0x81
  else if weirSize x.fmt == 0 then 0x83
  else if x.base.toNat % 256 == 0 && x.bytes % 256 == 0 && x.bytes / weirSize x.fmt ≤ 2 ^ 32 && x.dst.toNat % 8 == 0 &&
      x.cap ≥ 1 && x.cnt.toNat % 8 == 0 && windowInHeap c x.base.toNat x.bytes &&
      windowInHeap c x.dst.toNat (8 * x.cap) && windowInHeap c x.cnt.toNat 8 then 0
  else 0x82

/-- Whether the scan units of a die have no room (11 R317). -/
def scansFull (s : State) (die : Nat) : Bool := (s.scans.filter fun e => e.2.die == die).length ≥ 16

/-- `weir`: refuses, waits for room on the die, or accepts: the count word becomes 0, with release at `.pkg`. -/
def weirAccept (s : State) (a : Word64) : Option Word32 × State :=
  let ctx := s.me.ctx
  let die := s.me.core / 48
  let tag := tagLane s.me.key (lowest s.iss).val
  let s := applyOwn s s.me.core
  match engineRead s ctx tag (some s.me.core) a 64 with
  | .wait => (none, engineAsk s ctx tag a 64 false)
  | .fail => (some 0x80, engineDone s ctx tag)
  | .hole x => (none, { s with stuck := some (.noSuchAddress x) })
  | .ok r =>
    let x := scanOf ctx die r
    let st := weirStatus (ctxOf s ctx).cfg r x
    let s := touchPolders s ctx a.toNat 64
    if st != 0 then (some (BitVec.ofNat 32 st), engineDone s ctx tag)
    else if scansFull s die then (none, s)
    else
      match engineWrite (releaseAt s s.me.core .pkg) ctx tag (some s.me.core) x.cnt 8 0 with
      | .ok s =>
        let (k, s) := freshNo (touchPolders s ctx x.cnt.toNat 8)
        (some 0, engineDone { s with scans := Table.set s.scans k x } ctx tag)
      | .wait => (none, engineAsk s ctx tag x.cnt 8 true)
      | .hole x => (none, { s with stuck := some (.noSuchAddress x) })
      | .fail => (some 0x82, engineDone s ctx tag)

def execWeir (h : Head) (d a : Operand) (s : State) : Host.Outcome State Fault Refusal :=
  finish (statusInstr h d [(a, 2)] s (fun s => weirAccept s (src64 s a 0))
    fun s => if scansFull s (s.me.core / 48) then .unit (s.me.core / 48) else partStall s s.me.ctx)

/-- Whether an element is a candidate, and its value in a pair (11 R318). -/
def weirTest (fmt : Nat) (thr : Word32) (v : Nat) : Option Nat :=
  let keep := fun (c : Bool) (x : Nat) => if c then some x else none
  let float := fun (x : FVal) => keep (fTest .gt x (f32 thr)).1 (convF .f32 .rn 0 x).1
  match fmt with
  | 0x0 => keep (fTest .gt (f32 (BitVec.ofNat 32 v)) (f32 thr)).1 v
  | 0x1 => float (decodeF .f16 v)
  | 0x2 => float (decodeF .bf16 v)
  | 0xA => keep (thr.slt (BitVec.ofNat 32 v)) v
  | _ => keep (thr.ult (BitVec.ofNat 32 v)) v

/-- The candidates of one channel's blocks in ascending index order, as channel, index and value. -/
def weirHits (s : State) (x : Scan) : List (Nat × Nat × Nat) :=
  let n := weirSize x.fmt
  (List.range (x.bytes / n)).filterMap fun i =>
    let pa := vaToPa s x.ctx (x.base + BitVec.ofNat 64 (n * i)) false
    if poisoned s pa n then none
    else (weirTest x.fmt x.thr (leBytes (agentByte s none) pa n)).map fun v => (channelOf (pa % 2 ^ 39), i, v)

/-- Drop candidates down to a capacity; the part does not say which. -/
def weirDrop (l : List (Nat × Nat × Nat)) (cap seed : Nat) : Nat → List (Nat × Nat × Nat)
  | 0 => l
  | fuel + 1 =>
    if l.length ≤ cap then l
    else weirDrop (l.eraseIdx (Config.pick seed % l.length)) cap (seed + 1) fuel

/-- Interleave the channels' candidates: each channel's own order stays, no other order holds. -/
def weirMerge (l : List (Nat × Nat × Nat)) (seed : Nat) : Nat → List (Nat × Nat × Nat)
  | 0 => l
  | fuel + 1 =>
    let chans := (l.map (·.1)).eraseDups
    if chans.length ≤ 1 then l
    else
      let c := chans.getD (Config.pick seed % chans.length) 0
      match l.find? fun e => e.1 == c with
      | some e => e :: weirMerge (l.erase e) (seed + 1) fuel
      | none => l

/-- The pairs of a finished scan and its count word; `read` tells whether the region could be read: elements that another
package does not give count as skipped (11 R318, R319, log 93). -/
def weirResult (s : State) (x : Scan) (read : Bool) : List (Nat × Nat × Nat) × Nat :=
  let n := weirSize x.fmt
  let skipped := !read || (List.range (x.bytes / n)).any fun i =>
    poisoned s (vaToPa s x.ctx (x.base + BitVec.ofNat 64 (n * i)) false) n
  let hits := if read then weirHits s x else []
  let kept := weirDrop hits x.cap s.fresh hits.length
  let pairs := weirMerge kept (s.fresh + hits.length) kept.length
  (pairs, pairs.length + (if hits.length > x.cap then 2 ^ 32 else 0) + (if skipped then 2 ^ 33 else 0) + 2 ^ 63)

/-- A scan ends: its pairs stand in the destination, and the count word is written once, with release at `.pkg`. -/
def weirEnd (s : State) (scan : Nat) (x : Scan) (read : Bool) : State :=
  let (pairs, word) := weirResult s x read
  let s := { s with scans := Table.erase s.scans scan, fresh := s.fresh + 2 * (x.bytes / weirSize x.fmt) }
  let s := touchPolders (touchPolders s x.ctx x.base.toNat x.bytes) x.ctx x.dst.toNat (8 * pairs.length)
  let s := (pairs.zip (List.range pairs.length)).foldl (fun s p =>
    vaWrite s x.ctx none (x.dst + BitVec.ofNat 64 (8 * p.2)) (p.1.2.1 + p.1.2.2 * 2 ^ 32) 8) s
  engineDone (vaWrite (touchPolders s x.ctx x.cnt.toNat 8) x.ctx none x.cnt word 8) x.ctx (tagOther scan)

/-- WEIR_SCAN_DONE: every unit has finished (11 R318, R319); a scan that awaits a translation or another package goes on
later (16 R429), and one that cannot write its pairs or its count word ends without them (log 93). -/
def execWeirScanDone (scan : Nat) (s : State) : Host.Outcome State Fault Refusal :=
  match Table.get? s.scans scan with
  | none => done s
  | some x =>
    let tag := tagOther scan
    let region := engineRange s x.ctx tag x.base x.bytes false
    let read := match region with
      | .ok _ => true
      | _ => false
    let n := 8 * (weirResult s x read).1.length
    match region, engineRange s x.ctx tag x.dst n true, engineRange s x.ctx tag x.cnt 8 true with
    | .wait, _, _ => done (engineAsk s x.ctx tag x.base x.bytes false)
    | _, .wait, _ => done (engineAsk s x.ctx tag x.dst n true)
    | _, _, .wait => done (engineAsk s x.ctx tag x.cnt 8 true)
    | _, .ok _, .ok _ => done (weirEnd s scan x read)
    | _, _, _ => done (engineDone { s with scans := Table.erase s.scans scan } x.ctx tag)

end Sys2Proof.Machine
end

