-- ==== Sys2Proof/Machine/Lattice.lean ====
section
/-! DEFINITION. The E8 lattice format: decoding, the quantiser and the lattice instructions (spec 06 R153 to R165).
Coordinates are held doubled, as integers. -/
namespace Sys2Proof.Machine

/-- The doubled coordinates of a point code (06 R154). -/
def decodePoint (c : Nat) : List Int :=
  if c.testBit 15 then
    let m := fun i => if c.testBit (7 + i) then (3 : Int) else 1
    let xs := (List.range 7).map fun i => if c.testBit i then -(m i) else m i
    let sum := xs.foldl (· + ·) 0
    xs ++ [if (sum + m 7) % 4 == 0 then m 7 else -(m 7)]
  else
    let odd := ((List.range 7).filter fun i => c.testBit (8 + i)).length % 2 == 1
    (List.range 8).map fun i =>
      let nz := if i < 7 then c.testBit (8 + i) else odd
      if nz then (if c.testBit i then -2 else 2) else 0

/-- A code that sets a sign bit for a zero coordinate is non-canonical (06 R155). -/
def nonCanonical (c : Nat) : Bool :=
  !c.testBit 15 && ((decodePoint c).zip (List.range 8)).any fun p => p.1 == 0 && c.testBit p.2

/-- The canonical code of doubled coordinates. -/
def encodePoint (xs : List Int) : Nat :=
  let at_ := fun i => xs.getD i 0
  let bits := fun (n sh : Nat) (p : Int → Bool) =>
    (List.range n).foldl (fun r i => if p (at_ i) then r + 2 ^ (sh + i) else r) 0
  if xs.any fun x => x.natAbs % 2 == 1 then
    2 ^ 15 + bits 8 7 (fun x => x.natAbs == 3) + bits 7 0 (fun x => x < 0)
  else bits 7 8 (fun x => x != 0) + bits 8 0 (fun x => x < 0)

/-- An exact input of the quantiser, over the common denominator of its point. -/
inductive QIn
  | nan
  | inf (neg : Bool)
  | num (z : Int)
  deriving DecidableEq, Repr

/-- An input clamped to lim, in units of half the denominator. -/
def QIn.clamp (den : Nat) (lim : Int) : QIn → Int
  | .nan => 0
  | .inf n => if n then -(lim * den) else lim * den
  | .num z =>
    let w := 2 * z
    if w > lim * den then lim * den else if w < -(lim * den) then -(lim * den) else w

/-- The nearest value of the integer or the half grid, doubled (06 R159). -/
def gridNear (half : Bool) (den : Nat) (w : Int) : Int :=
  if half then
    let a : Int := if w.natAbs ≤ 2 * den then 1 else 3
    if w < 0 then -a else a
  else if w.natAbs ≤ den then 0 else if w < 0 then -2 else 2

/-- Cand of R159: doubled coordinates. -/
def quantCand (zs : List QIn) (den : Nat) (half : Bool) : List Int :=
  let lim : Int := if half then 3 else 2
  let ws := zs.map (QIn.clamp den lim)
  let rs := ws.map (gridNear half den)
  let fixed :=
    if (rs.foldl (· + ·) 0) % 4 == 0 then rs
    else
      let errs := (ws.zip rs).map fun (p : Int × Int) => (p.1 - p.2 * (den : Int)).natAbs
      let big := errs.foldl max 0
      let j := errs.findIdx (· == big)
      let w := ws.getD j 0
      let r := rs.getD j 0
      let r' :=
        if w > r * den then r + 2
        else if w < r * den then r - 2
        else if r == 2 || r == -2 then 0
        else if r == 0 then 2
        else if r == 3 then 1
        else if r == -3 then -1
        else -r
      rs.set j r'
  fixed ++ List.replicate (8 - zs.length) 0

/-- Dist of R160 in units of a quarter of the denominator squared. -/
def quantDist (xs : List Int) (zs : List QIn) (den : Nat) : Nat :=
  (xs.zip zs).foldl (fun d p => match p.2 with
    | .num z => d + (p.1 * den - 2 * z).natAbs ^ 2
    | _ => d) 0

def QIn.isInf : QIn → Bool
  | .inf _ => true
  | _ => false

/-- Quant of R160 on inputs z already divided by 2^(E − 127): code, flags, and the elements with shell overflow. -/
def quantPoint (zs : List QIn) (den : Nat) (e255 : Bool) : Nat × BitVec 5 × Nat :=
  if e255 || zs.contains .nan then (0, fNV, 0)
  else
    let xi := quantCand zs den false
    let inf := zs.any QIn.isInf
    let x :=
      if zs.length == 8 && !inf then
        let xh := quantCand zs den true
        if quantDist xh zs den < quantDist xi zs den then xh else xi
      else xi
    let beyond := (zs.filter fun z => match z with
      | .num z => 2 * z.natAbs > 3 * den
      | _ => true).length
    let nx := (x.zip zs).any fun p => match p.2 with
      | .num z => p.1 * den != 2 * z
      | _ => true
    (encodePoint x, flagIf (beyond != 0) fOF ||| flagIf nx fNX, beyond)

/-- Exact values as inputs over one denominator 2^k, each times 2^sh. -/
def quantInputs (vs : List FVal) (sh : Int) : List QIn × Nat :=
  let k := vs.foldl (fun (k : Nat) v => match v with
    | .fin _ _ e => max k (-(e + sh)).toNat
    | _ => k) 0
  (vs.map fun v => match v with
    | .nan _ => .nan
    | .inf n => .inf n
    | .fin n m e => let z : Int := (m <<< (e + sh + k).toNat : Nat); .num (if n then -z else z), 2 ^ k)

/-- Element i of a group of eight registers of a lane. -/
def groupElem (s : State) (a : Operand) (i : Nat) (l : Fin 32) : Word32 :=
  match a with
  | .v n => readV s.me (n.val + i) l
  | _ => 0

/-- Add to the non-canonical decode count of the issuing context, saturating (06 R155). -/
def countPoints (s : State) (n : Nat) : State :=
  if n == 0 then s
  else setCtx s s.me.ctx fun c => { c with e8n := BitVec.ofNat 32 (min (c.e8n.toNat + n) 0xFFFFFFFF) }

/-- Lanes of a mask whose source holds a non-canonical code. -/
def strayCodes (s : State) (o : Operand) (m : LaneMask) : Nat :=
  ((lanesIn m).filter fun l => nonCanonical ((src32 s o l).toNat % 65536)).length

/-- `qe8` (06 R162). -/
def execQe8 (h : Head) (p : BitVec 3) (d a b : Operand) (s : State) : Host.Outcome State Fault Refusal :=
  done (fltInstr h .w32 d [(a, 8 - p.toNat), (b, 1)] s fun s l =>
    let e := (src32 s b l).toNat % 256
    let (zs, den) := quantInputs ((List.range (8 - p.toNat)).map fun i => f32 (groupElem s a i l)) (127 - (e : Int))
    let q := quantPoint zs den (e == 255)
    (BitVec.ofNat 64 q.1, q.2.1))

/-- `qe8m`: masked elements are new, the others keep their exact coordinate (06 R163). -/
def execQe8m (h : Head) (p : BitVec 3) (d a b c : Operand) (s : State) : Host.Outcome State Fault Refusal :=
  done (regInstr h false [(a, 8 - p.toNat), (b, 1), (c, 1)] s fun m s =>
    let val := fun (l : Fin 32) =>
      let e := (src32 s b l).toNat % 256
      let cw := (src32 s c l).toNat
      let old := decodePoint (cw % 65536)
      let vs := (List.range (8 - p.toNat)).map fun i =>
        if cw.testBit (16 + i) then f32 (groupElem s a i l)
        else
          let x := old.getD i 0
          FVal.fin (x < 0) x.natAbs (-1 + ((e : Int) - 127))
      let (zs, den) := quantInputs vs (127 - (e : Int))
      quantPoint zs den (e == 255)
    let s := countPoints s (strayCodes s c m)
    modMe s fun me => raiseFlags (writeDst me d m fun l => BitVec.ofNat 32 (val l).1) m fun l => (val l).2.1)

/-- Element i that `de8` writes (06 R164). -/
def de8Elem (code e p i : Nat) : Word32 :=
  if i ≥ 8 - p then 0
  else if e == 255 then 0x7FC00000#32
  else
    let x := (decodePoint code).getD i 0
    if x == 0 then 0 else BitVec.ofNat 32 (roundTo .f32 .rn 0 (x < 0) x.natAbs ((e : Int) - 128)).1

def execDe8 (h : Head) (p : BitVec 3) (d a b : Operand) (s : State) : Host.Outcome State Fault Refusal :=
  done (regInstr h false [(a, 1), (b, 1)] s fun m s0 =>
    let s := countPoints s0 (strayCodes s0 a m)
    match d with
    | .v n => modMe s fun me => (List.range 8).foldl (fun me i =>
        writeV me (n.val + i) m fun l =>
          de8Elem ((src32 s0 a l).toNat % 65536) ((src32 s0 b l).toNat % 256) p.toNat i) me
    | _ => s)

/-- The block exponent of a quartet's values (06 R165). -/
def blockExp (vs : List FVal) : Nat :=
  if vs.any FVal.isNan then 255
  else if vs.any FVal.isInf then 254
  else
    let k := vs.foldl (fun (o : Option Int) v => match v with
      | .fin _ m e =>
        if m = 0 then o
        else
          let t : Int := (Nat.log2 m : Int) + e
          let k := if 2 * m ≤ 3 * 2 ^ Nat.log2 m then t else t + 1
          match o with
          | none => some k
          | some b => some (max b k)
      | _ => o) none
    match k with
    | none => 0
    | some k => if k + 127 < 0 then 0 else if k + 127 > 254 then 254 else (k + 127).toNat

def execE8scl (h : Head) (d a : Operand) (s : State) : Host.Outcome State Fault Refusal :=
  done (regInstr h false [(a, 8)] s fun m s => modMe s fun me => writeDst me d m fun l =>
    let q := (lanesIn m).filter fun i => i.val / 4 == l.val / 4
    BitVec.ofNat 32 (blockExp (q.flatMap fun i => (List.range 8).map fun j => f32 (groupElem s a j i))))

end Sys2Proof.Machine
end

