-- ==== Sys2Proof/Machine/Sluice.lean ====
section
/-! DEFINITION. Access processors, guard slots, sluice bins, combine counters and proxy queues (spec 04 R92 to R124). -/
namespace Sys2Proof.Machine

/-! ### Access processor contexts (04 R94 to R102) -/

/-- The program bound to the issuing wave. -/
def boundAp (s : State) : Option Ap := s.me.bound.bind fun a => (apOf s a).ap

/-- Start an address program at a header: the scalars it takes over keep their poison (04 R96, 18 R402). A program that has
ended and still holds words gives up its context; the wave's count of `rdv`s starts again at 0 (R100, log 91). -/
def startAp (s : State) (k : Nat) (a : Word64) : State :=
  let w := s.me
  let s := match w.bound with
    | some old => { s with aps := Table.erase s.aps old, remotes := s.remotes.filter fun r => !(r.2.ap && r.2.wave == old) }
    | none => s
  let lane : Lane := arrive (kernOf s) { life := .live } a
  let p : Wave := { present := true, key := k, ctx := w.ctx, core := w.core, slot := w.slot, group := w.group,
                    index := w.index, ap := some { owner := w.key, index := k % 16 }, lanes := zeroLanes.set 0 lane,
                    s := w.s.filter fun e => e.1 < 32, spoison := w.spoison.filter (· < 32) }
  modMe { s with aps := Table.set s.aps k p } fun w => { w with bound := some k, ended := none, rdvs := 0 }
where
  zeroLanes : Lanes Lane := Vector.replicate 32 {}

def execFork (h : Head) (off : BitVec 32) (s : State) : Host.Outcome State Fault Refusal :=
  let m := active s h
  let t := relTarget s off
  if m == 0 then done (passOn s)
  else if ((boundAp s).map fun p => !p.ended).getD false then done (stallMe s s.iss .fork)
  else
    match freeApKey s s.me.ctx s.me.core with
    | none => done (stallMe s s.iss .fork)
    | some k =>
      finish (withTargets s [t] fun s =>
        match succTo s (lowest m) t noTag with
        | .fault f => commitWith (askFaults s [f]) ((lanesIn m).map fun l => { f with lane := l }) fun s =>
            advanceMe s (s.iss &&& ~~~m)
        | _ => commitWith s [] fun s => advanceMe (startAp s k t) s.iss)

/-- `rdv` pairs in order with the partner's; both sides release and acquire at `.core` (04 R100). -/
def execRdv (h : Head) (s : State) : Host.Outcome State Fault Refusal :=
  done (match s.me.ap, s.me.lanes[lowest s.iss].wait with
    | some a, .rdv m =>
      if (waveOf s a.owner).rdvs ≥ m then passOn (modMe s fun w => { w with ap := w.ap.map fun a => { a with atRdv := false } })
      else s
    | some a, _ =>
      if active s h == 0 then passOn s
      else
        let m := a.rdvs + 1
        let s := modMe s fun w => { w with ap := w.ap.map fun a => { a with rdvs := m } }
        if (waveOf s a.owner).rdvs ≥ m then passOn s
        else modMe s fun w => { mapLanes w s.iss (fun _ l => { l with wait := .rdv m }) with
          ap := w.ap.map fun a => { a with atRdv := true } }
    | none, .rdv m =>
      if ((boundAp s).map fun p => rdvMet p m).getD true then passOn s else s
    | none, _ =>
      if active s h == 0 then passOn s
      else
        let m := s.me.rdvs + 1
        let s := modMe s fun w => { w with rdvs := m }
        if ((boundAp s).map fun p => rdvMet p m).getD true then passOn s
        else modMe s fun w => mapLanes w s.iss fun _ l => { l with wait := .rdv m })

/-- Words of one `dlv`. -/
def DlvCount.words : DlvCount → Nat
  | .x1 => 1 | .x2 => 2 | .x4 => 4 | .x8 => 8 | .x16 => 16 | .x32 => 32

/-- `dlv` reserves its entries at issue; each word enters when its read returns (04 R99). -/
def execDlv (h : Head) (q : BitVec 2) (cnt : DlvCount) (sp : Bool) (m : MemOp) (s : State) :
    Host.Outcome State Fault Refusal :=
  let n := DlvCount.words cnt
  let full := src64 s m.base 0 + (src32 s m.index 0).setWidth 64 + m.off.signExtend 64 * 4
  let a := if sp then (full.setWidth 32).setWidth 64 else full
  done (match s.me.ap with
    | none => illegalWord s
    | some p =>
      let old := Table.getD p.queues q.toNat []
      if active s h == 0 then passOn s
      else if poisonLanes s [(m.base, 2), (m.index, 1)] (active s h) != 0 then apStop s Cause.poison.apCode
      else if a.toNat % 4 != 0 || (sp && a.toNat + 4 * n > (kernOf s).spBytes) then apStop s 3
      else if old.length + n > 256 then stallMe s s.iss (.room q.toNat n)
      else
        let new := (List.range n).map fun i => QWord.reserved (a + BitVec.ofNat 64 (4 * i)) sp p.rdvs
        commitWith s [] fun s => advanceMe (modMe s fun w => { w with
          ap := w.ap.map fun p => { p with queues := Table.set p.queues q.toNat (old ++ new) } }) s.iss)

/-- Change one queue of an access processor context. -/
def setQueue (s : State) (k q : Nat) (l : List QWord) : State :=
  modAp s k fun w => { w with ap := w.ap.map fun p => { p with queues := Table.put p.queues q [] l } }

/-- A read that cannot be performed ends the program; what stands behind it in its queue cannot come (04 R101). -/
def dlvFail (s : State) (k q i code : Nat) (l : List QWord) : State :=
  let s := setQueue s k q (l.take i)
  freeAp (modAp s k fun w => { w with
    ap := w.ap.map fun p => if p.ended then p else { p with ended := true, code := code },
    lanes := w.lanes.set 0 (exitLane w.lanes[0]) }) k

/-- A reserved word receives its value. -/
def dlvWord (s : State) (k q i : Nat) (l : List QWord) (x : Word32) (bad : Bool) : State :=
  setQueue s k q (l.set i (.word x bad))

/-- The first word, by queue and place, that is reserved for a read of an address. -/
def reservedAt (p : Ap) (a : Word64) : Option (Nat × Nat) :=
  p.queues.findSome? fun e => (e.2.findIdx? fun x => match x with
    | .reserved b false _ => b == a
    | _ => false).map fun i => (e.1, i)

/-- Another package answers a read of a `dlv`, or does not answer in time: a word, a poisoned word, or the end of the program
with REMOTE or REMOTE_TIMEOUT (04 R101). -/
def dlvAnswer (s : State) (r : RemoteReq) (ans : Option RemoteAnswer) : State :=
  match (apOf s r.wave).ap with
  | none => s
  | some p =>
    match reservedAt p r.addr with
    | none => s
    | some (q, i) =>
      let l := Table.getD p.queues q []
      match ans with
      | some (.data v) => dlvWord s r.wave q i l (v.setWidth 32) false
      | some .poison => dlvWord s r.wave q i l 0 true
      | some (.error _) => dlvFail s r.wave q i 4 l
      | none => dlvFail s r.wave q i 5 l

/-- A read of a `dlv` goes to another package, once. -/
def dlvSend (s : State) (w : Wave) (a : Word64) (pa : Nat) : State :=
  if s.remotes.any fun r => r.2.ap && r.2.wave == w.key && r.2.addr == a && r.2.tag.isNone then s
  else
    let r : RemoteReq := { ctx := w.ctx, wave := w.key, group := w.group, ap := true, addr := a, pa := pa, bytes := 4,
                           since := s.wall }
    let (k, s) := freshNo s
    { s with remotes := Table.set s.remotes k r }

/-- DLV_READ_RETURN: the i-th entry of a queue, reserved, receives its word (04 R99, R101, 18 R403). A read whose translation
faults waits for its repair. -/
def execDlvReadReturn (ap : Nat) (q : Fin 4) (i : Nat) (s : State) : Host.Outcome State Fault Refusal :=
  let w := apOf s ap
  match w.ap with
  | none => done s
  | some p =>
    let l := Table.getD p.queues q.val []
    match l[i]? with
    | some (.reserved a true _) =>
      let g := groupOf s w.group
      let o := a.toNat
      if !linesPresent g o 4 then done s
      else done (dlvWord s ap q.val i l (BitVec.ofNat 32 (spRead g o 4)) (spPoisoned g o 4))
    | some (.reserved a false _) =>
      match translate s w.ctx a false with
      | .remote pa => done (dlvSend s w a pa)
      | .ok pa =>
        let s := touchPolders (settleReds s w.core pa 4) w.ctx a.toNat 4
        done (dlvWord (engineDone s w.ctx (apTag ap)) ap q.val i l (BitVec.ofNat 32 (seenRead s w.core pa 4))
          (poisoned s pa 4))
      | .hole x => finish { s with stuck := some (.noSuchAddress x) }
      | _ =>
        match engineTr s w.ctx (apTag ap) a false with
        | .fail => done (engineDone (dlvFail s ap q.val i 1 l) w.ctx (apTag ap))
        | _ => done (engineAsk s w.ctx (apTag ap) a 4 false)
    | _ => done s

/-- The status word of a queue (04 R102); once the context is free, how its last program ended still stands (log 90). -/
def queueStatus (s : State) (q : Nat) : Word32 :=
  let bit := fun (b : Bool) (n : Nat) => if b then 2 ^ n else 0
  match boundAp s with
  | none =>
    match s.me.ended with
    | none => 0
    | some code => BitVec.ofNat 32 (code * 2 ^ 20 + bit (code != 0) 18 + bit (code == 0) 17)
  | some p =>
    BitVec.ofNat 32 (p.code * 2 ^ 20 + bit p.atRdv 19 + bit (p.ended && p.code != 0) 18 + bit (p.ended && p.code == 0) 17 +
      2 ^ 16 + readyWords (Table.getD p.queues q []))

def execQstat (h : Head) (d : Operand) (q : Fin 4) (s : State) : Host.Outcome State Fault Refusal :=
  done (regInstr h false [] s fun m s => modMe s fun w => writeDst w d m fun _ => queueStatus s q.val)

/-! ### Guard slots (04 R106, R107) -/

/-- The state of a guard slot; every slot starts true. -/
def guardOf (w : Wave) (g : BitVec 3) : Guard := Table.getD w.guards g.toNat .isTrue

def setGuard (w : Wave) (g : BitVec 3) (x : Guard) : Wave := { w with guards := Table.put w.guards g.toNat .isTrue x }

/-- The value of `gset` over the active lanes. -/
def gsetValue (cond : GCond) (k m : LaneMask) : Bool :=
  match cond with
  | .any => k &&& m != 0
  | .all => (k &&& m) == m
  | .lane0 => k.getLsbD 0

/-- What a slot becomes: pending while the mask bits it is taken from are in flight. -/
def gsetGuard (w : Wave) (cond : GCond) (k : BitVec 4) (m : LaneMask) : Guard :=
  let v := gsetValue cond (readK w k) m
  let fly := Table.getD w.kfly k.toNat []
  let inFrag : Bool := match w.lanes[0].life with
    | .frag _ => true
    | _ => false
  match cond with
  | .lane0 => if inFrag && fly.contains 0 then .pending false (16 + k.toNat) 1
    else if fly.contains 0 then .pending v k.toNat 1 else guardIs v
  | _ => if (lanesIn m).any fun l => fly.contains l.val then .pending v k.toNat m else guardIs v

def execGset (h : Head) (cond : GCond) (g : BitVec 3) (k : BitVec 4) (s : State) : Host.Outcome State Fault Refusal :=
  let m := active s h
  done (match guardOf s.me g with
    | .pending .. => if m == 0 then passOn s else stallMe s s.iss (.guard g)
    | _ => onceInstr h [] s fun m s => modMe s fun w => setGuard w g (gsetGuard w cond k m))

/-! ### Bins (04 R109 to R115) -/

/-- The bin that a handle names for a context on this package. -/
def binNamed (s : State) (ctx h : Nat) : Option Nat :=
  let c := (ctxOf s ctx).cfg
  let b := h % 2 ^ 14
  if h < 2 ^ 21 && h / 2 ^ 14 == s.pkg && c.binFirst ≤ b && b < c.binFirst + c.binCount && b < 12288 then some b else none

def RecSize.bytes (r : RecSize) : Nat := 4 * r.words

/-- Records a bin holds at most (04 R114). -/
def binRoom (b : Bin) : Nat := 64 + b.spillBytes / RecSize.bytes b.size - b.recs.length

/-- Why a bin refuses a push (04 R113, 17 R378); 0 for none. -/
def pushRefusal (s : State) (ctx h : Nat) (sz : RecSize) : Nat :=
  match binNamed s ctx h with
  | none => 1
  | some b =>
    let x := Table.getD s.bins b {}
    if !x.enable then 2 else if x.size != sz then 3 else 0

/-- Records enter a bin in their order (04 R112). Once they go to the spillway, its bytes are undefined (R114, log 26). -/
def enterBin (s : State) (b : Nat) (recs : List Nat) : State :=
  let s := { s with bins := Table.modify s.bins b fun x =>
    let rs := x.recs ++ recs.map fun r => { bytes := r, enter := s.wall }
    { x with recs := rs, fullSince := if rs.length ≥ x.count then (match x.fullSince with
        | some t => some t
        | none => some s.wall) else none } }
  let x := Table.getD s.bins b {}
  if x.recs.length > 64 && !recs.isEmpty then vaFree s x.ctx x.spillBase x.spillBytes else s

/-- The record of a lane: its registers, the low word at the lowest address. -/
def laneRecord (w : Wave) (a : Operand) (n : Nat) (l : Fin 32) : Nat :=
  match a with
  | .v i => leWords (fun j => (readV w (i.val + j) l).toNat) n
  | _ => 0
where
  leWords (f : Nat → Nat) : Nat → Nat
    | 0 => 0
    | n + 1 => leWords f n + f n * 2 ^ (32 * n)

/-! ### Shadow queues (04 R122) -/

/-- Bytes of one queue slot of a die's share of the proxy region. -/
def slotBytes (c : CtxRec) : Nat := c.proxyBytes / (24 * 4096) * 4096 / (64 * 128) * 128

def shadowOf (s : State) (ctx die h : Nat) : Option Shadow :=
  (ctxOf s ctx).shadows.find? fun q => q.die == die && q.bin == h

def shadowBytes (q : Shadow) : Nat := q.recs.foldl (fun n r => n + RecSize.bytes r.size) 0

/-- Change or add the shadow queue of a bin. -/
def setShadow (s : State) (ctx : Nat) (q : Shadow) : State :=
  let same := fun (x : Shadow) => x.die == q.die && x.bin == q.bin
  setCtx s ctx fun c => { c with
    shadows := if c.shadows.any same then c.shadows.map fun x => (if same x then q else x) else c.shadows ++ [q] }

/-- Queue slots of a die's share that are taken. -/
def slotsTaken (s : State) (ctx die : Nat) : List Nat :=
  (ctxOf s ctx).shadows.filterMap fun q => if q.die == die then q.slot else none

def freeQueueSlot (s : State) (ctx die : Nat) : Option Nat :=
  (List.range 64).find? fun i => !(slotsTaken s ctx die).contains i

/-- Whether n records of a size fit the shadow queue of a bin; otherwise what a push waits for. -/
def shadowFits (s : State) (ctx die h : Nat) (sz : RecSize) (n : Nat) : Option WaitObj :=
  let q := (shadowOf s ctx die h).getD {}
  if q.slot.isNone && (freeQueueSlot s ctx die).isNone then some (.share die)
  else if shadowBytes q + n * RecSize.bytes sz ≤ slotBytes (ctxOf s ctx).cfg then none
  else some (.shadow h)

/-- Fragments parked by a push that fits now resume and push again (04 R114, R122). -/
def wakeRoom (s : State) (p : Frag → Bool) : State :=
  (s.frags.filter fun f => f.2.cause == .spill && f.2.st == .waiting && p f.2).foldl (fun s f => resumeFrag s f.1) s

/-- Records that a parked fragment needs room for: one for a `slcomb`, one for each lane of a push. -/
def neededRoom (f : Frag) : Nat :=
  if opcodeOf f.word == 0x2CB then 1 else (lanesIn f.lanes).length

/-- A bin has gained room. -/
def wakeBin (s : State) (b : Nat) : State :=
  let x := Table.getD s.bins b {}
  wakeRoom s fun f => f.obj == .bin (s.pkg * 2 ^ 14 + b) && neededRoom f ≤ binRoom x

/-- Runs of records of one size, in order. -/
def sizeRuns : List ShadowRec → List (RecSize × List Nat)
  | [] => []
  | r :: t =>
    match sizeRuns t with
    | (sz, l) :: rest => if sz == r.size then (sz, r.bytes :: l) :: rest else (r.size, [r.bytes]) :: (sz, l) :: rest
    | [] => [(r.size, [r.bytes])]

/-- The record size of a push word. -/
def pushSize (word : Word64) : RecSize := RecSize.ofCode (word.extractLsb' 4 2)

/-- Pushes of a die that wait for room in the proxy region and fit now. -/
def wakeShadow (s : State) (ctx die : Nat) : State :=
  wakeRoom s fun f =>
    let w := waveOf s f.wave
    w.ctx == ctx && w.core / 48 == die && (match f.obj with
      | .shadow _ | .share _ =>
        (shadowFits s ctx die ((f.info.head?.map fun (i : FaultInfo) => i.addr).getD 0).toNat (pushSize f.word) (neededRoom f)).isNone
      | _ => false)

/-- The culvert sends a shadow queue in batches and its slot returns to the share; records for a lost package stay while
the pod is degraded (04 R122, R123). -/
def culvertSend (s : State) (ctx die h : Nat) : State :=
  match shadowOf s ctx die h with
  | none => s
  | some q =>
    if q.recs.isEmpty || (s.degraded && s.lost.contains (handlePkg h)) then s
    else
      let s := (sizeRuns q.recs).foldl (fun s r =>
        let b : Batch := { ctx := ctx, die := die, bin := h, size := r.1, recs := r.2 }
        let (k, s) := freshNo s
        { s with batches := Table.set s.batches k b }) s
      wakeShadow (setShadow s ctx { q with recs := [], slot := none, pos := 0 }) ctx die

/-- The address of a queue slot in the proxy region. -/
def slotAddr (c : CtxRec) (die slot : Nat) : Word64 :=
  c.proxyBase + BitVec.ofNat 64 (die * (c.proxyBytes / (24 * 4096) * 4096) + slot * slotBytes c)

/-- Write a record into the ring of its queue slot, where those bytes can be written (04 R122, log 26). -/
def ringWrite (s : State) (ctx die slot pos n v : Nat) : State :=
  let c := (ctxOf s ctx).cfg
  let q := slotBytes c
  (List.range (n / 4)).foldl (fun s i =>
    match engineWrite s ctx 0 none (slotAddr c die slot + BitVec.ofNat 64 ((pos + 4 * i) % q)) 4 (fieldAt v (4 * i) 4) with
    | .ok s => s
    | _ => s) s

/-- Records enter a shadow queue that has room; one that holds 4 KiB is sent. -/
def enterShadow (s : State) (ctx die h : Nat) (sz : RecSize) (recs : List Nat) : State :=
  let q := (shadowOf s ctx die h).getD { die := die, bin := h }
  let slot := match q.slot with
    | some i => some i
    | none => freeQueueSlot s ctx die
  let n := RecSize.bytes sz
  let s := (recs.zip (List.range recs.length)).foldl (fun s r =>
    ringWrite s ctx die (slot.getD 0) (q.pos + n * r.2) n r.1) s
  let q := { q with slot := slot, pushed := q.pushed + recs.length, pos := q.pos + n * recs.length,
                    recs := q.recs ++ recs.map fun r => ({ size := sz, bytes := r, enter := s.wall } : ShadowRec) }
  let s := setShadow s ctx q
  if shadowBytes q ≥ 4096 then culvertSend s ctx die h else s

/-! ### Pushes (04 R112 to R114, R122) -/

/-- What hinders a push of n records: a cause with its detail and wait object. -/
def pushHindrance (s : State) (ctx die h : Nat) (sz : RecSize) (n : Nat) (proxy : Bool) : Option (Cause × Nat × WaitObj) :=
  if remotePush s proxy h then
    match shadowFits s ctx die h sz n with
    | none => none
    | some (.share d) => some (.spill, 2, .share d)
    | some o => some (.spill, 1, o)
  else
    match pushRefusal s ctx h sz with
    | 0 => if n ≤ binRoom (Table.getD s.bins (h % 2 ^ 14) {}) then none else some (.spill, 0, .bin h)
    | d => some (.sluice, d, .none)

/-- The records of a push enter. -/
def enterPush (s : State) (ctx die h : Nat) (sz : RecSize) (recs : List Nat) (proxy : Bool) : State :=
  if remotePush s proxy h then enterShadow s ctx die h sz recs else enterBin s (h % 2 ^ 14) recs

/-- `slpush` and `pxpush`. A command whose slot is pending is held at its unit, and so is a guarded one behind it; an
unguarded one waits at its word. -/
def pushInstr (h : Head) (sz : RecSize) (guard : Option (BitVec 3)) (a b : Operand) (proxy : Bool) (s : State) : State :=
  let m := active s h
  let bad := poisonLanes s [(a, sz.words), (b, 1)] m
  let bad := if operandPoisoned s.me b 1 (lowest m) then m else bad
  let ms := m &&& ~~~bad
  let hd := (src32 s b 0).toNat
  let die := s.me.core / 48
  let g := match guard with
    | none => Guard.isTrue
    | some i => guardOf s.me i
  let behind := heldAtUnit s (pushUnit s die hd proxy)
  let recs := (lanesIn ms).map (laneRecord s.me a sz.words)
  let sc := if proxy && handlePkg hd != s.pkg then Scope.pod else .pkg
  let bads := faultLanes bad .poison
  let l0 := s.me.lanes[lowest s.iss]
  let hold := fun (s : State) => commitWith s bads fun s =>
    let p : HeldPush := { ctx := s.me.ctx, wave := s.me.key, group := s.me.group, slot := guard.getD 0, guard := g, h := hd,
                          size := sz, proxy := proxy, recs := recs, lanes := ms, pc := l0.pc, hdr := l0.hdr, word := s.word }
    let s := releaseAt s s.me.core sc
    advanceMe { s with pushes := s.pushes ++ [p] } (s.iss &&& ~~~bad)
  if m == 0 then passOn s
  else if ms == 0 then commitWith s bads fun s => advanceMe s (s.iss &&& ~~~bad)
  else
    match g with
    | .isFalse => commitWith s bads fun s => advanceMe s (s.iss &&& ~~~bad)
    | .pending .. => hold s
    | .isTrue =>
      if behind then (if guard.isSome then hold s else stallMe s s.iss (.push (pushUnit s die hd proxy)))
      else
        match pushHindrance s s.me.ctx die hd sz recs.length proxy with
        | some (c, d, o) =>
          let fs := (lanesIn ms).map fun l =>
            ({ lane := l, cause := c, addr := BitVec.ofNat 64 hd, detail := BitVec.ofNat 32 d, obj := o } : LaneFault)
          commitWith s (bads ++ fs) fun s => advanceMe s (s.iss &&& ~~~m)
        | none => commitWith s bads fun s =>
            advanceMe (enterPush (releaseAt s s.me.core sc) s.me.ctx die hd sz recs proxy) (s.iss &&& ~~~bad)

def execSlpush (h : Head) (sz : RecSize) (guard : Option (BitVec 3)) (a b : Operand) (s : State) :
    Host.Outcome State Fault Refusal := done (pushInstr h sz guard a b false s)

def execPxpush (h : Head) (sz : RecSize) (guard : Option (BitVec 3)) (a b : Operand) (s : State) :
    Host.Outcome State Fault Refusal := done (pushInstr h sz guard a b true s)

/-- Lanes that wait for or fault at a push past its issue stand at the push's word (04 R113, R114). Once they have all ended,
a push without room stays at its unit until it fits, and a refused one is dropped (log 92). -/
def latePush (s : State) (p : HeldPush) (c : Cause) (d : Nat) (o : WaitObj) : Option State :=
  let w := waveOf s p.wave
  let m := if w.present && w.group == p.group then
      p.lanes &&& lanesWhere w fun l => l.life == .live && l.handler.isNone else 0
  if m == 0 then (if c == .spill then none else some s)
  else
    match freeEntries s w.ctx w.core with
    | e :: _ =>
      if heldEntries s p.wave ≥ 16 then none
      else
        let fk := slotKey w.ctx w.core e
        let s := modWave s p.wave fun w => mapLanes w m fun _ l => { l with pc := p.pc, hdr := p.hdr, kept := [] }
        let s := formFrag s p.wave fk p.word ((lanesIn m).map fun l =>
          ({ lane := l, cause := c, addr := BitVec.ofNat 64 p.h, detail := BitVec.ofNat 32 d, obj := o } : LaneFault))
        some (settleWave (deliver s fk false) p.wave)
    | [] => none

/-- A held push whose slot has resolved proceeds or is discarded; nothing where it must still be held. -/
def proceedPush (s : State) (p : HeldPush) : Option State :=
  let die := p.wave % 131072 / 64 / 48
  match p.guard with
  | .pending .. => none
  | .isFalse => some s
  | .isTrue =>
    match pushHindrance s p.ctx die p.h p.size p.recs.length p.proxy with
    | none => some (enterPush s p.ctx die p.h p.size p.recs p.proxy)
    | some (c, d, o) => latePush s p c d o

/-- Each unit takes its held pushes in order, as far as their slots have resolved (04 R107). -/
def runPushes (s : State) : State :=
  let ps := s.pushes
  (ps.foldl (fun (x : State × List Nat) p =>
    let u := pushUnit x.1 (p.wave % 131072 / 64 / 48) p.h p.proxy
    let keep := ({ x.1 with pushes := x.1.pushes ++ [p] }, u :: x.2)
    if x.2.contains u then keep
    else
      match proceedPush x.1 p with
      | some s => (s, x.2)
      | none => keep) ({ s with pushes := [] }, [])).1

/-- `slinfo` (04 R117). -/
def execSlinfo (h : Head) (handle : Bool) (d : Operand) (s : State) : Host.Outcome State Fault Refusal :=
  done (regInstr h false [] s fun m s => modMe s fun w => writeDst w d m fun _ =>
    let g := groupOf s s.me.group
    if handle then BitVec.ofNat 32 g.slHandle else BitVec.ofNat 32 (g.slCount % 2048 + (if g.slAged then 65536 else 0)))

/-! ### Configuring a bin (04 R110, R111) -/

/-- The bin that a configuration record describes. -/
def binOf (ctx r : Nat) (k : Kernel) : Bin :=
  { ctx := ctx, size := RecSize.ofCode (BitVec.ofNat 2 (fieldAt r 0 1)), prio := fieldAt r 1 1, count := fieldAt r 2 2,
    ageUs := fieldAt r 4 2, expert := (fieldAt r 6 1).testBit 0, enable := (fieldAt r 6 1).testBit 1, kern := k,
    spillBase := BitVec.ofNat 64 (fieldAt r 0x10 8), spillBytes := fieldAt r 0x18 4,
    counters := BitVec.ofNat 64 (fieldAt r 0x20 8), combine := fieldAt r 0x28 4, choices := fieldAt r 0x2C 1,
    slots := fieldAt r 0x30 4, args := BitVec.ofNat 64 (fieldAt r 0x38 8) }

/-- Every field within its limits. -/
def binRange (s : State) (ctx r : Nat) : Bool :=
  let b := binOf ctx r {}
  fieldAt r 0 1 ≤ 3 && b.prio ≤ 7 && 1 ≤ b.count && b.count ≤ 1024 && 1 ≤ b.ageUs && fieldAt r 8 8 % 256 == 0 &&
    b.spillBase.toNat % 4096 == 0 && b.spillBytes % 4096 == 0 && b.spillBytes ≥ 4096 && b.args.toNat % 8 == 0 &&
    (if b.expert then b.counters.toNat % 4 == 0 && (binNamed s ctx b.combine).isSome && 1 ≤ b.choices && b.choices ≤ 8
      else b.counters == 0 && b.combine == 0 && b.choices == 0 && b.slots == 0)

/-- The status of `slcfg` and the bin it leaves; nothing while a translation is awaited. Disabling a bin leaves its spillway's
bytes undefined (04 R114). -/
def slcfg (s : State) (a : Word64) (h : Nat) : Option Word32 × State :=
  let ctx := s.me.ctx
  let core := some s.me.core
  let tag := tagLane s.me.key (lowest s.iss).val
  let s := applyOwn s s.me.core
  match binNamed s ctx h with
  | none => (some 0x40, s)
  | some b =>
    let end_ := fun (x : Word32) => (some x, engineDone s ctx tag)
    match engineRead s ctx tag core a 64 with
    | .wait => (none, engineAsk s ctx tag a 64 false)
    | .fail => end_ 0x41
    | .hole x => (none, { s with stuck := some (.noSuchAddress x) })
    | .ok r =>
      let va := BitVec.ofNat 64 (fieldAt r 8 8)
      match readKernel s ctx tag core va with
      | .wait => (none, askKernel s ctx tag core va)
      | .unread => end_ 0x41
      | .hole x => (none, { s with stuck := some (.noSuchAddress x) })
      | kr =>
        if fieldAt r 6 1 ≥ 4 || !zeroAt r 7 1 || !zeroAt r 0x1C 4 || !zeroAt r 0x2D 3 || !zeroAt r 0x34 4 then end_ 0x42
        else if !binRange s ctx r then end_ 0x43
        else if !(Table.getD s.bins b {}).recs.isEmpty || s.groups.any (fun g => g.2.bin == some b) then end_ 0x44
        else
          match kr with
          | .ok k =>
            let x := binOf ctx r k
            if k.spBytes < x.count * RecSize.bytes x.size || k.vregs < 8 then end_ 0x45
            else
              let old := Table.getD s.bins b {}
              let s := if old.enable && !x.enable then vaFree s ctx old.spillBase old.spillBytes else s
              (some 0, engineDone { s with bins := Table.set s.bins b x } ctx tag)
          | .refused st => end_ (BitVec.ofNat 32 st)
          | _ => end_ 0x41

def execSlcfg (h : Head) (d a b : Operand) (s : State) : Host.Outcome State Fault Refusal :=
  finish (statusInstr h d [(a, 2), (b, 1)] s fun s => slcfg s (src64 s a 0) (src32 s b 0).toNat)

/-! ### Combine counters (04 R120) -/

/-- The record of a completed token. -/
def combineRecord (slot k : Nat) : Nat := slot + k * 2 ^ 32

/-- The value of a lane's counter, and the change of it: at a place of this package, or as its home in another package
answered, which then holds the change. -/
def counterAt (s : State) (c : Chk) : Nat × (State → Nat → State) :=
  match c with
  | .ok pa =>
    let s' := settleReds (drainPath s s.me.core (pa / 8)) s.me.core pa 4
    (memRead s' pa 4, fun s v => memWrite (settleReds (drainPath s s.me.core (pa / 8)) s.me.core pa 4) pa 4 v)
  | .far _ v => (v.toNat % 2 ^ 32, fun s _ => s)
  | _ => (0, fun s _ => s)

/-- One lane's atomic step at its counter: its fault, or the state after it. -/
def combineStep (s : State) (l : Fin 32) (hd : Nat) (x : Bin) (slot : Nat) (c : Chk) : State × List LaneFault :=
  let bad := fun (d : Nat) => ({ lane := l, cause := .sluice, addr := BitVec.ofNat 64 hd, detail := BitVec.ofNat 32 d } : LaneFault)
  let (old, put) := counterAt s c
  let cb := x.combine % 2 ^ 14
  if old == 0 then (s, [bad 5])
  else if old > 1 then (put s (old - 1), [])
  else if pushRefusal s s.me.ctx x.combine .r16 != 0 then (s, [bad 6])
  else if binRoom (Table.getD s.bins cb {}) == 0 then
    (s, [{ lane := l, cause := .spill, addr := BitVec.ofNat 64 x.combine, obj := .bin x.combine }])
  else (enterBin (put s x.choices) cb [combineRecord slot x.choices], [])

def execSlcomb (h : Head) (d base : Operand) (s : State) : Host.Outcome State Fault Refusal :=
  let m := active s h
  let bad := poisonLanes s [(d, 1), (base, 1)] m
  let bads := faultLanes bad .poison
  let hd := (src32 s base 0).toNat
  let x := match binNamed s s.me.ctx hd with
    | some b => Table.getD s.bins b {}
    | none => {}
  let ls := lanesIn (m &&& ~~~bad)
  let place := fun (l : Fin 32) => x.counters + BitVec.ofNat 64 (4 * (src32 s d l).toNat)
  if m == 0 then done (passOn s)
  else if !(x.enable && x.expert) then
    done (commitWith s (bads ++ (ls.map fun l =>
      ({ lane := l, cause := .sluice, addr := BitVec.ofNat 64 hd, detail := 7 } : LaneFault))) fun s =>
        advanceMe s (s.iss &&& ~~~m))
  else
    let cs := ls.map fun l =>
      if (src32 s d l).toNat ≥ x.slots then
        (l, Chk.fault { lane := l, cause := .sluice, addr := BitVec.ofNat 64 hd, detail := 4 })
      else (l, globalChk s l (place l) 4 { load := true, store := true })
    match cs.findSome? fun c => match c.2 with
      | .hole a => some a
      | _ => none with
    | some a => finish { s with stuck := some (.noSuchAddress a) }
    | none =>
      let waits := cs.filter fun c => match c.2 with
        | .ats _ _ | .send _ => true
        | _ => false
      if !waits.isEmpty then
        done (waitChecks waits (fun s l pa => sendRemote s l (place l) pa 4 (some 1)) s)
      else
        let r := cs.foldl (fun (p : State × List LaneFault) c =>
          match c.2 with
          | .fault f => (p.1, p.2 ++ [f])
          | .ok _ | .far _ _ =>
            let y := combineStep (touchPolders p.1 p.1.me.ctx (place c.1).toNat 4) c.1 hd x (src32 s d c.1).toNat c.2
            (y.1, p.2 ++ y.2)
          | _ => p) (releaseAt s s.me.core .pkg, [])
        let fs := bads ++ r.2
        let out := maskOf (fs.map (·.lane))
        done (commitWith s fs fun s => advanceMe (askFaults r.1 fs) (s.iss &&& ~~~out))

/-! ### Proxy queues (04 R122 to R124) -/

/-- `pxflush` starts the sending of every non-empty shadow queue of the context on the issuing die; `.wait` waits until
what was in them has been entered or dropped. -/
def execPxflush (h : Head) (wait : Bool) (s : State) : Host.Outcome State Fault Refusal :=
  let die := s.me.core / 48
  done (match s.me.lanes[lowest s.iss].wait with
    | .flush ts since =>
      if (flushOpen s s.me.ctx ts).isEmpty then passOn s
      else if flushLate s s.me.ctx ts since then commitWith s (faultLanes s.iss .remoteTimeout 0 (lostPackage s)) id
      else s
    | _ =>
      if active s h == 0 then passOn s
      else
        let qs := (ctxOf s s.me.ctx).shadows.filter fun q => q.die == die && !q.recs.isEmpty
        let s := runPushes (qs.foldl (fun s q => culvertSend s s.me.ctx die q.bin) s)
        if wait && !qs.isEmpty then
          let ts := qs.map fun q => (die * 2 ^ 40 + q.bin, q.pushed)
          commitWith s [] fun s => modMe s fun w => mapLanes w s.iss fun _ l => { l with wait := .flush ts s.wall }
        else passOn s)

/-- SHADOW_QUEUE_AGE: the oldest record of a shadow queue reaches 2 us, and the culvert sends it (04 R123). -/
def execShadowQueueAge (ctx die bin : Nat) (s : State) : Host.Outcome State Fault Refusal :=
  done (match shadowOf s ctx die bin with
    | none => s
    | some q =>
      match q.recs with
      | [] => s
      | r :: _ => runPushes (culvertSend (passTo s (r.enter + 2000)) ctx die bin))

/-- REMOTE_BATCH_ENTRY: the remote sluice unit takes the oldest batch of a queue, or refuses it: then it is dropped and
logged (04 R123). -/
def execRemoteBatchEntry (batch : Nat) (accepted : Bool) (s : State) : Host.Outcome State Fault Refusal :=
  done (match Table.get? s.batches batch with
    | none => s
    | some b =>
      if s.batches.any fun e => e.1 < batch && e.2.ctx == b.ctx && e.2.die == b.die && e.2.bin == b.bin then s
      else
        let s := { s with batches := Table.erase s.batches batch }
        let s := match shadowOf s b.ctx b.die b.bin with
          | some q => setShadow s b.ctx { q with entered := q.entered + b.recs.length }
          | none => s
        if accepted then s else faultRecord s b.ctx { type := 4, detail := b.bin, spec := b.recs.length })

/-- A batch of another package arrives at a bin of this package: its records enter in order, or it waits while the spillway is
full; a refused one is dropped, and its sender logs it (04 R123). -/
def batchIn (s : State) (ctx bin : Nat) (sz : RecSize) (recs : List Nat) : State :=
  if pushRefusal s ctx (s.pkg * 2 ^ 14 + bin) sz == 0 && recs.length ≤ binRoom (Table.getD s.bins bin {}) then
    enterBin s bin recs
  else s

/-- SPILL_TIMEOUT: a push has been parked for 1 ms, and traps (04 R114, R122). -/
def execSpillTimeout (fk : Nat) (s : State) : Host.Outcome State Fault Refusal :=
  done (match Table.get? s.frags fk with
    | none => s
    | some f =>
      if f.cause == .spill && f.st == .waiting then
        let s := passTo s (f.since + 1000000)
        if (groupOf s (waveOf s f.wave).group).halt != .running then s else deliver s fk true
      else s)

end Sys2Proof.Machine
end

