-- ==== Sys2Proof/Machine/Tile.lean ====
section
/-! DEFINITION. Tile tasks: tensor descriptors, the tile instructions, the quad tile scheduler, products, drains and the
exponent histogram (spec 05 R147 to R152, 06 R156 to R158, R167 and R168, 08 R195 to R216, 16 R355). -/
namespace Sys2Proof.Machine

/-! ### Tensor descriptors (05 R147 to R149, 06 R156) -/

/-- Element size in bytes by format code; LG6 and E2M1 take whole bytes, an E8P point two (05 R148, 06 R156). -/
def fmtBytes (f : Nat) : Nat :=
  match f with
  | 0 | 10 | 14 => 4
  | 1 | 2 | 7 | 9 | 13 => 2
  | 11 | 15 => 8
  | _ => 1

/-- The descriptor that an image describes (05 R147). -/
def descOf (r : Nat) : Desc :=
  { base := BitVec.ofNat 64 (fieldAt r 0 8), fmt := fieldAt r 8 1 % 16, rank := fieldAt r 9 1,
    compressible := (fieldAt r 0x0A 1).testBit 0, hist := (fieldAt r 0x0A 1).testBit 1,
    side := (fieldAt r 0x0A 1).testBit 2, pad := (fieldAt r 0x0B 1).testBit 0, scale := BitVec.ofNat 32 (fieldAt r 0x0C 4),
    ext0 := fieldAt r 0x10 4, ext1 := fieldAt r 0x14 4, ext2 := fieldAt r 0x18 4, ext3 := fieldAt r 0x1C 4,
    str1 := BitVec.ofNat 64 (fieldAt r 0x20 8), str2 := BitVec.ofNat 64 (fieldAt r 0x28 8),
    str3 := BitVec.ofNat 64 (fieldAt r 0x30 8), sideAddr := BitVec.ofNat 64 (fieldAt r 0x38 8),
    histAddr := BitVec.ofNat 64 (fieldAt r 0x40 8) }

/-- The 128-byte image of a descriptor. -/
def Desc.image (d : Desc) : Nat :=
  let b := fun (x : Bool) (n : Nat) => if x then n else 0
  d.base.toNat + d.fmt * 2 ^ 64 + d.rank * 2 ^ 72 + (b d.compressible 1 + b d.hist 2 + b d.side 4) * 2 ^ 80 +
    b d.pad 1 * 2 ^ 88 + d.scale.toNat * 2 ^ 96 + d.ext0 * 2 ^ 128 + d.ext1 * 2 ^ 160 + d.ext2 * 2 ^ 192 +
    d.ext3 * 2 ^ 224 + d.str1.toNat * 2 ^ 256 + d.str2.toNat * 2 ^ 320 + d.str3.toNat * 2 ^ 384 +
    d.sideAddr.toNat * 2 ^ 448 + d.histAddr.toNat * 2 ^ 512

/-- A field of R147 that must be zero is not. -/
def descReserved (r : Nat) : Bool := fieldAt r 8 1 ≥ 16 || fieldAt r 0x0A 1 ≥ 8 || !zeroAt r 0x48 56

/-- Every field within the limits of R147; an empty image is all zero. -/
def descRange (r : Nat) : Bool :=
  let d := descOf r
  let al := fmtBytes d.fmt
  let ext := fun (i x : Nat) => 1 ≤ x && x ≤ 2147483647 && (i < d.rank || x == 1)
  let str := fun (i : Nat) (x : Word64) => x.toNat % al == 0 && (i < d.rank || x == 0)
  if d.rank == 0 then fieldAt r 0 128 == 0
  else
    d.rank ≤ 4 && d.base.toNat % 64 == 0 && fieldAt r 0x0B 1 ≤ 1 &&
      (if d.fmt == 7 then d.side else if d.fmt ≤ 2 || d.fmt ≥ 8 then !d.side else true) &&
      d.scale.toNat / 2 ^ 23 ≥ 1 && d.scale.toNat / 2 ^ 23 ≤ 254 &&
      ext 0 d.ext0 && ext 1 d.ext1 && ext 2 d.ext2 && ext 3 d.ext3 && str 1 d.str1 && str 2 d.str2 && str 3 d.str3 &&
      (if d.side then d.sideAddr.toNat % 64 == 0 else d.sideAddr == 0) &&
      (if d.hist then d.histAddr.toNat % 128 == 0 else d.histAddr == 0)

/-- Indices of an element along the four dimensions. -/
structure Idx where
  i0 : Nat := 0
  i1 : Nat := 0
  i2 : Nat := 0
  i3 : Nat := 0
  deriving DecidableEq, Repr

/-- An element inside its tensor, not counting the pads of a tail point. -/
def Desc.real (d : Desc) (x : Idx) : Bool := x.i0 < d.ext0 && x.i1 < d.ext1 && x.i2 < d.ext2 && x.i3 < d.ext3

/-- An element that the tail policy does not govern: the pads of an E8P tail point are inside (06 R156). -/
def Desc.inside (d : Desc) (x : Idx) : Bool :=
  (if d.fmt == 7 then x.i0 / 8 < (d.ext0 + 7) / 8 else x.i0 < d.ext0) && x.i1 < d.ext1 && x.i2 < d.ext2 && x.i3 < d.ext3

/-- The address of an element, of its byte for E2M1, or of its point for E8P. -/
def Desc.addr (d : Desc) (x : Idx) : Word64 :=
  let off := match d.fmt with
    | 5 => x.i0 / 2
    | 7 => 2 * (x.i0 / 8)
    | f => x.i0 * fmtBytes f
  d.base + BitVec.ofNat 64 (off + x.i1 * d.str1.toNat + x.i2 * d.str2.toNat + x.i3 * d.str3.toNat)

/-- The address of the side-array byte of an element's block (05 R149). -/
def Desc.sideOf (d : Desc) (x : Idx) : Word64 :=
  d.sideAddr + BitVec.ofNat 64 (((x.i3 * d.ext2 + x.i2) * d.ext1 + x.i1) * ((d.ext0 + 31) / 32) + x.i0 / 32)

/-- Significand and exponent of a scale: a positive normal FP32 number. -/
def Desc.scaleOf (d : Desc) : Nat × Int :=
  match f32 d.scale with
  | .fin _ m e => (m, e)
  | _ => (1, 0)

/-! ### Task records (08 R195, R196) -/

def tkKind (r : Nat) : Nat := fieldAt r 0 1
def tkFlag (r i : Nat) : Bool := (fieldAt r 1 1).testBit i
def tkSlot (r : Nat) : Nat := fieldAt r 4 2

/-- Descriptor numbers that a kind uses. -/
def usedDescs (r : Nat) : List Nat :=
  match tkKind r with
  | 0 | 1 => [fieldAt r 8 2, fieldAt r 0x0A 2]
  | 3 | 4 => [fieldAt r 0x0C 2]
  | _ => []

/-- A drain task that names a descriptor as C. -/
def drainsTo (r b : Nat) : Bool := (tkKind r == 3 || tkKind r == 4) && fieldAt r 0x0C 2 == b

/-- The batched layout (08 R199). -/
def tkBatched (r : Nat) : Bool := tkKind r == 1 || tkFlag r 4

/-- One output element: its accumulator, row, column and batch. -/
structure TileElem where
  e : Nat := 0
  i : Nat := 0
  j : Nat := 0
  b : Nat := 0
  deriving DecidableEq, Repr

/-- The output elements whose row and column bits are set. -/
def tkElems (r : Nat) : List TileElem :=
  let rm := fieldAt r 0x20 2
  let cm := fieldAt r 0x22 2
  (List.range 256).filterMap fun e =>
    if tkBatched r then
      let x : TileElem := { e := e, i := e / 4 % 4, j := e % 4, b := e / 16 }
      if rm.testBit (4 * x.b + x.i) && cm.testBit (4 * x.b + x.j) then some x else none
    else
      let x : TileElem := { e := e, i := e / 16, j := e % 16, b := 0 }
      if rm.testBit x.i && cm.testBit x.j then some x else none

/-- An element of A or B: r is the row or column, kk the depth position (08 R198, R199). -/
def tkIdx (raw : Nat) (isB : Bool) (r kk b : Nat) : Idx :=
  let p := fieldAt raw (if isB then 0x14 else 0x10) 4 + r
  let dp := fieldAt raw 0x18 4 + kk
  let o := if isB then 0x30 else 0x28
  let o2 := fieldAt raw o 4 + b
  let o3 := fieldAt raw (o + 4) 4
  if tkFlag raw (if isB then 2 else 1) then { i0 := p, i1 := dp, i2 := o2, i3 := o3 }
  else { i0 := dp, i1 := p, i2 := o2, i3 := o3 }

/-- The element of C that an output element goes to. -/
def tkOut (raw : Nat) (x : TileElem) : Idx :=
  { i0 := fieldAt raw 0x14 4 + x.j, i1 := fieldAt raw 0x10 4 + x.i, i2 := fieldAt raw 0x38 4 + x.b,
    i3 := fieldAt raw 0x3C 4 }

/-- Depth of a task by the formats of A and B; 0 for a pair that R197 refuses. -/
def tkDepth (fa fb : Nat) : Nat :=
  let f8 := fun (f : Nat) => f == 3 || f == 4
  if fa == fb && (fa == 1 || fa == 2) then 16
  else if fa == fb && (fa == 5 || fa == 6) then 64
  else if (f8 fa && f8 fb) || (fa == 7 && f8 fb) || (f8 fa && fb == 7) then 32
  else 0

/-- Unmasked depth positions. -/
def tkDepths (raw k : Nat) : List Nat := (List.range k).filter fun kk => (fieldAt raw 0x24 2).testBit (kk / (k / 16))

/-- Rows or columns with an unmasked output element, by batch. -/
def tkLines (raw : Nat) (isB : Bool) : List (Nat × Nat) :=
  ((tkElems raw).map fun x => (x.b, if isB then x.j else x.i)).eraseDups

/-- The descriptor of a context. -/
def descAt (s : State) (ctx n : Nat) : Desc := Table.getD (ctxOf s ctx).descs n {}

/-! ### Refusal (08 R207) -/

/-- A field that R195 or R196 wants zero is not. -/
def tkReserved (r : Nat) : Bool :=
  let prod := tkKind r ≤ 1
  let drain := tkKind r ≥ 3
  let allowed := match tkKind r with
    | 0 | 1 => 7
    | 4 => 24
    | _ => 16
  let z := fun (o n : Nat) => zeroAt r o n
  !(z 6 2 && z 0x0E 2 && z 0x1C 4 && z 0x26 2 && z 0x60 32) || fieldAt r 1 1 &&& (255 - allowed) != 0 ||
    fieldAt r 2 1 ≥ 16 || fieldAt r 3 1 > 3 || (!drain && !z 3 1) ||
    (!prod && !(z 8 4 && z 0x18 4 && z 0x24 2 && z 0x28 16)) || (!drain && !(z 0x0C 2 && z 0x38 8)) ||
    (tkKind r == 2 && !(z 0x10 8))

/-- R205: whole points in each written row, and whole blocks where E is computed. -/
def pointsWhole (raw : Nat) (d : Desc) : Bool :=
  let xs := ((tkElems raw).map (tkOut raw)).filter d.real
  let units := if tkFlag raw 3 then [8, 32] else [8]
  fieldAt raw 0x14 4 % 8 == 0 && xs.all fun x => units.all fun u =>
    (List.range u).all fun t =>
      let y := { x with i0 := x.i0 / u * u + t }
      y.i0 ≥ d.ext0 || xs.contains y

/-- TFORMAT of R197, R198, R204 and R205. -/
def tkFormatBad (s : State) (ctx raw : Nat) : Bool :=
  match tkKind raw with
  | 0 | 1 =>
    let a := descAt s ctx (fieldAt raw 8 2)
    let b := descAt s ctx (fieldAt raw 0x0A 2)
    let e8 := fun (d : Desc) (f : Nat) => d.fmt == 7 && (tkFlag raw f || fieldAt raw 0x18 4 % 8 != 0)
    tkDepth a.fmt b.fmt == 0 || e8 a 1 || e8 b 2
  | 3 => (descAt s ctx (fieldAt raw 0x0C 2)).fmt != 0
  | 4 =>
    let c := descAt s ctx (fieldAt raw 0x0C 2)
    c.fmt == 0 || c.fmt > 7 || (c.fmt == 7 && !pointsWhole raw c)
  | _ => false

/-- TBOUNDS: an unmasked element outside an operand under tail policy 0 (08 R206). -/
def tkBoundsBad (s : State) (ctx raw : Nat) : Bool :=
  match tkKind raw with
  | 0 | 1 =>
    let a := descAt s ctx (fieldAt raw 8 2)
    let b := descAt s ctx (fieldAt raw 0x0A 2)
    let ks := tkDepths raw (tkDepth a.fmt b.fmt)
    let out := fun (d : Desc) (isB : Bool) => !d.pad && (tkLines raw isB).any fun p => ks.any fun kk =>
      !d.inside (tkIdx raw isB p.2 kk p.1)
    out a false || out b true
  | 3 | 4 =>
    let c := descAt s ctx (fieldAt raw 0x0C 2)
    !c.pad && (tkElems raw).any fun x => !c.inside (tkOut raw x)
  | _ => false

/-- Key of an accumulator slot of a quad. -/
def accKey (ctx quad slot : Nat) : Nat := (ctx * 288 + quad) * 256 + slot

/-- Package quad of a wave slot's key. -/
def quadOfWave (wk : Nat) : Nat := wk % 131072 / 256

/-- An accumulator slot that a group other than one holds: a group that has ended holds none (03 R72, 08 R209). -/
def slotTaken (s : State) (k group : Nat) : Bool :=
  match Table.get? s.acc k with
  | some a => a.owner != group + 1 && !groupDone s (a.owner - 1)
  | none => false

/-- The first refusal of R207, or 0. -/
def tkRefusal (s : State) (t : Task) : Nat :=
  let r := t.raw
  let g := groupOf s t.group
  let owned := slotTaken s (accKey t.ctx (quadOfWave t.wave) (tkSlot r)) t.group
  if tkKind r > 4 then 0x50
  else if tkReserved r then 0x51
  else if fieldAt r 0x40 8 % 8 != 0 || fieldAt r 0x50 8 % 8 != 0 || fieldAt r 0x58 8 % 4 != 0 then 0x57
  else if tkSlot r > 255 || owned then 0x54
  else if (usedDescs r).any fun n => n > 4095 || n ≥ g.kern.descReq || (descAt s t.ctx n).rank == 0 then 0x52
  else if tkKind r == 4 && tkFlag r 3 && (descAt s t.ctx (fieldAt r 0x0C 2)).fmt != 7 then 0x51
  else if tkFormatBad s t.ctx r then 0x53
  else if tkBoundsBad s t.ctx r then 0x55
  else 0

/-! ### The end of a task (08 R203, R207, R211) -/

/-- What a translation that only finishing needs has come to. -/
def gotPa : Option (Got Nat) → Option Nat
  | some (.ok pa) => some pa
  | _ => none

/-- OR the report into a status word, and put a code in bits 15:8 (08 R203). -/
def statusWord (old code report : Nat) : Nat :=
  let x := old ||| report
  if code == 0 then x else x / 65536 * 65536 + code * 256 + x % 256

/-- The level at which the engines of a task's quad read and write memory (10 R261). -/
def Task.level (t : Task) : Nat := quadLevel (quadOfWave t.wave)

/-- Write a task's status, add to its completion counter, or record what cannot be told there, and drop the task. `bit5`
marks a drain of poison. Nothing while a translation is awaited. -/
def endTask (s : State) (tk code report : Nat) (bit5 : Bool) : State :=
  match Table.get? s.tasks tk with
  | none => s
  | some t =>
    let sa := fieldAt t.raw 0x58 8
    let ca := fieldAt t.raw 0x50 8
    let word := report + (if bit5 then 32 else 0)
    let tag := tagTask tk
    let st := if (code != 0 || word != 0) && sa != 0 && sa % 4 == 0 then
      some (engineTr s t.ctx tag (BitVec.ofNat 64 sa) true) else none
    let ct := if ca != 0 && ca % 8 == 0 then some (engineTr s t.ctx tag (BitVec.ofNat 64 ca) true) else none
    let ask := fun (s : State) => engineAsk (engineAsk s t.ctx tag (BitVec.ofNat 64 sa) (if st.isSome then 4 else 0) true)
      t.ctx tag (BitVec.ofNat 64 ca) (if ct.isSome then 8 else 0) true
    match st, ct with
    | some .wait, _ | _, some .wait => ask s
    | some (.hole a), _ | _, some (.hole a) => { s with stuck := some (.noSuchAddress a) }
    | _, _ =>
      let s := match gotPa st with
        | some pa => partWrite s t.level pa 4 (statusWord (coreRead s t.level pa 4) code word)
        | none => s
      let s := match gotPa ct with
        | some pa => partWrite s t.level pa 8 ((coreRead s t.level pa 8 + 1) % 2 ^ 64)
        | none => s
      let noAdd := ca != 0 && (gotPa ct).isNone
      let untold := (gotPa st).isNone && (code != 0 || (report != 0 && sa != 0))
      let s := if noAdd || untold then
          faultRecord s t.ctx { type := 2, detail := code + tkSlot t.raw % 256 * 256, addr := ca,
                                spec := report + (if noAdd then 256 else 0) }
        else s
      engineDone { s with tasks := Table.erase s.tasks tk } t.ctx tag

/-! ### The queues of the scheduler (08 R208) -/

/-- Queued tasks of a wave slot, in submission order. -/
def queuedTasks (s : State) (wk : Nat) : List (Nat × Task) := s.tasks.filter fun t => t.2.wave == wk && !t.2.running

/-- The head of each queue, one for each wave slot of a quad. -/
def queueHeads (s : State) (quad : Nat) : List (Nat × Task) :=
  (s.tasks.filter fun t => !t.2.running && quadOfWave t.2.wave == quad).foldl (fun hs t =>
    if hs.any fun h => h.2.wave == t.2.wave then hs else hs ++ [t]) []

/-- Discard the heads whose guard resolved false, as far as they reach (04 R107, R108). -/
def discardTasks (s : State) (wk : Nat) : Nat → State
  | 0 => s
  | fuel + 1 =>
    match (queuedTasks s wk).head? with
    | some t =>
      (match t.2.guard with
      | some (_, .isFalse) =>
        let s' := endTask s t.1 0 0 false
        if (Table.get? s'.tasks t.1).isSome then s' else discardTasks s' wk fuel
      | _ => s)
    | none => s

/-- What the head of a queue is ready for. -/
inductive HeadState
  | held
  | ask
  | start
  | fail
  | hole (addr : Nat)
  deriving DecidableEq, Repr

/-- Whether a head may start: its guard, its wait counter, its slot (08 R208). -/
def headState (s : State) (tk : Nat) (t : Task) : HeadState :=
  let wa := fieldAt t.raw 0x40 8
  let busy := s.tasks.any fun x => x.2.running && x.2.ctx == t.ctx && quadOfWave x.2.wave == quadOfWave t.wave &&
    tkSlot x.2.raw == tkSlot t.raw
  let held := match t.guard with
    | some (_, .pending ..) | some (_, .isFalse) => true
    | _ => false
  if held || busy then .held
  else if wa == 0 || wa % 8 != 0 then .start
  else
    match engineRead s t.ctx (tagTask tk) (some t.level) (BitVec.ofNat 64 wa) 8 with
    | .ok v => if v ≥ fieldAt t.raw 0x48 8 then .start else .held
    | .wait => .ask
    | .fail => .fail
    | .hole a => .hole a

/-- Start a head: it is refused, or it claims its slot and runs (08 R207, R209). -/
def startTask (s : State) (tk : Nat) (t : Task) : State :=
  match tkRefusal s t with
  | 0 =>
    let k := accKey t.ctx (quadOfWave t.wave) (tkSlot t.raw)
    let s := match Table.get? s.acc k with
      | some a => if a.owner == t.group + 1 then s else { s with acc := Table.set s.acc k { owner := t.group + 1 } }
      | none => { s with acc := Table.set s.acc k { owner := t.group + 1 } }
    { s with tasks := Table.set s.tasks tk { t with running := true } }
  | code => endTask s tk code 0 false

/-- One turn of a quad's scheduler: it starts the ready head of the next queue in rotation, if an engine is free. -/
def quadTurn (s : State) (quad : Nat) : State :=
  let mine := fun (t : Task) => quadOfWave t.wave == quad
  let s := ((queueHeads s quad).map fun h => h.2.wave).foldl (fun s w => discardTasks s w 16) s
  let free := (s.tasks.filter fun t => t.2.running && mine t.2).length < 4
  let rot := Table.getD s.tileRot quad 0
  let hs := ((queueHeads s quad).filter fun h => quadsReady s h.2.ctx).mergeSort fun a b =>
    a.2.wave % 256 ≤ b.2.wave % 256
  let order := (hs.filter fun h => h.2.wave % 256 ≥ rot) ++ hs.filter fun h => h.2.wave % 256 < rot
  let st := order.map fun h => (h, headState s h.1 h.2)
  match st.findSome? fun x => match x.2 with
    | .hole a => some a
    | _ => none with
  | some a => { s with stuck := some (.noSuchAddress a) }
  | none =>
    let s := (st.filter fun x => x.2 == .ask).foldl (fun s x =>
      engineAsk s x.1.2.ctx (tagTask x.1.1) (BitVec.ofNat 64 (fieldAt x.1.2.raw 0x40 8)) 8 false) s
    match st.find? fun x => x.2 == .start || x.2 == .fail with
    | some x =>
      if !free then s
      else
        let s := { s with tileRot := Table.set s.tileRot quad ((x.1.2.wave + 1) % 256) }
        if x.2 == .fail then endTask s x.1.1 0x56 0 false else startTask s x.1.1 x.1.2
    | none => s

/-- TILE_TASK_START (08 R207 to R209). -/
def execTileTaskStart (quad : Nat) (s : State) : Host.Outcome State Fault Refusal := finish (quadTurn s quad)

/-! ### What a running task reads and writes -/

/-- An access of a task: address, bytes, whether it writes. -/
abbrev TileAccess := Word64 × Nat × Bool

/-- Elements of an operand that a product reads. -/
def operandIdx (raw : Nat) (d : Desc) (isB : Bool) (ks : List Nat) : List Idx :=
  ((tkLines raw isB).flatMap fun p => ks.map fun kk => tkIdx raw isB p.2 kk p.1).filter d.inside

/-- Output elements of a drain that lie inside C. -/
def drainElems (raw : Nat) (d : Desc) : List (TileElem × Idx) :=
  ((tkElems raw).map fun x => (x, tkOut raw x)).filter fun p => d.real p.2

/-- Every access of a running task. -/
def taskAccesses (s : State) (t : Task) : List TileAccess :=
  let elem := fun (d : Desc) (w : Bool) (x : Idx) => (d.addr x, fmtBytes d.fmt, w)
  let side := fun (d : Desc) (w : Bool) (x : Idx) => (d.sideOf x, 1, w)
  (match tkKind t.raw with
    | 0 | 1 =>
      let a := descAt s t.ctx (fieldAt t.raw 8 2)
      let b := descAt s t.ctx (fieldAt t.raw 0x0A 2)
      let ks := tkDepths t.raw (tkDepth a.fmt b.fmt)
      let of := fun (d : Desc) (isB : Bool) =>
        let xs := operandIdx t.raw d isB ks
        xs.map (elem d false) ++ (if d.side then xs.map (side d false) else [])
      of a false ++ of b true
    | 3 | 4 =>
      let c := descAt s t.ctx (fieldAt t.raw 0x0C 2)
      let xs := (drainElems t.raw c).map fun (p : TileElem × Idx) => p.2
      xs.map (elem c true) ++ (if c.side then xs.map (side c (tkFlag t.raw 3)) else []) ++
        (if c.hist && !xs.isEmpty then [(c.histAddr, 128, true)] else [])
    | _ => []).eraseDups

/-- Whether every access of a task translates. -/
def taskRange (s : State) (tk : Nat) (t : Task) : Got Unit :=
  (taskAccesses s t).foldl (fun g x => match g with
    | .ok _ => engineRange s t.ctx (tagTask tk) x.1 x.2.1 x.2.2
    | g => g) (.ok ())

/-! ### Products (08 R200, R201, R203) -/

/-- One operand element as read: its exact scaled value, its LG6 code and the exponent of what multiplies it, whether its
stored code is a signalling NaN, whether its line is poisoned, whether it is a pad, and the address of a non-canonical
point. -/
structure TileVal where
  v : FVal := .fin false 0 0
  lg : Nat := 0
  mul : Nat := 1
  exp : Int := 0
  nanBlock : Bool := false
  sig : Bool := false
  bad : Bool := false
  pad : Bool := false
  stray : Option Nat := none
  deriving DecidableEq, Repr

/-- A value times m × 2^e. -/
def FVal.scale (v : FVal) (m : Nat) (e : Int) : FVal :=
  match v with
  | .fin n x y => .fin n (x * m) (y + e)
  | v => v

/-- n bytes at an address, as the tile fetch unit of a quad reads them. -/
def tileRead (s : State) (ctx u : Nat) (a : Word64) (n : Nat) : Nat :=
  leBytes (fun i => vaByte s ctx (some u) (a + BitVec.ofNat 64 i)) 0 n

/-- The exponent byte of an element's block, 127 without a side array (05 R149). -/
def blockByte (s : State) (ctx u : Nat) (d : Desc) (x : Idx) : Nat :=
  if d.side then tileRead s ctx u (d.sideOf x) 1 else 127

/-- Read one operand element (05 R148 to R150, 06 R154, R168, 08 R201). -/
def tileVal (s : State) (ctx u : Nat) (d : Desc) (x : Idx) : TileVal :=
  if !d.inside x then {}
  else
    let raw := tileRead s ctx u (d.addr x) (fmtBytes d.fmt)
    let e := blockByte s ctx u d x
    let bad := vaPoisoned s ctx (d.addr x) (fmtBytes d.fmt) || (d.side && vaPoisoned s ctx (d.sideOf x) 1)
    let (m, se) := d.scaleOf
    let ex := se + (e : Int) - 127
    let out := fun (v : FVal) => if e == 255 then FVal.nan false else v.scale m ex
    match d.fmt with
    | 6 => { v := out (decodeLg raw), lg := raw, mul := m, exp := ex, nanBlock := e == 255, bad := bad }
    | 7 =>
      let stray := if nonCanonical raw then some (d.addr x).toNat else none
      if !d.real x then { bad := bad, pad := true, stray := stray }
      else
        let c := (decodePoint raw).getD (x.i0 % 8) 0
        { v := out (if c == 0 then .fin false 0 0 else .fin (c < 0) c.natAbs (-1)), bad := bad, stray := stray }
    | 5 =>
      { v := out (decodeF .e2m1 (if x.i0 % 2 == 0 then raw % 16 else raw / 16)), bad := bad }
    | f =>
      let v := decodeF (FFmt.ofCode (BitVec.ofNat 4 f)) raw
      { v := out v, sig := v.isSig, bad := bad }

/-- The term of one depth position, and whether it is 0 × ∞ (05 R132, 08 R200). -/
def tileTerm (lg : Bool) (a b : TileVal) : Term × Bool :=
  if lg then
    if a.nanBlock || b.nanBlock then ({ nan := true }, false)
    else (termOf ((lgProduct a.lg b.lg).scale (a.mul * b.mul) (a.exp + b.exp)), false)
  else prodTerm a.v b.v

/-- What a product leaves: its slot and its report. -/
structure ProductEnd where
  acc : AccSlot := {}
  report : BitVec 5 := 0
  strays : Nat := 0
  deriving DecidableEq, Repr

/-- One product or batched task. A depth position that is a pad of an operand adds nothing, as a masked one (06 R168, log 34). Points
that share a code address, where rows overlap, count once (06 R155, log 96). -/
def product (s : State) (t : Task) (acc : AccSlot) : ProductEnd :=
  let r := t.raw
  let a := descAt s t.ctx (fieldAt r 8 2)
  let b := descAt s t.ctx (fieldAt r 0x0A 2)
  let ks := tkDepths r (tkDepth a.fmt b.fmt)
  let lg := a.fmt == 6 && b.fmt == 6
  let lines := fun (d : Desc) (isB : Bool) => (tkLines r isB).map fun p =>
    (p, ks.map fun kk => tileVal s t.ctx t.level d (tkIdx r isB p.2 kk p.1))
  let as := lines a false
  let bs := lines b true
  let all := (as ++ bs).flatMap fun (e : (Nat × Nat) × List TileVal) => e.2
  let row := fun (l : List ((Nat × Nat) × List TileVal)) (x y : Nat) =>
    ((l.find? fun (e : (Nat × Nat) × List TileVal) => e.1 == (x, y)).map (·.2)).getD []
  let anyBad := all.any (·.bad)
  let sig := flagIf (all.any (·.sig)) fNV
  let strays := (all.filterMap (·.stray)).eraseDups.length
  (tkElems r).foldl (fun (p : ProductEnd) x =>
    let old := if tkFlag r 0 then FVal.fin false 0 0 else f32 (Table.getD acc.vals x.e 0)
    let ts := (((row as x.b x.i).zip (row bs x.b x.j)).filter fun v => !v.1.pad && !v.2.pad).map fun v =>
      tileTerm lg v.1 v.2
    let y := sumTerms (termOf old :: ts.map (·.1)) (ts.any (·.2)) .rn
    let bad := anyBad || (!tkFlag r 0 && acc.poison.contains x.e)
    { p with
      acc := { p.acc with vals := Table.put p.acc.vals x.e 0 (BitVec.ofNat 32 y.1),
                          poison := if bad then insertNat x.e p.acc.poison else p.acc.poison.filter (· ≠ x.e) },
      report := p.report ||| y.2 })
    { acc := acc, report := sig, strays := strays }

/-! ### Drains (05 R150 to R152, 06 R167, 08 R204, R205) -/

/-- n / d × 2^e, n and d positive, as a dyadic that rounds as the exact quotient does: 64 bits and a sticky bit. -/
def quotient (n d : Nat) (e : Int) : Nat × Int :=
  let k := 64 + Nat.log2 d
  let x := n * 2 ^ k
  (2 * (x / d) + (if x % d == 0 then 0 else 1), e - k - 1)

/-- An exact quotient by a scale m × 2^e. -/
def FVal.divScale (v : FVal) (m : Nat) (e : Int) : FVal :=
  match v with
  | .fin n x y => if x == 0 then .fin n 0 0 else
      let q := quotient x m (y - e)
      .fin n q.1 q.2
  | v => v

/-- The code that a value is stored as, with its flags; block exponent 255 stores what a NaN gives (05 R150). -/
def storedCode (d : Desc) (r : Rnd) (blk : Nat) (v : FVal) : Nat × BitVec 5 :=
  let (m, se) := d.scaleOf
  if blk == 255 then
    (match d.fmt with
      | 6 => 32
      | f => nanCode (FFmt.ofCode (BitVec.ofNat 4 f)), fNV)
  else
    let q := v.divScale m (se + (blk : Int) - 127)
    match d.fmt with
    | 6 => roundLg r 0 q
    | f => convF (FFmt.ofCode (BitVec.ofNat 4 f)) r 0 q

/-- The histogram bin of a drained FP32 word (05 R151, 18 R403). -/
def histBin (d : Desc) (x : Word32) (bad : Bool) : Nat :=
  let e : Nat := x.toNat / 2 ^ 23 % 256
  let es : Nat := d.scale.toNat / 2 ^ 23
  if bad then 31
  else if e == 0 then 0
  else if e == 255 then 31
  else
    let k : Int := Int.ofNat e - Int.ofNat es
    if k < -15 then 0 else if k > 14 then 31 else (k + 16).toNat

/-- One store of a drain: a byte string, or one nibble of a byte; `side` is the exponent byte that it read. -/
structure DrainStore where
  a : Word64 := 0
  side : Option Word64 := none
  n : Nat := 1
  v : Nat := 0
  nibble : Option Bool := none
  bad : Bool := false
  deriving DecidableEq, Repr

/-- What a drain does: its stores in order, its side bytes, its counts, its report. -/
structure DrainPlan where
  stores : List DrainStore := []
  sides : List (Word64 × Nat) := []
  bins : List Nat := []
  report : BitVec 5 := 0
  deriving DecidableEq, Repr

/-- The smallest k with x / m × 2^e at most 1.5 × 2^k, x positive (06 R165). -/
def expAtMost (x m : Nat) (e : Int) : Int :=
  let t0 : Int := (Nat.log2 x : Int) - Nat.log2 m
  let t := if t0 ≥ 0 then (if x < m * 2 ^ t0.toNat then t0 - 1 else t0)
    else (if x * 2 ^ (-t0).toNat < m then t0 - 1 else t0)
  let fits := if t ≥ 0 then 2 * x ≤ 3 * m * 2 ^ t.toNat else 2 * x * 2 ^ (-t).toNat ≤ 3 * m
  e + (if fits then t else t + 1)

/-- The block exponent over exact values divided by a scale (06 R165, R167). -/
def computedExp (d : Desc) (vs : List FVal) : Nat :=
  let (m, se) := d.scaleOf
  if vs.any FVal.isNan then 255
  else if vs.any FVal.isInf then 254
  else
    let ks := vs.filterMap fun v => match v with
      | .fin _ x e => if x == 0 then none else some (expAtMost x m (e - se))
      | _ => none
    match ks with
    | [] => 0
    | k :: t =>
      let k := t.foldl max k
      if k + 127 < 0 then 0 else if k + 127 > 254 then 254 else (k + 127).toNat

/-- The plan of a drain into a tensor that is not E8P. -/
def drainPlain (s : State) (t : Task) (acc : AccSlot) (d : Desc) : DrainPlan :=
  let rnd := Rnd.ofCode (BitVec.ofNat 3 (fieldAt t.raw 3 1))
  (drainElems t.raw d).foldl (fun (p : DrainPlan) x =>
    let w := Table.getD acc.vals x.1.e 0
    let bad := acc.poison.contains x.1.e
    let q := storedCode d rnd (blockByte s t.ctx t.level d x.2) (f32 w)
    let st : DrainStore := { a := d.addr x.2, n := fmtBytes d.fmt, v := q.1, bad := bad,
                             side := if d.side then some (d.sideOf x.2) else none,
                             nibble := if d.fmt == 5 then some (x.2.i0 % 2 == 1) else none }
    { p with stores := p.stores ++ [st], bins := if d.hist then p.bins ++ [histBin d w bad] else p.bins,
             report := p.report ||| q.2 }) {}

/-- The plan of a drain into an E8P tensor: whole points, by the quantiser (06 R160, R167). -/
def drainPoints (s : State) (t : Task) (acc : AccSlot) (d : Desc) : DrainPlan :=
  let xs := drainElems t.raw d
  let (m, se) := d.scaleOf
  let blocks := (xs.map fun x => { x.2 with i0 := x.2.i0 / 32 * 32 }).eraseDups
  let exps := blocks.map fun b => (b, if tkFlag t.raw 3 then
      computedExp d ((xs.filter fun x => { x.2 with i0 := x.2.i0 / 32 * 32 } == b).map fun x =>
        f32 (Table.getD acc.vals x.1.e 0))
    else blockByte s t.ctx t.level d b)
  let points := (xs.map fun x => { x.2 with i0 := x.2.i0 / 8 * 8 }).eraseDups
  let p := points.foldl (fun (p : DrainPlan) b =>
    let mine := xs.filter fun x => { x.2 with i0 := x.2.i0 / 8 * 8 } == b
    let n := min 8 (d.ext0 - b.i0)
    let val := fun (i : Nat) => match mine.find? fun x => x.2.i0 == b.i0 + i with
      | some x => f32 (Table.getD acc.vals x.1.e 0)
      | none => .fin false 0 0
    let e := ((exps.find? fun x => x.1 == { b with i0 := b.i0 / 32 * 32 }).map (·.2)).getD 127
    let (zs, den) := quantInputs ((List.range n).map val) (127 - (e : Int) - se)
    let q := quantPoint zs (den * m) (e == 255)
    let bad := mine.any fun x => acc.poison.contains x.1.e
    let bins := (mine.map fun x => histBin d (Table.getD acc.vals x.1.e 0) (acc.poison.contains x.1.e)) ++
      List.replicate q.2.2 31
    { p with stores := p.stores ++ [{ a := d.addr b, n := 2, v := q.1, bad := bad,
                                      side := if tkFlag t.raw 3 then none else some (d.sideOf b) }],
             bins := if d.hist then p.bins ++ bins else p.bins, report := p.report ||| q.2.1 }) {}
  let sides := exps.map fun e => (d.sideOf e.1, e.2)
  { p with sides := if tkFlag t.raw 3 then sides else [] }

def drainPlan (s : State) (t : Task) (acc : AccSlot) : DrainPlan :=
  let d := descAt s t.ctx (fieldAt t.raw 0x0C 2)
  if d.fmt == 7 then drainPoints s t acc d else drainPlain s t acc d

/-- Store one element of a drain; a nibble is merged with what its byte, which is written, holds (08 R204). -/
def drainStore (s : State) (ctx u : Nat) (x : DrainStore) : State :=
  let v : Nat := match x.nibble with
    | none => x.v
    | some hi =>
      let old : Nat := (agentByte s (some u) (vaToPa s ctx x.a true)).toNat
      if hi then old % 16 + x.v * 16 else old / 16 * 16 + x.v
  let s := vaWrite s ctx (some u) x.a v x.n
  if x.bad then { s with poison := insertNat (vaToPa s ctx x.a true / 64) s.poison } else s

/-- Clear the poison of granules that a drain wrote whole with no poison (18 R402). -/
def drainClear (s : State) (ctx : Nat) (xs : List DrainStore) : State :=
  match s.poison with
  | [] => s
  | ps =>
    let at_ := xs.map fun x => (vaToPa s ctx x.a true, x)
    let whole := fun (g : Nat) =>
      let mine := at_.filter fun p => p.1 / 64 == g
      !(mine.any fun p => p.2.bad) && (List.range 64).all fun i => mine.any fun p =>
        p.2.nibble.isNone && p.1 ≤ g * 64 + i && g * 64 + i < p.1 + p.2.n
    { s with poison := ps.filter fun g => !whole g }

/-- Count one in a histogram bin, saturating (05 R152). -/
def histCount (s : State) (ctx u : Nat) (d : Desc) (bin : Nat) : State :=
  let pa := vaToPa s ctx (d.histAddr + BitVec.ofNat 64 (4 * bin)) true
  partWrite s u pa 4 (min (coreRead s u pa 4 + 1) 0xFFFFFFFF)

/-- The stores of a drain, or of as much of it as has been written. -/
def drainStores (s : State) (t : Task) (xs : List DrainStore) : State :=
  drainClear (xs.foldl (fun s x => drainStore s t.ctx t.level x) s) t.ctx xs

/-- Perform a drain whose accesses all translate. Where rows overlap, a byte keeps what the last of its elements stored, in
ascending order of accumulators (05 R148, log 95). -/
def runDrain (s : State) (t : Task) (p : DrainPlan) : State :=
  let d := descAt s t.ctx (fieldAt t.raw 0x0C 2)
  let s := drainStores s t p.stores
  let s := p.sides.foldl (fun s x => vaWrite s t.ctx (some t.level) x.1 x.2 1) s
  p.bins.foldl (fun s b => histCount s t.ctx t.level d b) s

/-- Add to the non-canonical decode count of a context, saturating (06 R155). -/
def addStrays (s : State) (ctx n : Nat) : State :=
  if n == 0 then s
  else setCtx s ctx fun c => { c with e8n := BitVec.ofNat 32 (min (c.e8n.toNat + n) 0xFFFFFFFF) }

/-- A running task whose accesses all translate takes its whole effect. -/
def applyTask (s : State) (tk : Nat) (t : Task) : State :=
  let k := accKey t.ctx (quadOfWave t.wave) (tkSlot t.raw)
  let acc := Table.getD s.acc k {}
  let s := (taskAccesses s t).foldl (fun s x => touchPolders s t.ctx x.1.toNat x.2.1) s
  match tkKind t.raw with
  | 0 | 1 =>
    let p := product s t acc
    let s := addStrays { s with acc := Table.set s.acc k p.acc } t.ctx p.strays
    endTask s tk 0 p.report.toNat false
  | 2 =>
    let es := (tkElems t.raw).map (·.e)
    let acc := { acc with vals := es.foldl (fun v e => Table.erase v e) acc.vals,
                          poison := acc.poison.filter fun e => !es.contains e }
    endTask { s with acc := Table.set s.acc k acc } tk 0 0 false
  | _ =>
    let p := drainPlan s t acc
    endTask (runDrain s t p) tk 0 p.report.toNat (p.stores.any (·.bad))

/-- Whether the status word and the completion counter of a task await no translation. -/
def endReady (s : State) (tk : Nat) (t : Task) : Bool :=
  let ok := fun (a al : Nat) => a == 0 || a % al != 0 || (match engineTr s t.ctx (tagTask tk) (BitVec.ofNat 64 a) true with
    | .wait => false
    | _ => true)
  ok (fieldAt t.raw 0x58 8) 4 && ok (fieldAt t.raw 0x50 8) 8

/-- TILE_TASK_END: a running task is performed whole, waits for a translation, or fails (08 R200 to R211, 16 R355). -/
def execTileTaskEnd (task : Nat) (s : State) : Host.Outcome State Fault Refusal :=
  match Table.get? s.tasks task with
  | none => done s
  | some t =>
    if !t.running then done s
    else
      match taskRange s task t with
      | .hole a => finish { s with stuck := some (.noSuchAddress a) }
      | .wait => done ((taskAccesses s t).foldl (fun s x => engineAsk s t.ctx (tagTask task) x.1 x.2.1 x.2.2) s)
      | .fail => finish (endTask s task 0x56 0 false)
      | .ok _ =>
        if endReady s task t then finish (applyTask s task t)
        else finish (endTask s task 0 1 false)

/-- TILE_TASK_FAIL: a translation of a running task failed when `done_` elements of a drain had been written (08 R210). -/
def execTileTaskFail (task done_ : Nat) (s : State) : Host.Outcome State Fault Refusal :=
  match Table.get? s.tasks task with
  | none => done s
  | some t =>
    if !t.running then done s
    else
      match taskRange s task t with
      | .fail =>
        if !endReady s task t then finish (endTask s task 0x56 0 false)
        else
          let acc := Table.getD s.acc (accKey t.ctx (quadOfWave t.wave) (tkSlot t.raw)) {}
          let there := fun (a : Word64) (w : Bool) => (match engineTr s t.ctx (tagTask task) a w with
            | .ok _ => true
            | _ => false)
          let writes := if tkKind t.raw ≥ 3 then ((drainPlan s t acc).stores.take done_).takeWhile fun x =>
              there x.a true && (x.side.all fun a => there a false)
            else []
          finish (endTask (drainStores s t writes) task 0x56 0 false)
      | _ => done s

/-! ### `tsub` and `twait` (08 R213, R214) -/

/-- The address of a record, formed as `dlv` forms it. -/
def tsubAddr (s : State) (sp : Bool) (m : MemOp) (l : Fin 32) : Word64 :=
  let full := src64 s m.base l + (src32 s m.index l).setWidth 64 + m.off.signExtend 64 * 128
  if sp then (full.setWidth 32).setWidth 64 else full

/-- The check of one record. -/
def tsubChk (s : State) (sp : Bool) (a : Word64) (l : Fin 32) : Chk :=
  if sp then spChk s l (a.setWidth 32) 128 { load := true }
  else
    globalChk s l a 128 { load := true }

/-- The 128 bytes of a record; what another package answered is a free value (log 33). -/
def tsubRead (s : State) (sp : Bool) (place : Nat) : Nat :=
  if sp then spRead (groupOf s s.me.group) place 128 else leBytes (agentByte s (some s.me.core)) place 128

/-- Put a record into the wave's queue with the state of the guard slot it names. -/
def submit (s : State) (raw : Nat) : State :=
  let slot := BitVec.ofNat 3 (fieldAt raw 2 1)
  let g := if (fieldAt raw 2 1).testBit 3 then some (slot, guardOf s.me slot) else none
  let (k, s) := freshNo s
  { s with tasks := Table.set s.tasks k { ctx := s.me.ctx, wave := s.me.key, group := s.me.group, raw := raw, guard := g } }

def execTsub (h : Head) (sp : Bool) (m : MemOp) (s : State) : Host.Outcome State Fault Refusal :=
  let act := active s h
  let srcs := [(m.base, 2), (m.index, 1)]
  let uni := m.base.uniform && m.index.uniform
  let bad := poisonLanes s srcs act
  let bad := if uni && bad != 0 then act else bad
  let place := fun (s : State) (l : Fin 32) => tsubAddr s sp m l
  let cs := (accessLanes uni (act &&& ~~~bad)).map fun l => (l, tsubChk s sp (place s l) l)
  match cs.findSome? fun c => match c.2 with
    | .hole x => some x
    | _ => none with
  | some x => finish { s with stuck := some (.noSuchAddress x) }
  | none =>
    let waits := cs.filter fun c => match c.2 with
      | .ats _ _ | .send _ | .absent _ => true
      | _ => false
    let go := cs.filter fun c => match c.2 with
      | .ok _ | .far _ _ => true
      | _ => false
    let fs := faultLanes bad .poison ++ cs.flatMap fun c => match c.2 with
      | .fault f => spreadFault uni (act &&& ~~~bad) f
      | _ => []
    let out := maskOf (fs.map (·.lane))
    if !waits.isEmpty then
      finish (waitChecks waits (fun s l pa => sendRemote s l (place s l) pa 128 none) s)
    else if (queuedTasks s s.me.key).length + go.length > 16 then done (stallMe s s.iss (.taskRoom go.length))
    else
      done (commitWith (askFaults s fs) fs fun s =>
        let s := if sp then s else settlePlaces s 128 go
        let raws := go.filterMap fun c => match c.2 with
          | .ok p | .far p _ => some (tsubRead s sp p)
          | _ => none
        let s := if sp then s else go.foldl (fun s c => touchPolders s s.me.ctx (place s c.1).toNat 128) s
        let s := if go.isEmpty then s else releaseAt s s.me.core .quad
        let s := raws.foldl submit s
        advanceMe (discardTasks s s.me.key 16) (s.iss &&& ~~~out))

/-- The counter that `twait` reads: reached, still below, or what its access comes to. -/
def twaitChk (s : State) (a : Word64) (t : Word64) (l : Fin 32) : Chk :=
  match globalChk s l a 8 { load := true } with
  | .ok pa => if seenRead (settleReds s s.me.core pa 8) s.me.core pa 8 ≥ t.toNat then .ok pa
    else .absent (.counter pa t.toNat)
  | .far pa v => if v.toNat % 2 ^ 64 ≥ t.toNat then .far pa v else .send pa
  | c => c

def execTwait (h : Head) (t : Operand) (m : MemOp) (s : State) : Host.Outcome State Fault Refusal :=
  let place := fun (s : State) (l : Fin 32) =>
    (src64 s m.base l + (src32 s m.index l).setWidth 64 + m.off.signExtend 64 * 8) &&& ~~~7#64
  finish (memInstr h true [(t, 2), (m.base, 2), (m.index, 1)] s
    (fun s l => twaitChk s (place s l) (src64 s t l) l)
    (fun s l pa => sendRemote s l (place s l) pa 8 none)
    fun cs s => settlePlaces s 8 cs)

/-! ### Descriptors and histograms by instruction (08 R215, R216) -/

/-- DNUM: a descriptor number that the issuing kernel may not name. -/
def descNumBad (s : State) (b : Nat) : Bool := b > 4095 || b ≥ (kernOf s).descReq

/-- The tag of a status instruction of the issuing wave. -/
def tagMe (s : State) : Nat := tagLane s.me.key (lowest s.iss).val

/-- `tdesc` at work. -/
def tdesc (s : State) (a : Word64) (b : Nat) : Option Word32 × State :=
  let ctx := s.me.ctx
  let end_ := fun (x : Word32) => (some x, engineDone s ctx (tagMe s))
  if descNumBad s b then end_ 0x60
  else
    match engineRead s ctx (tagMe s) (some s.me.core) a 128 with
    | .wait => (none, engineAsk s ctx (tagMe s) a 128 false)
    | .hole x => (none, { s with stuck := some (.noSuchAddress x) })
    | .fail => end_ 0x61
    | .ok r =>
      if descReserved r then end_ 0x62
      else if !descRange r then end_ 0x63
      else if s.tasks.any fun t => t.2.ctx == ctx && (usedDescs t.2.raw).contains b then end_ 0x64
      else (some 0, setCtx (engineDone s ctx (tagMe s)) ctx fun c => { c with descs := Table.put c.descs b {} (descOf r) })

def execTdesc (h : Head) (d a b : Operand) (s : State) : Host.Outcome State Fault Refusal :=
  finish (statusInstr h d [(a, 2), (b, 1)] s fun s =>
    tdesc (applyOwn s s.me.core) (src64 s a 0) (src32 s b 0).toNat)

/-- Write n bytes for a status instruction; DWRITE where they cannot be written. -/
def statusWrite (s : State) (a : Word64) (n v : Nat) : Option Word32 × State :=
  let ctx := s.me.ctx
  match engineWrite s ctx (tagMe s) (some s.me.core) a n v with
  | .ok s' => (some 0, engineDone s' ctx (tagMe s))
  | .wait => (none, engineAsk s ctx (tagMe s) a n true)
  | .hole x => (none, { s with stuck := some (.noSuchAddress x) })
  | .fail => (some 0x65, engineDone s ctx (tagMe s))

def execTdget (h : Head) (d a b : Operand) (s : State) : Host.Outcome State Fault Refusal :=
  finish (statusInstr h d [(a, 2), (b, 1)] s fun s =>
    let n := (src32 s b 0).toNat
    if descNumBad s n then (some 0x60, s)
    else statusWrite s (src64 s a 0) 128 (descAt s s.me.ctx n).image)

/-- Copy a histogram's counters to an address, if there is one, and clear them where asked. -/
def histAct (s : State) (a : Option Word64) (b : Nat) (clear : Bool) : Option Word32 × State :=
  let ctx := s.me.ctx
  let d := descAt s ctx b
  let end_ := fun (x : Word32) => (some x, engineDone s ctx (tagMe s))
  if descNumBad s b then end_ 0x60
  else if d.rank == 0 || !d.hist then end_ 0x66
  else
    match engineRead s ctx (tagMe s) (some s.me.core) d.histAddr 128 with
    | .wait => (none, engineAsk s ctx (tagMe s) d.histAddr 128 false)
    | .hole x => (none, { s with stuck := some (.noSuchAddress x) })
    | .fail => end_ 0x61
    | .ok v =>
      let zero := if clear then engineWrite s ctx (tagMe s) (some s.me.core) d.histAddr 128 0 else .ok s
      match zero with
      | .wait => (none, engineAsk s ctx (tagMe s) d.histAddr 128 true)
      | .hole x => (none, { s with stuck := some (.noSuchAddress x) })
      | .fail => end_ 0x65
      | .ok cleared =>
        match a with
        | none => (some 0, engineDone cleared ctx (tagMe s))
        | some a =>
          match engineRange s ctx (tagMe s) a 128 true with
          | .ok _ => statusWrite cleared a 128 v
          | .wait => (none, engineAsk s ctx (tagMe s) a 128 true)
          | .hole x => (none, { s with stuck := some (.noSuchAddress x) })
          | .fail => end_ 0x65

/-- `hsget` and `hsclr` first wait for the drain tasks submitted before them that name the descriptor as C; `hsclr` alone
copies nothing where its address is `%zero` (08 R216). -/
def histInstr (h : Head) (d a b : Operand) (clear : Bool) (s : State) : State :=
  let m := active s h
  let hold := fun (s : State) (ids : List Nat) => modMe s fun w => mapLanes w s.iss fun _ l => { l with wait := .tasks ids }
  let go := fun (s : State) =>
    match histAct (applyOwn s s.me.core) (if clear && a == .zero then none else some (src64 s a 0))
        (src32 s b 0).toNat clear with
    | (some x, s) => settleMe (advanceMe (modMe s fun w => writeDst w d m fun _ => x) s.iss)
    | (none, s) => stallMe s s.iss (partStall s s.me.ctx)
  if m == 0 then passOn s
  else if poisonLanes s [(a, 2), (b, 1)] m != 0 then
    commitWith s (faultLanes m .poison) fun s => advanceMe s (s.iss &&& ~~~m)
  else
    match s.me.lanes[lowest s.iss].wait with
    | .tasks ids => if (ids.all fun i => (Table.get? s.tasks i).isNone) then go s else s
    | .stall _ => go s
    | _ =>
      let ids := (s.tasks.filter fun t => t.2.ctx == s.me.ctx && drainsTo t.2.raw (src32 s b 0).toNat).map (·.1)
      if ids.isEmpty then go s else hold s ids

def execHsget (h : Head) (d a b : Operand) (s : State) : Host.Outcome State Fault Refusal :=
  finish (histInstr h d a b false s)

def execHsclr (h : Head) (d a b : Operand) (s : State) : Host.Outcome State Fault Refusal :=
  finish (histInstr h d a b true s)

end Sys2Proof.Machine
end

