-- ==== Sys2Proof/Machine/ViewData.lean ====
section
/-! DEFINITION. The transforms of views as functions of bytes: pre-tokens and tokens, code points, fields, the packed byte
stream (spec 09 R225 to R230, R249 to R251, 12 R320). Bytes of a span are a function of the offset. -/
namespace Sys2Proof.Machine

/-! ### UTF-8 (09 R228) -/

/-- What stands at the front of a byte list. -/
inductive Utf8
  /-- a well-formed sequence of n bytes -/
  | ok (cp n : Nat)
  /-- a maximal subpart of n bytes of an ill-formed sequence -/
  | bad (n : Nat)
  /-- the n bytes that are left start a well-formed sequence -/
  | more (n : Nat)
  deriving DecidableEq, Repr

/-- Continuation bytes of a lead byte: their number, the range of the first, the bits of the lead. -/
def utf8Lead (b : Nat) : Option (Nat × Nat × Nat × Nat) :=
  if 0xC2 ≤ b && b ≤ 0xDF then some (1, 0x80, 0xBF, b % 32)
  else if b == 0xE0 then some (2, 0xA0, 0xBF, 0)
  else if b == 0xED then some (2, 0x80, 0x9F, 13)
  else if 0xE1 ≤ b && b ≤ 0xEF then some (2, 0x80, 0xBF, b % 16)
  else if b == 0xF0 then some (3, 0x90, 0xBF, 0)
  else if 0xF1 ≤ b && b ≤ 0xF3 then some (3, 0x80, 0xBF, b % 8)
  else if b == 0xF4 then some (3, 0x80, 0x8F, 4)
  else none

/-- Take n continuation bytes: the code point so far and the bytes consumed. -/
def utf8Tail : Nat → Nat → Nat → Nat → Nat → List Byte → Utf8
  | 0, _, _, cp, used, _ => .ok cp used
  | _ + 1, _, _, _, used, [] => .more used
  | n + 1, lo, hi, cp, used, b :: t =>
    if lo ≤ b.toNat && b.toNat ≤ hi then utf8Tail n 0x80 0xBF (cp * 64 + b.toNat % 64) (used + 1) t else .bad used

def utf8Front (l : List Byte) : Utf8 :=
  match l with
  | [] => .more 0
  | b :: t =>
    if b.toNat < 0x80 then .ok b.toNat 1
    else
      match utf8Lead b.toNat with
      | none => .bad 1
      | some (n, lo, hi, cp) => utf8Tail n lo hi cp 1 t

/-- Code points of a byte list with their offsets, or none for ill-formed input under a strict transform. -/
def codePoints (strict : Bool) (off : Nat) : Nat → List Byte → Option (List Elem)
  | 0, _ => some []
  | _, [] => some []
  | fuel + 1, l =>
    let step := fun (cp n : Nat) => (codePoints strict (off + n) fuel (l.drop n)).map fun es =>
      ({ val := cp, off := off, len := n } : Elem) :: es
    match utf8Front l with
    | .ok cp n => step cp n
    | .bad n | .more n => if strict then none else step 0xFFFD n

/-! ### Tokens (09 R225 to R227) -/

def byteClass (v : Vocab) (b : Byte) : Nat := (v.classes.getD b.toNat 0).toNat % 64
def byteAttach (v : Vocab) (b : Byte) : Bool := (v.classes.getD b.toNat 0).getLsbD 7

/-- A pre-token boundary stands between two neighbouring bytes. -/
def preBoundary (v : Vocab) (a b : Byte) : Bool :=
  if byteAttach v a then byteClass v b == byteClass v a else byteClass v b != byteClass v a

/-- Cut a byte list into pre-tokens. -/
def preTokens (v : Vocab) : List Byte → List (List Byte)
  | [] => []
  | a :: t =>
    match t, preTokens v t with
    | b :: _, p :: ps => if preBoundary v a b then [a] :: p :: ps else (a :: p) :: ps
    | _, ps => [a] :: ps

/-- The entry with a string. -/
def entryOf (v : Vocab) (str : List Byte) : Option VocEntry := v.entries.find? fun e => e.str == str

/-- The entry with an ID. -/
def entryId (v : Vocab) (id : Nat) : Option VocEntry := v.entries.find? fun e => e.id == id

/-- The longest entry that stands at the front of a list. -/
def longestEntry (v : Vocab) (l : List Byte) : Option VocEntry :=
  (v.entries.filter fun e => e.str.isPrefixOf l).foldl (fun o e => match o with
    | none => some e
    | some b => if e.str.length > b.str.length then some e else some b) none

/-- Longest match over one pre-token: IDs with their lengths. -/
def longestMatch (v : Vocab) : Nat → List Byte → List (Nat × Nat)
  | 0, _ => []
  | _, [] => []
  | fuel + 1, l =>
    match longestEntry v l with
    | some e => (e.id, e.str.length) :: longestMatch v fuel (l.drop e.str.length)
    | none => (v.unknown, 1) :: longestMatch v fuel (l.drop 1)

/-- A part of a pre-token under ranked merge: its entry, none while unknown, and its bytes. -/
abbrev MergePart := Option Nat × List Byte

/-- The merge step at the pair of lowest rank, leftmost among equals. -/
def mergeStep (v : Vocab) (l : List MergePart) : Option (List MergePart) :=
  let pairs := (l.zip l.tail).zip (List.range l.length)
  let best := pairs.foldl (fun (o : Option (Nat × Nat)) p =>
    match p.1.1.1, p.1.2.1 with
    | some a, some b =>
      let r := v.merges.findIdx (· == (a, b))
      if r < v.merges.length then
        (match o with
        | none => some (r, p.2)
        | some (r0, _) => if r < r0 then some (r, p.2) else o)
      else o
    | _, _ => o) none
  match best with
  | none => none
  | some (_, i) =>
    let str := (l.getD i (none, [])).2 ++ (l.getD (i + 1) (none, [])).2
    some (l.take i ++ ((entryOf v str).map (·.id), str) :: l.drop (i + 2))

def mergeAll (v : Vocab) : Nat → List MergePart → List MergePart
  | 0, l => l
  | fuel + 1, l =>
    match mergeStep v l with
    | none => l
    | some l' => mergeAll v fuel l'

/-- Ranked merge over one pre-token. -/
def rankedMerge (v : Vocab) (l : List Byte) : List (Nat × Nat) :=
  (mergeAll v l.length (l.map fun b => ((entryOf v [b]).map (·.id), [b]))).map fun p =>
    (p.1.getD v.unknown, p.2.length)

/-- Give a list of IDs and lengths their offsets. -/
def placeTokens (off : Nat) : List (Nat × Nat) → List Elem
  | [] => []
  | (id, n) :: t => { val := id, off := off, len := n } :: placeTokens (off + n) t

/-- The tokens of a byte list that starts at a pre-token boundary. -/
def tokens (v : Vocab) (ranked : Bool) (off : Nat) (l : List Byte) : List Elem :=
  placeTokens off ((preTokens v l).flatMap fun p => if ranked then rankedMerge v p else longestMatch v p.length p)

/-! ### Fields (09 R228, R230, 12 R320) -/

/-- The bytes that steer a field view. -/
structure FieldCfg where
  sep : Byte := 0
  delim : Byte := 0
  quote : Byte := 0
  quotes : Bool := false
  deriving DecidableEq, Repr

def isQuote (c : FieldCfg) (b : Byte) : Bool := c.quotes && b == c.quote

/-- Fields of bytes from an offset: `start` begins the open field, `fresh` says that a separator has just ended a record.
`last` says that the list ends the span. Answers the elements, and whether the list ends inside quotes. -/
def fieldsFrom (c : FieldCfg) (last : Bool) (start pos : Nat) (quoted fresh : Bool) : List Byte → List Elem × Bool
  | [] => (if fresh then [] else if last then [{ val := 0, off := start, len := pos - start }] else [], quoted)
  | b :: t =>
    if isQuote c b then fieldsFrom c last start (pos + 1) (!quoted) false t
    else if !quoted && (b == c.sep || b == c.delim) then
      let r := fieldsFrom c last (pos + 1) (pos + 1) false (b == c.sep) t
      ({ val := 0, off := start, len := pos - start } :: r.1, r.2)
    else fieldsFrom c last start (pos + 1) quoted false t

/-- Field elements: offset in bits 31:0, length in bits 63:32. -/
def fields (c : FieldCfg) (last : Bool) (off : Nat) (l : List Byte) : List Elem × Bool :=
  let r := fieldsFrom c last off off false true l
  (r.1.map fun e => { e with val := e.off % 2 ^ 32 + e.len * 2 ^ 32 }, r.2)

/-- Quote parity of bytes a to a + n − 1. -/
def quoteParity (c : FieldCfg) (f : Nat → Byte) (a : Nat) : Nat → Bool
  | 0 => false
  | n + 1 => isQuote c (f a) != quoteParity c f (a + 1) n

/-- The first byte after a separator outside quotes at or after a boundary: scan from `pos` with its quote state. -/
def fieldPoint (c : FieldCfg) (f : Nat → Byte) (nominal : Nat) : Nat → Nat → Bool → Option Nat
  | 0, _, _ => none
  | fuel + 1, pos, quoted =>
    let b := f pos
    if isQuote c b then fieldPoint c f nominal fuel (pos + 1) (!quoted)
    else if !quoted && b == c.sep && pos + 1 ≥ nominal then some (pos + 1)
    else fieldPoint c f nominal fuel (pos + 1) quoted

/-- The first offset from `pos` on, among the next `fuel`, that satisfies a test. -/
def firstPoint (p : Nat → Bool) : Nat → Nat → Option Nat
  | 0, _ => none
  | fuel + 1, pos => if p pos then some pos else firstPoint p fuel (pos + 1)

/-! ### The packed byte stream (09 R249, R250) -/

/-- Code length of a symbol in a segment's entry. -/
def codeLen (entry y : Nat) : Nat := fieldAt entry (y / 2) 1 / (if y % 2 == 0 then 1 else 16) % 16

/-- Symbols present, by length and then by number, with their lengths. -/
def codeOrder (entry : Nat) : List (Nat × Nat) :=
  (List.range 15).flatMap fun i => ((List.range 272).filter fun y => codeLen entry y == i + 1).map fun y => (y, i + 1)

/-- Canonical codes: symbol, length, code. -/
def assignCodes (code len : Nat) : List (Nat × Nat) → List (Nat × Nat × Nat)
  | [] => []
  | (y, n) :: t =>
    let c := code * 2 ^ (n - len)
    (y, n, c) :: assignCodes (c + 1) n t

def codeTable (entry : Nat) : List (Nat × Nat × Nat) := assignCodes 0 0 (codeOrder entry)

/-- Whether a table holds a symbol and its Kraft sum is at most 1. -/
def tableOk (entry : Nat) : Bool :=
  let o := codeOrder entry
  !o.isEmpty && (o.foldl (fun n p => n + 2 ^ (15 - p.2)) 0) ≤ 2 ^ 15

def segDelta (entry : Nat) : Nat := fieldAt entry 0x8C 1 % 16
def segLength (entry : Nat) : Nat := fieldAt entry 0x88 4

/-- Match one code at a bit, most significant bit first: symbol and length. -/
def matchCode (tab : List (Nat × Nat × Nat)) (bit : Nat → Bool) (pos : Nat) : Nat → Nat → Nat → Option (Nat × Nat)
  | 0, _, _ => none
  | fuel + 1, len, acc =>
    let acc := acc * 2 + (if bit (pos + len) then 1 else 0)
    match tab.find? fun e => e.2.1 == len + 1 && e.2.2 == acc with
    | some e => some (e.1, len + 1)
    | none => matchCode tab bit pos fuel (len + 1) acc

/-- Decode symbols from a bit until `want` bytes stand; the bytes come in reverse before `out`. Answers them with the bit behind
the last symbol, or none where the stream is malformed. -/
def decodeSyms (tab : List (Nat × Nat × Nat)) (bit : Nat → Bool) (prev : Option Byte) :
    Nat → Nat → Nat → List Byte → Option (List Byte × Nat)
  | 0, pos, want, out => if want == 0 then some (out, pos) else none
  | fuel + 1, pos, want, out =>
    if want == 0 then some (out, pos)
    else
      match matchCode tab bit pos 15 0 0 with
      | none => none
      | some (y, n) =>
        if y < 256 then decodeSyms tab bit prev fuel (pos + n) (want - 1) (BitVec.ofNat 8 y :: out)
        else
          let k := y - 256 + 3
          match (match out.head? with
            | some b => some b
            | none => prev) with
          | none => none
          | some b => if k > want then none
            else decodeSyms tab bit prev fuel (pos + n) (want - k) (List.replicate k b ++ out)

/-- Whether the first symbol of a segment repeats the byte before it (09 R250). -/
def beginsRun (entries : Nat → Nat) (bit : Nat → Bool) (s : Nat) : Bool :=
  match matchCode (codeTable (entries s)) bit (131072 * s + segDelta (entries s)) 15 0 0 with
  | some (y, _) => y ≥ 256
  | none => false

/-- Decode a segment: its bytes, or none where it is malformed. `entries` gives the segment table, `n` the sealed segments. -/
def segBytes (entries : Nat → Nat) (bit : Nat → Bool) (n : Nat) : Nat → Option (List Byte)
  | 0 => one 0 none
  | s + 1 =>
    one (s + 1) (match beginsRun entries bit (s + 1) with
      | true => (segBytes entries bit n s).bind fun l => l.getLast?
      | false => none)
where
  one (s : Nat) (prev : Option Byte) : Option (List Byte) :=
    let e := entries s
    let start := 131072 * s + segDelta e
    if !tableOk e || segLength e == 0 || (s == 0 && segDelta e != 0) || segDelta e > 14 then none
    else
      match decodeSyms (codeTable e) bit prev (segLength e + 1) start (segLength e) [] with
      | none => none
      | some (out, pos) =>
        let fits := if s + 1 < n then pos == 131072 * (s + 1) + segDelta (entries (s + 1)) else pos ≤ 131072 * (s + 1)
        if fits then some out.reverse else none

/-- Decoded offset of a segment's first byte. -/
def segOffset (entries : Nat → Nat) : Nat → Nat
  | 0 => 0
  | s + 1 => segOffset entries s + segLength (entries s)

/-- The lowest segment that decoding segment s reads: one that begins with a run takes its byte from the one before, as far
as `there` says that a segment's first bytes can be read. -/
def firstSeg (entries : Nat → Nat) (bit : Nat → Bool) (there : Nat → Bool) : Nat → Nat
  | 0 => 0
  | s + 1 => if there (s + 1) && beginsRun entries bit (s + 1) then firstSeg entries bit there s else s + 1

/-- A gap entry that agrees with the decode: its check, its offset and delta, and the bytes before the segment where they
have been decoded (09 R251, R252). -/
def gapGood (gap entry offset : Nat) (before : Option (List Byte)) : Bool :=
  let k := fieldAt gap 5 1 / 16
  let x := (List.range 15).foldl (fun (x : Nat) i => x ^^^ fieldAt gap i 1) 0x5A
  x == fieldAt gap 15 1 && fieldAt gap 0 5 == offset && fieldAt gap 5 1 % 16 == segDelta entry && k ≤ 8 &&
    before.all fun b => bytesOf (fieldAt gap 6 8) k == b.drop (b.length - k) && k ≤ b.length &&
      fieldAt gap 14 1 == ((b.getLast?).map (·.toNat)).getD 0

end Sys2Proof.Machine
end

