-- ==== Sys2Proof/Machine/Views.lean ====
section
/-! DEFINITION. Sources, vocabularies and views: their tables, extents and their builds, the residency arbiter, and the view
instructions (spec 09 R217 to R248, R252, R430, 12 R320 and R321). -/
namespace Sys2Proof.Machine

/-! ### Sources (09 R217 to R219) -/

/-- The source that an image describes. -/
def sourceOf (r : Nat) : Source :=
  { base := BitVec.ofNat 64 (fieldAt r 0 8), capacity := fieldAt r 8 8, packed := fieldAt r 0x10 1 == 1,
    gapTable := BitVec.ofNat 64 (fieldAt r 0x18 8), segTable := BitVec.ofNat 64 (fieldAt r 0x20 8),
    sealed := fieldAt r 0x28 8 }

/-- The capacity in the units of the sealed length. -/
def Source.units (x : Source) : Nat := if x.packed then x.capacity / 16384 else x.capacity

/-- Every field within the limits of R217. -/
def sourceRange (r : Nat) : Bool :=
  let x := sourceOf r
  x.base.toNat % 256 == 0 && fieldAt r 0x10 1 ≤ 1 && x.sealed ≤ x.units &&
    (if x.packed then x.capacity % 16384 == 0 && x.gapTable.toNat % 16 == 0 && x.segTable.toNat % 16 == 0
      else x.capacity ≥ 1 && x.gapTable == 0 && x.segTable == 0)

/-- An image has been read: what its translation asked for is done, and the polders it lies in are touched (11 R314). -/
def imageRead (s : State) (ctx tag : Nat) (a : Word64) (n : Nat) : State := touchPolders (engineDone s ctx tag) ctx a.toNat n

/-- `sseal.new`: its status, or nothing while the image's translation is awaited. `tag` names the asker, `core` its core. -/
def sealNew (s : State) (ctx tag : Nat) (core : Option Nat) (h : Nat) (a : Word64) : Option Word32 × State :=
  let end_ := fun (x : Word32) => (some x, engineDone s ctx tag)
  if h > 4095 then end_ 0x68
  else if (Table.get? (ctxOf s ctx).sources h).isSome then end_ 0x6D
  else
    match engineRead s ctx tag core a 64 with
    | .wait => (none, engineAsk s ctx tag a 64 false)
    | .hole x => (none, { s with stuck := some (.noSuchAddress x) })
    | .fail => end_ 0x69
    | .ok r =>
      if !zeroAt r 0x11 7 || !zeroAt r 0x30 16 then end_ 0x6A
      else if !sourceRange r then end_ 0x6B
      else (some 0, setCtx (imageRead s ctx tag a 64) ctx fun c => { c with sources := Table.set c.sources h (sourceOf r) })

/-- `sseal.adv`: its status. -/
def sealAdv (s : State) (ctx h len : Nat) : Word32 × State :=
  if h > 4095 then (0x68, s)
  else
    match Table.get? (ctxOf s ctx).sources h with
    | none => (0x6E, s)
    | some x =>
      if len > x.units then (0x6B, s)
      else if len < x.sealed then (0x6C, s)
      else (0, setCtx s ctx fun c => { c with sources := Table.set c.sources h { x with sealed := len } })

/-- `sseal.drop`: its status. -/
def sealDrop (s : State) (ctx h : Nat) : Word32 × State :=
  if h > 4095 then (0x68, s)
  else if (Table.get? (ctxOf s ctx).sources h).isNone then (0x6E, s)
  else if ((ctxOf s ctx).views.any fun v => v.2.src == h) || (s.detoks.any fun d => d.2.ctx == ctx && d.2.dst == h) then
    (0x6D, s)
  else (0, setCtx s ctx fun c => { c with sources := Table.erase c.sources h })

/-- What stands below the sealed length of a new source is visible to builds: every write before it is (10 R274). -/
def execSsealNew (h : Head) (d a b : Operand) (s : State) : Host.Outcome State Fault Refusal :=
  finish (statusInstr h d [(a, 1), (b, 2)] s fun s =>
    sealNew (releaseAt s s.me.core .pkg) s.me.ctx (tagMe s) (some s.me.core) (src32 s a 0).toNat (src64 s b 0))

/-- `.adv` is a release at `.pkg` (09 R219). -/
def execSsealAdv (h : Head) (d a b : Operand) (s : State) : Host.Outcome State Fault Refusal :=
  finish (statusInstr h d [(a, 1), (b, 2)] s fun s =>
    let r := sealAdv (releaseAt s s.me.core .pkg) s.me.ctx (src32 s a 0).toNat (src64 s b 0).toNat
    (some r.1, r.2))

def execSsealDrop (h : Head) (d a _b : Operand) (s : State) : Host.Outcome State Fault Refusal :=
  finish (statusInstr h d [(a, 1)] s fun s =>
    let r := sealDrop s s.me.ctx (src32 s a 0).toNat
    (some r.1, r.2))

/-! ### Vocabularies (09 R223, R224) -/

/-- What reading the arrays of a vocabulary comes to. -/
inductive VocRead
  | wait (asks : List (Word64 × Nat))
  | unread
  | hole (addr : Nat)
  | ok (arr merges : Nat) (strs : List (List Byte))
  deriving DecidableEq, Repr

/-- Read several ranges, or say what is missing. -/
def readAll (s : State) (ctx tag : Nat) (core : Option Nat) (rs : List (Word64 × Nat)) : Got (List Nat) :=
  rs.foldl (fun g r => match g with
    | .ok xs =>
      (match engineRead s ctx tag core r.1 r.2 with
      | .ok v => .ok (xs ++ [v])
      | .wait => .wait
      | .fail => .fail
      | .hole a => .hole a)
    | g => g) (.ok [])

/-- Read the entry, merge and string arrays that a header names. -/
def vocArrays (s : State) (ctx tag : Nat) (core : Option Nat) (h : Nat) : VocRead :=
  let n := fieldAt h 0 4
  let m := fieldAt h 8 4
  let ea := BitVec.ofNat 64 (fieldAt h 0x10 8)
  let ma := BitVec.ofNat 64 (fieldAt h 0x20 8)
  match readAll s ctx tag core [(ea, 16 * n), (ma, 8 * m)] with
  | .wait => .wait [(ea, 16 * n), (ma, 8 * m)]
  | .fail => .unread
  | .hole a => .hole a
  | .ok xs =>
    let arr := xs.getD 0 0
    let len := fun (i : Nat) => fieldAt arr (16 * i + 4) 1
    let rs := (List.range n).map fun i =>
      (BitVec.ofNat 64 (fieldAt h 0x18 8 + fieldAt arr (16 * i + 8) 8), len i)
    match readAll s ctx tag core rs with
    | .wait => .wait rs
    | .fail => .unread
    | .hole a => .hole a
    | .ok ss => .ok arr (xs.getD 1 0) ((ss.zip (List.range n)).map fun p => bytesOf p.1 (len p.2))

/-- The vocabulary that a header and its arrays describe. -/
def vocOf (h arr merges : Nat) (strs : List (List Byte)) : Vocab :=
  { unknown := fieldAt h 4 4,
    entries := (strs.zip (List.range strs.length)).map fun p => { id := fieldAt arr (16 * p.2) 4, str := p.1 },
    merges := (List.range (fieldAt h 8 4)).map fun i => (fieldAt merges (8 * i) 4, fieldAt merges (8 * i + 4) 4),
    classes := bytesOf (fieldAt h 0x40 256) 256 }

/-- A field that R223 marks zero is not. -/
def vocReserved (h arr : Nat) : Bool :=
  !zeroAt h 0x0C 4 || !zeroAt h 0x28 24 || ((List.range 256).any fun b => (fieldAt h (0x40 + b) 1).testBit 6) ||
    (List.range (fieldAt h 0 4)).any fun i => !zeroAt arr (16 * i + 5) 3

/-- VVOCB: a malformed image. -/
def vocBad (h arr : Nat) (v : Vocab) : Bool :=
  let n := fieldAt h 0 4
  let ids := v.entries.map (·.id)
  let strs := v.entries.map (·.str)
  !(1 ≤ n && n ≤ 1048576) || fieldAt h 8 4 > n || fieldAt h 0x10 8 % 16 != 0 || fieldAt h 0x20 8 % 8 != 0 ||
    (fieldAt h 8 4 == 0 && !zeroAt h 0x20 8) || ids.contains v.unknown ||
    ((List.range n).any fun i => !(1 ≤ fieldAt arr (16 * i + 4) 1 && fieldAt arr (16 * i + 4) 1 ≤ 64)) ||
    ids.eraseDups.length != ids.length || strs.eraseDups.length != strs.length ||
    v.merges.eraseDups.length != v.merges.length ||
    (v.merges.any fun m => match entryId v m.1, entryId v m.2 with
      | some a, some b => (entryOf v (a.str ++ b.str)).isNone
      | _, _ => true) ||
    (List.range 256).any fun a => (List.range 256).any fun b =>
      byteClass v (BitVec.ofNat 8 a) == byteClass v (BitVec.ofNat 8 b) &&
        byteAttach v (BitVec.ofNat 8 a) != byteAttach v (BitVec.ofNat 8 b)

/-- `vdef.voc`: its status. -/
def installVoc (s : State) (ctx tag : Nat) (core : Option Nat) (b : Nat) (a : Word64) : Option Word32 × State :=
  let end_ := fun (x : Word32) => (some x, engineDone s ctx tag)
  let hole := fun (x : Nat) => (none, { s with stuck := some (.noSuchAddress x) })
  if b > 15 then end_ 0x70
  else if (ctxOf s ctx).views.any fun v => (v.2.code == 2 || v.2.code == 3) && v.2.voc == b then end_ 0x76
  else
    match engineRead s ctx tag core a 320 with
    | .wait => (none, engineAsk s ctx tag a 320 false)
    | .hole x => hole x
    | .fail => end_ 0x71
    | .ok h =>
      match vocArrays s ctx tag core h with
      | .wait rs => (none, rs.foldl (fun s r => engineAsk s ctx tag r.1 r.2 false) s)
      | .hole x => hole x
      | .unread => end_ 0x71
      | .ok arr merges strs =>
        let v := vocOf h arr merges strs
        if vocReserved h arr then end_ 0x72
        else if vocBad h arr v then end_ 0x78
        else (some 0, setCtx (imageRead s ctx tag a 320) ctx fun c => { c with vocs := Table.set c.vocs b v })

def execVdefVoc (h : Head) (d a b : Operand) (s : State) : Host.Outcome State Fault Refusal :=
  finish (statusInstr h d [(a, 2), (b, 1)] s fun s =>
    installVoc (applyOwn s s.me.core) s.me.ctx (tagMe s) (some s.me.core) (src32 s b 0).toNat (src64 s a 0))

/-! ### Extents: boundaries and bytes (09 R229, R230) -/

def viewOf (s : State) (ctx h : Nat) : Option View := Table.get? (ctxOf s ctx).views h

def srcOfView (s : State) (ctx : Nat) (v : View) : Source := Table.getD (ctxOf s ctx).sources v.src {}

def vocOfView (s : State) (ctx : Nat) (v : View) : Vocab := Table.getD (ctxOf s ctx).vocs v.voc {}

def setExt (s : State) (ctx h n : Nat) (f : Extent → Extent) : State :=
  setCtx s ctx fun c => { c with views := Table.modify c.views h fun v => { v with exts := Table.set v.exts n (f (extOf v n)) } }

/-- Virtual address of a byte of a span of a plain source. -/
def spanAddr (s : State) (ctx : Nat) (v : View) (i : Nat) : Word64 :=
  (srcOfView s ctx v).base + BitVec.ofNat 64 (v.start + i)

def spanByte (s : State) (ctx : Nat) (v : View) (i : Nat) : Byte := vaByte s ctx none (spanAddr s ctx v i)

def fieldCfg (v : View) : FieldCfg := { sep := v.sep, delim := v.delim, quote := v.quote, quotes := v.quotes }

/-- Real boundary n, with the bytes that finding it scans: the first and how many. A recorded one scans none; a field view's pass
starts at the nearest known extent, and an extent that starts at or behind the nominal boundary starts where this one does. -/
def boundary (s : State) (ctx : Nat) (v : View) (n : Nat) : Nat × Nat × Nat :=
  let nom := 65536 * n
  let f := spanByte s ctx v
  let found := fun (o : Option Nat) (lo : Nat) => match o with
    | some p => (min p v.len, lo, min (p + 1) v.len - lo)
    | none => (v.len, lo, v.len - lo)
  if n == 0 then (0, 0, 0)
  else if nom ≥ v.len then (v.len, 0, 0)
  else if (extOf v n).known then ((extOf v n).start, 0, 0)
  else
    match v.code with
    | 1 =>
      let lo := (List.range n).foldl (fun a j => if (extOf v j).known then (extOf v j).start else a) 0
      if lo ≥ nom then (lo, lo, 0) else found (fieldPoint (fieldCfg v) f nom (v.len - lo) lo false) lo
    | 2 | 3 =>
      let voc := vocOfView s ctx v
      found (firstPoint (fun i => preBoundary voc (f (i - 1)) (f i)) (v.len - nom) nom) (nom - 1)
    | 4 => found (firstPoint (fun i => (f i).toNat / 64 != 2) (v.len - nom) nom) nom
    | _ => (nom, 0, 0)

/-- The view whose boundaries an extent has: an embedding view has those of its token view. -/
def boundView (s : State) (ctx : Nat) (v : View) : View :=
  if v.code == 5 then (viewOf s ctx v.tokView).getD v else v

/-- The bytes of a plain span, checked for translation and poison. -/
def spanGot (s : State) (ctx tag : Nat) (v : View) (lo n : Nat) : Got Unit :=
  match engineRange s ctx tag (spanAddr s ctx v lo) n false with
  | .ok _ => if vaPoisoned s ctx (spanAddr s ctx v lo) n then .fail else .ok ()
  | g => g

/-- Real boundary n of a view. -/
def boundGot (s : State) (ctx tag : Nat) (v : View) (n : Nat) : Got Nat :=
  let w := boundView s ctx v
  let b := boundary s ctx w n
  match spanGot s ctx tag w b.2.1 b.2.2 with
  | .ok _ => .ok b.1
  | .wait => .wait
  | .fail => .fail
  | .hole a => .hole a

/-- Whether an extent exists, as far as that can be told: one whose boundary cannot be read yet may. -/
def extExists (s : State) (ctx h : Nat) (v : View) (n : Nat) : Bool :=
  n < v.nominal && (match boundGot s ctx (tagBuild h n) v n with
    | .ok b => b < v.len
    | _ => true)

/-! ### Building an extent (09 R225 to R228, R236 to R238, R249 to R252) -/

/-- Bytes of an element and of its map entry (09 R221). -/
def elemBytes (s : State) (ctx : Nat) (v : View) : Nat :=
  match v.code with
  | 1 => 8
  | 5 => 2 * (descAt s ctx v.tensor).ext0
  | 6 => 1
  | _ => 4

def mapBytes (v : View) : Nat :=
  match v.code with
  | 2 | 3 | 4 => 8
  | _ => 0

/-- 4 KiB units of a built extent (09 R234). -/
def extentUnits (s : State) (ctx : Nat) (v : View) (count : Nat) : Nat :=
  max 1 ((64 + count * (elemBytes s ctx v + mapBytes v) + 4095) / 4096)

/-- An entry of a segment table, and a bit of a code stream. -/
def segEntry (s : State) (ctx : Nat) (x : Source) (i : Nat) : Nat :=
  leBytes (fun k => vaByte s ctx none (x.segTable + BitVec.ofNat 64 (144 * i + k))) 0 144

def codeBit (s : State) (ctx : Nat) (x : Source) (k : Nat) : Bool :=
  (vaByte s ctx none (x.base + BitVec.ofNat 64 (k / 8))).getLsbD (k % 8)

/-- The segment that holds a decoded byte, among n. -/
def segOf (entries : Nat → Nat) (n byte : Nat) : Nat :=
  (List.range n).foldl (fun a i => if segOffset entries i ≤ byte then i else a) 0

/-- Whether the first bytes of a segment translate. -/
def segThere (s : State) (ctx : Nat) (x : Source) (i : Nat) : Bool :=
  [0, 3].all fun k => match translate s ctx (x.base + BitVec.ofNat 64 (16384 * i + k)) false with
    | .ok _ | .remote _ => true
    | _ => false

/-- Ranges of memory that an unpack of bytes lo to hi − 1 reads, and its segments. -/
def packedReads (s : State) (ctx : Nat) (v : View) (x : Source) (lo hi : Nat) : List (Word64 × Nat) :=
  let entries := segEntry s ctx x
  let s1 := segOf entries v.sealed (hi - 1)
  let from_ := firstSeg entries (codeBit s ctx x) (segThere s ctx x) (segOf entries v.sealed lo)
  [(x.segTable, 144 * min v.sealed (s1 + 2)),
    (x.base + BitVec.ofNat 64 (16384 * from_), 16384 * (s1 + 1 - from_) + (if s1 + 1 < v.sealed then 2 else 0))]

/-- The gap entries that an unpack of segments s0 to s1 uses: theirs, and the next one, which checks the last (09 R252). -/
def gapRange (v : View) (x : Source) (s0 s1 : Nat) : Word64 × Nat :=
  (x.gapTable + BitVec.ofNat 64 (16 * s0), 16 * (min v.sealed (s1 + 2) - s0))

/-- Whether a gap entry that an unpack uses is missing, fails its check or disagrees (09 R252). The bytes before the first segment
have been decoded only where it begins with a run (log 98). -/
def gapMissed (s : State) (ctx tag : Nat) (v : View) (x : Source) (s0 s1 : Nat) : Bool :=
  let entries := segEntry s ctx x
  (List.range (min v.sealed (s1 + 2) - s0)).any fun i =>
    let n := s0 + i
    let before := if n == 0 then some []
      else if i == 0 && !beginsRun entries (codeBit s ctx x) n then none
      else some ((segBytes entries (codeBit s ctx x) v.sealed (n - 1)).getD [])
    match engineRead s ctx tag none (x.gapTable + BitVec.ofNat 64 (16 * n)) 16 with
    | .ok g => !gapGood g (entries n) (segOffset entries n) before
    | _ => true

/-- The elements of an extent: none where the build fails. -/
abbrev Built := Option (List Elem)

/-- Check ranges, then answer. -/
def needAll {α : Type} (s : State) (ctx tag : Nat) (rs : List (Word64 × Nat)) (ok : α) : Got α :=
  rs.foldl (fun (g : Got α) r => match g with
    | .ok a =>
      (match engineRange s ctx tag r.1 r.2 false with
      | .ok _ => if vaPoisoned s ctx r.1 r.2 then .fail else .ok a
      | .wait => .wait
      | .fail => .fail
      | .hole x => .hole x)
    | g => g) (.ok ok)

/-- Ranges that building bytes b to e − 1 reads. -/
def buildReads (s : State) (ctx : Nat) (v : View) (b e : Nat) (toks : List Elem) : List (Word64 × Nat) :=
  if e ≤ b then []
  else
    match v.code with
    | 5 =>
      let d := descAt s ctx v.tensor
      (toks.filter fun t => t.val < d.ext1).map fun t => (d.addr { i1 := t.val }, 2 * d.ext0)
    | 6 => packedReads s ctx v (srcOfView s ctx v) (v.start + b) (v.start + e)
    | _ => [(spanAddr s ctx v b, e - b)]

/-- One element of a tensor row scaled (05 R150, 09 R228). -/
def scaledRow (d : Desc) (raw : Nat) : Nat :=
  let (m, se) := d.scaleOf
  match decodeF .bf16 raw with
  | .fin n x e =>
    let r := roundTo .bf16 .rn 0 n (x * m) (e + se)
    if r.2 == 0 then r.1 else (Config.rowScaled raw d.scale.toNat).toNat
  | .nan _ => nanCode .bf16
  | .inf _ => raw

/-- The row of an embedding element as a number, or none beyond a tensor of tail policy 0. -/
def embedRow (s : State) (ctx : Nat) (d : Desc) (id : Nat) : Option Nat :=
  if id < d.ext1 then
    let raw := leBytes (fun k => vaByte s ctx none (d.addr { i1 := id } + BitVec.ofNat 64 k)) 0 (2 * d.ext0)
    some ((List.range d.ext0).foldl (fun x i => x + scaledRow d (fieldAt raw (2 * i) 2) * 2 ^ (16 * i)) 0)
  else if d.pad then some 0 else none

/-- The elements of bytes b to e − 1. -/
def buildElems (s : State) (ctx : Nat) (v : View) (b e : Nat) (toks : List Elem) : Built :=
  let bytes := (List.range (e - b)).map fun i => spanByte s ctx v (b + i)
  let es : Built := match v.code with
    | 1 =>
      let r := fields (fieldCfg v) (e == v.len) b bytes
      if e ≤ b then some [] else if v.strict && e == v.len && r.2 then none else some r.1
    | 2 | 3 => some (tokens (vocOfView s ctx v) (v.code == 3) b bytes)
    | 4 => codePoints v.strict b bytes.length bytes
    | 5 =>
      let d := descAt s ctx v.tensor
      toks.foldl (fun (o : Built) t => match o, embedRow s ctx d t.val with
        | some l, some r => some (l ++ [{ t with val := r }])
        | _, _ => none) (some [])
    | _ =>
      if e ≤ b then some []
      else
        let x := srcOfView s ctx v
        let entries := segEntry s ctx x
        let s0 := segOf entries v.sealed (v.start + b)
        let s1 := segOf entries v.sealed (v.start + e - 1)
        let segs := (List.range (s1 + 1 - s0)).map fun i => segBytes entries (codeBit s ctx x) v.sealed (s0 + i)
        if segs.any (·.isNone) then none
        else
          let all := segs.flatMap fun o => o.getD []
          let off := v.start + b - segOffset entries s0
          some (((all.drop off).take (e - b)).zip (List.range (e - b)) |>.map fun p =>
            { val := p.1.toNat, off := b + p.2, len := 1 })
  match es with
  | some l => if l.length > 2 ^ 24 then none else some l
  | none => none

/-- The bytes of an extent, [b_n, b_(n+1)). -/
def extentSpan (s : State) (ctx tag : Nat) (v : View) (n : Nat) : Got (Nat × Nat) :=
  match boundGot s ctx tag v n with
  | .ok b =>
    (match boundGot s ctx tag v (n + 1) with
    | .ok e => .ok (b, max b e)
    | .wait => .wait
    | .fail => .fail
    | .hole x => .hole x)
  | .wait => .wait
  | .fail => .fail
  | .hole x => .hole x

/-- What building an extent gives; an embedding extent takes the tokens of its token view's extent. -/
def buildGot (s : State) (ctx tag : Nat) (v : View) (n : Nat) (toks : List Elem) : Got Built :=
  match extentSpan s ctx tag v n with
  | .ok (b, e) => needAll s ctx tag (buildReads s ctx v b e toks) (buildElems s ctx v b e toks)
  | .wait => .wait
  | .fail => .fail
  | .hole x => .hole x

/-- Ask for the translations that a build misses. -/
def askBuild (s : State) (ctx tag : Nat) (v : View) (n : Nat) (toks : List Elem) : State :=
  let w := boundView s ctx v
  let b0 := boundary s ctx w n
  let b1 := boundary s ctx w (n + 1)
  let s := engineAsk s ctx tag (spanAddr s ctx w b0.2.1) b0.2.2 false
  let s := engineAsk s ctx tag (spanAddr s ctx w b1.2.1) b1.2.2 false
  match extentSpan s ctx tag v n with
  | .ok (b, e) => (buildReads s ctx v b e toks).foldl (fun s r => engineAsk s ctx tag r.1 r.2 false) s
  | _ => s

/-- Record the boundaries of a view that a build or pass of its extent n finds, as `w` has them. -/
def recordOf (s : State) (ctx h n : Nat) (v w : View) : State :=
  let lo := if v.code == 1 then (List.range (n + 1)).foldl (fun a j => if (extOf v j).known then j else a) 0 else n
  ((List.range (n + 2 - lo)).map (lo + ·)).foldl (fun s j =>
    if j < v.nominal && !(extOf v j).known then setExt s ctx h j fun x => { x with known := true, start := (boundary s ctx w j).1 }
    else s) s

/-- Boundaries that a build or a pass finds are recorded, for a field view from the nearest known one on, and for an
embedding view in its token view's records too (09 R230). -/
def recordBounds (s : State) (ctx h n : Nat) : State :=
  match viewOf s ctx h with
  | none => s
  | some v =>
    let w := boundView s ctx v
    let s := recordOf s ctx h n v w
    if v.code == 5 then recordOf s ctx v.tokView n w w else s

/-! ### The residency arbiter (09 R239 to R242) -/

/-- Bits 31:16 of the wall counter. -/
def wallStamp (s : State) : Nat := s.wall / 65536 % 65536

/-- Touches after the halvings owed. -/
def owedTouches (s : State) (x : Extent) : Nat :=
  let age := (wallStamp s + 65536 - x.stamp) % 65536
  x.touches / 2 ^ min 4 ((x.stamp + age) / 16 - x.stamp / 16)

def touchExt (s : State) (ctx h n : Nat) : State :=
  setExt s ctx h n fun x => { x with touches := min 15 (owedTouches s x + 1), stamp := wallStamp s }

/-- Numerator and denominator of a score (09 R240). -/
def extScore (s : State) (c : CtxRec) (x : Extent) : Nat × Nat :=
  let age := (wallStamp s + 65536 - x.stamp) % 65536
  (x.cost * 2 ^ c.alpha * (1 + owedTouches s x), x.size * (1 + age / 2 ^ c.beta))

/-- Records of a context's pool in clock-hand order. -/
def poolRecords (c : Context) : List (Nat × Nat) :=
  c.views.flatMap fun v => (List.range v.2.nominal).map fun n => (v.1, n)

/-- Bytes of a context's pool in use: directories, and extents built or with space reserved. -/
def poolUsed (c : Context) : Nat :=
  c.views.foldl (fun u v => u + 32 * v.2.nominal + v.2.exts.foldl (fun u e =>
    if e.2.st == .resident || e.2.st == .building then u + 4096 * e.2.size else u) 0) 0

def poolFree (c : Context) : Nat := c.cfg.poolQuota - poolUsed c

/-- Pieces of a context's pool in use, by their offsets: directories, and extents built or with space reserved. -/
def poolPieces (c : Context) : List (Nat × Nat) :=
  c.views.flatMap fun v => ((v.2.dir - c.cfg.poolBase).toNat, 32 * v.2.nominal) ::
    (v.2.exts.filter fun e => e.2.st == .resident || e.2.st == .building).map fun e =>
      ((e.2.loc - c.cfg.poolBase).toNat, 4096 * e.2.size)

/-- Where a directory or an extent of n bytes goes in the pool: a free piece, which the spec does not name further; a free
value chooses among multiples of 32 bytes (09 R222, R241, log 40). -/
def poolPlace (c : Context) (k n : Nat) : Option Word64 :=
  let us := poolPieces c
  let start := (Config.freeWord k).toNat % max 1 (c.cfg.poolQuota / 32) * 32
  ((start :: 0 :: us.map fun u => u.1 + u.2).find? fun o =>
    o + n ≤ c.cfg.poolQuota && us.all fun u => o + n ≤ u.1 || u.1 + u.2 ≤ o).map fun o =>
      c.cfg.poolBase + BitVec.ofNat 64 o

def evictable (s : State) (ctx h n : Nat) : Bool :=
  match viewOf s ctx h with
  | some v => (extOf v n).st == .resident && !(extOf v n).pin && extRefs s ctx h n == 0
  | none => false

/-- How a scan ends. -/
inductive ScanEnd
  | free
  | later
  | abandon
  deriving DecidableEq, Repr

/-- The record of lowest score among those of a window; the earliest in hand order among equals. -/
def lowestScore (s : State) (ctx : Nat) (win : List (Nat × Nat)) : Option (Nat × Nat) :=
  let c := ctxOf s ctx
  let score := fun (r : Nat × Nat) => extScore s c.cfg (extOf (Table.getD c.views r.1 {}) r.2)
  (win.filter fun r => evictable s ctx r.1 r.2).foldl (fun o r => match o with
    | none => some r
    | some b => if (score r).1 * (score b).2 < (score b).1 * (score r).2 then some r else some b) none

/-- Evict a resident record: its data goes, and it is evicting until its eviction ends. -/
def evictExt (s : State) (ctx h n : Nat) : State :=
  setExt s ctx h n fun x => { x with st := .evicting, elems := [], loc := 0 }

/-- Scan for space. `gone` counts evicted bytes, `idle` consecutive windows with nothing evictable. -/
def scanPool (ctx need : Nat) : Nat → State → Nat → Nat → ScanEnd × State
  | 0, s, _, _ => (.abandon, s)
  | fuel + 1, s, gone, idle =>
    let c := ctxOf s ctx
    if poolFree c ≥ need then (.free, s)
    else if gone * 8 ≥ c.cfg.poolQuota then (.later, s)
    else if idle ≥ 4 then (.abandon, s)
    else
      let rs := poolRecords c
      let at_ := c.hand % max 1 rs.length
      let win := (rs.drop at_ ++ rs.take at_).take 64
      let best := lowestScore s ctx win
      let s := setCtx s ctx fun c => { c with hand := (at_ + win.length) % max 1 rs.length }
      match best with
      | none => scanPool ctx need fuel s gone (idle + 1)
      | some (h, n) =>
        let size := (extOf ((viewOf s ctx h).getD {}) n).size
        scanPool ctx need fuel (evictExt s ctx h n) (gone + 4096 * size) 0

/-- Steps that bound a scan. -/
def scanFuel (c : Context) : Nat := (poolRecords c).length * 5 + 8

/-- A fragment that waits on an abandoned build traps with VIEWPOOL. -/
def poolTrap (s : State) (ctx h n : Nat) : State :=
  (s.frags.filter fun f => f.1 / 131072 == ctx && f.2.cause == .viewmiss && (match f.2.obj with
    | .extents l => l.contains (h, n)
    | _ => false)).foldl (fun s f =>
      let s := modWave (setFrag s f.1 { f.2 with cause := .viewpool, obj := .none }) f.2.wave fun w => setCause w .viewpool
      deliver s f.1 false) s

def abandonBuild (s : State) (ctx h n : Nat) : State :=
  poolTrap (setExt s ctx h n fun x => { x with st := .absent, size := 0, waitingSpace := false }) ctx h n

/-- Reserve pool space for a build, scanning for it (09 R241, R242). -/
def reserve (s : State) (ctx h n units : Nat) : State :=
  let c := ctxOf s ctx
  if 4096 * units > c.cfg.poolQuota then abandonBuild s ctx h n
  else
    match scanPool ctx (4096 * units) (scanFuel c) s 0 0 with
    | (.free, s) =>
      let (k, s) := freshNo s
      let loc := (poolPlace (ctxOf s ctx) k (4096 * units)).getD (Config.freeWord k)
      setExt s ctx h n fun x => { x with size := units, loc := loc, waitingSpace := false }
    | (.later, s) => setExt s ctx h n fun x => { x with waitingSpace := true }
    | (.abandon, s) => abandonBuild s ctx h n

/-- The tokens of the extent that an embedding extent is built from: none while it is not resident. -/
def tokenElems (s : State) (ctx : Nat) (v : View) (n : Nat) : Option (List Elem) :=
  if v.code != 5 then some []
  else
    match viewOf s ctx v.tokView with
    | some t => if (extOf t n).st == .resident then some (extOf t n).elems else none
    | none => some []

/-- Space for a build whose elements can be told now. -/
def reserveNow (s : State) (ctx h n : Nat) : State :=
  match viewOf s ctx h with
  | none => s
  | some v =>
    if (extOf v n).st != .building || (extOf v n).size != 0 || (extOf v n).waitingSpace then s
    else
      match tokenElems s ctx v n with
      | none => s
      | some toks =>
        match buildGot s ctx (tagBuild h n) v n toks with
        | .ok (some es) => reserve s ctx h n (extentUnits s ctx v es.length)
        | _ => s

/-- Start the build of one absent extent; one that is evicting is built when its eviction ends (09 R236). -/
def startOne (s : State) (ctx h n : Nat) : State :=
  match viewOf s ctx h with
  | none => s
  | some v =>
    match (extOf v n).st with
    | .absent => reserveNow (setExt s ctx h n fun x => { x with st := .building, size := 0, rebuild := false }) ctx h n
    | .evicting => setExt s ctx h n fun x => { x with rebuild := true }
    | _ => s

/-- Start a build; an embedding extent first needs its token extent. -/
def startBuild (s : State) (ctx h n : Nat) : State :=
  match viewOf s ctx h with
  | none => s
  | some v => startOne (if v.code == 5 then startOne s ctx v.tokView n else s) ctx h n

/-- Fragments all of whose extents have left the building state resume (09 R236). -/
def wakeViews (s : State) (ctx : Nat) : State :=
  (s.frags.filter fun f => f.1 / 131072 == ctx && f.2.cause == .viewmiss && f.2.st == .waiting).foldl (fun s f =>
    match f.2.obj with
    | .extents l =>
      let open_ := l.any fun e => match viewOf s ctx e.1 with
        | some v => (extOf v e.2).st == .building || (extOf v e.2).st == .evicting
        | none => false
      if open_ then s else resumeFrag s f.1
    | _ => s) s

/-- A build fails: the extent is marked, and holds no pool space (09 R237). -/
def failExt (s : State) (ctx h n : Nat) : State :=
  setExt s ctx h n fun x => { x with st := .failed, size := 0, loc := 0, elems := [], waitingSpace := false }

/-- The cost that a directory record takes: a measurement (09 R234, R430). -/
def buildCost (n : Nat) : Nat := min 0xFFFF (max 1 ((Config.buildCycles n + 255) / 256))

/-- The segments that an unpack extent lies in; none for another view or an empty extent. -/
def segSpan (s : State) (ctx tag : Nat) (v : View) (n : Nat) : Option (Nat × Nat) :=
  if v.code != 6 then none
  else
    match extentSpan s ctx tag v n with
    | .ok (b, e) =>
      let entries := segEntry s ctx (srcOfView s ctx v)
      if b < e then some (segOf entries v.sealed (v.start + b), segOf entries v.sealed (v.start + e - 1)) else none
    | _ => none

/-- The gap entries of an unpack that a translation is awaited for. -/
def gapAwaited (s : State) (ctx tag : Nat) (v : View) (n : Nat) : Option (Word64 × Nat) :=
  (segSpan s ctx tag v n).bind fun p =>
    let r := gapRange v (srcOfView s ctx v) p.1 p.2
    match engineRange s ctx tag r.1 r.2 false with
    | .wait => some r
    | _ => none

/-- A build whose bytes are there and whose space is reserved becomes resident. The form in which the pool holds its elements is
not stated: its bytes there are free (log 40). -/
def landBuild (s : State) (ctx h n : Nat) (v : View) (es toks : List Elem) : State :=
  let tag := tagBuild h n
  let (k, s) := freshNo s
  let s := match extentSpan s ctx tag v n with
    | .ok (b, e) => (buildReads s ctx v b e toks).foldl (fun s r => touchPolders s ctx r.1.toNat r.2) s
    | _ => s
  let s := recordBounds s ctx h n
  let s := match segSpan s ctx tag v n with
    | some p => if gapMissed s ctx tag v (srcOfView s ctx v) p.1 p.2 then
        setCtx s ctx fun c => { c with gaprec := if c.gaprec == 0xFFFFFFFF#32 then c.gaprec else c.gaprec + 1 }
      else s
    | none => s
  let c := ctxOf s ctx
  let x := extOf ((viewOf s ctx h).getD {}) n
  let o := (x.loc - c.cfg.poolBase).toNat
  let s := if o + 4096 * x.size ≤ c.cfg.poolQuota then vaFree s ctx x.loc (4096 * x.size) else s
  engineDone (setExt s ctx h n fun x =>
    { x with st := .resident, cost := buildCost k, count := es.length, counted := true, elems := es }) ctx tag

/-- EXTENT_BUILD_END (09 R225 to R238, R430). -/
def execExtentBuildEnd (ctx view ext : Nat) (s : State) : Host.Outcome State Fault Refusal :=
  match viewOf s ctx view with
  | none => done s
  | some v =>
    let x := extOf v ext
    let tag := tagBuild view ext
    if x.st != .building || x.waitingSpace then done s
    else
      let tokFailed := v.code == 5 && (match viewOf s ctx v.tokView with
        | some t => (extOf t ext).st == .failed
        | none => true)
      if tokFailed then done (wakeViews (failExt s ctx view ext) ctx)
      else
        match tokenElems s ctx v ext with
        | none => done (startOne s ctx v.tokView ext)
        | some toks =>
          match buildGot s ctx tag v ext toks with
          | .wait => done (askBuild s ctx tag v ext toks)
          | .hole a => finish { s with stuck := some (.noSuchAddress a) }
          | .fail | .ok none => done (wakeViews (engineDone (failExt (recordBounds s ctx view ext) ctx view ext) ctx tag) ctx)
          | .ok (some es) =>
            match gapAwaited s ctx tag v ext with
            | some r => done (engineAsk s ctx tag r.1 r.2 false)
            | none =>
            let s := if x.size == 0 then reserve s ctx view ext (extentUnits s ctx v es.length) else s
            let x := extOf ((viewOf s ctx view).getD {}) ext
            if x.st == .building && x.size != 0 then done (wakeViews (landBuild s ctx view ext v es toks) ctx)
            else done (wakeViews s ctx)

/-- EXTENT_EVICTION_END: the record is absent, and its build starts where a fragment waits for it (09 R236). -/
def execExtentEvictionEnd (ctx view ext : Nat) (s : State) : Host.Outcome State Fault Refusal :=
  done (match viewOf s ctx view with
    | none => s
    | some v =>
      if (extOf v ext).st == .evicting then
        let again := (extOf v ext).rebuild || extRefs s ctx view ext != 0
        let s := setExt s ctx view ext fun x => { x with st := .absent, size := 0, rebuild := false }
        if again then startBuild s ctx view ext else s
      else s)

/-- EVICTION_RESCAN: at an aging period boundary the builds that still lack space scan again (09 R241). -/
def execEvictionRescan (ctx : Nat) (s : State) : Host.Outcome State Fault Refusal :=
  let ws := (ctxOf s ctx).views.flatMap fun v => (v.2.exts.filter fun e => e.2.waitingSpace).map fun e => (v.1, e.1)
  done (if ws.isEmpty then s
    else
      let s := passTo s ((s.wall / 2 ^ 20 + 1) * 2 ^ 20)
      let s := ws.foldl (fun s e =>
        reserveNow (setExt s ctx e.1 e.2 fun x => { x with waitingSpace := false }) ctx e.1 e.2) s
      wakeViews s ctx)

/-- VIEW_SWEEP: a visit to one record (09 R239). -/
def execViewSweep (ctx view ext : Nat) (s : State) : Host.Outcome State Fault Refusal :=
  done (match viewOf s ctx view with
    | none => s
    | some v =>
      let x := extOf v ext
      if ext < v.nominal && (wallStamp s + 65536 - x.stamp) % 65536 ≥ 2 ^ 15 then
        setExt s ctx view ext fun x => { x with touches := owedTouches s x, stamp := (wallStamp s + 2 ^ 15) % 65536 }
      else s)

/-! ### Defining a view (09 R220 to R222) -/

/-- The view that an image describes. -/
def viewOfImage (r : Nat) : View :=
  let f := fieldAt r 0x20 4
  { src := fieldAt r 0 4, code := fieldAt r 4 1, strict := (fieldAt r 5 1).testBit 0, voc := fieldAt r 6 1,
    start := fieldAt r 8 8, len := fieldAt r 0x10 4, tensor := fieldAt r 0x18 2, tokView := fieldAt r 0x1A 2,
    sep := BitVec.ofNat 8 f, delim := BitVec.ofNat 8 (f / 2 ^ 8), quote := BitVec.ofNat 8 (f / 2 ^ 16),
    quotes := f.testBit 24 }

/-- VRESV: a zero field or flag of R220 is nonzero. -/
def viewReserved (r : Nat) : Bool :=
  let v := viewOfImage r
  fieldAt r 5 1 > 1 || (v.strict && v.code != 0 && v.code != 1 && v.code != 4) || !zeroAt r 0x14 4 || !zeroAt r 0x1C 4 ||
    fieldAt r 0x20 4 ≥ 2 ^ 25 || !zeroAt r 0x24 28

/-- The viewable length of a source: bytes, or decoded bytes of the sealed segments (09 R218). -/
def viewable (s : State) (ctx : Nat) (x : Source) : Nat :=
  if x.packed then segOffset (segEntry s ctx x) x.sealed else x.sealed

/-- Every other limit of R220. -/
def viewRange (s : State) (ctx r : Nat) (x : Source) : Bool :=
  let v := viewOfImage r
  v.code ≤ 6 && (v.voc == 0 || v.code == 2 || v.code == 3) && fieldAt r 7 1 == (if v.code == 5 then 2 else 0) &&
    1 ≤ v.len && v.start + v.len ≤ viewable s ctx x &&
    (if v.code == 5 then
        let d := descAt s ctx v.tensor
        v.tensor ≤ 4095 && d.rank == 2 && d.fmt == 2 && (match viewOf s ctx v.tokView with
          | some t => (t.code == 2 || t.code == 3) && t.src == v.src && t.start == v.start && t.len == v.len
          | none => false)
      else zeroAt r 0x18 4) &&
    (if v.code == 1 then v.sep != v.delim && (!v.quotes || (v.quote != v.sep && v.quote != v.delim))
      else zeroAt r 0x20 4)

/-- VBUSY: extents building, pinned or waited for, or an embedding view names it. -/
def viewBusy (s : State) (ctx h : Nat) : Bool :=
  match viewOf s ctx h with
  | none => false
  | some v =>
    (v.exts.any fun e => e.2.st == .building || e.2.pin || extRefs s ctx h e.1 != 0) ||
      (ctxOf s ctx).views.any fun w => w.2.code == 5 && w.2.tokView == h

/-- `vdef`: its status. -/
def vdef (s : State) (a : Word64) (h : Nat) : Option Word32 × State :=
  let ctx := s.me.ctx
  let tag := tagMe s
  let end_ := fun (x : Word32) => (some x, engineDone s ctx tag)
  if h > 65535 || h ≥ (kernOf s).viewReq then end_ 0x70
  else if viewBusy s ctx h then end_ 0x76
  else
    match engineRead s ctx tag (some s.me.core) a 64 with
    | .wait => (none, engineAsk s ctx tag a 64 false)
    | .hole x => (none, { s with stuck := some (.noSuchAddress x) })
    | .fail => end_ 0x71
    | .ok r =>
      let v := viewOfImage r
      let drop := fun (s : State) => setCtx (engineDone s ctx tag) ctx fun c => { c with views := Table.erase c.views h }
      if viewReserved r then end_ 0x72
      else if v.code == 0 then (some 0, drop s)
      else
        match if v.src ≤ 4095 then Table.get? (ctxOf s ctx).sources v.src else none with
        | none => end_ 0x74
        | some x =>
          if v.code ≤ 6 && x.packed != (v.code == 6) then end_ 0x74
          else if (v.code == 2 || v.code == 3) && (v.voc > 15 || (Table.get? (ctxOf s ctx).vocs v.voc).isNone) then end_ 0x75
          else
            match if x.packed then engineRead s ctx tag none x.segTable (144 * x.sealed) else .ok 0 with
            | .wait => (none, engineAsk s ctx tag x.segTable (144 * x.sealed) false)
            | .hole y => (none, { s with stuck := some (.noSuchAddress y) })
            | .fail => end_ 0x71
            | .ok _ =>
              if !viewRange s ctx r x then end_ 0x73
              else
                let old := viewOf s ctx h
                let s := setCtx s ctx fun c => { c with views := Table.erase c.views h }
                let full := fun (s : State) => (some 0x77#32, setCtx (engineDone s ctx tag) ctx fun c => match old with
                  | some w => { c with views := Table.set c.views h w }
                  | none => c)
                match scanPool ctx (32 * v.nominal) (scanFuel (ctxOf s ctx)) s 0 0 with
                | (.free, s) =>
                  let (k, s) := freshNo s
                  (match poolPlace (ctxOf s ctx) k (32 * v.nominal) with
                  | some dir => (some 0, setCtx (imageRead s ctx tag a 64) ctx fun c =>
                      { c with views := Table.set c.views h { v with sealed := x.sealed, dir := dir } })
                  | none => full s)
                | (_, s) => full s

/-- What a view reads after its `vdef` is visible to its builds: every write before the `vdef` is (10 R274). -/
def execVdef (h : Head) (d a b : Operand) (s : State) : Host.Outcome State Fault Refusal :=
  finish (statusInstr h d [(a, 2), (b, 1)] s fun s =>
    vdef (releaseAt s s.me.core .pkg) (src64 s a 0) (src32 s b 0).toNat)

/-! ### View accesses (09 R235, R244 to R248) -/

/-- What one lane's access comes to. -/
inductive Look
  | ok (v : Nat) (bit : Bool)
  | fault (c : Cause)
  | miss (view ext : Nat)
  /-- passes that a statistic waits for: views with twice the extent, plus 1 for a count pass -/
  | pass (l : List (Nat × Nat))
  deriving DecidableEq, Repr

/-- Find an element: its place in a resident extent, or what it comes to. -/
def findElem (s : State) (ctx h : Nat) (e : Nat) (hit : View → Elem → Look) : Look :=
  let n := e / 2 ^ 24
  match viewOf s ctx h with
  | none => .fault .viewrange
  | some v =>
    if !extExists s ctx h v n then .fault .viewrange
    else
      let x := extOf v n
      match x.st with
      | .resident => (match x.elems[e % 2 ^ 24]? with
        | some y => hit v y
        | none => .fault .viewrange)
      | .failed => .fault .viewfail
      | _ => .miss h n

/-- Extents that an access reaches: those it touches. -/
def touched (s : State) (ctx h e : Nat) : List (Nat × Nat) :=
  match viewOf s ctx h with
  | some v =>
    let n := e / 2 ^ 24
    if extExists s ctx h v n && (extOf v n).st != .failed then [(h, n)] else []
  | none => []

/-- Build the missed extents in ascending extent number. -/
def buildMissed (s : State) (ctx : Nat) (ms : List (Nat × Nat)) : State :=
  (ms.eraseDups.mergeSort fun a b => a.2 < b.2 || (a.2 == b.2 && a.1 ≤ b.1)).foldl (fun s e => startBuild s ctx e.1 e.2) s

/-- A view instruction: lanes that hit commit, lanes that miss form one fragment, and the others fault; a pass that is
awaited holds the path group. The lane's element or byte offset and its handle make the fault (17 R378). -/
def viewInstr (h : Head) (scalar : Bool) (srcs : List (Operand × Nat)) (s : State)
    (what : State → Fin 32 → Nat × Nat) (touch : State → Fin 32 → List (Nat × Nat)) (look : State → Fin 32 → Look)
    (act : List (Fin 32 × Nat × Bool) → Wave → Wave)
    (after : List (Fin 32 × Nat × Bool) → State → State := fun _ s => s) : State :=
  let m := active s h
  let ctx := s.me.ctx
  withPops s srcs m fun s =>
    let bad := poisonLanes s srcs m
    let bad := if scalar && bad != 0 then m else bad
    let ls := accessLanes scalar (m &&& ~~~bad)
    let cs := ls.map fun l => (l, look s l)
    let waits := cs.flatMap fun c => match c.2 with
      | .pass l => l
      | _ => []
    if !waits.isEmpty then
      stallMe (setCtx s ctx fun c => { c with passes := (c.passes ++ waits).eraseDups }) s.iss (.passes waits)
    else
      let at_ := fun (l : Fin 32) => (BitVec.ofNat 64 (what s l).1, BitVec.ofNat 32 (what s l).2)
      let fs := faultLanes bad .poison ++ cs.flatMap fun c => match c.2 with
        | .fault k => spreadFault scalar (m &&& ~~~bad)
            { lane := c.1, cause := k, addr := (at_ c.1).1, detail := (at_ c.1).2 }
        | .miss v n => spreadFault scalar (m &&& ~~~bad)
            { lane := c.1, cause := .viewmiss, addr := (at_ c.1).1, detail := (at_ c.1).2, obj := .extents [(v, n)] }
        | _ => []
      let hits := cs.filterMap fun c => match c.2 with
        | .ok v b => some (c.1, v, b)
        | _ => none
      let missed := cs.filterMap fun c => match c.2 with
        | .miss v n => some (v, n)
        | _ => none
      let ts := (ls.flatMap (touch s)).eraseDups
      let out := maskOf (fs.map (·.lane))
      let s := commitWith s fs fun s => advanceMe (modMe (after hits s) (act hits)) (s.iss &&& ~~~out)
      buildMissed (ts.foldl (fun s e => touchExt s ctx e.1 e.2) s) ctx missed

/-- The value that a lane's access found. -/
def hitValue (hs : List (Fin 32 × Nat × Bool)) (l : Fin 32) : Word64 :=
  BitVec.ofNat 64 (((hs.find? fun x => x.1 == l).map (·.2.1)).getD 0)

def hitMask (hs : List (Fin 32 × Nat × Bool)) : LaneMask := maskOf (hs.map (·.1))

def vsizeBytes : VSize → Nat
  | .b8 => 1 | .b16 => 2 | .b32 => 4 | .b64 => 8

/-- Where the element that a lane loads stands in the pool: behind the 64 bytes that R234 counts before the elements (log 40). -/
def elemAddr (s : State) (ctx h e : Nat) : Word64 :=
  let v := (viewOf s ctx h).getD {}
  (extOf v (e / 2 ^ 24)).loc + BitVec.ofNat 64 (64 + e % 2 ^ 24 * elemBytes s ctx v)

/-- The size code of a view load, as R288 numbers sizes. -/
def vsizeOf : VSize → Size
  | .b8 => .n8 | .b16 => .n16 | .b32 => .b32 | .b64 => .b64

def execVld (h : Head) (sz : VSize) (d : Operand) (m : MemOp) (s : State) : Host.Outcome State Fault Refusal :=
  let n := vsizeBytes sz
  let hd := fun (s : State) (l : Fin 32) => (src32 s m.base l).toNat
  let e := fun (s : State) (l : Fin 32) => (src64 s m.index l).toNat
  finish (viewInstr h d.isScalar [(m.base, 1), (m.index, 2)] s (fun s l => (e s l, hd s l))
    (fun s l => touched s s.me.ctx (hd s l) (e s l))
    (fun s l => findElem s s.me.ctx (hd s l) (e s l) fun v x =>
      let off := m.off.toInt
      if off < 0 || (off.toNat + 1) * n > elemBytes s s.me.ctx v then .fault .viewrange
      else .ok (fieldAt x.val (off.toNat * n) n) false)
    (fun hs w => match sz with
      | .b64 => writePair w d (hitMask hs) (hitValue hs)
      | _ => writeDst w d (hitMask hs) fun l => (hitValue hs l).setWidth 32)
    fun hs s =>
      let as := hs.map fun x => elemAddr s s.me.ctx (hd s x.1) (e s x.1) + BitVec.ofNat 64 (m.off.toNat * n)
      as.foldl (fun s a => touchPolders s s.me.ctx a.toNat n) (sampleLines s as (vsizeOf sz).code.toNat none))

/-- The span of an element; an embedding element reports its token's (09 R244). -/
def mapLook (s : State) (h e : Nat) : Look :=
  let span := fun (_ : View) (x : Elem) => Look.ok (x.off % 2 ^ 32 + x.len * 2 ^ 32) false
  findElem s s.me.ctx h e fun v x =>
    if v.code == 5 then findElem s s.me.ctx v.tokView e span else span v x

/-- The extents that a `vmap` reaches: an embedding element's token extent too (09 R239, R244). -/
def mapTouched (s : State) (h e : Nat) : List (Nat × Nat) :=
  touched s s.me.ctx h e ++ (match viewOf s s.me.ctx h with
    | some v => if v.code == 5 then touched s s.me.ctx v.tokView e else []
    | none => [])

def execVmap (h : Head) (d a b : Operand) (s : State) : Host.Outcome State Fault Refusal :=
  let hd := fun (s : State) (l : Fin 32) => (src32 s a l).toNat
  let e := fun (s : State) (l : Fin 32) => (src64 s b l).toNat
  finish (viewInstr h d.isScalar [(a, 1), (b, 2)] s (fun s l => (e s l, hd s l))
    (fun s l => mapTouched s (hd s l) (e s l))
    (fun s l => mapLook s (hd s l) (e s l))
    fun hs w => writePair w d (hitMask hs) (hitValue hs))

/-- The extent whose bytes hold an offset: the last with b_n at most b. -/
def extentAt (s : State) (ctx h : Nat) (v : View) (b : Nat) : Nat → Nat
  | 0 => 0
  | n + 1 => match boundGot s ctx (tagBuild h (n + 1)) v (n + 1) with
    | .ok x => if x ≤ b then n + 1 else extentAt s ctx h v b n
    | _ => n + 1

/-- The first element of an extent from n on that starts behind b, or what is in its way. -/
def nextElem (s : State) (ctx h : Nat) (v : View) (b : Nat) : Nat → Nat → Look
  | 0, n => .ok (n * 2 ^ 24) true
  | fuel + 1, n =>
    if !extExists s ctx h v n then .ok (n * 2 ^ 24) true
    else
      let x := extOf v n
      match x.st with
      | .resident =>
        let i := x.elems.findIdx fun e => e.off > b
        if i < x.elems.length then .ok (n * 2 ^ 24 + i) true else nextElem s ctx h v b fuel (n + 1)
      | .failed => .fault .viewfail
      | _ => .miss h n

/-- The element that covers a byte, or the next one (09 R245). -/
def findByte (s : State) (ctx h b : Nat) : Look :=
  match viewOf s ctx h with
  | none => .fault .viewrange
  | some v =>
    if b ≥ v.len then .fault .viewrange
    else
      let n := extentAt s ctx h v b (b / 65536)
      let x := extOf v n
      match x.st with
      | .resident =>
        let i := x.elems.findIdx fun e => e.off ≤ b && b < e.off + e.len
        if i < x.elems.length then .ok (n * 2 ^ 24 + i) false else nextElem s ctx h v b (v.nominal - n) n
      | .failed => .fault .viewfail
      | _ => .miss h n

def execVfind (h : Head) (d a b : Operand) (k : BitVec 4) (s : State) : Host.Outcome State Fault Refusal :=
  let hd := fun (s : State) (l : Fin 32) => (src32 s a l).toNat
  let e := fun (s : State) (l : Fin 32) => (src32 s b l).toNat
  finish (viewInstr h d.isScalar [(a, 1), (b, 1)] s
    (fun s l => match findByte s s.me.ctx (hd s l) (e s l) with
      | .miss _ n => (n * 2 ^ 24, hd s l)
      | .fault .viewfail => (extentAt s s.me.ctx (hd s l) ((viewOf s s.me.ctx (hd s l)).getD {}) (e s l) (e s l / 65536) * 2 ^ 24,
          hd s l)
      | _ => (e s l, hd s l))
    (fun _ _ => [])
    (fun s l => findByte s s.me.ctx (hd s l) (e s l))
    fun hs w =>
      let own := fun (l : Fin 32) => if d.isScalar then
          ((hs.head?).map (·.2.2)).getD false
        else ((hs.find? fun x => x.1 == l).map (·.2.2)).getD false
      let m := if d.isScalar && !hs.isEmpty then active s h else hitMask hs
      writeKBits (writePair w d (hitMask hs) (hitValue hs)) k m (maskOf ((lanesIn m).filter own)))

/-- `vtouch` touches an extent and starts its build where it is absent (09 R246). -/
def execVtouch (h : Head) (a b : Operand) (s : State) : Host.Outcome State Fault Refusal :=
  let ctx := s.me.ctx
  let es := (lanesIn (active s h)).map fun l => ((src32 s a l).toNat, (src64 s b l).toNat)
  let ts := (es.flatMap fun e => touched s ctx e.1 e.2).eraseDups
  let s := passOn s
  finish (buildMissed (ts.foldl (fun s e => touchExt s ctx e.1 e.2) s) ctx ts)

/-- Set or clear the pin of an element's extent: the status, and whether a build is to start (09 R247). -/
def pinExt (s : State) (ctx h e : Nat) (pin : Bool) : Word32 × State :=
  let n := e / 2 ^ 24
  match viewOf s ctx h with
  | none => (3, s)
  | some v =>
    let x := extOf v n
    if !extExists s ctx h v n then (3, s)
    else if x.st == .failed then (2, s)
    else
      let s' := if x.pin == pin then s else setExt s ctx h n fun x => { x with pin := pin }
      (if x.pin == pin then 1 else 0, if pin then startBuild s' ctx h n else s')

/-- `vpin` and `vunpin` act for each active lane in ascending order, or once in scalar form. -/
def pinInstr (h : Head) (d a b : Operand) (pin : Bool) (s : State) : State :=
  regInstr h d.isScalar [(a, 1), (b, 2)] s fun m s =>
    (accessLanes d.isScalar m).foldl (fun s l =>
      let r := pinExt s s.me.ctx (src32 s a l).toNat (src64 s b l).toNat pin
      modMe r.2 fun w => writeDst w d (laneBit l) fun _ => r.1) s

def execVpin (h : Head) (d a b : Operand) (s : State) : Host.Outcome State Fault Refusal := finish (pinInstr h d a b true s)

def execVunpin (h : Head) (d a b : Operand) (s : State) : Host.Outcome State Fault Refusal :=
  finish (pinInstr h d a b false s)

/-- Element counts of the first n extents, or what the first that lacks one comes to. -/
def countsTo (h : Nat) (v : View) (n : Nat) : Except Look (List Nat) :=
  (List.range n).foldl (fun a i => match a with
    | .ok l =>
      let x := extOf v i
      if x.counted then .ok (l ++ [x.count])
      else if x.st == .failed then .error (.fault .viewfail)
      else .error (.pass [(h, 2 * i + 1)])
    | .error e => .error e) (.ok [])

/-- The anchored number of a dense number, from extent n on, with `left` elements to skip. -/
def anchFrom (s : State) (ctx h : Nat) (v : View) : Nat → Nat → Nat → Look
  | 0, _, _ => .fault .viewrange
  | fuel + 1, n, left =>
    let x := extOf v n
    if !extExists s ctx h v n then .fault .viewrange
    else if x.counted then
      (if left < x.count then .ok (n * 2 ^ 24 + left) false else anchFrom s ctx h v fuel (n + 1) (left - x.count))
    else if x.st == .failed then .fault .viewfail
    else .pass [(h, 2 * n + 1)]

/-- One statistic (09 R248). -/
def statLook (s : State) (op : VStatOp) (h e : Nat) : Look :=
  let ctx := s.me.ctx
  let n := e / 2 ^ 24
  match viewOf s ctx h with
  | none => .fault .viewrange
  | some v =>
    match op with
    | .state => if n < v.nominal then .ok (stateByte (extOf v n)) false else .fault .viewrange
    | .count =>
      let x := extOf v n
      if !extExists s ctx h v n then .fault .viewrange
      else if x.counted then .ok x.count false
      else if x.st == .failed then .fault .viewfail
      else .pass [(h, 2 * n + 1)]
    | .dense =>
      if !extExists s ctx h v n then .fault .viewrange
      else
        (match countsTo h v (n + 1) with
        | .error l => l
        | .ok l => if e % 2 ^ 24 ≥ l.getD n 0 then .fault .viewrange
            else .ok ((l.take n).foldl (· + ·) 0 + e % 2 ^ 24) false)
    | .anch => anchFrom s ctx h v (v.nominal + 1) 0 e
    | .nx =>
      let w := boundView s ctx v
      let open_ := (List.range v.nominal).filter fun i => i != 0 && !(extOf w i).known && w.code != 6
      if open_.any fun i => (extOf v i).st == .failed then .fault .viewfail
      else if open_.isEmpty then .ok ((List.range v.nominal).filter fun i => extExists s ctx h v i).length false
      else .pass (open_.map fun i => (h, 2 * i))

def execVstat (h : Head) (op : VStatOp) (d a b : Operand) (s : State) : Host.Outcome State Fault Refusal :=
  let hd := fun (s : State) (l : Fin 32) => (src32 s a l).toNat
  let e := fun (s : State) (l : Fin 32) => (src64 s b l).toNat
  let pair := op == .dense || op == .anch
  finish (viewInstr h d.isScalar [(a, 1), (b, 2)] s (fun s l => (e s l, hd s l)) (fun _ _ => [])
    (fun s l => statLook s op (hd s l) (e s l))
    fun hs w => if pair then writePair w d (hitMask hs) (hitValue hs)
      else writeDst w d (hitMask hs) fun l => (hitValue hs l).setWidth 32)

/-- The element count of an extent as a count pass finds it. -/
def countGot (s : State) (ctx h : Nat) (v : View) (n : Nat) : Got (Option Nat) :=
  let tag := tagBuild h n
  if v.code == 6 then
    match extentSpan s ctx tag v n with
    | .ok (b, e) => .ok (some (e - b))
    | .wait => .wait
    | .fail => .fail
    | .hole x => .hole x
  else
    match buildGot s ctx tag (boundView s ctx v) n [] with
    | .ok o => .ok (o.map (·.length))
    | .wait => .wait
    | .fail => .fail
    | .hole x => .hole x

/-- PASS_END: a count or boundary pass that a `vstat` waits for ends (09 R230, R248). -/
def execPassEnd (ctx view ext : Nat) (s : State) : Host.Outcome State Fault Refusal :=
  let wants := (ctxOf s ctx).passes.filter fun p => p.1 == view && p.2 / 2 == ext
  let drop := fun (s : State) => setCtx s ctx fun c => { c with passes := c.passes.filter fun p => !wants.contains p }
  match wants, viewOf s ctx view with
  | [], _ => done s
  | _, none => done (drop s)
  | _, some v =>
    let tag := tagBuild view ext
    let count := wants.any fun p => p.2 % 2 == 1
    match if count then countGot s ctx view v ext else (match boundGot s ctx tag v ext with
        | .ok _ => .ok none
        | .wait => .wait
        | .fail => .fail
        | .hole x => .hole x) with
    | .wait => done (askBuild s ctx tag (boundView s ctx v) ext [])
    | .hole a => finish { s with stuck := some (.noSuchAddress a) }
    | .fail => done (drop (wakeViews (failExt s ctx view ext) ctx))
    | .ok c =>
      let s := engineDone (recordBounds s ctx view ext) ctx tag
      match count, c with
      | true, none => done (drop (wakeViews (failExt s ctx view ext) ctx))
      | true, some n => done (drop (setExt s ctx view ext fun x => { x with counted := true, count := n }))
      | false, _ => done (drop s)

end Sys2Proof.Machine
end

