-- ==== Sys2Proof/Machine/Detok.lean ====
section
/-! DEFINITION. Detokenisation: stream commands, the stream state, and their processing by the view engine of a die (spec 09
R253 to R258). -/
namespace Sys2Proof.Machine

/-- Bytes of U+FFFD. -/
def replacement : List Byte := [0xEF#8, 0xBF#8, 0xBD#8]

/-! ### Accepting a command (09 R253) -/

/-- The stop strings of a stop block. -/
def stopStrings (img n : Nat) : List (List Byte) :=
  (List.range n).map fun i => bytesOf (fieldAt img (40 * i + 8) 32) (fieldAt img (40 * i) 1)

/-- A field that R253 marks zero is not. -/
def detokReserved (c stops n : Nat) : Bool :=
  !zeroAt c 0x0E 2 || !zeroAt c 0x14 4 || !zeroAt c 0x30 16 || (List.range n).any fun i => !zeroAt stops (40 * i + 1) 7

/-- Every field within the limits of R253. -/
def detokRange (c stops n : Nat) : Bool :=
  fieldAt c 0 8 % 4 == 0 && fieldAt c 8 4 ≤ 16777216 && fieldAt c 0x0C 1 ≤ 15 && fieldAt c 0x0D 1 ≤ 4 &&
    fieldAt c 0x18 8 % 64 == 0 && fieldAt c 0x28 8 % 8 == 0 &&
    (if fieldAt c 0x0D 1 == 0 then zeroAt c 0x20 8 else fieldAt c 0x20 8 % 8 == 0) &&
    (List.range n).all fun i => 1 ≤ fieldAt stops (40 * i) 1 && fieldAt stops (40 * i) 1 ≤ 32

/-- The status of `detok`, and the command it accepts. -/
def detokAccept (s : State) (fin : Bool) (a : Word64) : Option Word32 × State :=
  let ctx := s.me.ctx
  let tag := tagMe s
  let core := some s.me.core
  let end_ := fun (x : Word32) => (some x, engineDone s ctx tag)
  match engineRead s ctx tag core a 64 with
  | .wait => (none, engineAsk s ctx tag a 64 false)
  | .hole x => (none, { s with stuck := some (.noSuchAddress x) })
  | .fail => end_ 0x79
  | .ok c =>
    let n := fieldAt c 0x0D 1
    let sa := BitVec.ofNat 64 (fieldAt c 0x20 8)
    match engineRead s ctx tag core sa (40 * n) with
    | .wait => (none, engineAsk s ctx tag sa (40 * n) false)
    | .hole x => (none, { s with stuck := some (.noSuchAddress x) })
    | .fail => end_ 0x79
    | .ok stops =>
      let dst := fieldAt c 0x10 4
      let plain := dst ≤ 4095 && (match Table.get? (ctxOf s ctx).sources dst with
        | some x => !x.packed
        | none => false)
      if detokReserved c stops n then end_ 0x7A
      else if !detokRange c stops n then end_ 0x7B
      else if !plain then end_ 0x7C
      else if (Table.get? (ctxOf s ctx).vocs (fieldAt c 0x0C 1)).isNone then end_ 0x7D
      else
        let (k, s) := freshNo (releaseAt (touchPolders (imageRead s ctx tag a 64) ctx sa.toNat (40 * n)) s.me.core .pkg)
        let x : DetokCmd :=
          { ctx := ctx, die := s.me.core / 48, fin := fin, buf := BitVec.ofNat 64 (fieldAt c 0 8), count := fieldAt c 8 4,
            voc := fieldAt c 0x0C 1, stops := stopStrings stops n, dst := dst, stream := BitVec.ofNat 64 (fieldAt c 0x18 8),
            done := BitVec.ofNat 64 (fieldAt c 0x28 8) }
        (some 0, { s with detoks := Table.set s.detoks k x })

def execDetok (h : Head) (fin : Bool) (d a : Operand) (s : State) : Host.Outcome State Fault Refusal :=
  finish (statusInstr h d [(a, 2)] s fun s => detokAccept (applyOwn s s.me.core) fin (src64 s a 0))

/-! ### The stream state (09 R254) -/

/-- A stream state as read. -/
structure Stream where
  flags : BitVec 8 := 0
  stop : Nat := 0
  status : Nat := 0
  pending : List Byte := []
  ordinal : Nat := 0
  consumed : Nat := 0
  emitted : Nat := 0
  held : List Byte := []
  deriving DecidableEq, Repr

def streamOf (r : Nat) : Stream :=
  { flags := BitVec.ofNat 8 (fieldAt r 0 1), stop := fieldAt r 1 1, status := fieldAt r 4 1,
    pending := bytesOf (fieldAt r 5 3) (min 3 (fieldAt r 3 1)), ordinal := fieldAt r 8 8, consumed := fieldAt r 0x10 8,
    emitted := fieldAt r 0x18 8, held := bytesOf (fieldAt r 0x20 32) (min 32 (fieldAt r 2 1)) }

def Stream.image (x : Stream) : Nat :=
  x.flags.toNat + x.stop % 256 * 2 ^ 8 + x.held.length * 2 ^ 16 + x.pending.length * 2 ^ 24 + x.status * 2 ^ 32 +
    numOf x.pending * 2 ^ 40 + x.ordinal % 2 ^ 64 * 2 ^ 64 + x.consumed % 2 ^ 64 * 2 ^ 128 +
    x.emitted % 2 ^ 64 * 2 ^ 192 + numOf x.held * 2 ^ 256

/-- A proper prefix of some stop string. -/
def stopPrefix (stops : List (List Byte)) (l : List Byte) : Bool :=
  l.isEmpty || stops.any fun t => l.isPrefixOf t && l.length < t.length

/-- The state is malformed for a command. -/
def streamBad (r : Nat) (stops : List (List Byte)) : Bool :=
  let x := streamOf r
  fieldAt r 0 1 ≥ 8 || (x.status != 0 && x.status != 0x7E) || fieldAt r 2 1 > 31 || !stopPrefix stops x.held ||
    fieldAt r 3 1 > 3 || (!x.pending.isEmpty && utf8Front x.pending != .more x.pending.length)

/-! ### Tokens through the two stages (09 R255, R256) -/

/-- The UTF-8 stage: what it passes, what stays pending, whether a U+FFFD was produced. -/
def utf8Stage : Nat → List Byte → List Byte × List Byte × Bool
  | 0, l => ([], l, false)
  | fuel + 1, l =>
    match l with
    | [] => ([], [], false)
    | _ =>
      match utf8Front l with
      | .more _ => ([], l, false)
      | .ok _ n =>
        let r := utf8Stage fuel (l.drop n)
        (l.take n ++ r.1, r.2.1, r.2.2)
      | .bad n =>
        let r := utf8Stage fuel (l.drop n)
        (replacement ++ r.1, r.2.1, true)

/-- The stop string that ends at position e of a list: the longest, then the lowest index. -/
def stopEnding (stops : List (List Byte)) (l : List Byte) (e : Nat) : Option (Nat × Nat) :=
  ((stops.zip (List.range stops.length)).filter fun t => t.1.isSuffixOf (l.take e) && !t.1.isEmpty).foldl (fun o t =>
    match o with
    | none => some (t.2, t.1.length)
    | some b => if t.1.length > b.2 then some (t.2, t.1.length) else some b) none

/-- The earliest stop in a list: its end, index and length. -/
def findStop (stops : List (List Byte)) (l : List Byte) : Option (Nat × Nat × Nat) :=
  (List.range (l.length + 1)).findSome? fun e => (stopEnding stops l e).map fun t => (e, t.1, t.2)

/-- The longest suffix of a list that is a proper prefix of a stop string. -/
def holdSuffix (stops : List (List Byte)) (l : List Byte) : List Byte :=
  ((List.range (l.length + 1)).findSome? fun i => if stopPrefix stops (l.drop i) then some (l.drop i) else none).getD []

/-- The stop stage over the held bytes and new ones: emitted bytes, and the state. -/
def stopStage (stops : List (List Byte)) (x : Stream) (new : List Byte) (ordinal : Nat) : List Byte × Stream :=
  let l := x.held ++ new
  match findStop stops l with
  | some (e, i, n) =>
    (l.take (e - n), { x with held := [], pending := [], flags := x.flags ||| 1#8, stop := i, ordinal := ordinal })
  | none =>
    let h := holdSuffix stops l
    (l.take (l.length - h.length), { x with held := h })

/-- One token: emitted bytes, and the state with the token consumed. -/
def stepToken (voc : Vocab) (stops : List (List Byte)) (x : Stream) (id : Nat) : List Byte × Stream :=
  let (bytes, miss) := match entryId voc id with
    | some e => (e.str, false)
    | none => (replacement, true)
  let r := utf8Stage (x.pending.length + bytes.length + 1) (x.pending ++ bytes)
  let f : BitVec 8 := (if r.2.2 then 2#8 else 0) ||| (if miss then 4#8 else 0)
  let y := stopStage stops { x with flags := x.flags ||| f, pending := r.2.1 } r.1 x.consumed
  (y.1, { y.2 with consumed := x.consumed + 1 })

/-- Tokens until the stream stops, the destination is full, or none is left: bytes emitted, the state, whether it filled. -/
def runTokens (voc : Vocab) (stops : List (List Byte)) : List Nat → Nat → Stream → List Byte → List Byte × Stream × Bool
  | [], _, x, out => (out, x, false)
  | id :: t, room, x, out =>
    if x.flags.getLsbD 0 then (out, x, false)
    else
      let r := stepToken voc stops x id
      if r.1.length > room then (out, x, true)
      else runTokens voc stops t (room - r.1.length) r.2 (out ++ r.1)

/-- The end of a stream: a pending sequence becomes U+FFFD, and the held bytes are emitted (09 R257). -/
def finStream (stops : List (List Byte)) (x : Stream) : List Byte × Stream :=
  let y := if x.pending.isEmpty then ([], x)
    else stopStage stops { x with pending := [], flags := x.flags ||| 2#8 } replacement (x.consumed - 1)
  if y.2.flags.getLsbD 0 then y else (y.1 ++ y.2.held, { y.2 with held := [] })

/-- What a command emits, and the state it leaves. -/
def runDetok (voc : Vocab) (c : DetokCmd) (ids : List Nat) (room : Nat) (x : Stream) : List Byte × Stream :=
  let (out, y, full) := runTokens voc c.stops ids room x []
  let end_ := fun (out : List Byte) (y : Stream) (full : Bool) =>
    (out, { y with status := if full then 0x7E else 0, emitted := y.emitted + out.length })
  if full then end_ out y true
  else if c.fin && !y.flags.getLsbD 0 then
    let z := finStream c.stops y
    if out.length + z.1.length > room then end_ out y true else end_ (out ++ z.1) z.2 false
  else end_ out y false

/-! ### The engine (09 R257, R258) -/

/-- Add to the completion counter of a command and drop it; nothing while the counter's translation is awaited. -/
def endDetok (s : State) (k : Nat) (c : DetokCmd) : State :=
  let tag := tagOther k
  let drop := fun (s : State) => engineDone { s with detoks := Table.erase s.detoks k } c.ctx tag
  if c.done == 0 then drop s
  else
    match engineAdd s c.ctx tag c.done 8 1 with
    | .ok s => drop s
    | .wait => engineAsk s c.ctx tag c.done 8 true
    | .fail => drop s
    | .hole a => { s with stuck := some (.noSuchAddress a) }

/-- The reads and writes of a command are all there, or what is missing. -/
def detokNeeds (s : State) (k : Nat) (c : DetokCmd) (rs : List (Word64 × Nat × Bool)) : Got Unit :=
  rs.foldl (fun g r => match g with
    | .ok _ => engineRange s c.ctx (tagOther k) r.1 r.2.1 r.2.2
    | g => g) (.ok ())

/-- Process one command whole. -/
def processDetok (s : State) (k : Nat) (c : DetokCmd) : State :=
  let tag := tagOther k
  let src := Table.getD (ctxOf s c.ctx).sources c.dst {}
  let fixed := [(c.buf, 4 * c.count, false), (c.stream, 64, true), (c.stream, 64, false)] ++
    (if c.done == 0 then [] else [(c.done, 8, true)])
  let ask := fun (s : State) (rs : List (Word64 × Nat × Bool)) => rs.foldl (fun s r => engineAsk s c.ctx tag r.1 r.2.1 r.2.2) s
  match detokNeeds s k c (fixed.take 3), detokNeeds s k c (fixed.drop 3) with
  | .hole a, _ | _, .hole a => { s with stuck := some (.noSuchAddress a) }
  | .wait, _ | _, .wait => ask s fixed
  | .fail, _ => endDetok s k c
  | .ok _, _ =>
    if vaPoisoned s c.ctx c.buf (4 * c.count) || vaPoisoned s c.ctx c.stream 64 then endDetok s k c
    else
      let rd := fun (a : Word64) (n : Nat) => leBytes (fun i => vaByte s c.ctx none (a + BitVec.ofNat 64 i)) 0 n
      let r := rd c.stream 64
      if streamBad r c.stops then endDetok (vaWrite s c.ctx none (c.stream + 4) 0x7F 1) k c
      else if (streamOf r).flags.getLsbD 0 then endDetok s k c
      else
        let buf := rd c.buf (4 * c.count)
        let ids := (List.range c.count).map fun i => fieldAt buf (4 * i) 4
        let (out, y) := runDetok (Table.getD (ctxOf s c.ctx).vocs c.voc {}) c ids (src.capacity - src.sealed) (streamOf r)
        let dst := src.base + BitVec.ofNat 64 src.sealed
        match engineWrite s c.ctx tag none dst out.length (numOf out) with
        | .wait => engineAsk s c.ctx tag dst out.length true
        | .hole a => { s with stuck := some (.noSuchAddress a) }
        | .fail => endDetok s k c
        | .ok s =>
          let s := vaWrite s c.ctx none c.stream y.image 64
          let s := (fixed ++ [(dst, out.length, true)]).foldl (fun s r => touchPolders s c.ctx r.1.toNat r.2.1) s
          endDetok (sealAdv s c.ctx c.dst (src.sealed + out.length)).2 k c

/-- DETOK_PROCESS: the engine of a die processes its oldest command (09 R258). -/
def execDetokProcess (die : Nat) (s : State) : Host.Outcome State Fault Refusal :=
  match s.detoks.find? fun c => c.2.die == die with
  | none => done s
  | some (k, c) => finish (processDetok s k c)

end Sys2Proof.Machine
end

