-- ==== Sys2Proof/Machine/HostLink.lean ====
section
/-! DEFINITION. What the host does to the part: BAR0 registers and doorbells, the mailbox, BAR2, write-back words and the
management queue (spec 16 R336, R339 to R341, R343, R348, R429). -/
namespace Sys2Proof.Machine

/-! ### Write-back words (16 R339, R429) -/

/-- The tag under which a queue's write-back word asks for its page. -/
def tagWb (q : Nat) : Nat := tagOther (2 ^ 31 + q)

def setQueueOf (s : State) (q : Nat) (f : Queue → Queue) : State := { s with queues := Table.modify s.queues q f }

/-- Write a queue's write-back word; where it cannot be written, one WRITEBACK record is logged until a later write
succeeds. -/
def writeBack (s : State) (q : Nat) : State :=
  match Table.get? s.queues q with
  | none => s
  | some x =>
    let word := (if x.err then 2 ^ 63 else 0) + x.cons.toNat
    match engineWrite s x.ctx (tagWb q) none x.wb 8 word with
    | .ok s => engineDone (setQueueOf s q fun x => { x with wbPending := false, wbFailed := false }) x.ctx (tagWb q)
    | .wait => engineAsk (setQueueOf s q fun x => { x with wbPending := true }) x.ctx (tagWb q) x.wb 8 true
    | .fail | .hole _ =>
      let s := engineDone (setQueueOf s q fun x => { x with wbPending := false, wbFailed := true }) x.ctx (tagWb q)
      if x.wbFailed then s
      else faultRecord s x.ctx { type := 9, addr := x.wb.toNat, spec := q % 2 ^ 17 + x.cons.toNat * 2 ^ 32 }

/-- Write-back words of a context that waited for a translation are tried again. -/
def retryWriteBacks (s : State) (ctx : Nat) : State :=
  (s.queues.filter fun e => e.2.ctx == ctx && e.2.wbPending).foldl (fun s e => writeBack s e.1) s

/-! ### Doorbells (16 R339) -/

/-- The installed context of a function. -/
def ownedBy (s : State) (fn ctx : Nat) : Bool :=
  match Table.get? s.ctxs ctx with
  | some c => c.cfg.fn == fn && !c.ending
  | none => false

def execDoorbell (fn q : Nat) (v : BitVec 32) (s : State) : Host.Outcome State Fault Refusal :=
  done (match Table.get? s.queues q with
    | none => s
    | some x =>
      if !ownedBy s fn x.ctx then s
      else if (v - x.cons).toNat > x.entries then writeBack (setQueueOf s q fun x => { x with err := true }) q
      else setQueueOf s q fun x => { x with prod := v })

/-- The management doorbell, under the same rules, with 64 entries and no write-back word. -/
def execMgmtDoorbell (fn ctx : Nat) (v : BitVec 32) (s : State) : Host.Outcome State Fault Refusal :=
  done (if ownedBy s fn ctx && (v - (ctxOf s ctx).mgmtCons).toNat ≤ 64 then setCtx s ctx fun c => { c with mgmtProd := v }
    else s)

/-- ADMTAIL: a count that leaves more than ADMSIZE commands outstanding is ignored, and DEVSTAT says so (16 R337). -/
def execAdminDoorbell (v : BitVec 32) (s : State) : Host.Outcome State Fault Refusal :=
  done (if (v - s.adm.head).toNat > s.adm.size then { s with adm := { s.adm with bellError := true } }
    else { s with adm := { s.adm with tail := v } })

/-- ADMCTL: setting bit 0 again clears DEVSTAT bit 2 (16 R336). -/
def execAdmctl (v : BitVec 32) (s : State) : Host.Outcome State Fault Refusal :=
  let a := s.adm
  done { s with adm := { a with enable := v.getLsbD 0, bellError := a.bellError && !(v.getLsbD 0 && !a.enable) } }

/-! ### Interrupt bitmaps and page requests (16 R340, R348) -/

/-- Bits of a 32-bit word of a bitmap that are written 1 are cleared. -/
def clearBits (l : List Nat) (word : Nat) (v : BitVec 32) : List Nat :=
  l.filter fun n => !(n / 32 == word && v.getLsbD (n % 32))

def execFaultPendingClear (fn word : Nat) (v : BitVec 32) (s : State) : Host.Outcome State Fault Refusal :=
  done (setFn s fn fun f => { f with faultPending := clearBits f.faultPending word v })

def execMailboxPendingClear (fn word : Nat) (v : BitVec 32) (s : State) : Host.Outcome State Fault Refusal :=
  done (setFn s fn fun f => { f with mboxPending := clearBits f.mboxPending word v })

def execPrien (fn : Nat) (v : BitVec 32) (s : State) : Host.Outcome State Fault Refusal :=
  done (if v.getLsbD 0 then setFn s fn fun f => { f with priStopped := false } else s)

/-! ### BAR0 (16 R336) -/

/-- A register whose write is ignored while the admin queue is enabled. -/
def whenOff (s : State) (f : Admin → Admin) : State := if s.adm.enable then s else { s with adm := f s.adm }

/-- The low 32 bits of a 64-bit register. -/
def lowHalf (old : Word64) (v : BitVec 32) : Word64 := (old >>> 32 <<< 32) ||| v.setWidth 64

/-- The high 32 bits of a 64-bit register. -/
def highHalf (old : Word64) (v : BitVec 32) : Word64 := (old <<< 32 >>> 32) ||| (v.setWidth 64 <<< 32)

/-- A write of a 32-bit word at an offset of a function's BAR0. -/
def bar0Word (s : State) (fn off : Nat) (v : BitVec 32) : Host.Outcome State Fault Refusal :=
  if off < 0x100000 then (if off % 8 == 0 then execDoorbell fn (off / 8) v s else done s)
  else if off < 0x200000 then
    let n := (off - 0x100000) / 256
    done (if ownedBy s fn n then
        setCtx s n fun c => { c with mbox := Table.put c.mbox ((off - 0x100000) % 256 / 4) 0 v }
      else s)
  else if off < 0x208000 then (if off % 8 == 0 then execMgmtDoorbell fn ((off - 0x200000) / 8) v s else done s)
  else if off < 0x208200 then execFaultPendingClear fn ((off - 0x208000) / 4) v s
  else if off < 0x208400 then execMailboxPendingClear fn ((off - 0x208200) / 4) v s
  else if off == 0x209000 then done (setFn s fn fun f => { f with winctx := v &&& 0x80000FFF#32 })
  else if off == 0x209008 then execPrien fn v s
  else if fn != 0 then done s
  else
    match off with
    | 0x400000 => done (whenOff s fun a => { a with base := lowHalf a.base v })
    | 0x400004 => done (whenOff s fun a => { a with base := highHalf a.base v })
    | 0x400008 => done (whenOff s fun a => { a with size := v.toNat })
    | 0x40000C => execAdmctl v s
    | 0x400010 => execAdminDoorbell v s
    | 0x400018 => done (whenOff s fun a => { a with cplBase := lowHalf a.cplBase v })
    | 0x40001C => done (whenOff s fun a => { a with cplBase := highHalf a.cplBase v })
    | 0x400020 => done (whenOff s fun a => { a with cplSize := v.toNat })
    | 0x400024 => done { s with adm := { s.adm with cplHead := v } }
    | 0x400038 => done { s with adm := { s.adm with apBase := lowHalf s.adm.apBase v } }
    | 0x40003C => done { s with adm := { s.adm with apBase := highHalf s.adm.apBase v } }
    | _ => done s

/-- REGISTER_WRITE: an aligned write of 4 or 8 bytes; 8 bytes reach the registers of both words, and a 64-bit register
whole. -/
def execRegisterWrite (fn off : Nat) (wide : Bool) (v : Word64) (s : State) : Host.Outcome State Fault Refusal :=
  if !wide then (if off % 4 == 0 then bar0Word s fn off (v.setWidth 32) else done s)
  else if off % 8 != 0 then done s
  else if fn == 0 && off == 0x400000 then done (whenOff s fun a => { a with base := v })
  else if fn == 0 && off == 0x400018 then done (whenOff s fun a => { a with cplBase := v })
  else if fn == 0 && off == 0x400038 then done { s with adm := { s.adm with apBase := v } }
  else
    match bar0Word s fn off (v.setWidth 32) with
    | .next s => bar0Word s fn (off + 4) ((v >>> 32).setWidth 32)
    | o => o

/-- A 32-bit word of a bitmap of contexts. -/
def bitmapWord (l : List Nat) (word : Nat) : BitVec 32 :=
  (l.filter (· / 32 == word)).foldl (fun x n => x ||| (1#32 <<< (n % 32))) 0#32

/-- DEVSTAT (16 R336). -/
def devStat (a : Admin) : BitVec 32 :=
  BitVec.ofNat 32 ((if a.ready then 1 else 0) + (if a.fatal then 2 else 0) + (if a.bellError then 4 else 0))

/-- The 32-bit word at an offset of a 64-bit register. -/
def halfAt (off : Nat) (x : Word64) : BitVec 32 := if off % 8 == 0 then x.setWidth 32 else (x >>> 32).setWidth 32

/-- A monitor register of a die by its offset (18 R409); the sensor readings of one access share a number. -/
def monitorWord (s : State) (o n : Nat) : BitVec 32 :=
  if o / 4096 < 24 && o % 4096 < 88 then
    halfAt o (readDie s (o / 4096) (SysReg.ofCode (BitVec.ofNat 16 (0x60 + o % 4096 / 8))) n)
  else 0

/-- The 32-bit word that a function's BAR0 reads at an offset; a register that is only written, and an offset that no register
has, reads as zero (16 R336, R340). -/
def bar0Get (s : State) (fn off n : Nat) : BitVec 32 :=
  let f := fnOf s fn
  let a := s.adm
  if 0x100000 ≤ off && off < 0x200000 then
    let c := (off - 0x100000) / 256
    if ownedBy s fn c then Table.getD (ctxOf s c).mbox ((off - 0x100000) % 256 / 4) 0 else 0
  else if 0x208000 ≤ off && off < 0x208200 then bitmapWord f.faultPending ((off - 0x208000) / 4)
  else if 0x208200 ≤ off && off < 0x208400 then bitmapWord f.mboxPending ((off - 0x208200) / 4)
  else if off == 0x209000 then f.winctx
  else if fn != 0 then 0
  else if 0x800000 ≤ off then monitorWord s (off - 0x800000) n
  else
    match off with
    | 0x400000 | 0x400004 => halfAt off a.base
    | 0x400008 => BitVec.ofNat 32 a.size
    | 0x40000C => if a.enable then 1 else 0
    | 0x400014 => a.head
    | 0x400018 | 0x40001C => halfAt off a.cplBase
    | 0x400020 => BitVec.ofNat 32 a.cplSize
    | 0x400024 => a.cplHead
    | 0x400028 => a.cplLost
    | 0x400030 => devStat a
    | 0x400038 | 0x40003C => halfAt off a.apBase
    | _ => 0

/-- The host reads an aligned word of 4 or 8 bytes of a function's BAR0; any other access reads as zero. -/
def readReg (s : State) (fn off bytes : Nat) : State :=
  let (n, s) := freshNo s
  let v : Word64 :=
    if bytes == 4 && off % 4 == 0 then (bar0Get s fn off n).setWidth 64
    else if bytes == 8 && off % 8 == 0 then bar0Get s fn (off + 4) n ++ bar0Get s fn off n
    else 0
  { s with hostRead := v, hostPoison := false }

/-! ### BAR2 (16 R341) -/

/-- Where one byte of a function's BAR2 lies; nothing where it reads as zero. -/
def bar2Spot (s : State) (fn off : Nat) : Option Tr :=
  if off ≥ 2 ^ 39 then none
  else if fn == 0 then some (podAddr s (localPa s off))
  else
    let w := (fnOf s fn).winctx
    let n := w.toNat % 4096
    let c := (ctxOf s n).cfg
    if !w.getLsbD 31 || !ownedBy s fn n || off ≥ c.heapLimit.toNat then none
    else some (podAddr s (c.heapBase + c.heapOff + BitVec.ofNat 64 off).toNat)

/-- HOST_BAR2: a host read or write of up to 8 bytes. -/
def execHostBar2 (fn off : Nat) (bytes : Nat) (wr : Option Word64) (s : State) : Host.Outcome State Fault Refusal :=
  let n := min bytes 8
  let spots := (List.range n).map fun i => bar2Spot s fn (off + i)
  match spots.findSome? fun x => match x with
    | some (.hole a) => some a
    | _ => none with
  | some a => finish { s with stuck := some (.noSuchAddress a) }
  | none =>
    let pas := (List.range n).zip (spots.map fun x => match x with
      | some (.ok pa) | some (.remote pa) => some pa
      | _ => none)
    match wr with
    | some v => done (pas.foldl (fun s p => match p.2 with
        | some pa => memWrite s pa 1 (byteOf v.toNat p.1).toNat
        | none => s) s)
    | none => done { s with
        hostRead := BitVec.ofNat 64 (numOf (pas.map fun p => match p.2 with
          | some pa => agentByte s none pa
          | none => 0)),
        hostPoison := pas.any fun p => (match p.2 with
          | some pa => poisoned s pa 1
          | none => false) }

/-! ### The management queue (16 R339, R343) -/

/-- The tag under which a context's management queue asks for pages. -/
def tagMgmt : Nat := tagOther (2 ^ 29)

/-- The address of the next entry of a context's management queue. -/
def mgmtEntry (c : Context) : Word64 := c.cfg.mgmtRing + BitVec.ofNat 64 (64 * (c.mgmtCons.toNat % 64))

/-- The entry has its status, and the queue goes on; an operation that waits leaves it where it is. -/
def mgmtDone (ctx : Nat) (r : Option Word32 × State) : Host.Outcome State Fault Refusal :=
  match r with
  | (none, s) => finish s
  | (some st, s) =>
    let s := match engineWrite s ctx tagMgmt none (mgmtEntry (ctxOf s ctx) + 1) 1 (st.toNat % 256) with
      | .ok s => s
      | _ => s
    finish (setCtx s ctx fun c => { c with mgmtCons := c.mgmtCons + 1 })

def execMgmtSsealNew (ctx : Nat) (h : BitVec 32) (a : Word64) (s : State) : Host.Outcome State Fault Refusal :=
  mgmtDone ctx (sealNew s ctx tagMgmt none h.toNat a)

def execMgmtSsealDrop (ctx : Nat) (h : BitVec 32) (_a : Word64) (s : State) : Host.Outcome State Fault Refusal :=
  let r := sealDrop s ctx h.toNat
  mgmtDone ctx (some r.1, r.2)

def execMgmtSsealAdv (ctx : Nat) (h : BitVec 32) (a : Word64) (s : State) : Host.Outcome State Fault Refusal :=
  let r := sealAdv s ctx h.toNat a.toNat
  mgmtDone ctx (some r.1, r.2)

def execMgmtVdefVoc (ctx : Nat) (h : BitVec 32) (a : Word64) (s : State) : Host.Outcome State Fault Refusal :=
  mgmtDone ctx (installVoc s ctx tagMgmt none h.toNat a)

/-- What the next entry asks for: an operation, or status 0xFE. -/
def mgmtTake (s : State) (ctx : Nat) : Option (Option Instr) :=
  match Table.get? s.ctxs ctx with
  | none => none
  | some c =>
    if c.ending || c.mgmtCons == c.mgmtProd then none
    else
      match engineRead s ctx tagMgmt none (mgmtEntry c) 64 with
      | .ok r =>
        let h := BitVec.ofNat 32 (fieldAt r 4 4)
        let a := BitVec.ofNat 64 (fieldAt r 8 8)
        if !zeroAt r 2 2 || !zeroAt r 0x10 48 then some none
        else match fieldAt r 0 1 with
          | 1 => some (some (.mgmtSsealNew ctx h a))
          | 2 => if a == 0 then some (some (.mgmtSsealDrop ctx h a)) else some none
          | 3 => some (some (.mgmtSsealAdv ctx h a))
          | 4 => some (some (.mgmtVdefVoc ctx h a))
          | _ => some none
      | _ => none

/-- An entry that names no operation, or has a nonzero zero field, does nothing. -/
def mgmtBad (s : State) (ctx : Nat) : State :=
  match mgmtDone ctx (some 0xFE#32, s) with
  | .next t => t
  | _ => s

end Sys2Proof.Machine
end

