-- ==== Sys2Proof/Machine/Distribute.lean ====
section
/-! DEFINITION. The work distributor: launch records, the rotation of a dike, firing a bin, groups that start and retire,
reduction logs (spec 03 R72 to R74, R79 to R81, 04 R115 to R117, 10 R279 to R281, 16 R339, R429). -/
namespace Sys2Proof.Machine

/-! ### Launch records (03 R79, R80, 16 R339) -/

/-- The launch that a record asks for, without its kernel. -/
def launchOf (ctx q idx r : Nat) : Launch :=
  { ctx := ctx, queue := q, record := idx, prio := fieldAt r 3 1, coResident := (fieldAt r 2 1).testBit 0,
    ordered := (fieldAt r 2 1).testBit 1, ngroups := fieldAt r 0x10 4, items := fieldAt r 0x18 8,
    args := BitVec.ofNat 64 (fieldAt r 0x20 8), status := BitVec.ofNat 64 (fieldAt r 0x28 8) }

def kernelVa (r : Nat) : Word64 := BitVec.ofNat 64 (fieldAt r 8 8)

/-- A field outside its limits; an item count needs the refill flag of the kernel, where that can be read. -/
def launchRange (r : Nat) (flag : Option Bool) : Bool :=
  fieldAt r 3 1 ≤ 3 && fieldAt r 8 8 % 256 == 0 && 1 ≤ fieldAt r 0x10 4 && fieldAt r 0x10 4 < 2 ^ 31 &&
    fieldAt r 0x20 8 % 8 == 0 && fieldAt r 0x28 8 % 8 == 0 && (fieldAt r 0x18 8 == 0 || flag != some false)

/-- Groups of a kernel that an idle core holds. -/
def idleRoom (k : Kernel) : Nat :=
  let n := min (64 / groupWaves k) (1048576 / (groupWaves k * waveBank k))
  if k.spBytes == 0 then n else min n (262144 / k.spBytes)

/-- What the checks of a record come to. -/
inductive Accept
  | wait
  | hole (addr : Nat)
  | refused (status : Nat)
  | skip
  | ok (la : Launch)
  deriving DecidableEq, Repr

/-- The refill flag of the kernel that a record names, where the header can be read. -/
def refillFlag (s : State) (ctx tag r : Nat) : Option Bool :=
  match engineRead s ctx tag none (kernelVa r) 256 with
  | .ok h => some ((fieldAt h 0x0A 2).testBit 0)
  | _ => none

/-- The argument block and the status word translate. -/
def recordAddresses (s : State) (ctx tag r : Nat) : Got Nat :=
  match engineTr s ctx tag (BitVec.ofNat 64 (fieldAt r 0x20 8)) false with
  | .ok _ => engineTr s ctx tag (BitVec.ofNat 64 (fieldAt r 0x28 8)) true
  | g => g

/-- The checks of R80, in their order. -/
def acceptRecord (s : State) (ctx q idx r : Nat) : Accept :=
  let tag := tagLaunch q
  if fieldAt r 0 2 == 0 then .skip
  else if fieldAt r 0 2 != 1 then .refused 0x20
  else if fieldAt r 2 1 > 3 || !zeroAt r 4 4 || !zeroAt r 0x14 4 || !zeroAt r 0x30 16 then .refused 0x21
  else if !launchRange r (some true) then .refused 0x22
  else
    match engineTr s ctx tag (kernelVa r) false with
    | .wait => .wait
    | _ =>
      if !launchRange r (refillFlag s ctx tag r) then .refused 0x22
      else
        match recordAddresses s ctx tag r with
        | .wait => .wait
        | .hole x => .hole x
        | .fail => .refused 0x23
        | .ok _ =>
          match readKernel s ctx tag none (kernelVa r) with
          | .wait => .wait
          | .hole x => .hole x
          | .unread => .refused 0x23
          | .refused st => .refused st
          | .ok k =>
            let la := { launchOf ctx q idx r with kern := k }
            let la := if la.items == 0 then { la with items := k.items } else la
            let cores := dikeCores (Table.getD s.dikes (ctxOf s ctx).cfg.dike {})
            if la.coResident && la.ngroups > idleRoom k * cores.length then .refused 0x24 else .ok la

/-- Ask for what the checks of a record still miss. -/
def askRecord (s : State) (ctx q r : Nat) : State :=
  let tag := tagLaunch q
  let s := askKernel s ctx tag none (kernelVa r)
  let s := engineAsk s ctx tag (BitVec.ofNat 64 (fieldAt r 0x20 8)) 8 false
  engineAsk s ctx tag (BitVec.ofNat 64 (fieldAt r 0x28 8)) 8 true

/-- A refused launch writes its status, or a LAUNCH record. -/
def refuseLaunch (s : State) (ctx q idx : Nat) (va : Option Word64) (st : Nat) : Option State :=
  writeStatus s ctx (tagLaunch q) q idx va st 0

/-- A held record is accepted, refused or consumed; it stays held while a translation is awaited. -/
def takeHeld (s : State) (q : Nat) (x : Queue) (idx r : Nat) : State :=
  let free := fun (s : State) => engineDone (setQueueOf s q fun x => { x with held := none }) x.ctx (tagLaunch q)
  match acceptRecord s x.ctx q idx r with
  | .wait => askRecord s x.ctx q r
  | .hole a => { s with stuck := some (.noSuchAddress a) }
  | .skip => free s
  | .refused st =>
    let va := BitVec.ofNat 64 (fieldAt r 0x28 8)
    (match refuseLaunch s x.ctx q idx (some va) st with
      | some s => free s
      | none => engineAsk s x.ctx (tagLaunch q) va 8 true)
  | .ok la =>
    let (k, s) := freshNo s
    free { s with launches := Table.set s.launches k la }

/-- LAUNCH_RECORD: the distributor takes the next record of a queue, or goes on with the one it holds. -/
def execLaunchRecord (q : Nat) (s : State) : Host.Outcome State Fault Refusal :=
  match Table.get? s.queues q with
  | none => done s
  | some x =>
    match x.held with
    | some (idx, r) => finish (takeHeld s q x idx r)
    | none =>
      if x.cons == x.prod || (ctxOf s x.ctx).ending then done s
      else
        let idx := x.cons.toNat % x.entries
        let va := x.ring + BitVec.ofNat 64 (64 * idx)
        let next := fun (s : State) (h : Option (Nat × Nat)) =>
          writeBack (setQueueOf s q fun x => { x with cons := x.cons + 1, held := h }) q
        match engineRead s x.ctx (tagLaunch q) none va 64 with
        | .wait => done (engineAsk s x.ctx (tagLaunch q) va 64 false)
        | .hole a => finish { s with stuck := some (.noSuchAddress a) }
        | .fail =>
          let s := next s none
          finish ((refuseLaunch s x.ctx q idx none 0x23).getD s)
        | .ok r =>
          let s := next (engineDone s x.ctx (tagLaunch q)) (some (idx, r))
          finish (takeHeld s q x idx r)

/-! ### Placing groups of a launch (03 R81) -/

/-- The next group of a launch, on the first core on which it fits. -/
def placeNext (s : State) (lk : Nat) (la : Launch) : Option State :=
  match pickCore s la.ctx la.kern (some lk) with
  | none => none
  | some core =>
    let g : Group := { launch := some lk, kern := la.kern, index := la.placed, ngroups := la.ngroups }
    let s := { s with launches := Table.modify s.launches lk fun la => { la with placed := la.placed + 1 } }
    some (placeGroup s la.ctx core g la.args la.prio)

/-- All groups of a co-resident launch, in one step, once all fit. -/
def placeAll (s : State) (lk : Nat) : Nat → Option State
  | 0 => some s
  | n + 1 =>
    match Table.get? s.launches lk with
    | none => none
    | some la =>
      match placeNext s lk la with
      | none => none
      | some t => placeAll t lk n

/-- A launch of a queue whose turn may place a group. -/
def mayPlace (s : State) (lk : Nat) (la : Launch) : Bool :=
  la.ending == 0 && la.placed < la.ngroups &&
    !(la.ordered && s.launches.any fun e => e.1 < lk && e.2.queue == la.queue && e.2.ctx == la.ctx)

/-- One group of a launch, or all of a co-resident one. -/
def placeLaunch (s : State) (lk : Nat) (la : Launch) : Option State :=
  if !mayPlace s lk la then none
  else if la.coResident then placeAll s lk (la.ngroups - la.placed)
  else placeNext s lk la

/-- The first launch of a queue with a placeable group places it. -/
def serveQueue (s : State) (ctx q : Nat) : Option State :=
  (s.launches.filter fun e => e.2.ctx == ctx && e.2.queue == q).findSome? fun e => placeLaunch s e.1 e.2

/-! ### Firing a bin (04 R115, R116) -/

/-- The moment since which a bin is ready, if it is. -/
def readySince (s : State) (b : Bin) : Option Nat :=
  match b.recs with
  | [] => none
  | r :: _ =>
    let byAge := r.enter + 1000 * b.ageUs
    let age := if byAge ≤ s.wall then some byAge else none
    if b.recs.length ≥ b.count then some (min ((b.fullSince).getD s.wall) ((age).getD s.wall)) else age

/-- The effective priority of a ready bin. -/
def effective (s : State) (b : Bin) (since : Nat) : Nat := if s.wall ≥ since + 4000 * b.ageUs then 7 else b.prio

/-- The ready bins of a die that belong to a context. -/
def readyBins (s : State) (ctx die : Nat) : List (Nat × Bin × Nat) :=
  s.bins.filterMap fun e =>
    if e.1 / 512 == die && e.2.ctx == ctx && e.2.enable then (readySince s e.2).map fun t => (e.1, e.2, t) else none

/-- The bin that the sluice unit chooses: one that keeps its turn, else by priority, oldest record, number. -/
def chooseBin (s : State) (ctx die : Nat) : Option (Nat × Bin) :=
  let rs := readyBins s ctx die
  let better := fun (a b : Nat × Bin × Nat) =>
    let pa := effective s a.2.1 a.2.2
    let pb := effective s b.2.1 b.2.2
    let oa := (a.2.1.recs.headD {}).enter
    let ob := (b.2.1.recs.headD {}).enter
    pa > pb || (pa == pb && (oa < ob || (oa == ob && a.1 < b.1)))
  match rs.find? fun r => r.2.1.turnKept with
  | some r => some (r.1, r.2.1)
  | none => (rs.foldl (fun (o : Option (Nat × Bin × Nat)) r => match o with
      | none => some r
      | some x => if better r x then some r else some x) none).map fun r => (r.1, r.2.1)

/-- A bin fires: its oldest records leave it for one new group, whose waves wait for them. -/
def fireBin (s : State) (b : Nat) (x : Bin) (core : Nat) : State :=
  let n := min x.recs.length x.count
  let rest := x.recs.drop n
  let g : Group := { bin := some b, kern := x.kern, slCount := n, slAged := x.recs.length < x.count,
                     slHandle := s.pkg * 2 ^ 14 + b, landing := (x.recs.take n).map (·.bytes) }
  let s := { s with bins := Table.set s.bins b { x with
    recs := rest, turnKept := false, fullSince := if rest.length ≥ x.count then x.fullSince else none } }
  runPushes (wakeBin (placeGroup s x.ctx core g x.args 0) b)

/-- A die's sluice queue: the chosen bin fires where a core fits its node kernel, and keeps its turn otherwise. -/
def serveDie (s : State) (ctx die : Nat) : Option State :=
  match chooseBin s ctx die with
  | none => none
  | some (b, x) => (pickCore s ctx x.kern none).map fun core => fireBin s b x core

/-- A bin that was chosen and did not fit keeps its turn. -/
def keepBin (s : State) (ctx die : Nat) : State :=
  match chooseBin s ctx die with
  | some (b, x) =>
    if (pickCore s ctx x.kern none).isNone then { s with bins := Table.set s.bins b { x with turnKept := true } } else s
  | none => s

/-! ### The rotation of a dike (03 R81) -/

/-- Queues of a rotation: host work queues by number, then the sluice queues of dies from 131,072 up. -/
def rotation (s : State) (ctx : Nat) : List Nat :=
  let bound := (s.queues.filter fun e => e.2.ctx == ctx).map (·.1)
  let left := (s.launches.filter fun e => e.2.ctx == ctx).map (·.2.queue)
  let dies := (s.bins.filter fun e => e.2.ctx == ctx && e.2.enable).map fun e => 131072 + e.1 / 512
  (left ++ dies).foldl (fun l q => insertNat q l) bound

/-- One queue's turn. -/
def serve (s : State) (ctx q : Nat) : Option State :=
  if q < 131072 then serveQueue s ctx q else serveDie s ctx (q - 131072)

/-- The rotation from the queue whose turn is next; sluice queues that are passed over keep their chosen bin. -/
def turnOf (s : State) (dike ctx : Nat) : List Nat → State
  | [] => s
  | q :: t =>
    match serve s ctx q with
    | some s => { s with dikes := Table.modify s.dikes dike fun d => { d with rot := q + 1 } }
    | none => turnOf (if q < 131072 then s else keepBin s ctx (q - 131072)) dike ctx t

/-- DISTRIBUTOR_TURN: a dike's rotation places one group. -/
def execDistributorTurn (dike : Nat) (s : State) : Host.Outcome State Fault Refusal :=
  done (match Table.get? s.dikes dike with
    | none => s
    | some d =>
      match d.running with
      | none => s
      | some ctx =>
        let qs := rotation s ctx
        turnOf s dike ctx (qs.filter (· ≥ d.rot) ++ qs.filter (· < d.rot)))

/-- SLUICE_AGE_READY: the oldest record of a bin reaches age T, or the bin priority 7 where it is ready already; it may fire
at its die's turn (04 R115). -/
def execSluiceAgeReady (bin : Nat) (s : State) : Host.Outcome State Fault Refusal :=
  done (match Table.get? s.bins bin with
    | none => s
    | some x =>
      match x.recs with
      | [] => s
      | r :: _ =>
        let t := match readySince s x with
          | some t => t + 4000 * x.ageUs
          | none => r.enter + 1000 * x.ageUs
        let s := passTo s t
        if x.enable && (Table.getD s.dikes (ctxOf s x.ctx).cfg.dike {}).running == some x.ctx then
          (serveDie s x.ctx (bin / 512)).getD (keepBin s x.ctx (bin / 512))
        else s)

/-! ### Groups (03 R72, R73, 04 R116) -/

/-- The records of a firing at scratchpad offset 0, in arrival order. -/
def landRecords (g : Group) (n : Nat) : List Nat → Nat → Group
  | [], _ => g
  | r :: t, o => landRecords (spWrite g o n r) n t (o + n)

/-- NODE_GROUP_START: every record of a firing has landed, and the group's waves start. -/
def execNodeGroupStart (gk : Nat) (s : State) : Host.Outcome State Fault Refusal :=
  done (match Table.get? s.groups gk with
    | none => s
    | some g =>
      if g.landing.isEmpty then s
      else
        let n := match g.bin.bind (Table.get? s.bins) with
          | some b => RecSize.bytes b.size
          | none => 16
        let s := modGroup s gk fun g => { landRecords g n g.landing 0 with landing := [] }
        (wavesOf s gk).foldl (fun s k => modWave s k fun w => { w with parked := false }) s)

/-- ITEM_QUEUE_REFILL: a core claims item indices for a refill launch (03 R73). -/
def execItemQueueRefill (core lk : Nat) (s : State) : Host.Outcome State Fault Refusal :=
  done (if (Table.getD s.launches lk {}).kern.refill && queuesItems s lk core then
      { s with launches := Table.modify s.launches lk fun la => claimItems la core }
    else s)

def execGroupRetire (gk : Nat) (s : State) : Host.Outcome State Fault Refusal := done (retireGroup s gk)

/-- REDUCTION_LOG_APPLY, then the status of the launch (10 R280). -/
def execReductionLogApply (lk : Nat) (s : State) : Host.Outcome State Fault Refusal := done (finishLaunch s lk)

end Sys2Proof.Machine
end

