-- ==== Sys2Proof/Machine/Events.lean ====
section
/-! DEFINITION. Events of waves, guards, translation, context switches, remote targets and ports (spec 03 R76, R83 to R85, R90,
04 R106 to R108, 10 R262, R277, 11 R286, R301, 16 R341, R347 to R359, R366, 17 R384 to R386, R396). -/
namespace Sys2Proof.Machine

/-! ### Waves in and out of the active set (03 R83 to R85) -/

/-- Waves of the resident context on a core. -/
def coreWaves (s : State) (core : Nat) : List Wave :=
  (allWaves s).filter fun w => w.core == core && w.present && residentCtx s w.ctx

/-- Waits at a word that make a wave swappable (03 R83, 04 R100, R106, R111, 11 R286, R297, 16 R429). -/
def stallSwaps : Stall → Bool
  | .ats _ | .items _ | .push _ | .room _ _ => false
  | .answers _ w => w
  | _ => true

/-- Waits that make a wave swappable whatever the W bit says (03 R83, R88, 04 R100, R124). -/
def waitSwaps : Wait → Bool
  | .stall why => stallSwaps why
  | .bar .. | .sleep _ | .rdv _ | .flush .. | .tasks _ => true
  | .barHeld _ _ _ wait _ => wait
  | .none | .held | .tramp _ | .barvPod _ => false

/-- An active wave that may leave its slot: parked at a word with the W bit while results are in flight, or as a whole with
FRAGFULL; or none of it is ready and a thread waits so, or all its threads are in fragments (03 R83, 12 R321). -/
def canSwap (s : State) (w : Wave) : Bool :=
  let ls := (List.finRange 32).map fun i => w.lanes[i]
  (w.swappable && !w.vfly.isEmpty) || !fullOver s w ||
    (!waveReady s w &&
      (ls.any (fun l => l.life == .live && waitSwaps l.wait) || !ls.any fun l => l.life == .live))

/-- Put a pending wave into the active set in the place of another. -/
def swapWaves (s : State) (out : Option Wave) (inn : Wave) : State :=
  let s := match out with
    | some w => modWave s w.key fun w => { w with active := false, readySince := s.wall }
    | none => s
  modWave s inn.key fun w => { w with active := true, swappable := false }

/-- The swap that is due on a core: a free slot of the active set, or that of a swappable wave, for the ready pending wave
of highest priority, oldest first. -/
def swapDue (s : State) (core : Nat) : Option (Option Wave × Wave) :=
  let ws := coreWaves s core
  let act := ws.filter (·.active)
  match ws.head?.bind fun w0 => swapIn s w0.ctx core with
  | none => none
  | some inn =>
    if act.length < 8 then some (none, inn)
    else (act.find? (canSwap s)).map fun out => (some out, inn)

/-- WAVE_SWAP: the swap that is due on a core. -/
def execWaveSwap (core : Nat) (s : State) : Host.Outcome State Fault Refusal :=
  done (match swapDue s core with
    | none => s
    | some p => swapWaves s p.1 p.2)

/-- The victim of a forced swap: the active wave that has waited longest without being ready, else that of lowest
priority, youngest first. -/
def forcedVictim (s : State) (act : List Wave) : Option Wave :=
  let idle := act.filter fun w => !waveReady s w
  let best := fun (p : Wave → Wave → Bool) (l : List Wave) => l.foldl (fun (o : Option Wave) w => match o with
    | none => some w
    | some x => if p w x then some w else o) none
  match best (fun a b => a.lastIssue < b.lastIssue) idle with
  | some w => some w
  | none => best (fun a b => a.prio < b.prio || (a.prio == b.prio && a.age > b.age)) act

/-- The pending wave of a core that has been ready longest. -/
def longestReady (s : State) (core : Nat) : Option Wave :=
  ((coreWaves s core).filter fun w => !w.active && waveReady s w).foldl (fun (o : Option Wave) w => match o with
    | none => some w
    | some x => if w.readySince < x.readySince then some w else o) none

/-- FORCED_SWAP: the pending wave that has been ready longest, once that is 4,096 cycles. -/
def execForcedSwap (core : Nat) (s : State) : Host.Outcome State Fault Refusal :=
  done (match longestReady s core with
    | none => s
    | some inn =>
      let s := passTo s (inn.readySince + 4096)
      let act := (coreWaves s core).filter (·.active)
      if act.length < 8 then swapWaves s none inn
      else
        match forcedVictim s act with
        | some out => swapWaves s (some out) inn
        | none => s)

/-- LOAD_RESULT_RETURN: a long-latency result is there; registers from 512 up are mask registers. A wave all of whose
results have returned is ready again. -/
def execLoadResultReturn (wave reg : Nat) (s : State) : Host.Outcome State Fault Refusal :=
  let held := (waveOf s wave).guards.any fun g => match g.2 with
    | .pending _ k _ => k % 16 + 512 == reg
    | _ => false
  done (modWave s wave fun w =>
    if reg ≥ 512 then (if held then w else { w with kfly := Table.erase w.kfly (reg - 512) })
    else
      let fly := w.vfly.filter (· != reg)
      { w with vfly := fly, swappable := w.swappable && !fly.isEmpty })

/-! ### Time of a core (01 R23, 03 R76, 17 R396) -/

/-- Run counts at which sleepers of a wave, or its address program, wake. -/
def wakeTimes (s : State) (w : Wave) : List Nat :=
  let at_ := fun (l : Lane) => match l.wait with
    | .sleep t => if l.life == .live then [t] else []
    | _ => []
  (List.finRange 32).flatMap (fun i => at_ w.lanes[i]) ++ (match w.bound with
    | some a => at_ (apOf s a).lanes[(0 : Fin 32)]
    | none => [])

/-- SLEEP_EXPIRY: the run cycles until the next sleeper of a wave wakes pass. -/
def execSleepExpiry (wave : Nat) (s : State) : Host.Outcome State Fault Refusal :=
  let w := waveOf s wave
  done (match (wakeTimes s w).min? with
    | some t => if residentCtx s w.ctx then passTime s (t - w.run) else s
    | none => s)

/-- WAVE_TIMER_EXPIRY: the cycles until the timer of a wave reaches 0 pass. -/
def execWaveTimerExpiry (wave : Nat) (s : State) : Host.Outcome State Fault Refusal :=
  let w := waveOf s wave
  done (if w.present && w.timer != 0 && residentCtx s w.ctx then passTime s w.timer.toNat else s)

/-! ### Guards and `red` (04 R106 to R108, 10 R262, 11 R301) -/

/-- The units take what a wave's guards let proceed, and drop what they discard (04 R107, R108). -/
def runGuarded (s : State) (wave : Nat) : State :=
  runPushes (discardTasks (runSequencer s (coreOfWave wave)) wave 16)

/-- GUARD_RESOLVE: the mask value that a pending slot waits for lands; what resolved slots guard proceeds or is discarded. -/
def execGuardResolve (wave : Nat) (g : BitVec 3) (s : State) : Host.Outcome State Fault Refusal :=
  let w := waveOf s wave
  done (match Table.getD w.guards g.toNat .isTrue with
    | .pending _ k _ =>
      if k ≥ 16 then s
      else
        let s := mapGuards s wave fun x => match x with
          | .pending v k' m => if k' == k then guardIs v else .pending v k' m
          | x => x
        runGuarded (modWave s wave fun w => { w with kfly := Table.erase w.kfly k }) wave
    | _ => runGuarded s wave)

/-- RED_APPLY: one pending `red` is performed; `red`s of one core to one location keep their order. -/
def execRedApply (i : Nat) (s : State) : Host.Outcome State Fault Refusal :=
  done (match s.reds[i]? with
    | none => s
    | some r =>
      if (s.reds.take i).any (fun x => x.core == r.core && x.pa < r.pa + 8 && r.pa < x.pa + 8) then s
      else applyRed { s with reds := s.reds.eraseIdx i } r)

/-! ### Answers to page requests (16 R348) -/

/-- Whether any request of a fragment is still open. -/
def fragOpen (f : Frag) : Bool := f.info.any fun i => i.page.isSome && i.answer == .pending

/-- A fragment all of whose requests have been answered: it resumes; or the refused lanes trap as one fragment that keeps
the entry, and the others leave it and resume at the faulting instruction (16 R348). -/
def settlePages (s : State) (fk : Nat) : State :=
  match Table.get? s.frags fk with
  | none => s
  | some f =>
    if f.st != .waiting || fragOpen f then s
    else
      let refused := fun (i : FaultInfo) => i.answer == .invalid || i.answer == .failure
      let bad := f.info.filter refused
      if bad.isEmpty then resumeFrag s fk
      else
        let good := f.info.filter fun i => !refused i
        let mask := fun (l : List FaultInfo) => maskOf (l.map fun i => Fin.ofNat 32 i.lane)
        let bad := bad.map fun i => { i with page := none, detail := if i.answer == .failure then 2 else 1 }
        let s := setFrag s fk { f with lanes := mask bad, info := bad }
        let s := if good.isEmpty then s else resumeLanes s f.wave (mask good) f.pc f.hdr good false
        settleWave (deliver s fk false) f.wave

/-- Put an answer into every fragment of a context that waits on a page under a cause, and settle those that it
completes. -/
def answerFrags (s : State) (ctx page : Nat) (cause : Cause) (a : PageAnswer) : State :=
  let waits := fun (f : Frag) => f.cause == cause && f.st == .waiting &&
    f.info.any fun i => i.page == some page && i.answer == .pending
  let keys := (s.frags.filter fun f => f.1 / 131072 == ctx && waits f.2).map (·.1)
  let one := fun (i : FaultInfo) => if i.page == some page && i.answer == .pending then { i with answer := a } else i
  let all := fun (k : Nat) (f : Frag) => if keys.contains k then { f with info := f.info.map one } else f
  let s := { s with frags := Table.mapVals s.frags all }
  keys.foldl settlePages s

/-- Whether a page request for a page is open. -/
def requested (s : State) (ctx page : Nat) : Bool := (ctxOf s ctx).pri.any fun q => q.page == page && q.answer == .pending

/-- PRI_SUCCESS: the part repeats the ATS request, and the fragments resume. -/
def execPriSuccess (ctx page : Nat) (s : State) : Host.Outcome State Fault Refusal :=
  done (if !requested s ctx page then s
    else
      let s := setCtx s ctx fun c =>
        let kinds := (c.pri.filter fun q => q.page == page && q.answer == .pending).map fun q => (page, q.write)
        { c with
          pri := c.pri.filter fun q => !(q.page == page && q.answer == .pending),
          denied := c.denied.filter fun d => d.1 != page,
          tlb := c.tlb.filter fun e => !(e.page ≤ page && page < e.page + e.bytes),
          ats := (c.ats ++ kinds).eraseDups }
      answerFrags s ctx page .page .success)

/-- A request that the host refuses: engines see their translation fail, and lanes trap. -/
def refusePage (s : State) (ctx page : Nat) (a : PageAnswer) : State :=
  let s := setCtx s ctx fun c => { c with pri := (c.pri.filter fun q => !(q.page == page && q.tag == 0)).map fun q =>
    if q.page == page && q.answer == .pending then { q with answer := a } else q }
  retryWriteBacks (answerFrags s ctx page .page a) ctx

def execPriInvalidRequest (ctx page : Nat) (s : State) : Host.Outcome State Fault Refusal :=
  done (if requested s ctx page then refusePage s ctx page .invalid else s)

/-- PRI_RESPONSE_FAILURE: as Invalid Request, and the part sends no page request of the function any more. -/
def execPriResponseFailure (ctx page : Nat) (s : State) : Host.Outcome State Fault Refusal :=
  done (if requested s ctx page then
      refusePage (setFn s (ctxOf s ctx).cfg.fn fun f => { f with priStopped := true }) ctx page .failure
    else s)

/-! ### ATS (10 R277, 16 R347, R349) -/

/-- ATS_COMPLETION: the page's translation with the kinds it allows, or none; fragments whose handler's header was awaited are
delivered. -/
def execAtsCompletion (ctx page : Nat) (ans : Option AtsAnswer) (s : State) : Host.Outcome State Fault Refusal :=
  done (if !((ctxOf s ctx).ats.any fun a => a.1 == page) then s
    else
      let s := setCtx s ctx fun c =>
        let kinds := c.ats.filter fun a => a.1 == page
        let c := { c with ats := c.ats.filter fun a => a.1 != page }
        match ans with
        | none => { c with denied := (c.denied ++ kinds).eraseDups }
        | some a =>
          let bytes := if a.big then 2097152 else 65536
          let lo := page / bytes * bytes
          { c with tlb := { page := lo, bytes := bytes, addr := a.addr, read := a.read, write := a.write } ::
              c.tlb.filter fun e => !(e.page < lo + bytes && lo < e.page + e.bytes) }
      redeliver (retryWriteBacks s ctx) ctx)

/-- ATS_INVALIDATION completes once no cache holds an entry of the range and every access translated through one has been
performed; the expansion map stays. -/
def execAtsInvalidation (ctx page bytes : Nat) (s : State) : Host.Outcome State Fault Refusal :=
  let meets := fun (lo n : Nat) => lo < page + bytes && page < lo + n
  done (if s.remotes.any (fun r => r.2.ctx == ctx && meets r.2.addr.toNat r.2.bytes) then s
    else
      setCtx (flushAll s) ctx fun c => { c with
        tlb := c.tlb.filter fun e => !meets e.page e.bytes,
        denied := c.denied.filter fun d => !meets d.1 65536 })

/-! ### Expansion (16 R341, R351, R352) -/

/-- The next entry of a context's expansion frame ring: its address, and the frame it offers. -/
def nextFrame (s : State) (c : Context) : Option (Nat × Nat) :=
  match podAddr s (c.cfg.expRing + c.cfg.heapOff + BitVec.ofNat 64 (8 * (c.expHead % 64))).toNat with
  | .ok pa =>
    let e := memRead s pa 8
    if e.testBit 0 then some (pa, e / 65536 % 2 ^ 23 * 65536) else none
  | _ => none

/-- The zone slot of an awaited page. -/
def coldSlot (s : State) (ctx page : Nat) : Option Nat :=
  match translate s ctx (BitVec.ofNat 64 page) false with
  | .cold slot => some slot
  | _ => none

/-- The bytes of a slot in a frame; those of a slot that COLD has not filled are free values. -/
def expandInto (s : State) (slot pa : Nat) : State :=
  let s := { s with poison := (s.poison.filter fun g => !(pa ≤ g * 64 && g * 64 < pa + 65536)) }
  if s.zoneSlots.contains slot then
    { s with
      mem := copyCells s.zoneData (slot * 65536) 65536 s.mem pa,
      poison := ((s.zonePoison.filter fun g => g / 1024 == slot).map fun g => pa / 64 + g % 1024).foldl
        (fun l g => insertNat g l) s.poison }
  else
    let (n, s) := freshNo s
    { s with mem := (List.range 65536).foldl (fun m i => Table.put m (pa + i) 0 (Config.spadByte n i)) s.mem }

/-- EXPANSION_DONE: the part takes a frame, expands the slot into it, maps the page, and reports it; the fragments resume.
It waits for a frame, room in the map, and room in the completion ring. -/
def execExpansionDone (ctx page : Nat) (s : State) : Host.Outcome State Fault Refusal :=
  let c := ctxOf s ctx
  if !c.expanding.contains page then done s
  else
    match coldSlot s ctx page, nextFrame s c with
    | some slot, some (ring, frame) =>
      let live := c.exmap.filter fun e => exHolds s c.cfg e && e.2 % 65536 != c.expHead % 64
      if live.length ≥ 1024 || !cplRoom s.adm || s.adm.waiting.isSome then done s
      else if !usable frame then finish { s with stuck := some (.noSuchAddress frame) }
      else
        let s := memWrite s ring 1 ((memByte s ring).toNat / 2 * 2)
        let s := expandInto s slot (localPa s frame)
        let s := setCtx s ctx fun c => { c with
          exmap := live ++ [(page, frame + c.expHead % 64)], expHead := c.expHead + 1, expanding := c.expanding.erase page }
        let s := putCpl s { kind := 1, value := c.expHead % 64, addr := page, ctx := ctx }
        done (retryWriteBacks (answerFrags s ctx page .expand .success) ctx)
    | none, _ => done (answerFrags (setCtx s ctx fun c => { c with expanding := c.expanding.erase page }) ctx page .expand .success)
    | _, none => done s

/-! ### Time slices and switches (16 R353 to R359) -/

/-- A queue or bin of a context has a placeable group (03 R81). -/
def hasPlaceable (s : State) (ctx : Nat) : Bool :=
  (rotation s ctx).any fun q => (serve s ctx q).isSome

/-- Waits that can end without the context running: on the host, other packages, copies, builds, scans, and what held
commands and engines still do (16 R353, R354, 09 R236). -/
def endsAway (s : State) (w : Wave) : Wait → Bool
  | .bar .pod .. | .barHeld .pod .. | .barvPod _ | .flush .. => true
  | .stall why => match why with
    | .ats _ | .answers .. | .engine _ | .lines _ | .items _ | .copyRoom _ | .batches _ | .bytes _ | .guard _ | .passes _
    | .counter .. | .push _ | .unit _ => true
    | .words need => need.all fun n => n.2 ≤ (Table.getD (queuesOf s w) n.1 []).length
    | .room .. | .fork | .taskRoom _ => false
  | _ => false

/-- A context is runnable in its dike: a wave of it, or an address program, can go on (log 99); or a wave is parked on a wait
that can end without the context running; or it has a placeable group (16 R353). -/
def runnable (s : State) (ctx : Nat) : Bool :=
  ((allWaves s).any fun w => w.ctx == ctx && (waveReady s w || (List.finRange 32).any fun i =>
      w.lanes[i].life == .live && endsAway s w w.lanes[i].wait)) ||
    (s.aps.any fun a => a.2.ctx == ctx && laneReady s a.2 0) ||
    (s.frags.any fun f => f.1 / 131072 == ctx && f.2.st == .waiting && f.2.waitsForPart) ||
    hasPlaceable s ctx

/-- The runnable context of highest priority, among equals the one that ran least recently. -/
def choose (s : State) (dike : Nat) (p : Nat → Bool) : Option Nat :=
  ((s.ctxs.filter fun e => e.2.cfg.dike == dike && !e.2.ending && p e.1 && runnable s e.1).foldl
    (fun (o : Option (Nat × Context)) e => match o with
      | none => some e
      | some x =>
        if e.2.cfg.prio > x.2.cfg.prio || (e.2.cfg.prio == x.2.cfg.prio && e.2.lastRan < x.2.lastRan) then some e
        else o) none).map (·.1)

def setDike (s : State) (n : Nat) (f : Dike → Dike) : State := { s with dikes := Table.modify s.dikes n f }

/-- A context has been chosen: unless its image stands in the shadow bank, the fill starts once no spill is in
progress. -/
def chooseNext (s : State) (dike c : Nat) : State :=
  setDike s dike fun d =>
    if d.shadow == some c || d.spilling then { d with chosen := some c }
    else { d with chosen := some c, shadow := some c, filling := true }

/-- TIME_SLICE_END: the slice of the running context ends, and the scheduler chooses. -/
def execTimeSliceEnd (dike : Nat) (s : State) : Host.Outcome State Fault Refusal :=
  done (match Table.get? s.dikes dike with
    | none => s
    | some d =>
      let s := match d.running with
        | some r =>
          let s := passTo s (d.sliceStart + 1000 * d.sliceUs)
          setCtx s r fun c => { c with lastRan := s.wall }
        | none => s
      match choose s dike fun _ => true with
      | none => s
      | some c => if d.running == some c then setDike s dike fun d => { d with sliceStart := s.wall, chosen := none }
          else chooseNext s dike c)

/-- A context that the scheduler chooses before the slice ends: one of higher priority than the running one. -/
def preempts (s : State) (dike : Nat) (d : Dike) : Option Nat :=
  match d.running with
  | none => choose s dike fun _ => true
  | some r => choose s dike fun c => (ctxOf s c).cfg.prio > (ctxOf s r).cfg.prio

/-- Running tile tasks of a context that do not wait for a translation (16 R355). -/
def tasksBusy (s : State) (ctx : Nat) : Bool :=
  s.tasks.any fun t => t.2.ctx == ctx && t.2.running && (match taskRange s t.1 t.2 with
    | .wait => false
    | _ => true)

/-- The primary and the shadow bank of every core change places: 64 cycles pass, run cycles of neither context; barriers that
were filled meanwhile end their phases (03 R88, 16 R354, R359). -/
def changeBanks (s : State) (dike c : Nat) : State :=
  let out := (Table.getD s.dikes dike {}).running
  let s := passTime (setDike s dike fun d => { d with running := none }) 64
  let s := setCtx s c fun x => { x with lastRan := s.wall }
  let s := setDike s dike fun d => { d with
    running := some c, shadow := out, chosen := none, spilling := out.isSome, filling := out.isNone, sliceStart := s.wall }
  (s.groups.filter fun g => g.2.ctx == c).foldl (fun s g => settleBarriers s g.1) s

/-- CONTEXT_SWITCH: the chosen context takes over a dike. A task that waits on a translation returns to its queue. -/
def execContextSwitch (dike : Nat) (s : State) : Host.Outcome State Fault Refusal :=
  done (match Table.get? s.dikes dike with
    | none => s
    | some d =>
      let s := match preempts s dike d with
        | some c => if d.chosen == some c then s else chooseNext s dike c
        | none => s
      let d := Table.getD s.dikes dike {}
      match d.chosen with
      | none => s
      | some c =>
        if d.shadow != some c || d.spilling || d.filling || (match d.running with
            | some r => tasksBusy s r
            | none => false) then s
        else
          let s := match d.running with
            | some r =>
              let s := setCtx s r fun x => { x with lastRan := s.wall }
              { s with tasks := Table.mapVals s.tasks fun _ t => if t.ctx == r then { t with running := false } else t }
            | none => s
          changeBanks s dike c)

/-- BANK_SPILL_DONE: the image of the outgoing context stands in its save area, and the shadow bank is filled with the image of
the context that would be chosen next (16 R356, R357). -/
def execBankSpillDone (dike : Nat) (s : State) : Host.Outcome State Fault Refusal :=
  done (match Table.get? s.dikes dike with
    | none => s
    | some d =>
      if !d.spilling then s
      else
        let (k, s) := freshNo s
        let s := match d.shadow with
          | some o => setCtx s o fun c => { c with spilled := some k }
          | none => s
        let next := match d.chosen with
          | some c => some c
          | none => choose s dike fun c => d.running != some c
        setDike s dike fun d => { d with spilling := false, filling := true, shadow := next })

/-- BANK_FILL_DONE: the fill of the shadow bank, and of the quads of the running context, has ended. -/
def execBankFillDone (dike : Nat) (s : State) : Host.Outcome State Fault Refusal :=
  done (setDike s dike fun d => { d with filling := false })

/-! ### Remote targets and peers (11 R286, 16 R366, 17 R384, R386) -/

/-- A lane that waits at its word takes what its target answered; an answer for a lane that has ended is discarded, and its wave's
slot may be free now (14 R326). -/
def answerLane (s : State) (r : RemoteReq) (ans : Option RemoteAnswer) : State :=
  if (waveOf s r.wave).group != r.group then s
  else
    settleWave (modWave s r.wave fun w => mapLanes w (laneBit (Fin.ofNat 32 r.lane)) fun _ l =>
      if l.life == .live then { l with answers := l.answers ++ [(r.pa, ans)] } else l) r.wave

/-- What another package answers, or that it does not answer in time, reaches an operation of the part, a read of a `dlv`, the
fetch of an address program, or a lane. -/
def answerReq (s : State) (r : RemoteReq) (ans : Option RemoteAnswer) : State :=
  match r.tag with
  | some t => retryWriteBacks (setCtx s r.ctx fun c => { c with farAns := c.farAns ++ [(t, r.pa / 2 ^ 39, ans)] }) r.ctx
  | none =>
    if r.ap then
      if r.bytes == 4 then dlvAnswer s r ans
      else modAp s r.wave fun w => mapLanes w 1 fun _ l => { l with answers := l.answers ++ [(r.pa, ans)] }
    else answerLane s r ans

/-- REMOTE_RESPONSE; one that comes after the timeout finds no request and is discarded. -/
def execRemoteResponse (req : Nat) (ans : RemoteAnswer) (s : State) : Host.Outcome State Fault Refusal :=
  done (match Table.get? s.remotes req with
    | none => s
    | some r => answerReq { s with remotes := Table.erase s.remotes req } r (some ans))

/-- REMOTE_TIMEOUT: no response within the remote timeout, in wall time. -/
def execRemoteTimeout (req : Nat) (s : State) : Host.Outcome State Fault Refusal :=
  done (match Table.get? s.remotes req with
    | none => s
    | some r =>
      let s := passTo s (r.since + 1000 * (ctxOf s r.ctx).cfg.timeoutUs)
      answerReq { s with remotes := Table.erase s.remotes req } r none)

/-- INBOUND: a peer's access of 8 bytes at a context of this package is performed, or it faults here: it is not performed
and a record tells the context. -/
def execInbound (ctx : Nat) (va : Word64) (pkg : Nat) (wr : Option Word64) (s : State) :
    Host.Outcome State Fault Refusal :=
  let bad := fun (c : Cause) (a : Nat) => faultRecord s ctx { type := 3, cause := c.bitNo, addr := a, spec := pkg % 128 }
  done (match Table.get? s.ctxs ctx with
    | none => s
    | some _ =>
      match translate s ctx va wr.isSome with
      | .ok pa =>
        let s := touchPolders s ctx va.toNat 8
        (match wr with
        | some v => memWrite s pa 8 v.toNat
        | none => s)
      | .ats => askAts s ctx (pageOf va) wr.isSome
      | .cold _ => bad .expand va.toNat
      | .page | .refused _ => bad .page va.toNat
      | .remote _ | .hole _ => bad .remote va.toNat)

/-- A thread whose arrival at a `.pod` barrier was closed. -/
def closeLane (l : Lane) : Lane :=
  { l with
    arr := l.arr.map fun a => if keyScope a.1 == .pod then (a.1, neverPhase) else a,
    saved := l.saved.filter fun w => (match w.2 with
      | .bar .pod .. | .barHeld .pod .. => false
      | _ => true),
    wait := match l.wait with
      | .bar .pod num _ since => .bar .pod num neverPhase since
      | .barHeld .pod num _ wait since => .barHeld .pod num neverPhase wait since
      | x => x }

/-- Open phases of `.pod` barriers close without completion: phases opened afterwards count from zero (03 R90). -/
def closePod (s : State) : State :=
  let pod := fun (k : Nat) => keyScope k == .pod
  let next := fun (k : Nat) (b : Barrier) =>
    if pod k then { phase := b.phase + 1 } else b
  let close := fun (w : Wave) => { w with lanes := lanesOf fun i => closeLane w.lanes[i] }
  { s with
    me := if s.me.present then close s.me else s.me,
    waves := Table.mapVals s.waves fun _ w => close w,
    ctxs := Table.mapVals s.ctxs fun _ c => { c with bars := Table.mapVals c.bars next },
    groups := Table.mapVals s.groups fun _ g => { g with bars := g.bars.filter fun b => !pod b.1 } }

/-- Packages that cannot be reached any more: the pod-degraded bit is set, open phases of `.pod` barriers close, and each
context's fault queue says so (03 R90, 17 R384). -/
def losePackages (s : State) (ps : List Nat) : State :=
  let s := { s with lost := ps.foldl (fun l p => insertNat p l) s.lost }
  if ps.isEmpty || s.degraded then s
  else
    let s := closePod { s with degraded := true, degradedAt := s.wall }
    s.ctxs.foldl (fun s e => faultRecord s e.1 { type := 6, spec := s.packages }) s

/-- PORT_FAILURE: a port is removed from use; where no port is left, no other package of the pod can be reached (16 R366). -/
def execPortFailure (port : Nat) (s : State) : Host.Outcome State Fault Refusal :=
  let s := if port < 36 then { s with portsDown := insertNat port s.portsDown } else s
  done (if s.portsDown.length < 36 then s else losePackages s ((List.range s.packages).filter (· != s.pkg)))

/-- The pod loses its path to one package (03 R90). -/
def packageLost (s : State) (p : Nat) : State := if p < s.packages && p != s.pkg then losePackages s [p] else s

/-- The wall time since which a lane waits on the pod in a way that only the remote timeout ends (03 R90, 04 R124). -/
def podSince (s : State) (w : Wave) (l : Lane) : Option Nat :=
  if l.life != .live then none
  else
    match l.wait with
    | .bar .pod num ph since =>
      if (barrierOf s w.group .pod (barrierKey .pod w.core num)).phase > ph then none else some since
    | .barHeld .pod _ _ _ since | .barvPod since => some since
    | .flush ts since => if (flushOpen s w.ctx ts).any fun t => s.lost.contains (handlePkg (t.1 % 2 ^ 40)) then some since else none
    | _ => none

/-- Lanes of a wave that wait on the pod, since a wall time at the latest. -/
def podWaiters (s : State) (w : Wave) (latest : Nat) : LaneMask :=
  lanesWhere w fun l => (match podSince s w l with
    | some t => t ≤ latest
    | none => false)

/-- The lanes of a wave that have waited too long fault with REMOTE_TIMEOUT, one path group after the other; the wave's turn
stays where it is. -/
def podFault (s : State) (k latest : Nat) : Nat → State
  | 0 => s
  | fuel + 1 =>
    let w := waveOf s k
    let late := podWaiters s w latest
    match (lanesIn late).head? with
    | none => s
    | some l =>
      let m := pathGroup w l &&& late
      if m == 0 then s
      else
        let s := { s with me := w, iss := m, waves := Table.erase s.waves k }
        let s := { s with word := if unfetched w.lanes[l] then 0 else wordHere s }
        let s := commitWith s (faultLanes m .remoteTimeout 0 (lostPackage s)) id
        let full := s.me.full != 0
        let s := unstage s m
        if full then s
        else podFault (modWave s k fun x => { x with
          turnLow := w.turnLow, inBlock := w.inBlock, away := w.away, lastIssue := w.lastIssue }) k latest fuel

/-- POD_DEGRADED_TIMEOUT: while the pod is degraded, the remote timeout has passed for lanes of a context that wait at a
`.pod` barrier or at `pxflush.wait`. -/
def execPodDegradedTimeout (ctx : Nat) (s : State) : Host.Outcome State Fault Refusal :=
  done (if !s.degraded || s.me.present then s
    else
      let us := (ctxOf s ctx).cfg.timeoutUs * 1000
      let starts := (s.waves.filter fun e => e.2.ctx == ctx).flatMap fun e => (List.finRange 32).filterMap fun i =>
        podSince s e.2 e.2.lanes[i]
      match starts.min? with
      | none => s
      | some t =>
        let s := passTo s (t + us)
        let latest := s.wall - us
        (s.waves.filter fun e => e.2.ctx == ctx).foldl (fun s e => podFault s e.1 latest 32) s)

end Sys2Proof.Machine
end

