-- ==== Sys2Proof/Machine/Functions.lean ====
section
/-! DEFINITION. The function instructions, correctly rounded (spec 07 R183). Each irrational result is evaluated with 512
fraction bits and a sticky bit below them, and then rounded once (DEDUCED, log 31: no FP32 argument has its exact result
within the evaluation error of a midpoint). -/
namespace Sys2Proof.Machine

/-- Fraction bits of the evaluation. -/
def fxP : Nat := 512

/-- ln 2 and pi in units of 2^−512, rounded down. -/
def fxLn2 : Nat :=
  0xb17217f7d1cf79abc9e3b39803f2f6af40f343267298b62d8a0d175b8baafa2be7b876206debac98559552fb4afa1b10ed2eae35c138214427573b291169b825
def fxPi : Nat :=
  0x3243f6a8885a308d313198a2e03707344a4093822299f31d0082efa98ec4e6c89452821e638d01377be5466cf34e90c6cc0ac29b7c97c50dd3f84d5b5b5470917

/-- Terms of exp: the next term is this one times x / n. -/
def expTerms (x : Nat) : Nat → Nat → Nat → Nat → Nat
  | 0, _, _, acc => acc
  | fuel + 1, n, term, acc =>
    let t := (term * x) >>> fxP / n
    expTerms x fuel (n + 1) t (acc + t)

/-- exp of a fraction below 1. -/
def fxExp (x : Nat) : Nat := expTerms x 110 1 (2 ^ fxP) (2 ^ fxP)

/-- Terms of atanh: odd powers of z. -/
def atanhTerms (z2 : Nat) : Nat → Nat → Nat → Nat → Nat
  | 0, _, _, acc => acc
  | fuel + 1, n, pow, acc => atanhTerms z2 fuel (n + 2) ((pow * z2) >>> fxP) (acc + pow / n)

/-- log2 of y, for y in units of 2^−512 from 1 to 2. -/
def fxLog2 (y : Nat) : Nat :=
  let one := 2 ^ fxP
  let z := ((y - one) <<< fxP) / (y + one)
  ((2 * atanhTerms ((z * z) >>> fxP) 180 1 z 0) <<< fxP) / fxLn2

/-- Terms of sine, the added and the taken away ones in turn. -/
def sinTerms (x2 : Nat) : Nat → Nat → Nat → Int → Int
  | 0, _, _, acc => acc
  | fuel + 1, n, term, acc =>
    let t1 := (term * x2) >>> fxP / (n * (n + 1))
    let t2 := (t1 * x2) >>> fxP / ((n + 2) * (n + 3))
    sinTerms x2 fuel (n + 4) t2 (acc - t1 + t2)

/-- sin(pi × r) for r from 0 to 1/2. -/
def fxSinPi (r : Nat) : Nat :=
  let x := (r * fxPi) >>> fxP
  (sinTerms ((x * x) >>> fxP) 40 2 x x).toNat

/-- Integer square root, one bit at a time. -/
def sqrtBits (n : Nat) : Nat → Nat → Nat
  | 0, r => r
  | b + 1, r => let c := r + 2 ^ b; sqrtBits n b (if c * c ≤ n then c else r)

def isqrt (n : Nat) : Nat := sqrtBits n (Nat.log2 n / 2 + 1) 0

/-- Round an irrational value: a truncated magnitude with a bit below it that stands for the rest. -/
def roundOpen (r : Rnd) (neg : Bool) (v : Nat) (e : Int) : Nat × BitVec 5 := roundTo .f32 r 0 neg (2 * v + 1) (e - 1)

/-- Round a truncated magnitude that is exact or not. -/
def roundPart (r : Rnd) (neg exact : Bool) (v : Nat) (e : Int) : Nat × BitVec 5 :=
  roundTo .f32 r 0 neg (2 * v + (if exact then 0 else 1)) (e - 1)

def infCode (neg : Bool) : Nat := signCode .f32 neg (maxCode .f32 + 1)

def oneCode (neg : Bool) : Nat := signCode .f32 neg 0x3F800000

def fRcp (r : Rnd) (a : FVal) : Nat × BitVec 5 :=
  match a with
  | .nan s => nanResult .f32 s
  | .inf n => (signCode .f32 n 0, 0)
  | .fin n m e =>
    if m = 0 then (infCode n, fDZ)
    else
      let q := 2 ^ 256 / m
      roundPart r n (q * m == 2 ^ 256) q (-256 - e)

def fSqrt (r : Rnd) (a : FVal) : Nat × BitVec 5 :=
  match a with
  | .nan s => nanResult .f32 s
  | .inf n => if n then nanResult .f32 true else (infCode false, 0)
  | .fin n m e =>
    if m = 0 then (signCode .f32 n 0, 0)
    else if n then nanResult .f32 true
    else
      let (m, e) := if e.emod 2 = 0 then (m, e) else (2 * m, e - 1)
      let w := m <<< 256
      let s := isqrt w
      roundPart r false (s * s == w) s (e / 2 - 128)

def fRsq (a : FVal) : Nat × BitVec 5 :=
  match a with
  | .nan s => nanResult .f32 s
  | .inf n => if n then nanResult .f32 true else (0, 0)
  | .fin n m e =>
    if m = 0 then (infCode n, fDZ)
    else if n then nanResult .f32 true
    else
      let p : Nat := if e.emod 2 = 0 then 400 else 401
      let s := isqrt (2 ^ p / m)
      roundPart .rn false (s * s * m == 2 ^ p) s (-((p + e) / 2))

def fEx2 (a : FVal) : Nat × BitVec 5 :=
  match a with
  | .nan s => nanResult .f32 s
  | .inf n => if n then (0, 0) else (infCode false, 0)
  | .fin n m e =>
    if m = 0 then (oneCode false, 0)
    else if (Nat.log2 m : Int) + e ≥ 8 then roundTo .f32 .rn 0 false 1 (if n then -300 else 300)
    else
      let x := shiftBy m (e + fxP)
      let z : Int := if n then -(x : Int) else x
      let k := z.fdiv (2 ^ fxP)
      let f := (z - k * 2 ^ fxP).toNat
      if f = 0 then roundTo .f32 .rn 0 false 1 k else roundOpen .rn false (fxExp ((f * fxLn2) >>> fxP)) (k - fxP)

def fLg2 (a : FVal) : Nat × BitVec 5 :=
  match a with
  | .nan s => nanResult .f32 s
  | .inf n => if n then nanResult .f32 true else (infCode false, 0)
  | .fin n m e =>
    if m = 0 then (infCode true, fDZ)
    else if n then nanResult .f32 true
    else
      let k := Nat.log2 m
      let y := m <<< (fxP - k)
      let z : Int := (k : Int) + e
      if y = 2 ^ fxP then roundDyad .f32 .rn { z := z, e := 0 } false
      else
        let v := z * 2 ^ fxP + fxLog2 y
        if v < 0 then roundTo .f32 .rn 0 true (2 * v.natAbs - 1) (-513) else roundOpen .rn false v.toNat (-512)

def fSin (a : FVal) : Nat × BitVec 5 :=
  match a with
  | .nan s => nanResult .f32 s
  | .inf _ => nanResult .f32 true
  | .fin n m e =>
    if 0 ≤ e || m = 0 then (signCode .f32 n 0, 0)
    else
      let den := 2 ^ (-e).toNat
      let t := m % (2 * den)
      let u := t % den
      if u = 0 then (signCode .f32 n 0, 0)
      else
        let neg := n != (t > den)
        let u := if 2 * u > den then den - u else u
        if 2 * u = den then (oneCode neg, 0) else roundOpen .rn neg (fxSinPi ((u <<< fxP) / den)) (-512)

def fCos (a : FVal) : Nat × BitVec 5 :=
  match a with
  | .nan s => nanResult .f32 s
  | .inf _ => nanResult .f32 true
  | .fin _ m e =>
    if 0 ≤ e then (oneCode (shiftBy m e % 2 == 1), 0)
    else
      let den := 2 ^ (-e).toNat
      let t := m % (2 * den)
      let v := if t > den then 2 * den - t else t
      if v = 0 then (oneCode false, 0)
      else if v = den then (oneCode true, 0)
      else if 2 * v = den then (0, 0)
      else
        let d := if 2 * v < den then den - 2 * v else 2 * v - den
        roundOpen .rn (2 * v > den) (fxSinPi ((d <<< fxP) / (2 * den))) (-512)

def fTanh (a : FVal) : Nat × BitVec 5 :=
  match a with
  | .nan s => nanResult .f32 s
  | .inf n => (oneCode n, 0)
  | .fin n m e =>
    if m = 0 then (signCode .f32 n 0, 0)
    else if (Nat.log2 m : Int) + e ≥ 5 then roundTo .f32 .rn 0 n (2 ^ 200 - 1) (-200)
    else
      let x := shiftBy m (e + 1 + fxP)
      let k := x / fxLn2
      let ex := fxExp (x - k * fxLn2) <<< k
      let one := 2 ^ fxP
      roundOpen .rn n (((ex - one) <<< fxP) / (ex + one)) (-512)

end Sys2Proof.Machine
end

