-- ==== Sys2Proof/Machine/Float.lean ====
section
/-! DEFINITION. Float and conversion instructions (spec 07 R179 to R188). -/
namespace Sys2Proof.Machine

/-- The word of a float source after abs and neg, which change only its sign bit (07 R179). -/
def fWord (s : State) (a : FSrc) (l : Fin 32) : Nat := applySign a.neg a.abs 32 (src32 s a.o l).toNat

/-- The value of a float source. -/
def fVal (s : State) (a : FSrc) (l : Fin 32) : FVal := decodeF .f32 (fWord s a l)

/-- A result with its flags as a register value. -/
def asWord (x : Nat × BitVec 5) : Word64 × BitVec 5 := (BitVec.ofNat 64 x.1, x.2)

def fOp2 (h : Head) (d : Operand) (a b : FSrc) (s : State) (f : FVal → FVal → Nat × BitVec 5) :
    Host.Outcome State Fault Refusal :=
  done (fltInstr h .w32 d [(a.o, 1), (b.o, 1)] s fun s l => asWord (f (fVal s a l) (fVal s b l)))

def fOp1 (h : Head) (d : Operand) (a : FSrc) (s : State) (f : FVal → Nat × BitVec 5) :
    Host.Outcome State Fault Refusal :=
  done (fltInstr h .w32 d [(a.o, 1)] s fun s l => asWord (f (fVal s a l)))

def execFadd (h : Head) (r : Rnd) (d : Operand) (a b : FSrc) (s : State) : Host.Outcome State Fault Refusal :=
  fOp2 h d a b s (fAdd r)

/-- The other sign; a NaN stays as it is. -/
def negVal : FVal → FVal
  | .nan q => .nan q
  | .inf n => .inf (!n)
  | .fin n m e => .fin (!n) m e

def execFsub (h : Head) (r : Rnd) (d : Operand) (a b : FSrc) (s : State) : Host.Outcome State Fault Refusal :=
  fOp2 h d a b s fun x y => fAdd r x (negVal y)

def execFmul (h : Head) (r : Rnd) (d : Operand) (a b : FSrc) (s : State) : Host.Outcome State Fault Refusal :=
  fOp2 h d a b s (fMul r)

def execFfma (h : Head) (r : Rnd) (d : Operand) (a b c : FSrc) (s : State) : Host.Outcome State Fault Refusal :=
  done (fltInstr h .w32 d [(a.o, 1), (b.o, 1), (c.o, 1)] s fun s l =>
    asWord (fFma r (fVal s a l) (fVal s b l) (fVal s c l)))

def execFmin (h : Head) (d : Operand) (a b : FSrc) (s : State) : Host.Outcome State Fault Refusal :=
  done (fltInstr h .w32 d [(a.o, 1), (b.o, 1)] s fun s l => asWord (fPick false (fWord s a l) (fWord s b l)))

def execFmax (h : Head) (d : Operand) (a b : FSrc) (s : State) : Host.Outcome State Fault Refusal :=
  done (fltInstr h .w32 d [(a.o, 1), (b.o, 1)] s fun s l => asWord (fPick true (fWord s a l) (fWord s b l)))

/-- `fcmp` writes the bits of its active lanes and raises NV as its condition says (07 R181). -/
def execFcmp (h : Head) (cond : FCond) (k : BitVec 4) (a b : FSrc) (s : State) : Host.Outcome State Fault Refusal :=
  done (regInstr h false [(a.o, 1), (b.o, 1)] s fun m s =>
    let t := fun l => fTest cond (fVal s a l) (fVal s b l)
    modMe s fun me => raiseFlags (writeKBits me k m (maskOf ((lanesIn m).filter fun l => (t l).1))) m fun l => (t l).2)

def execFclass (h : Head) (d : Operand) (a : FSrc) (s : State) : Host.Outcome State Fault Refusal :=
  done (aluInstr h .w32 d [(a.o, 1)] s fun s l => 1#64 <<< fClassBit (fWord s a l))

def execFrcp (h : Head) (r : Rnd) (d : Operand) (a : FSrc) (s : State) : Host.Outcome State Fault Refusal :=
  fOp1 h d a s (fRcp r)

def execFrsq (h : Head) (d : Operand) (a : FSrc) (s : State) : Host.Outcome State Fault Refusal := fOp1 h d a s fRsq

def execFsqrt (h : Head) (r : Rnd) (d : Operand) (a : FSrc) (s : State) : Host.Outcome State Fault Refusal :=
  fOp1 h d a s (fSqrt r)

def execFex2 (h : Head) (d : Operand) (a : FSrc) (s : State) : Host.Outcome State Fault Refusal := fOp1 h d a s fEx2

def execFlg2 (h : Head) (d : Operand) (a : FSrc) (s : State) : Host.Outcome State Fault Refusal := fOp1 h d a s fLg2

def execFsin (h : Head) (d : Operand) (a : FSrc) (s : State) : Host.Outcome State Fault Refusal := fOp1 h d a s fSin

def execFcos (h : Head) (d : Operand) (a : FSrc) (s : State) : Host.Outcome State Fault Refusal := fOp1 h d a s fCos

def execFtanh (h : Head) (d : Operand) (a : FSrc) (s : State) : Host.Outcome State Fault Refusal := fOp1 h d a s fTanh

/-- Packed element i of a 16-bit format, after abs and neg of both elements (07 R184). -/
def halfVal (f : FFmt) (s : State) (a : FSrc) (i : Nat) (l : Fin 32) : FVal :=
  decodeF f (applySign a.neg a.abs 16 ((src32 s a.o l).toNat >>> (16 * i)))

def execFdot2 (h : Head) (bf : Bool) (r : Rnd) (d : Operand) (a b c : FSrc) (s : State) :
    Host.Outcome State Fault Refusal :=
  done (fltInstr h .w32 d [(a.o, 1), (b.o, 1), (c.o, 1)] s fun s l =>
    let f : FFmt := if bf then .bf16 else .f16
    asWord (fDot2 r (halfVal f s a 0 l) (halfVal f s a 1 l) (halfVal f s b 0 l) (halfVal f s b 1 l) (fVal s c l)))

/-! ### Conversions (07 R185 to R188) -/

/-- A conversion that advances the generator of each active lane by n steps under `.rs` (05 R138). -/
def rsInstr (h : Head) (w : Width) (d : Operand) (srcs : List (Operand × Nat)) (rs : Bool) (n : Nat) (s : State)
    (val : State → Fin 32 → Word64 × BitVec 5) : State :=
  regInstr h d.isScalar srcs s fun m s => modMe s fun me =>
    let l0 := lowest m
    let me := raiseFlags (writeW me w d m fun l => (val s l).1) m fun l => (val s (if d.isScalar then l0 else l)).2
    if rs then mapLanes me m fun _ l => { l with rng := (List.range n).foldl (fun x _ => rngStep x) l.rng } else me

/-- The value of `cvt` for a source word (07 R185). -/
def cvtWord (kind : CvtKind) (x : Nat) : Word64 × BitVec 5 :=
  match kind with
  | .intToFloat d i r => asWord (intToFloat d r (decodeI i x))
  | .floatToInt d f r => floatToInt d r (decodeF f x)
  | .intToInt d i sat => (intToInt d sat (decodeI i x), 0)

def execCvt (h : Head) (kind : CvtKind) (d a : Operand) (s : State) : Host.Outcome State Fault Refusal :=
  done (fltInstr h kind.dstWidth d [(a, widthWords kind.srcWidth)] s fun s l =>
    cvtWord kind (srcW s kind.srcWidth a l).toNat)

/-- The generator state a lane rounds its i-th element with (05 R138). -/
def rngAt (s : State) (l : Fin 32) (i : Nat) : Word32 :=
  (List.range (i + 1)).foldl (fun x _ => rngStep x) s.me.lanes[l].rng

def execFcvt (h : Head) (df sf : FFmt) (r : Rnd) (d a : Operand) (s : State) : Host.Outcome State Fault Refusal :=
  done (rsInstr h .w32 d [(a, 1)] (r == .rs) 1 s fun s l =>
    asWord (convF df r (rngAt s l 0) (decodeF sf (src32 s a l).toNat)))

/-- `fpack`: two elements rounded into the pair j of c's word (07 R186). -/
def execFpack (h : Head) (df : FFmt) (j : BitVec 3) (r : Rnd) (d a b c : Operand) (s : State) :
    Host.Outcome State Fault Refusal :=
  done (rsInstr h .w32 d [(a, 1), (b, 1), (c, 1)] (r == .rs) 2 s fun s l =>
    let x := convF df r (rngAt s l 0) (f32 (src32 s a l))
    let y := convF df r (rngAt s l 1) (f32 (src32 s b l))
    let at0 := 2 * j.toNat * df.bits
    let pair := BitVec.ofNat 64 ((x.1 + y.1 <<< df.bits) <<< at0)
    let mask := BitVec.ofNat 64 ((2 ^ (2 * df.bits) - 1) <<< at0)
    (((src32 s c l).setWidth 64 &&& ~~~mask) ||| pair, x.2 ||| y.2))

/-- `funpk`: element i converted exactly to FP32; only a signalling element raises NV (07 R186). -/
def execFunpk (h : Head) (sf : FFmt) (i : BitVec 3) (d a : Operand) (s : State) : Host.Outcome State Fault Refusal :=
  done (fltInstr h .w32 d [(a, 1)] s fun s l =>
    asWord (convF .f32 .rn 0 (decodeF sf ((src32 s a l).toNat >>> (i.toNat * sf.bits)))))

def execLgcvt (h : Head) (toF32 : Bool) (r : Rnd) (d a : Operand) (s : State) : Host.Outcome State Fault Refusal :=
  done (if toF32 then
      fltInstr h .w32 d [(a, 1)] s fun s l => asWord (convF .f32 .rn 0 (decodeLg (src32 s a l).toNat))
    else
      rsInstr h .w32 d [(a, 1)] (r == .rs) 1 s fun s l => asWord (roundLg r (rngAt s l 0) (f32 (src32 s a l))))

/-- `srnd` seeds the generator of every active lane (05 R137, 07 R188). -/
def execSrnd (h : Head) (a : Operand) (s : State) : Host.Outcome State Fault Refusal :=
  done (regInstr h false [(a, 1)] s fun m s => modMe s fun me =>
    mapLanes me m fun i l => { l with rng := rngSeed (src32 s a i) i.val })

end Sys2Proof.Machine
end

