-- ==== Sys2Proof/Machine/Integer.lean ====
section
/-! DEFINITION. Integer, logic, address, move and select instructions (spec 07 R169 to R178). -/
namespace Sys2Proof.Machine

def tySigned : IntTy → Bool
  | .z32 | .z64 => true
  | .n32 | .n64 => false

/-- Width in bits. -/
def widthBits : Width → Nat
  | .w32 => 32
  | .w64 => 64

/-- The integer that a word stands for under a type (05 R134). -/
def intOf (ty : IntTy) (x : Word64) : Int :=
  match ty with
  | .z32 => (x.setWidth 32).toInt
  | .n32 => (x.setWidth 32).toNat
  | .z64 => x.toInt
  | .n64 => x.toNat

/-- wrap(z) of R171. -/
def wrapTo (ty : IntTy) (z : Int) : Word64 :=
  match ty.width with
  | .w32 => (BitVec.ofInt 32 z).setWidth 64
  | .w64 => BitVec.ofInt 64 z

def minOf : IntTy → Int
  | .z32 => -2147483648
  | .z64 => -9223372036854775808
  | _ => 0

def maxOf : IntTy → Int
  | .z32 => 2147483647
  | .n32 => 4294967295
  | .z64 => 9223372036854775807
  | .n64 => 18446744073709551615

/-- sat(z) of R171. -/
def clampTo (ty : IntTy) (z : Int) : Word64 :=
  wrapTo ty (if z < minOf ty then minOf ty else if z > maxOf ty then maxOf ty else z)

def wrapOrSat (ty : IntTy) (sat : Bool) (z : Int) : Word64 := if sat then clampTo ty z else wrapTo ty z

/-- An immediate sign-extended to the width (07 R177). -/
def immS (imm : BitVec 24) : Word64 := imm.signExtend 64

/-- An immediate zero-extended. -/
def immZ (imm : BitVec 24) : Word64 := imm.setWidth 64

/-- A source with the words it reads at a width. -/
def at_ (w : Width) (o : Operand) : Operand × Nat := (o, widthWords w)

/-- Instructions of two sources on integers under a type. -/
def intOp2 (h : Head) (ty : IntTy) (d a b : Operand) (s : State) (f : Int → Int → Word64) :
    Host.Outcome State Fault Refusal :=
  done (aluInstr h ty.width d [at_ ty.width a, at_ ty.width b] s fun s l =>
    f (intOf ty (srcW s ty.width a l)) (intOf ty (srcW s ty.width b l)))

def intOpImm (h : Head) (ty : IntTy) (d a : Operand) (imm : BitVec 24) (s : State) (f : Int → Int → Word64) :
    Host.Outcome State Fault Refusal :=
  done (aluInstr h ty.width d [at_ ty.width a] s fun s l =>
    f (intOf ty (srcW s ty.width a l)) (intOf ty (immS imm)))

def execIadd (h : Head) (ty : IntTy) (sat : Bool) (d a b : Operand) (s : State) : Host.Outcome State Fault Refusal :=
  intOp2 h ty d a b s fun x y => wrapOrSat ty sat (x + y)

def execIaddImm (h : Head) (ty : IntTy) (sat : Bool) (d a : Operand) (imm : BitVec 24) (s : State) :
    Host.Outcome State Fault Refusal := intOpImm h ty d a imm s fun x y => wrapOrSat ty sat (x + y)

def execIsub (h : Head) (ty : IntTy) (sat : Bool) (d a b : Operand) (s : State) : Host.Outcome State Fault Refusal :=
  intOp2 h ty d a b s fun x y => wrapOrSat ty sat (x - y)

def execIsubImm (h : Head) (ty : IntTy) (sat : Bool) (d a : Operand) (imm : BitVec 24) (s : State) :
    Host.Outcome State Fault Refusal := intOpImm h ty d a imm s fun x y => wrapOrSat ty sat (x - y)

def execImul (h : Head) (ty : IntTy) (sat : Bool) (d a b : Operand) (s : State) : Host.Outcome State Fault Refusal :=
  intOp2 h ty d a b s fun x y => wrapOrSat ty sat (x * y)

def execImulImm (h : Head) (ty : IntTy) (sat : Bool) (d a : Operand) (imm : BitVec 24) (s : State) :
    Host.Outcome State Fault Refusal := intOpImm h ty d a imm s fun x y => wrapOrSat ty sat (x * y)

/-- Bits 2w−1:w of the exact product. -/
def execImulh (h : Head) (ty : IntTy) (d a b : Operand) (s : State) : Host.Outcome State Fault Refusal :=
  intOp2 h ty d a b s fun x y => wrapTo ty ((x * y) / 2 ^ widthBits ty.width)

def execImad (h : Head) (ty : IntTy) (sat : Bool) (d a b c : Operand) (s : State) :
    Host.Outcome State Fault Refusal :=
  done (aluInstr h ty.width d [at_ ty.width a, at_ ty.width b, at_ ty.width c] s fun s l =>
    wrapOrSat ty sat (intOf ty (srcW s ty.width a l) * intOf ty (srcW s ty.width b l) +
      intOf ty (srcW s ty.width c l)))

def execImin (h : Head) (ty : IntTy) (d a b : Operand) (s : State) : Host.Outcome State Fault Refusal :=
  intOp2 h ty d a b s fun x y => wrapTo ty (if x ≤ y then x else y)

def execIminImm (h : Head) (ty : IntTy) (d a : Operand) (imm : BitVec 24) (s : State) :
    Host.Outcome State Fault Refusal := intOpImm h ty d a imm s fun x y => wrapTo ty (if x ≤ y then x else y)

def execImax (h : Head) (ty : IntTy) (d a b : Operand) (s : State) : Host.Outcome State Fault Refusal :=
  intOp2 h ty d a b s fun x y => wrapTo ty (if x ≤ y then y else x)

def execImaxImm (h : Head) (ty : IntTy) (d a : Operand) (imm : BitVec 24) (s : State) :
    Host.Outcome State Fault Refusal := intOpImm h ty d a imm s fun x y => wrapTo ty (if x ≤ y then y else x)

/-- The signed type of a width. -/
def zTy : Width → IntTy
  | .w32 => .z32
  | .w64 => .z64

def intOp1 (h : Head) (w : Width) (d a : Operand) (s : State) (f : Int → Word64) : Host.Outcome State Fault Refusal :=
  done (aluInstr h w d [at_ w a] s fun s l => f (intOf (zTy w) (srcW s w a l)))

def execIabs (h : Head) (w : Width) (sat : Bool) (d a : Operand) (s : State) : Host.Outcome State Fault Refusal :=
  intOp1 h w d a s fun x => wrapOrSat (zTy w) sat x.natAbs

def execIneg (h : Head) (w : Width) (sat : Bool) (d a : Operand) (s : State) : Host.Outcome State Fault Refusal :=
  intOp1 h w d a s fun x => wrapOrSat (zTy w) sat (-x)

/-- Element i of 8 bits, signed or not (07 R174). -/
def byteElem (z : Bool) (x : Word32) (i : Nat) : Int :=
  let e := x.extractLsb' (8 * i) 8
  if z then e.toInt else e.toNat

/-- The exact sum of `idot4`. -/
def dot4 (za zb : Bool) (a b c : Word32) : Int :=
  c.toInt + ((List.range 4).map fun i => byteElem za a i * byteElem zb b i).foldl (· + ·) 0

def execIdot4 (h : Head) (za zb sat : Bool) (d a b c : Operand) (s : State) : Host.Outcome State Fault Refusal :=
  done (aluInstr h .w32 d [(a, 1), (b, 1), (c, 1)] s fun s l =>
    wrapOrSat .z32 sat (dot4 za zb (src32 s a l) (src32 s b l) (src32 s c l)))

/-! ### Bits -/

def bitOp2 (h : Head) (w : Width) (d a b : Operand) (s : State) (f : Word64 → Word64 → Word64) :
    Host.Outcome State Fault Refusal :=
  done (aluInstr h w d [at_ w a, at_ w b] s fun s l => f (srcW s w a l) (srcW s w b l))

def bitOpImm (h : Head) (w : Width) (d a : Operand) (imm : BitVec 24) (s : State) (f : Word64 → Word64 → Word64) :
    Host.Outcome State Fault Refusal :=
  done (aluInstr h w d [at_ w a] s fun s l => f (srcW s w a l) (immS imm))

def bitOp1 (h : Head) (w wd : Width) (d a : Operand) (s : State) (f : Word64 → Word64) :
    Host.Outcome State Fault Refusal :=
  done (aluInstr h wd d [at_ w a] s fun s l => f (srcW s w a l))

def execAnd (h : Head) (w : Width) (d a b : Operand) (s : State) : Host.Outcome State Fault Refusal :=
  bitOp2 h w d a b s fun x y => x &&& y

def execAndImm (h : Head) (w : Width) (d a : Operand) (imm : BitVec 24) (s : State) :
    Host.Outcome State Fault Refusal := bitOpImm h w d a imm s fun x y => x &&& y

def execOr (h : Head) (w : Width) (d a b : Operand) (s : State) : Host.Outcome State Fault Refusal :=
  bitOp2 h w d a b s fun x y => x ||| y

def execOrImm (h : Head) (w : Width) (d a : Operand) (imm : BitVec 24) (s : State) :
    Host.Outcome State Fault Refusal := bitOpImm h w d a imm s fun x y => x ||| y

def execXor (h : Head) (w : Width) (d a b : Operand) (s : State) : Host.Outcome State Fault Refusal :=
  bitOp2 h w d a b s fun x y => x ^^^ y

def execXorImm (h : Head) (w : Width) (d a : Operand) (imm : BitVec 24) (s : State) :
    Host.Outcome State Fault Refusal := bitOpImm h w d a imm s fun x y => x ^^^ y

def execNot (h : Head) (w : Width) (d a : Operand) (s : State) : Host.Outcome State Fault Refusal :=
  bitOp1 h w w d a s fun x => ~~~x

/-- Bit j is bit 4·a_j + 2·b_j + c_j of the table (07 R173). -/
def bool3Word (t : BitVec 8) (a b c : Word64) : Word64 :=
  (List.finRange 8).foldl (fun r i =>
    if t.getLsbD i.val then
      r ||| ((if i.val.testBit 2 then a else ~~~a) &&& (if i.val.testBit 1 then b else ~~~b) &&&
        (if i.val.testBit 0 then c else ~~~c))
    else r) 0

def execBool3 (h : Head) (w : Width) (t : BitVec 8) (d a b c : Operand) (s : State) :
    Host.Outcome State Fault Refusal :=
  done (aluInstr h w d [at_ w a, at_ w b, at_ w c] s fun s l =>
    bool3Word t (srcW s w a l) (srcW s w b l) (srcW s w c l))

/-- A value cut to a width. -/
def cut (w : Width) (x : Word64) : Word64 :=
  match w with
  | .w32 => (x.setWidth 32).setWidth 64
  | .w64 => x

/-- Shifts and rotates by n (07 R172). -/
def shlWord (w : Width) (x : Word64) (n : Nat) : Word64 := if n < widthBits w then cut w (x <<< n) else 0

def shrWord (w : Width) (x : Word64) (n : Nat) : Word64 := if n < widthBits w then cut w x >>> n else 0

def sarWord (w : Width) (x : Word64) (n : Nat) : Word64 :=
  match w with
  | .w32 => ((x.setWidth 32).sshiftRight (if n < 32 then n else 31)).setWidth 64
  | .w64 => x.sshiftRight (if n < 64 then n else 63)

def rotWord (w : Width) (x : Word64) (n : Nat) : Word64 :=
  match w with
  | .w32 => ((x.setWidth 32).rotateLeft (n % 32)).setWidth 64
  | .w64 => x.rotateLeft (n % 64)

def shiftOp (h : Head) (w : Width) (d a b : Operand) (s : State) (f : Width → Word64 → Nat → Word64) :
    Host.Outcome State Fault Refusal :=
  done (aluInstr h w d [at_ w a, (b, 1)] s fun s l => f w (srcW s w a l) (src32 s b l).toNat)

def shiftImm (h : Head) (w : Width) (d a : Operand) (imm : BitVec 24) (s : State)
    (f : Width → Word64 → Nat → Word64) : Host.Outcome State Fault Refusal :=
  done (aluInstr h w d [at_ w a] s fun s l => f w (srcW s w a l) imm.toNat)

def execShl (h : Head) (w : Width) (d a b : Operand) (s : State) : Host.Outcome State Fault Refusal :=
  shiftOp h w d a b s shlWord

def execShlImm (h : Head) (w : Width) (d a : Operand) (imm : BitVec 24) (s : State) :
    Host.Outcome State Fault Refusal := shiftImm h w d a imm s shlWord

def execShr (h : Head) (w : Width) (d a b : Operand) (s : State) : Host.Outcome State Fault Refusal :=
  shiftOp h w d a b s shrWord

def execShrImm (h : Head) (w : Width) (d a : Operand) (imm : BitVec 24) (s : State) :
    Host.Outcome State Fault Refusal := shiftImm h w d a imm s shrWord

def execSar (h : Head) (w : Width) (d a b : Operand) (s : State) : Host.Outcome State Fault Refusal :=
  shiftOp h w d a b s sarWord

def execSarImm (h : Head) (w : Width) (d a : Operand) (imm : BitVec 24) (s : State) :
    Host.Outcome State Fault Refusal := shiftImm h w d a imm s sarWord

def execRot (h : Head) (w : Width) (d a b : Operand) (s : State) : Host.Outcome State Fault Refusal :=
  shiftOp h w d a b s rotWord

def execRotImm (h : Head) (w : Width) (d a : Operand) (imm : BitVec 24) (s : State) :
    Host.Outcome State Fault Refusal := shiftImm h w d a imm s rotWord

/-- The field of `bfx`: n bits from position p, sign- or zero-extended (07 R173). -/
def bfxWord (ty : IntTy) (x : Word64) (pn : Nat) : Word64 :=
  let w := widthBits ty.width
  let p := pn % 256
  let n := min (pn / 256 % 256) w
  let f := (x.toNat % 2 ^ w) >>> p % 2 ^ n
  if n = 0 then 0
  else if tySigned ty && f.testBit (n - 1) then wrapTo ty ((f : Int) - 2 ^ n)
  else wrapTo ty f

def execBfx (h : Head) (ty : IntTy) (d a b : Operand) (s : State) : Host.Outcome State Fault Refusal :=
  done (aluInstr h ty.width d [at_ ty.width a, (b, 1)] s fun s l =>
    bfxWord ty (srcW s ty.width a l) (src32 s b l).toNat)

def execBfxImm (h : Head) (ty : IntTy) (d a : Operand) (imm : BitVec 24) (s : State) :
    Host.Outcome State Fault Refusal :=
  done (aluInstr h ty.width d [at_ ty.width a] s fun s l => bfxWord ty (srcW s ty.width a l) imm.toNat)

/-- The word of `bfi`: bits p to p+n−1 of c replaced by the low bits of a (07 R173). -/
def bfiWord (w : Width) (a c : Word64) (pn : Nat) : Word64 :=
  let p := pn % 256
  let n := min (pn / 256 % 256) (widthBits w)
  if n = 0 || p ≥ widthBits w then c
  else
    let mask : Word64 := BitVec.ofNat 64 ((2 ^ n - 1) <<< p)
    cut w ((c &&& ~~~mask) ||| ((a <<< p) &&& mask))

def execBfi (h : Head) (w : Width) (d a b c : Operand) (s : State) : Host.Outcome State Fault Refusal :=
  done (aluInstr h w d [at_ w a, (b, 1), at_ w c] s fun s l =>
    bfiWord w (srcW s w a l) (srcW s w c l) (src32 s b l).toNat)

/-- Number of set bits among the low n. -/
def countBits (x : Word64) (n : Nat) : Nat := ((List.range n).filter fun i => x.getLsbD i).length

/-- Number of leading zero bits of a value of n bits. -/
def leadingZeros (x : Word64) : Nat → Nat
  | 0 => 0
  | n + 1 => if x.getLsbD n then 0 else leadingZeros x n + 1

/-- Reverse the low n bits. -/
def reverseBits (x : Word64) (n : Nat) : Word64 :=
  (List.range n).foldl (fun r i => if x.getLsbD i then r ||| (1#64 <<< (n - 1 - i)) else r) 0

def execPopc (h : Head) (w : Width) (d a : Operand) (s : State) : Host.Outcome State Fault Refusal :=
  bitOp1 h w .w32 d a s fun x => BitVec.ofNat 64 (countBits x (widthBits w))

def execClz (h : Head) (w : Width) (d a : Operand) (s : State) : Host.Outcome State Fault Refusal :=
  bitOp1 h w .w32 d a s fun x => BitVec.ofNat 64 (leadingZeros x (widthBits w))

def execBrev (h : Head) (w : Width) (d a : Operand) (s : State) : Host.Outcome State Fault Refusal :=
  bitOp1 h w w d a s fun x => reverseBits x (widthBits w)

/-- A condition of `icmp` (07 R175). -/
def icmpTest (c : ICond) (x y : Int) : Bool :=
  match c with
  | .eq => x == y
  | .ne => x != y
  | .lt => x < y
  | .le => x ≤ y
  | .gt => x > y
  | .ge => x ≥ y

def execIcmp (h : Head) (ty : IntTy) (cond : ICond) (k : BitVec 4) (a b : Operand) (s : State) :
    Host.Outcome State Fault Refusal :=
  done (cmpInstr h k [at_ ty.width a, at_ ty.width b] s fun s l =>
    icmpTest cond (intOf ty (srcW s ty.width a l)) (intOf ty (srcW s ty.width b l)))

def execIcmpImm (h : Head) (ty : IntTy) (cond : ICond) (k : BitVec 4) (a : Operand) (imm : BitVec 24) (s : State) :
    Host.Outcome State Fault Refusal :=
  done (cmpInstr h k [at_ ty.width a] s fun s l =>
    icmpTest cond (intOf ty (srcW s ty.width a l)) (intOf ty (immS imm)))

/-! ### Address, move, select (07 R176, R178) -/

def execLea (h : Head) (sh : BitVec 3) (sx : Bool) (d a b : Operand) (s : State) : Host.Outcome State Fault Refusal :=
  done (aluInstr h .w64 d [(a, 2), (b, 1)] s fun s l =>
    let x := src32 s b l
    src64 s a l + ((if sx then x.signExtend 64 else x.setWidth 64) <<< sh.toNat))

def execLeaImm (h : Head) (sh : BitVec 3) (d a : Operand) (imm : BitVec 24) (s : State) :
    Host.Outcome State Fault Refusal :=
  done (aluInstr h .w64 d [(a, 2)] s fun s l => src64 s a l + (immS imm <<< sh.toNat))

def execMov (h : Head) (w : Width) (d a : Operand) (s : State) : Host.Outcome State Fault Refusal :=
  bitOp1 h w w d a s fun x => x

def execMovi (h : Head) (w : Width) (d : Operand) (imm : BitVec 24) (s : State) : Host.Outcome State Fault Refusal :=
  done (aluInstr h w d [] s fun _ _ => immS imm)

def execMovw (h : Head) (d : Operand) (imm : BitVec 32) (s : State) : Host.Outcome State Fault Refusal :=
  done (aluInstr h .w32 d [] s fun _ _ => imm.setWidth 64)

/-- `sel`: the scalar form tests the lowest lane that passes the guard (07 R178). -/
def execSel (h : Head) (w : Width) (d a b : Operand) (k : BitVec 4) (s : State) : Host.Outcome State Fault Refusal :=
  done (aluInstr h w d [at_ w a, at_ w b] s fun s l =>
    if (readK s.me k).getLsbD l then srcW s w a l else srcW s w b l)

def execMad64 (h : Head) (n32 : Bool) (d a b c : Operand) (s : State) : Host.Outcome State Fault Refusal :=
  done (aluInstr h .w64 d [(a, 1), (b, 1), (c, 2)] s fun s l =>
    let ty : IntTy := if n32 then .n32 else .z32
    BitVec.ofInt 64 (intOf ty ((src32 s a l).setWidth 64) * intOf ty ((src32 s b l).setWidth 64) +
      (src64 s c l).toNat))

end Sys2Proof.Machine
end

