-- ==== Sys2Proof/Machine/LaneOps.lean ====
section
/-! DEFINITION. Lane and mask instructions (spec 07 R189 to R194). -/
namespace Sys2Proof.Machine

/-- The lane that `shfl` reads from, if it lies in the wave (07 R191). -/
def shflFrom (mode : ShflMode) (l n : Nat) : Option Nat :=
  match mode with
  | .idx => some (n % 32)
  | .up => if n ≤ l then some (l - n) else none
  | .down => if l + n ≤ 31 then some (l + n) else none
  | .xor => some (l ^^^ (n % 32))

def execShfl (h : Head) (mode : ShflMode) (wide : Bool) (d a b : Operand) (s : State) :
    Host.Outcome State Fault Refusal :=
  let w := widthOf wide
  done (regInstr h false [(a, widthWords w), (b, 1)] s fun m s => modMe s fun me => writeW me w d m fun l =>
    match shflFrom mode l.val (src32 s b l).toNat with
    | some j => if m.getLsbD j then srcW s w a (Fin.ofNat 32 j) else srcW s w a l
    | none => srcW s w a l)

def execMatchLanes (h : Head) (w : Width) (d a : Operand) (s : State) : Host.Outcome State Fault Refusal :=
  done (regInstr h false [(a, widthWords w)] s fun m s => modMe s fun me => writeDst me d m fun l =>
    maskOf ((lanesIn m).filter fun j => srcW s w a j == srcW s w a l))

/-- The value of `vote` over the active lanes (07 R192). -/
def voteValue (test : VoteTest) (inv : Bool) (k m : LaneMask) : Word32 :=
  let v := (if inv then ~~~k else k) &&& m
  match test with
  | .gather => v
  | .some => if v != 0 then 1 else 0
  | .every => if v == m then 1 else 0
  | .agree => if v == 0 || v == m then 1 else 0

def execVote (h : Head) (test : VoteTest) (inv : Bool) (d : Operand) (k : BitVec 4) (s : State) :
    Host.Outcome State Fault Refusal :=
  done (regInstr h d.isScalar [] s fun m s => modMe s fun me =>
    writeDst me d m fun _ => voteValue test inv (readK s.me k) m)

/-- One step of `wred` or `wpfx` (07 R193). -/
def wStep (op : WOp) (uns : Bool) (x y : Word32) : Word32 × BitVec 5 :=
  let lt := if uns then x.ult y else x.slt y
  match op with
  | .add => (x + y, 0)
  | .min => (if lt then x else y, 0)
  | .max => (if lt then y else x, 0)
  | .and => (x &&& y, 0)
  | .or => (x ||| y, 0)
  | .xor => (x ^^^ y, 0)
  | .fadd => let r := fAdd .rn (f32 x) (f32 y); (BitVec.ofNat 32 r.1, r.2)
  | .fmin => let r := fPick false x.toNat y.toNat; (BitVec.ofNat 32 r.1, r.2)
  | .fmax => let r := fPick true x.toNat y.toNat; (BitVec.ofNat 32 r.1, r.2)

/-- One level of the tree: pairs of positions, where an absent side passes the other on. -/
def treeLevel (op : WOp) (uns : Bool) : List (Option Word32) → List (Option Word32) × BitVec 5
  | x :: y :: t =>
    let (r, f) := treeLevel op uns t
    match x, y with
    | some a, some b => let z := wStep op uns a b; (some z.1 :: r, f ||| z.2)
    | some a, none => (some a :: r, f)
    | none, y => (y :: r, f)
  | l => (l, 0)

/-- The tree of `wred` over five levels. -/
def treeReduce (op : WOp) (uns : Bool) (xs : List (Option Word32)) : Nat → List (Option Word32) × BitVec 5
  | 0 => (xs, 0)
  | n + 1 =>
    let (ys, f) := treeLevel op uns xs
    let (zs, g) := treeReduce op uns ys n
    (zs, f ||| g)

def execWred (h : Head) (op : WOp) (uns : Bool) (d a : Operand) (s : State) : Host.Outcome State Fault Refusal :=
  done (regInstr h false [(a, 1)] s fun m s =>
    let xs := (List.finRange 32).map fun (l : Fin 32) => if m.getLsbD l then some (src32 s a l) else none
    let (r, f) := treeReduce op uns xs 5
    modMe s fun me => raiseFlags (writeDst me d m fun _ => (r.headD none).getD 0) m fun _ => f)

/-- The identity for `.excl` (07 R193). -/
def wIdentity (op : WOp) (uns : Bool) : Word32 :=
  match op with
  | .min => if uns then 0xFFFFFFFF else 0x7FFFFFFF
  | .max => if uns then 0 else 0x80000000
  | .and => 0xFFFFFFFF
  | _ => 0

/-- The fold of `wpfx`: the value of every lane in turn, and the flags. -/
def prefixFold (op : WOp) (uns excl : Bool) (x : Fin 32 → Word32) :
    List (Fin 32) → Option Word32 → List (Fin 32 × Word32) × BitVec 5
  | [], _ => ([], 0)
  | l :: t, acc =>
    let (now, f) := match acc with
      | none => (x l, 0#5)
      | some a => wStep op uns a (x l)
    let (r, g) := prefixFold op uns excl x t (some now)
    ((l, if excl then acc.getD (wIdentity op uns) else now) :: r, f ||| g)

def execWpfx (h : Head) (op : WOp) (uns excl : Bool) (d a : Operand) (s : State) : Host.Outcome State Fault Refusal :=
  done (regInstr h false [(a, 1)] s fun m s =>
    let (r, f) := prefixFold op uns excl (src32 s a) (lanesIn m) none
    modMe s fun me => raiseFlags (writeDst me d m fun l => ((r.find? fun p => p.1 == l).map (·.2)).getD 0) m fun _ => f)

/-- `elect` (07 R192). -/
def execElect (h : Head) (k : BitVec 4) (s : State) : Host.Outcome State Fault Refusal :=
  done (regInstr h false [] s fun m s => modMe s fun me => writeKBits me k m (laneBit (lowest m)))

/-- A mask operation that writes all 32 bits, or bit 0 alone in an address program (07 R194, 04 R94, R95). -/
def kOp (h : Head) (d : BitVec 4) (s : State) (f : State → LaneMask) : Host.Outcome State Fault Refusal :=
  done (onceInstr h [] s fun _ s => modMe s fun me =>
    writeK me d (if me.ap.isSome then f s &&& 1 else f s))

/-- `kmov` in its three modes (07 R194). -/
def execKmov (h : Head) (md : KMov) (s : State) : Host.Outcome State Fault Refusal :=
  match md with
  | .kk d a => kOp h d s fun s => readK s.me a
  | .kr d a =>
    done (onceInstr h [(a, 1)] s fun _ s => modMe s fun me =>
      let x := src32 s a 0
      writeK me d (if me.ap.isSome then x &&& 1 else x))
  | .rk d a => done (onceInstr h [] s fun m s => modMe s fun me => writeDst me d m fun _ => readK s.me a)

def execKand (h : Head) (d a b : BitVec 4) (s : State) : Host.Outcome State Fault Refusal :=
  kOp h d s fun s => readK s.me a &&& readK s.me b

def execKor (h : Head) (d a b : BitVec 4) (s : State) : Host.Outcome State Fault Refusal :=
  kOp h d s fun s => readK s.me a ||| readK s.me b

def execKxor (h : Head) (d a b : BitVec 4) (s : State) : Host.Outcome State Fault Refusal :=
  kOp h d s fun s => readK s.me a ^^^ readK s.me b

def execKnot (h : Head) (d a : BitVec 4) (s : State) : Host.Outcome State Fault Refusal :=
  kOp h d s fun s => ~~~(readK s.me a)

/-- Set bits of a mask. -/
def popMask (m : LaneMask) : Nat := (lanesIn m).length

def execKpop (h : Head) (d : Operand) (k : BitVec 4) (s : State) : Host.Outcome State Fault Refusal :=
  done (onceInstr h [] s fun m s => modMe s fun me =>
    writeDst me d m fun _ => BitVec.ofNat 32 (popMask (readK s.me k)))

def execKfirst (h : Head) (d : Operand) (k : BitVec 4) (s : State) : Host.Outcome State Fault Refusal :=
  done (onceInstr h [] s fun m s => modMe s fun me =>
    writeDst me d m fun _ => if readK s.me k == 0 then 32 else BitVec.ofNat 32 (lowest (readK s.me k)).val)

end Sys2Proof.Machine
end

