-- ==== Sys2Proof/Machine/Reliability.lean ====
section
/-! DEFINITION. Supply, power and temperature, scrubbing and sparing, sampled requests, resets, activation disturbance (spec 16
R363, R364, 18 R402 to R414). -/
namespace Sys2Proof.Machine

/-- A 32-bit counter that saturates. -/
def satInc (x : Word32) : Word32 := if x == 0xFFFFFFFF#32 then x else x + 1

/-! ### Stretching (18 R407) -/

/-- SUPPLY_SAG below V1, or below V2 (deep): each entry into a stretch counts. -/
def execSupplySag (die : Nat) (deep : Bool) (s : State) : Host.Outcome State Fault Refusal :=
  let lv := if deep then 2 else 1
  done (if die ≥ 24 then s
    else modDie s die fun d =>
      if d.stretch < lv then { d with stretch := lv, sagAt := s.wall, fbcnt := satInc d.fbcnt } else { d with sagAt := s.wall })

/-- STRETCH_RELEASE: the supply has stayed above V1 for 1 us, and the stretch falls one step. -/
def execStretchRelease (die : Nat) (s : State) : Host.Outcome State Fault Refusal :=
  let d := dieMon s die
  done (if die ≥ 24 || d.stretch == 0 then s
    else
      let s := passTo s (d.sagAt + 1000)
      modDie s die fun d => { d with stretch := d.stretch - 1, sagAt := s.wall })

/-! ### Power and temperature (18 R408, R411) -/

/-- A lower and a higher clock target. -/
def lowerClk (mhz : Nat) : Nat := max 600 (mhz - 100)
def raiseClk (mhz : Nat) : Nat := min 1800 (mhz + 100)

/-- A die that an event of the whole package names: which one is a free value (log 9). -/
def someDie (s : State) : Nat × State :=
  let (n, s) := freshNo s
  (Config.pick n % 24, s)

/-- POWER_SAMPLE: above the limit every die's target falls, below 95% of it it rises; a step is reported. -/
def execPowerSample (watts : Nat) (s : State) : Host.Outcome State Fault Refusal :=
  let f := if watts > s.powerLimit then lowerClk else if watts * 100 < s.powerLimit * 95 then raiseClk else id
  let dies := List.range 24
  let moved := dies.any fun d => f (dieMon s d).clkTgt != (dieMon s d).clkTgt
  done (if !moved then s
    else
      let s := dies.foldl (fun s d => modDie s d fun x => { x with clkTgt := f x.clkTgt }) s
      let (d, s) := someDie s
      eventCpl s { kind := 5, value := (dieMon s d).clkTgt, die := d })

/-- Degrees in the 1/16 degree layout of `dietemp`. -/
def deg (t : BitVec 16) : Int := t.toInt

/-- THERMAL_STEP: a die at 100 degrees or above lowers its own target until it is below 95 degrees. -/
def execThermalStep (die : Nat) (temp : BitVec 16) (s : State) : Host.Outcome State Fault Refusal :=
  let d := dieMon s die
  let hot := if deg temp ≥ 1600 then true else if deg temp < 1520 then false else d.hot
  let clk := if hot then lowerClk d.clkTgt else d.clkTgt
  done (if die ≥ 24 then s
    else
      let s := modDie s die fun d => { d with hot := hot, clkTgt := clk }
      if clk == d.clkTgt then s else eventCpl s { kind := 6, value := clk, die := die })

/-- THERMAL_TRIP at 110 degrees: every launch ends with KILLED, no work goes on, and the host sees a fatal error. -/
def execThermalTrip (temp : BitVec 16) (s : State) : Host.Outcome State Fault Refusal :=
  done (if deg temp < 1760 || s.adm.fatal then s
    else
      let s := s.launches.foldl (fun s e => endLaunch s e.1 0x31) s
      let s := s.groups.foldl (fun s e => if e.2.launch.isNone then killGroup s e.1 else s) s
      let s := s.launches.foldl (fun s e => finishLaunch s e.1) s
      let s := { s with adm := { s.adm with fatal := true, raised3 := s.adm.raised3 + 1 } }
      let (d, s) := someDie s
      eventCpl s { kind := 7, value := temp.toNat, die := d })

/-! ### Scrubbing and sparing (18 R402, R404 to R406, R411) -/

/-- Spare a row without being told to: where no spare is left, a SPAREFAIL event. -/
def autoSpare (s : State) (dpa : Nat) : State :=
  match startSparing s dpa with
  | some t => t
  | none => eventCpl s { kind := 4, addr := dpa, die := dieOf dpa }

/-- An uncorrectable error poisons its granule and is reported. -/
def uncorrectable (s : State) (dpa : Nat) : State :=
  let s := { s with poison := insertNat (localPa s dpa / 64) s.poison }
  let s := modDie s (dieOf dpa) fun d => { d with eccunc := satInc d.eccunc }
  autoSpare (eventCpl s { kind := 2, addr := dpa, die := dieOf dpa }) dpa

/-- A corrected error counts for its die and its row; the fourth one of a row between two patrol visits spares it. -/
def corrected (s : State) (dpa : Nat) : State :=
  let row := Config.rowOf dpa
  let n := Table.getD s.rowErrors row 0 + 1
  let s := modDie s (dieOf dpa) fun d => { d with ecccor := satInc d.ecccor }
  if n ≥ 4 then autoSpare { s with rowErrors := Table.erase s.rowErrors row } dpa
  else { s with rowErrors := Table.set s.rowErrors row n }

/-- PATROL_SCRUB: the scrubber reads the granule of a DPA: a patrol visit to its row, whose count starts anew (18 R405, log 9). -/
def execPatrolScrub (pa : Nat) (f : ScrubFinding) (s : State) : Host.Outcome State Fault Refusal :=
  done (if !usable pa then s
    else
      let s := { s with rowErrors := Table.erase s.rowErrors (Config.rowOf pa) }
      match f with
      | .clean => s
      | .corrected => corrected s pa
      | .uncorrectable => uncorrectable s pa)

/-- Lines of 64 bytes in a row: the copy pointer at which a row is switched (18 R406). -/
def rowLines : Nat := 16

/-- A spare copy carries its next line. Writes go to the old row, and to the spare row as well where the copy has passed their
line, so both hold the same bytes below the copy pointer and one table of bytes stands for both (18 R406). -/
def copyLine (s : State) (row : Nat) : State :=
  match Table.get? s.rowCopies row with
  | some (dpa, p) => if p < rowLines then { s with rowCopies := Table.set s.rowCopies row (dpa, p + 1) } else s
  | none => s

/-- ROW_SPARE_SWITCH: the copy pointer has reached the row's end, and the controller switches to the spare: no byte changes. -/
def execRowSpareSwitch (pa : Nat) (s : State) : Host.Outcome State Fault Refusal :=
  let row := Config.rowOf pa
  done (match Table.get? s.rowCopies row with
    | some (dpa, p) =>
      if !usable pa || p < rowLines then s
      else eventCpl { s with rowCopies := Table.erase s.rowCopies row } { kind := 3, addr := dpa, die := dieOf dpa }
    | none => s)

/-! ### Errors in the arrays of a die (18 R401 to R403, R410, R411) -/

/-- The die on which a place lies; none where there is no such place. -/
def placeDie (s : State) : ArrayPlace → Option Nat
  | .hbm dpa => if usable dpa then some (dieOf dpa) else none
  | .vreg k n _ => if (waveOf s k).present && n < 320 then some ((waveOf s k).core / 48) else none
  | .sreg k n => if (waveOf s k).present && n < 128 then some ((waveOf s k).core / 48) else none
  | .scratch g o => if (Table.get? s.groups g).isSome && o < 262144 then some ((groupOf s g).core / 48) else none
  | .queue a q i =>
    match (apOf s a).ap.bind fun p => (Table.getD p.queues q [])[i]? with
    | some (.word _ _) => some ((apOf s a).core / 48)
    | _ => none
  | .accum k _ => if (Table.get? s.acc k).isSome then some (k / 256 % 288 / 12) else none
  | .cache die dpa => if die < 24 && usable dpa then some die else none
  | .other die => if die < 24 then some die else none

/-- An uncorrectable error poisons the granule of a place (18 R402). -/
def poisonPlace (s : State) : ArrayPlace → State
  | .hbm dpa | .cache _ dpa => { s with poison := insertNat (localPa s dpa / 64) s.poison }
  | .vreg k n l => modWave s k fun w => { w with vpoison := Table.put w.vpoison n 0 (Table.getD w.vpoison n 0 ||| laneBit l) }
  | .sreg k n => modWave s k fun w => { w with spoison := insertNat n w.spoison }
  | .scratch g o => modGroup s g fun x => { x with spPoison := insertNat (o / 64) x.spPoison }
  | .queue a q i => modAp s a fun w => { w with ap := w.ap.map fun p => { p with
      queues := Table.modify p.queues q fun l => match l[i]? with
        | some (.word x _) => l.set i (.word x true)
        | _ => l } }
  | .accum k n => { s with acc := Table.modify s.acc k fun x => { x with poison := insertNat n x.poison } }
  | .other _ => s

/-- An error strikes an array. One that the code corrects counts and changes no value, and in HBM it counts for its row; any
other poisons its granule, counts, and is reported with the DPA where one applies. -/
def arrayError (s : State) (p : ArrayPlace) (fixed : Bool) : State :=
  match placeDie s p with
  | none => s
  | some die =>
    match p with
    | .hbm dpa => if fixed then corrected s dpa else uncorrectable s dpa
    | _ =>
      if fixed then modDie s die fun d => { d with ecccor := satInc d.ecccor }
      else
        let s := modDie (poisonPlace s p) die fun d => { d with eccunc := satInc d.eccunc }
        eventCpl s { kind := 2, die := die, addr := match p with
          | .cache _ dpa => dpa
          | _ => 0 }

/-! ### Freed pages (10 R278) -/

/-- System software frees a page: it enters quarantine at the epoch of the free, with what is in flight, and the epoch rises. -/
def pageFree (s : State) (page : Nat) : State :=
  let (n, s) := freshNo s
  let f : Freed :=
    { page := page, epoch := s.xlepoch, no := n, stores := s.dirty.map (·.1),
      builds := s.ctxs.flatMap fun c => c.2.views.flatMap fun v => v.2.exts.filterMap fun x =>
        if x.2.st == .building then some (c.1, v.1, x.1) else none,
      programs := (s.aps.filter fun a => owesWords a.2).map (·.1) }
  { s with quarantine := s.quarantine ++ [f], xlepoch := s.xlepoch + 1 }
where
  /-- a program with reads of `dlv` in flight -/
  owesWords (w : Wave) : Bool := (w.ap.map fun p => p.queues.any fun q => q.2.any fun x => match x with
    | .reserved _ _ _ => true
    | _ => false).getD false

/-- Every access older than a free has been performed: loads and stores, copies, tile fetches, view builds, scans, accesses at
other packages, reads of `dlv`. -/
def quietSince (s : State) (f : Freed) : Bool :=
  !(f.stores.any fun a => (Table.get? s.dirty a).isSome) && !(s.reds.any fun r => r.epoch.toNat ≤ f.epoch.toNat) &&
    !(s.copies.any fun c => c.1 < f.no) && !(s.tasks.any fun t => t.1 < f.no && t.2.running) &&
    !(s.scans.any fun x => x.1 < f.no) && !(s.remotes.any fun r => r.1 < f.no) &&
    !(f.builds.any fun b => match Table.get? (ctxOf s b.1).views b.2.1 with
      | some v => (extOf v b.2.2).st == .building
      | none => false) &&
    !(f.programs.any fun a => pageFree.owesWords (apOf s a))

/-- The quiet epoch passes the frees whose older accesses have all been performed, in their order; those pages leave
quarantine. -/
def advanceQuiet (s : State) : State :=
  let gone := s.quarantine.takeWhile (quietSince s)
  match gone.getLast? with
  | some f => { s with quarantine := s.quarantine.drop gone.length, xlquiet := f.epoch + 1 }
  | none => s

/-! ### Sampled requests (18 R413) -/

/-- Stages that a request reaches by where it was served: at L1, L2, L3, the DRAM, or another package (18 R413). -/
def stagesReached (served : Nat) : Nat := [1, 3, 6, 8, 5].getD served 5

/-- TRACE_SAMPLE_RETURN: a tagged request returns with the waits of its stages, where it was served, and its latency; one to
another package returns once that package has answered. -/
def execTraceSampleReturn (ctx i : Nat) (waits : BitVec 128) (served : BitVec 8) (latency : BitVec 32) (s : State) :
    Host.Outcome State Fault Refusal :=
  done (match (ctxOf s ctx).samples[i]? with
    | none => s
    | some x =>
      if (x.req.bind (Table.get? s.remotes)).isSome then s
      else
        let at_ := if x.req.isSome then 4 else min served.toNat 3
        let waits := waits.toNat % 2 ^ (16 * stagesReached at_)
        let s := setCtx s ctx fun c => { c with samples := c.samples.eraseIdx i }
        traceRecord s ctx (putAt 8 1 1 + putAt 9 1 at_ + putAt 0x0A 1 x.access + putAt 0x0C 4 x.frag.toNat +
          putAt 0x10 4 x.ordinal.toNat + putAt 0x14 4 x.off.toNat + putAt 0x18 8 x.wall + putAt 0x20 16 waits +
          putAt 0x30 4 latency.toNat + putAt 0x38 8 x.line.toNat))

/-! ### Resets (18 R414) -/

/-- COLD_RESET: the package as after bring-up; it reports ready unless a die has been fused off. Its place in the pod, host
memory and what is due next are not its own. -/
def execColdReset (s : State) : Host.Outcome State Fault Refusal :=
  done { State.reset with
    mem := s.mem.filter fun c => c.1 ≥ hostBase,
    pkg := s.pkg, packages := s.packages, fresh := s.fresh, agenda := s.agenda, tick := s.tick, hostRead := s.hostRead,
    hostPoison := s.hostPoison, fused := s.fused, adm := { ready := s.fused.isEmpty } }

/-- The self-test of a cold reset, before anything else has happened: a die that fails is fused off, and the package does not
report ready. -/
def selfTest (s : State) (dies : List Nat) : State :=
  if s.wall == 0 && s.ctxs.isEmpty && s.dikes.isEmpty then
    let fused := (dies.filter (· < 24)).foldl (fun l d => insertNat d l) s.fused
    { s with fused := fused, adm := { s.adm with ready := s.adm.ready && fused.isEmpty } }
  else s

/-- Contexts that go as DESTROY makes them go; those that are quiet are gone at once. -/
def resetContexts (s : State) (p : Context → Bool) : State :=
  let ns := (s.ctxs.filter fun e => p e.2).map (·.1)
  let s := ns.foldl endContext s
  ns.foldl (fun s n => if ctxQuiet s n then eraseContext s n else s) s

/-- FLR_VF: a virtual function's contexts go, and its registers are as after reset. -/
def execFlrVf (fn : Nat) (s : State) : Host.Outcome State Fault Refusal :=
  done (if fn == 0 || fn > 1024 then s
    else
      let s := resetContexts s fun c => c.cfg.fn == fn
      { s with fns := Table.erase s.fns fn })

/-- FLR_PF: every context and every dike goes; HBM, spared rows and the wall counter stay. -/
def execFlrPf (s : State) : Host.Outcome State Fault Refusal :=
  let s := resetContexts s fun _ => true
  done { s with dikes := [], fns := Table.erase s.fns 0, adm := { fatal := s.adm.fatal, ready := s.adm.ready } }

/-! ### Activation disturbance (16 R363, R364) -/

/-- STACK_ALERT: in mode 1 a row passes the level; the controller stops activates and issues the refreshes that the stack
asks for, until the back-off ends. No byte changes. -/
def execStackAlert (stack : Nat) (s : State) : Host.Outcome State Fault Refusal :=
  let x := Table.getD s.hbmStacks stack {}
  done (if stack ≤ 11 && x.mode == 1 then { s with hbmStacks := Table.set s.hbmStacks stack { x with alerts := x.alerts + 1 } } else s)

/-- REFRESH_COMMAND to a bank: in mode 0 the activates since the last one, a number that only the bank knows, are counted
modulo the level, and a quarter of the level comes off, down to 0. -/
def execRefreshCommand (stack bank : Nat) (s : State) : Host.Outcome State Fault Refusal :=
  let x := Table.getD s.hbmStacks stack {}
  let (n, s) := freshNo s
  done (if stack > 11 || x.mode == 1 then s
    else
      let c := (Table.getD x.counts bank 0 + Config.pick n) % x.level
      { s with hbmStacks := Table.set s.hbmStacks stack { x with counts := Table.put x.counts bank 0 (c - x.level / 4) } })

end Sys2Proof.Machine
end

