-- ==== Sys2Proof/Machine/Dispatch.lean ====
section
/-! DEFINITION. One arm per instruction, command and event: each is one call of its meaning. -/
namespace Sys2Proof.Machine

def exec (i : Instr) (s : State) : Host.Outcome State Fault Refusal :=
  match i with
  | .nop h => Sys2Proof.Machine.execNop h s
  | .bra h off => Sys2Proof.Machine.execBra h off s
  | .brc h kind k off => Sys2Proof.Machine.execBrc h kind k off s
  | .brx h kind r off => Sys2Proof.Machine.execBrx h kind r off s
  | .call h link off => Sys2Proof.Machine.execCall h link off s
  | .ret h link => Sys2Proof.Machine.execRet h link s
  | .meetDrop h => Sys2Proof.Machine.execMeetDrop h s
  | .meetPush h => Sys2Proof.Machine.execMeetPush h s
  | .exit h => Sys2Proof.Machine.execExit h s
  | .refill h off => Sys2Proof.Machine.execRefill h off s
  | .yield h => Sys2Proof.Machine.execYield h s
  | .sleep h n => Sys2Proof.Machine.execSleep h n s
  | .bar h sc num cnt => Sys2Proof.Machine.execBar h sc num cnt s
  | .barv h sc num cnt => Sys2Proof.Machine.execBarv h sc num cnt s
  | .barw h sc num => Sys2Proof.Machine.execBarw h sc num s
  | .wprio h p => Sys2Proof.Machine.execWprio h p s
  | .tramp h off => Sys2Proof.Machine.execTramp h off s
  | .tret h => Sys2Proof.Machine.execTret h s
  | .toolop h n payload => Sys2Proof.Machine.execToolop h n payload s
  | .inop stop sw c payload => Sys2Proof.Machine.execInop stop sw c payload s
  | .iadd h ty sat d a b => Sys2Proof.Machine.execIadd h ty sat d a b s
  | .iaddImm h ty sat d a imm => Sys2Proof.Machine.execIaddImm h ty sat d a imm s
  | .isub h ty sat d a b => Sys2Proof.Machine.execIsub h ty sat d a b s
  | .isubImm h ty sat d a imm => Sys2Proof.Machine.execIsubImm h ty sat d a imm s
  | .imul h ty sat d a b => Sys2Proof.Machine.execImul h ty sat d a b s
  | .imulImm h ty sat d a imm => Sys2Proof.Machine.execImulImm h ty sat d a imm s
  | .imulh h ty d a b => Sys2Proof.Machine.execImulh h ty d a b s
  | .imad h ty sat d a b c => Sys2Proof.Machine.execImad h ty sat d a b c s
  | .imin h ty d a b => Sys2Proof.Machine.execImin h ty d a b s
  | .iminImm h ty d a imm => Sys2Proof.Machine.execIminImm h ty d a imm s
  | .imax h ty d a b => Sys2Proof.Machine.execImax h ty d a b s
  | .imaxImm h ty d a imm => Sys2Proof.Machine.execImaxImm h ty d a imm s
  | .iabs h w sat d a => Sys2Proof.Machine.execIabs h w sat d a s
  | .ineg h w sat d a => Sys2Proof.Machine.execIneg h w sat d a s
  | .idot4 h za zb sat d a b c => Sys2Proof.Machine.execIdot4 h za zb sat d a b c s
  | .and h w d a b => Sys2Proof.Machine.execAnd h w d a b s
  | .andImm h w d a imm => Sys2Proof.Machine.execAndImm h w d a imm s
  | .or h w d a b => Sys2Proof.Machine.execOr h w d a b s
  | .orImm h w d a imm => Sys2Proof.Machine.execOrImm h w d a imm s
  | .xor h w d a b => Sys2Proof.Machine.execXor h w d a b s
  | .xorImm h w d a imm => Sys2Proof.Machine.execXorImm h w d a imm s
  | .not h w d a => Sys2Proof.Machine.execNot h w d a s
  | .bool3 h w table d a b c => Sys2Proof.Machine.execBool3 h w table d a b c s
  | .shl h w d a b => Sys2Proof.Machine.execShl h w d a b s
  | .shlImm h w d a imm => Sys2Proof.Machine.execShlImm h w d a imm s
  | .shr h w d a b => Sys2Proof.Machine.execShr h w d a b s
  | .shrImm h w d a imm => Sys2Proof.Machine.execShrImm h w d a imm s
  | .sar h w d a b => Sys2Proof.Machine.execSar h w d a b s
  | .sarImm h w d a imm => Sys2Proof.Machine.execSarImm h w d a imm s
  | .rot h w d a b => Sys2Proof.Machine.execRot h w d a b s
  | .rotImm h w d a imm => Sys2Proof.Machine.execRotImm h w d a imm s
  | .bfx h ty d a b => Sys2Proof.Machine.execBfx h ty d a b s
  | .bfxImm h ty d a imm => Sys2Proof.Machine.execBfxImm h ty d a imm s
  | .bfi h w d a b c => Sys2Proof.Machine.execBfi h w d a b c s
  | .popc h w d a => Sys2Proof.Machine.execPopc h w d a s
  | .clz h w d a => Sys2Proof.Machine.execClz h w d a s
  | .brev h w d a => Sys2Proof.Machine.execBrev h w d a s
  | .icmp h ty cond k a b => Sys2Proof.Machine.execIcmp h ty cond k a b s
  | .icmpImm h ty cond k a imm => Sys2Proof.Machine.execIcmpImm h ty cond k a imm s
  | .lea h sh sx d a b => Sys2Proof.Machine.execLea h sh sx d a b s
  | .leaImm h sh d a imm => Sys2Proof.Machine.execLeaImm h sh d a imm s
  | .mov h w d a => Sys2Proof.Machine.execMov h w d a s
  | .movi h w d imm => Sys2Proof.Machine.execMovi h w d imm s
  | .movw h d imm => Sys2Proof.Machine.execMovw h d imm s
  | .sel h w d a b k => Sys2Proof.Machine.execSel h w d a b k s
  | .mad64 h n32 d a b c => Sys2Proof.Machine.execMad64 h n32 d a b c s
  | .fadd h r d a b => Sys2Proof.Machine.execFadd h r d a b s
  | .fsub h r d a b => Sys2Proof.Machine.execFsub h r d a b s
  | .fmul h r d a b => Sys2Proof.Machine.execFmul h r d a b s
  | .ffma h r d a b c => Sys2Proof.Machine.execFfma h r d a b c s
  | .fmin h d a b => Sys2Proof.Machine.execFmin h d a b s
  | .fmax h d a b => Sys2Proof.Machine.execFmax h d a b s
  | .fcmp h cond k a b => Sys2Proof.Machine.execFcmp h cond k a b s
  | .fclass h d a => Sys2Proof.Machine.execFclass h d a s
  | .frcp h r d a => Sys2Proof.Machine.execFrcp h r d a s
  | .frsq h d a => Sys2Proof.Machine.execFrsq h d a s
  | .fsqrt h r d a => Sys2Proof.Machine.execFsqrt h r d a s
  | .fex2 h d a => Sys2Proof.Machine.execFex2 h d a s
  | .flg2 h d a => Sys2Proof.Machine.execFlg2 h d a s
  | .fsin h d a => Sys2Proof.Machine.execFsin h d a s
  | .fcos h d a => Sys2Proof.Machine.execFcos h d a s
  | .ftanh h d a => Sys2Proof.Machine.execFtanh h d a s
  | .fdot2 h bf r d a b c => Sys2Proof.Machine.execFdot2 h bf r d a b c s
  | .cvt h kind d a => Sys2Proof.Machine.execCvt h kind d a s
  | .fcvt h df sf r d a => Sys2Proof.Machine.execFcvt h df sf r d a s
  | .fpack h df j r d a b c => Sys2Proof.Machine.execFpack h df j r d a b c s
  | .funpk h sf idx d a => Sys2Proof.Machine.execFunpk h sf idx d a s
  | .lgcvt h toF32 r d a => Sys2Proof.Machine.execLgcvt h toF32 r d a s
  | .srnd h a => Sys2Proof.Machine.execSrnd h a s
  | .qe8 h p d a b => Sys2Proof.Machine.execQe8 h p d a b s
  | .qe8m h p d a b c => Sys2Proof.Machine.execQe8m h p d a b c s
  | .de8 h p d a b => Sys2Proof.Machine.execDe8 h p d a b s
  | .e8scl h d a => Sys2Proof.Machine.execE8scl h d a s
  | .shfl h mode wide d a b => Sys2Proof.Machine.execShfl h mode wide d a b s
  | .matchLanes h w d a => Sys2Proof.Machine.execMatchLanes h w d a s
  | .vote h test inv d k => Sys2Proof.Machine.execVote h test inv d k s
  | .wred h op uns d a => Sys2Proof.Machine.execWred h op uns d a s
  | .wpfx h op uns excl d a => Sys2Proof.Machine.execWpfx h op uns excl d a s
  | .elect h k => Sys2Proof.Machine.execElect h k s
  | .kmov h m => Sys2Proof.Machine.execKmov h m s
  | .kand h d a b => Sys2Proof.Machine.execKand h d a b s
  | .kor h d a b => Sys2Proof.Machine.execKor h d a b s
  | .kxor h d a b => Sys2Proof.Machine.execKxor h d a b s
  | .knot h d a => Sys2Proof.Machine.execKnot h d a s
  | .kpop h d k => Sys2Proof.Machine.execKpop h d k s
  | .kfirst h d k => Sys2Proof.Machine.execKfirst h d k s
  | .ld h sz acq sc nt d m => Sys2Proof.Machine.execLd h sz acq sc nt d m s
  | .st h sz rel sc nt x m => Sys2Proof.Machine.execSt h sz rel sc nt x m s
  | .ldsp h sz acq d m => Sys2Proof.Machine.execLdsp h sz acq d m s
  | .stsp h sz rel x m => Sys2Proof.Machine.execStsp h sz rel x m s
  | .ldc h sz d base off => Sys2Proof.Machine.execLdc h sz d base off s
  | .zfill h m => Sys2Proof.Machine.execZfill h m s
  | .pref h lvl m => Sys2Proof.Machine.execPref h lvl m s
  | .atom h op uns wide ord sc d base x => Sys2Proof.Machine.execAtom h op uns wide ord sc d base x s
  | .atomsp h op uns wide ord d base x => Sys2Proof.Machine.execAtomsp h op uns wide ord d base x s
  | .atomf h base x => Sys2Proof.Machine.execAtomf h base x s
  | .red h op uns wide rel sc x base => Sys2Proof.Machine.execRed h op uns wide rel sc x base s
  | .fence h sc => Sys2Proof.Machine.execFence h sc s
  | .icinv h sc => Sys2Proof.Machine.execIcinv h sc s
  | .tlbinv h sc range => Sys2Proof.Machine.execTlbinv h sc range s
  | .cpy h dir guard nt mc d a b c => Sys2Proof.Machine.execCpy h dir guard nt mc d a b c s
  | .cseal h d => Sys2Proof.Machine.execCseal h d s
  | .cwait h b => Sys2Proof.Machine.execCwait h b s
  | .bxpAdd h b n => Sys2Proof.Machine.execBxpAdd h b n s
  | .bxpSet h b n => Sys2Proof.Machine.execBxpSet h b n s
  | .bwait h b => Sys2Proof.Machine.execBwait h b s
  | .tsub h sp m => Sys2Proof.Machine.execTsub h sp m s
  | .twait h t m => Sys2Proof.Machine.execTwait h t m s
  | .tdesc h d a b => Sys2Proof.Machine.execTdesc h d a b s
  | .tdget h d a b => Sys2Proof.Machine.execTdget h d a b s
  | .hsget h d a b => Sys2Proof.Machine.execHsget h d a b s
  | .hsclr h d a b => Sys2Proof.Machine.execHsclr h d a b s
  | .weir h d a => Sys2Proof.Machine.execWeir h d a s
  | .pin h d base len fade => Sys2Proof.Machine.execPin h d base len fade s
  | .unpin h d base => Sys2Proof.Machine.execUnpin h d base s
  | .vdef h d a b => Sys2Proof.Machine.execVdef h d a b s
  | .vdefVoc h d a b => Sys2Proof.Machine.execVdefVoc h d a b s
  | .vld h sz d m => Sys2Proof.Machine.execVld h sz d m s
  | .vmap h d a b => Sys2Proof.Machine.execVmap h d a b s
  | .vfind h d a b k => Sys2Proof.Machine.execVfind h d a b k s
  | .vtouch h a b => Sys2Proof.Machine.execVtouch h a b s
  | .vpin h d a b => Sys2Proof.Machine.execVpin h d a b s
  | .vunpin h d a b => Sys2Proof.Machine.execVunpin h d a b s
  | .vstat h op d a b => Sys2Proof.Machine.execVstat h op d a b s
  | .ssealAdv h d a b => Sys2Proof.Machine.execSsealAdv h d a b s
  | .ssealNew h d a b => Sys2Proof.Machine.execSsealNew h d a b s
  | .ssealDrop h d a b => Sys2Proof.Machine.execSsealDrop h d a b s
  | .detok h fin d a => Sys2Proof.Machine.execDetok h fin d a s
  | .fork h off => Sys2Proof.Machine.execFork h off s
  | .rdv h => Sys2Proof.Machine.execRdv h s
  | .gset h cond g k => Sys2Proof.Machine.execGset h cond g k s
  | .dlv h q cnt sp m => Sys2Proof.Machine.execDlv h q cnt sp m s
  | .qstat h d q => Sys2Proof.Machine.execQstat h d q s
  | .slcfg h d a b => Sys2Proof.Machine.execSlcfg h d a b s
  | .slpush h sz guard a b => Sys2Proof.Machine.execSlpush h sz guard a b s
  | .slinfo h handle d => Sys2Proof.Machine.execSlinfo h handle d s
  | .slcomb h d base => Sys2Proof.Machine.execSlcomb h d base s
  | .pxpush h sz guard a b => Sys2Proof.Machine.execPxpush h sz guard a b s
  | .pxflush h wait => Sys2Proof.Machine.execPxflush h wait s
  | .tfence h => Sys2Proof.Machine.execTfence h s
  | .trap h n => Sys2Proof.Machine.execTrap h n s
  | .bkpt h n => Sys2Proof.Machine.execBkpt h n s
  | .ccause h d a => Sys2Proof.Machine.execCcause h d a s
  | .hret h kill => Sys2Proof.Machine.execHret h kill s
  | .rdsr h d sr => Sys2Proof.Machine.execRdsr h d sr s
  | .wrsr h sr a => Sys2Proof.Machine.execWrsr h sr a s
  | .rdclk h mode d => Sys2Proof.Machine.execRdclk h mode d s
  | .wtimer h a => Sys2Proof.Machine.execWtimer h a s
  | .fragMask h d a => Sys2Proof.Machine.execFragMask h d a s
  | .fragState h d a => Sys2Proof.Machine.execFragState h d a s
  | .fragKill h d a => Sys2Proof.Machine.execFragKill h d a s
  | .fragResume h d a => Sys2Proof.Machine.execFragResume h d a s
  | .mboxLd h d a => Sys2Proof.Machine.execMboxLd h d a s
  | .mboxSt h a b => Sys2Proof.Machine.execMboxSt h a b s
  | .mboxRing h => Sys2Proof.Machine.execMboxRing h s
  | .smark h n => Sys2Proof.Machine.execSmark h n s
  | .haltStop h d a => Sys2Proof.Machine.execHaltStop h d a s
  | .haltGo h d a => Sys2Proof.Machine.execHaltGo h d a s
  | .haltStep h d a => Sys2Proof.Machine.execHaltStep h d a s
  | .dike c => Sys2Proof.Machine.execDike c s
  | .create c => Sys2Proof.Machine.execCreate c s
  | .destroy c => Sys2Proof.Machine.execDestroy c s
  | .update c => Sys2Proof.Machine.execUpdate c s
  | .mapq c => Sys2Proof.Machine.execMapq c s
  | .zeroRange c => Sys2Proof.Machine.execZeroRange c s
  | .zone c => Sys2Proof.Machine.execZone c s
  | .cold c => Sys2Proof.Machine.execCold c s
  | .disturb c => Sys2Proof.Machine.execDisturb c s
  | .podclr c => Sys2Proof.Machine.execPodclr c s
  | .debugHaltStop c => Sys2Proof.Machine.execDebugHaltStop c s
  | .debugHaltGo c => Sys2Proof.Machine.execDebugHaltGo c s
  | .debugHaltStep c => Sys2Proof.Machine.execDebugHaltStep c s
  | .debugFragMask c => Sys2Proof.Machine.execDebugFragMask c s
  | .debugFragState c => Sys2Proof.Machine.execDebugFragState c s
  | .debugFragKill c => Sys2Proof.Machine.execDebugFragKill c s
  | .debugFragResume c => Sys2Proof.Machine.execDebugFragResume c s
  | .traceBuf c => Sys2Proof.Machine.execTraceBuf c s
  | .spare c => Sys2Proof.Machine.execSpare c s
  | .power c => Sys2Proof.Machine.execPower c s
  | .mgmtSsealNew ctx h a => Sys2Proof.Machine.execMgmtSsealNew ctx h a s
  | .mgmtSsealDrop ctx h a => Sys2Proof.Machine.execMgmtSsealDrop ctx h a s
  | .mgmtSsealAdv ctx h a => Sys2Proof.Machine.execMgmtSsealAdv ctx h a s
  | .mgmtVdefVoc ctx h a => Sys2Proof.Machine.execMgmtVdefVoc ctx h a s
  | .launchRecord q => Sys2Proof.Machine.execLaunchRecord q s
  | .distributorTurn dike => Sys2Proof.Machine.execDistributorTurn dike s
  | .nodeGroupStart g => Sys2Proof.Machine.execNodeGroupStart g s
  | .itemQueueRefill core launch => Sys2Proof.Machine.execItemQueueRefill core launch s
  | .groupRetire g => Sys2Proof.Machine.execGroupRetire g s
  | .reductionLogApply launch => Sys2Proof.Machine.execReductionLogApply launch s
  | .waveSwap core => Sys2Proof.Machine.execWaveSwap core s
  | .forcedSwap core => Sys2Proof.Machine.execForcedSwap core s
  | .loadResultReturn wave reg => Sys2Proof.Machine.execLoadResultReturn wave reg s
  | .sleepExpiry wave => Sys2Proof.Machine.execSleepExpiry wave s
  | .waveTimerExpiry wave => Sys2Proof.Machine.execWaveTimerExpiry wave s
  | .dlvReadReturn ap q idx => Sys2Proof.Machine.execDlvReadReturn ap q idx s
  | .guardResolve wave g => Sys2Proof.Machine.execGuardResolve wave g s
  | .redApply idx => Sys2Proof.Machine.execRedApply idx s
  | .haltComplete g => Sys2Proof.Machine.execHaltComplete g s
  | .copyLand copy unit => Sys2Proof.Machine.execCopyLand copy unit s
  | .copyFail copy why => Sys2Proof.Machine.execCopyFail copy why s
  | .tileTaskStart quad => Sys2Proof.Machine.execTileTaskStart quad s
  | .tileTaskEnd task => Sys2Proof.Machine.execTileTaskEnd task s
  | .tileTaskFail task done => Sys2Proof.Machine.execTileTaskFail task done s
  | .extentBuildEnd ctx view ext => Sys2Proof.Machine.execExtentBuildEnd ctx view ext s
  | .extentEvictionEnd ctx view ext => Sys2Proof.Machine.execExtentEvictionEnd ctx view ext s
  | .passEnd ctx view ext => Sys2Proof.Machine.execPassEnd ctx view ext s
  | .evictionRescan ctx => Sys2Proof.Machine.execEvictionRescan ctx s
  | .viewSweep ctx view ext => Sys2Proof.Machine.execViewSweep ctx view ext s
  | .detokProcess die => Sys2Proof.Machine.execDetokProcess die s
  | .weirScanDone scan => Sys2Proof.Machine.execWeirScanDone scan s
  | .polderFadeTick ctx => Sys2Proof.Machine.execPolderFadeTick ctx s
  | .sluiceAgeReady bin => Sys2Proof.Machine.execSluiceAgeReady bin s
  | .spillTimeout frag => Sys2Proof.Machine.execSpillTimeout frag s
  | .shadowQueueAge ctx die bin => Sys2Proof.Machine.execShadowQueueAge ctx die bin s
  | .expansionDone ctx page => Sys2Proof.Machine.execExpansionDone ctx page s
  | .timeSliceEnd dike => Sys2Proof.Machine.execTimeSliceEnd dike s
  | .contextSwitch dike => Sys2Proof.Machine.execContextSwitch dike s
  | .bankSpillDone dike => Sys2Proof.Machine.execBankSpillDone dike s
  | .bankFillDone dike => Sys2Proof.Machine.execBankFillDone dike s
  | .adminCommandComplete => Sys2Proof.Machine.execAdminCommandComplete s
  | .remoteTimeout req => Sys2Proof.Machine.execRemoteTimeout req s
  | .podDegradedTimeout ctx => Sys2Proof.Machine.execPodDegradedTimeout ctx s
  | .adminDoorbell v => Sys2Proof.Machine.execAdminDoorbell v s
  | .admctl v => Sys2Proof.Machine.execAdmctl v s
  | .doorbell fn q v => Sys2Proof.Machine.execDoorbell fn q v s
  | .mgmtDoorbell fn ctx v => Sys2Proof.Machine.execMgmtDoorbell fn ctx v s
  | .faultPendingClear fn word v => Sys2Proof.Machine.execFaultPendingClear fn word v s
  | .mailboxPendingClear fn word v => Sys2Proof.Machine.execMailboxPendingClear fn word v s
  | .prien fn v => Sys2Proof.Machine.execPrien fn v s
  | .registerWrite fn off wide v => Sys2Proof.Machine.execRegisterWrite fn off wide v s
  | .hostBar2 fn off bytes wr => Sys2Proof.Machine.execHostBar2 fn off bytes wr s
  | .remoteBatchEntry batch accepted => Sys2Proof.Machine.execRemoteBatchEntry batch accepted s
  | .priSuccess ctx page => Sys2Proof.Machine.execPriSuccess ctx page s
  | .priInvalidRequest ctx page => Sys2Proof.Machine.execPriInvalidRequest ctx page s
  | .priResponseFailure ctx page => Sys2Proof.Machine.execPriResponseFailure ctx page s
  | .atsInvalidation ctx page bytes => Sys2Proof.Machine.execAtsInvalidation ctx page bytes s
  | .atsCompletion ctx page ans => Sys2Proof.Machine.execAtsCompletion ctx page ans s
  | .remoteResponse req ans => Sys2Proof.Machine.execRemoteResponse req ans s
  | .inbound ctx va pkg wr => Sys2Proof.Machine.execInbound ctx va pkg wr s
  | .portFailure port => Sys2Proof.Machine.execPortFailure port s
  | .supplySag die deep => Sys2Proof.Machine.execSupplySag die deep s
  | .stretchRelease die => Sys2Proof.Machine.execStretchRelease die s
  | .powerSample watts => Sys2Proof.Machine.execPowerSample watts s
  | .thermalStep die temp => Sys2Proof.Machine.execThermalStep die temp s
  | .thermalTrip temp => Sys2Proof.Machine.execThermalTrip temp s
  | .patrolScrub pa f => Sys2Proof.Machine.execPatrolScrub pa f s
  | .rowSpareSwitch pa => Sys2Proof.Machine.execRowSpareSwitch pa s
  | .traceSampleReturn ctx idx waits served latency => Sys2Proof.Machine.execTraceSampleReturn ctx idx waits served latency s
  | .stackAlert stack => Sys2Proof.Machine.execStackAlert stack s
  | .refreshCommand stack bank => Sys2Proof.Machine.execRefreshCommand stack bank s
  | .coldReset => Sys2Proof.Machine.execColdReset s
  | .flrVf fn => Sys2Proof.Machine.execFlrVf fn s
  | .flrPf => Sys2Proof.Machine.execFlrPf s

end Sys2Proof.Machine
end

