-- ==== Sys2Proof/Machine/Schedule.lean ====
section
/-! DEFINITION. Whose turn it is when the agenda names none: one legal schedule of waves, engines and passing time (spec 00 R2, 03
R81, R82, 10 R263). -/
namespace Sys2Proof.Machine

/-! ### Turns of waves (03 R82) -/

/-- A wave that has its turn before another on its core: unissued for 256 cycles first, oldest first; then by priority; then
by age. -/
def turnBefore (wall : Nat) (a b : Wave) : Bool :=
  let la := wall ≥ a.lastIssue + 256
  let lb := wall ≥ b.lastIssue + 256
  if la != lb then la
  else if la then a.age ≤ b.age
  else a.prio > b.prio || (a.prio == b.prio && a.age ≤ b.age)

/-- Whether a wave can issue: active, its context resident, a path group ready. -/
def canIssue (s : State) (w : Wave) : Bool := w.active && residentCtx s w.ctx && waveReady s w && nextGroup s w != 0

/-- The waves that can issue on a core, in the order of choice. -/
def coreOrder (s : State) (core : Nat) : List Wave :=
  ((s.waves.map (·.2)).filter fun w => w.core == core && canIssue s w).mergeSort (turnBefore s.wall)

/-- Whether an instruction takes the issue slot of vector arithmetic (02 R44); with a scalar destination it executes as a scalar
instruction (R41). -/
def vectorSlot (i : Instr) : Bool :=
  match i with
  | .shfl .. | .matchLanes .. | .vote .. | .wred .. | .wpfx .. | .elect .. => true
  | _ =>
    let op := (i.encode.extractLsb' 52 10).toNat
    0x040 ≤ op && op < 0x140 && i.encode.extractLsb' 38 9 < 384#9

/-- Whether the next word of a wave takes the slot of vector arithmetic. -/
def nextVector (s : State) (w : Wave) : Bool :=
  let l := w.lanes[lowest (nextGroup s w)]
  match l.code[(l.pc - l.hdr).toNat / 8 - 1]? with
  | some x => ((decode x).map vectorSlot).getD false
  | none => false

/-- The wave of the first choice on a core. -/
def firstChoice (s : State) (core : Nat) : Option Nat := (coreOrder s core).head?.map (·.key)

/-- The wave that takes the second slot of the running cycle: the next in the order whose instruction can pair with the first
(01 R15, 03 R82). -/
def secondChoice (s : State) (core : Nat) : Option Nat :=
  match Table.get? s.paired core with
  | some (k, vec) => ((coreOrder s core).find? fun w => w.key != k && !(vec && nextVector s w)).map (·.key)
  | none => none

/-- Reads of a program's `dlv`s that wait for a translation. -/
def dlvWaits (s : State) (w : Wave) : Bool :=
  (w.ap.map fun p => p.queues.any fun q => q.2.any fun x => match x with
    | .reserved a false _ => (match translate s w.ctx a false with
      | .ok _ | .remote _ => false
      | _ => true)
    | _ => false).getD false

/-- Whether an address program can issue (04 R98). -/
def apCanIssue (s : State) (w : Wave) : Bool := w.present && residentCtx s w.ctx && laneReady s w 0 && !dlvWaits s w

/-- The context of a core's access processor that issues next: the ready contexts in rotation by number (04 R98). -/
def apChoice (s : State) (core : Nat) : Option Nat :=
  let rs := ((s.aps.filter fun a => a.2.core == core && apCanIssue s a.2).map (·.1)).mergeSort fun a b => a % 16 ≤ b % 16
  let last := Table.getD s.apTurn core 15
  (rs.filter (· % 16 > last) ++ rs.filter (· % 16 ≤ last)).head?

/-- Cores on which a wave can issue. -/
def issueCores (s : State) : List Nat := (((s.waves.map (·.2)).filter (canIssue s)).map (·.core)).eraseDups

/-- The choice of every core that has one, its second slot first, and the choice of every access processor. -/
def issueTurns (s : State) : List Turn :=
  ((issueCores s).filterMap fun c => ((secondChoice s c).orElse fun _ => firstChoice s c).map .issue) ++
    (((s.aps.map (·.2.core)).eraseDups.filterMap (apChoice s)).map .issueAp)

/-! ### Turns of engines -/

/-- Slots of a wave whose guard waits for a value, or guards what can proceed or is discarded (04 R107). -/
def guardTurns (s : State) : List Instr :=
  (s.waves.flatMap fun e => e.2.guards.filterMap fun g => match g.2 with
    | .pending _ k _ => if k < 16 then some (Instr.guardResolve e.1 (BitVec.ofNat 3 g.1)) else none
    | _ => none) ++
  (s.pushes.filterMap fun p => if (proceedPush s p).isSome then some (.guardResolve p.wave p.slot) else none) ++
  (s.copies.filterMap fun c => match c.2.guard with
    | some (g, .isFalse) => some (.guardResolve c.2.wave g)
    | _ => none) ++
  (s.tasks.filterMap fun t => match t.2.guard with
    | some (g, .isFalse) => some (.guardResolve t.2.wave g)
    | _ => none)

/-- Events of waves: results that return, guards that resolve, words for queues, swaps. -/
def waveTurns (s : State) : List Instr :=
  (s.waves.flatMap fun e =>
    (e.2.vfly.take 1).map (Instr.loadResultReturn e.1) ++
      ((e.2.kfly.take 1).map fun k => Instr.loadResultReturn e.1 (512 + k.1))) ++ guardTurns s ++
    (s.aps.flatMap fun a => match a.2.ap with
      | none => []
      | some p => p.queues.filterMap fun q => (q.2.findIdx? fun x => match x with
          | .reserved _ _ _ => true
          | _ => false).map fun i => Instr.dlvReadReturn a.1 (Fin.ofNat 4 q.1) i) ++
    (((s.waves.filter fun e => !e.2.active).map fun e => e.2.core).eraseDups.filterMap fun c =>
      if (swapDue s c).isSome then some (Instr.waveSwap c)
      else match longestReady s c with
        | some w => if w.readySince + 4096 ≤ s.wall then some (Instr.forcedSwap c) else none
        | none => none)

/-- Cores that keep an item queue of a launch. -/
def itemCores (s : State) (lk : Nat) (la : Launch) : List Nat :=
  ((la.itemq.map (·.1)) ++ (s.groups.filter fun g => g.2.launch == some lk).map (·.2.core)).eraseDups

/-- Events of the distributor and of groups and launches. -/
def groupTurns (s : State) : List Instr :=
  ((s.queues.filter fun q => q.2.held.isSome || q.2.cons != q.2.prod).map fun q => Instr.launchRecord q.1) ++
    ((s.dikes.filter fun d => match d.2.running with
      | some c => hasPlaceable s c
      | none => false).map fun d => Instr.distributorTurn d.1) ++
    (s.groups.flatMap fun g =>
      (if g.2.landing.isEmpty then [] else [Instr.nodeGroupStart g.1]) ++
      (if groupDone s g.1 then [Instr.groupRetire g.1] else []) ++
      (match g.2.halt with
        | .stopping _ => [Instr.haltComplete g.1]
        | _ => [])) ++
    (s.launches.flatMap fun l =>
      (if launchOver l.2 then [Instr.reductionLogApply l.1] else []) ++
      (if l.2.kern.refill && l.2.nextItem < l.2.items then
          ((itemCores s l.1 l.2).filter fun c => (Table.getD l.2.itemq c []).length < 32).map fun c =>
            Instr.itemQueueRefill c l.1
        else []))

/-- Events of the copy, tile, view, detokeniser and scan engines. -/
def engineTurns (s : State) : List Instr :=
  (if s.reds.isEmpty then [] else [Instr.redApply 0]) ++
    (s.copies.filterMap fun c =>
      ((List.range c.2.targets.length).findSome? fun t => (List.range (copyUnits c.2)).findSome? fun u =>
        if c.2.landed.contains (t * 2 ^ 32 + u) then none else some (t * 2 ^ 32 + u)).map (Instr.copyLand c.1)) ++
    (((s.tasks.filter fun t => !t.2.running).map fun t => quadOfWave t.2.wave).eraseDups.map Instr.tileTaskStart) ++
    ((s.tasks.filter fun t => t.2.running).map fun t => Instr.tileTaskEnd t.1) ++
    (s.ctxs.flatMap fun c =>
      (c.2.views.flatMap fun v => v.2.exts.filterMap fun x =>
        if x.2.st == .building && !x.2.waitingSpace then some (Instr.extentBuildEnd c.1 v.1 x.1)
        else if x.2.st == .evicting then some (Instr.extentEvictionEnd c.1 v.1 x.1)
        else if (wallStamp s + 65536 - x.2.stamp) % 65536 ≥ 2 ^ 15 + 2 ^ 13 then some (Instr.viewSweep c.1 v.1 x.1)
        else none) ++
      (if c.2.views.any (fun v => v.2.exts.any fun x => x.2.waitingSpace) then [Instr.evictionRescan c.1] else []) ++
      (c.2.passes.map fun p => Instr.passEnd c.1 p.1 (p.2 / 2)) ++
      (c.2.expanding.map (Instr.expansionDone c.1))) ++
    ((s.detoks.map fun d => d.2.die).eraseDups.map Instr.detokProcess) ++
    (s.scans.map fun x => Instr.weirScanDone x.1)

/-- Switches of a dike, and banks that move. -/
def dikeTurns (s : State) : List Instr :=
  s.dikes.flatMap fun d =>
    (if d.2.spilling then [Instr.bankSpillDone d.1] else []) ++
    (if d.2.filling then [Instr.bankFillDone d.1] else []) ++
    (if d.2.chosen.isSome || (preempts s d.1 d.2).isSome then [Instr.contextSwitch d.1] else [])

/-- What the part can do at once beside issuing. -/
def partTurns (s : State) : List Turn :=
  ((waveTurns s ++ groupTurns s ++ engineTurns s ++ dikeTurns s).map Turn.env) ++
    ((s.dirty.take 1).map fun c => .drain (c.1 / corePitch) (c.1 % corePitch / 8)) ++
    (if (s.quarantine.head?.map (quietSince s)).getD false then [.outside .quiet] else []) ++
    (s.rowCopies.map fun r => if r.2.2 < rowLines then .outside (.copyLine r.1) else .env (.rowSpareSwitch r.2.1)) ++
    (if adminReady s then [.admin] else []) ++
    (if s.adm.waiting.isSome || s.adm.inProgress.isSome || s.ctxs.any (fun c => c.2.ending) then
      [.env .adminCommandComplete] else []) ++
    ((s.ctxs.filter fun c => c.2.mgmtCons != c.2.mgmtProd).map fun c => .mgmt c.1)

/-! ### Turns that let time pass -/

/-- Events that time alone brings about. -/
def timeTurns (s : State) : List Turn :=
  (((s.waves.filter fun e => residentCtx s e.2.ctx && !(wakeTimes s e.2).isEmpty).map fun e => Instr.sleepExpiry e.1) ++
    ((s.waves.filter fun e => residentCtx s e.2.ctx && e.2.timer != 0).map fun e => Instr.waveTimerExpiry e.1) ++
    ((s.dikes.filter fun d => d.2.running.isSome && (choose s d.1 fun c => d.2.running != some c).isSome).map fun d =>
      Instr.timeSliceEnd d.1) ++
    ((s.bins.filter fun b => !b.2.recs.isEmpty).map fun b => Instr.sluiceAgeReady b.1) ++
    ((s.frags.filter fun f => f.2.cause == .spill && f.2.st == .waiting).map fun f => Instr.spillTimeout f.1) ++
    (s.ctxs.flatMap fun c =>
      ((c.2.shadows.filter fun q => !q.recs.isEmpty).map fun q => Instr.shadowQueueAge c.1 q.die q.bin) ++
      (if c.2.polders.isEmpty then [] else [Instr.polderFadeTick c.1])) ++
    (if s.degraded then s.ctxs.map fun c => Instr.podDegradedTimeout c.1 else []) ++
    (s.remotes.map fun r => Instr.remoteTimeout r.1)).map Turn.env

/-- The turn of the default schedule: waves and the rest of the part alternate; where no wave has work, time passes, and it
also passes now and then while the rest of the part waits for answers. -/
def defaultTurn (s : State) : Turn :=
  let pick := fun (n : Nat) (l : List Turn) => l[n % l.length]?
  let iss := issueTurns s
  let part := partTurns s
  let pass := (pick (s.tick / 16) (timeTurns s)).getD (.time 1000)
  if iss.isEmpty && (part.isEmpty || s.tick % 16 == 15) then pass
  else
    let n := s.tick / 2
    match if s.tick % 2 == 0 then pick n iss else pick n part with
    | some t => t
    | none => (if s.tick % 2 == 0 then pick n part else pick n iss).getD pass

/-! ### What an agenda may name -/

/-- An engine, host or reliability event; words of a program, admin commands and management entries come by their own
turns. -/
def isEvent : Instr → Bool
  | .adminDoorbell _ | .admctl _ | .doorbell .. | .mgmtDoorbell .. | .faultPendingClear .. | .mailboxPendingClear ..
  | .prien .. | .registerWrite .. | .hostBar2 .. => true
  | .launchRecord _ | .distributorTurn _ | .nodeGroupStart _ | .itemQueueRefill .. | .groupRetire _ | .reductionLogApply _
  | .waveSwap _ | .forcedSwap _ | .loadResultReturn .. | .sleepExpiry _ | .waveTimerExpiry _ | .dlvReadReturn ..
  | .guardResolve .. | .redApply _ | .copyLand .. | .copyFail .. | .tileTaskStart _ | .tileTaskEnd _ | .tileTaskFail ..
  | .extentBuildEnd .. | .evictionRescan _ | .viewSweep .. | .detokProcess _ | .weirScanDone _ | .polderFadeTick _
  | .sluiceAgeReady _ | .spillTimeout _ | .shadowQueueAge .. | .remoteBatchEntry .. => true
  | .priSuccess .. | .priInvalidRequest .. | .priResponseFailure .. | .atsInvalidation .. | .expansionDone ..
  | .timeSliceEnd _ | .contextSwitch _ | .bankSpillDone _ | .bankFillDone _ | .haltComplete _ | .remoteResponse ..
  | .remoteTimeout _ | .inbound .. | .portFailure _ | .supplySag .. | .stretchRelease _ | .powerSample _ | .thermalStep ..
  | .thermalTrip _ | .patrolScrub .. | .rowSpareSwitch _ | .traceSampleReturn .. | .coldReset | .flrVf _ | .flrPf
  | .extentEvictionEnd .. | .passEnd .. | .adminCommandComplete | .atsCompletion .. | .podDegradedTimeout _
  | .stackAlert _ | .refreshCommand .. => true
  | _ => false

/-- Events that begin work. -/
def beginsWork : Instr → Bool
  | .launchRecord _ | .distributorTurn _ | .nodeGroupStart _ | .sluiceAgeReady _ | .contextSwitch _ => true
  | _ => false

/-- After a thermal trip nothing begins until a cold reset; what the ended launches had in flight still ends (18 R408). -/
def allowed (s : State) (i : Instr) : Bool := isEvent i && !(s.adm.fatal && beginsWork i)

/-! ### What a turn comes to -/

/-- The wave that a turn names issues, if it is the choice of its core for the second slot of the running cycle or for the next
cycle (03 R82). -/
def issueTurn (s : State) (k : Nat) : Job :=
  match Table.get? s.waves k with
  | some w =>
    if s.adm.fatal || !canIssue s w then .state s
    else if secondChoice s w.core == some k then issueJob (stage s w)
    else if firstChoice s w.core == some k then issueJob (stage { s with paired := Table.erase s.paired w.core } w)
    else .state s
  | none => .state s

def issueApTurn (s : State) (k : Nat) : Job :=
  match Table.get? s.aps k with
  | some w =>
    if s.adm.fatal || apChoice s w.core != some k then .state s
    else issueJob (stageAp { s with apTurn := Table.set s.apTurn w.core (k % 16) } w)
  | none => .state s

/-- The part takes an admin command (16 R337). -/
def adminTurn (s : State) : Job :=
  if adminReady s then
    match takeCommand s with
    | (none, t) => .state (unreadCommand t)
    | (some w, t) =>
      match decodeAdmin w with
      | some i => .run i t
      | none => .state (badCommand t w)
  else .state s

/-- A management queue takes its next entry (16 R339, R343). -/
def mgmtTurn (s : State) (ctx : Nat) : Job :=
  match mgmtTake s ctx with
  | none => .state s
  | some none => .state (mgmtBad s ctx)
  | some (some i) => .run i s

/-- A group of another package arrives at a `.pod` barrier: the first arrival of a phase brings the expected count (03 R87). -/
def podArrive (s : State) (ctx num count : Nat) : State :=
  if (Table.get? s.ctxs ctx).isNone || num ≥ 16 || count == 0 || count > 16777216 then s
  else
    let key := barrierKey .pod 0 num
    let b := Table.getD (ctxOf s ctx).bars key {}
    let b := { b with others := b.others + 1, expected := if b.groups.isEmpty && b.others == 0 then count else b.expected }
    let s := setCtx s ctx fun c => { c with bars := Table.set c.bars key b }
    match (s.groups.filter fun g => g.2.ctx == ctx).map (·.1) with
    | [] => if wideFull s ctx key then endWide s ctx .pod key b else s
    | gk :: _ => settleBarrier s gk .pod key 34

/-- What happens to the part without a row of the opcode table. -/
def outsideTurn (s : State) : Outside → State
  | .readReg fn off bytes => readReg s fn off bytes
  | .podArrive ctx num count => podArrive s ctx num count
  | .packageLost p => packageLost s p
  | .batchIn ctx bin sz recs => batchIn s ctx bin sz recs
  | .arrayError p fixed => arrayError s p fixed
  | .pageFree page => pageFree s page
  | .quiet => advanceQuiet s
  | .copyLine row => copyLine s row
  | .selfTest dies => selfTest s dies

def turnJob (s : State) : Turn → Job
  | .issue k => issueTurn s k
  | .issueAp k => issueApTurn s k
  | .admin => adminTurn s
  | .mgmt c => mgmtTurn s c
  | .env i => if allowed s i then .run i s else .state s
  | .drain level unit => .state (drainUnit s level unit)
  | .outside e => .state (outsideTurn s e)
  | .time ns => .state (passTime s ns)

/-- The next turn, and the state without it. -/
def nextTurn (s : State) : Turn × State :=
  match s.agenda with
  | t :: rest => (t, { s with agenda := rest })
  | [] => (defaultTurn s, { s with tick := s.tick + 1 })

/-- The cycle of a word: the second slot shares that of the first; a first one begins the next cycle of its core (01 R15, R23). -/
def issueCycle (s0 : State) (i : Instr) (s : State) : State :=
  if !s0.me.present then s
  else if s0.me.ap.isSome then passTime s 1
  else if (Table.get? s0.paired s0.me.core).isSome then { s with paired := Table.erase s.paired s0.me.core }
  else { passTime s 1 with paired := [(s0.me.core, s0.me.key, vectorSlot i)] }

/-- What stands after a word: results in flight, the wave back in its table, a core cycle. -/
def afterWord (s0 : State) (i : Instr) (s : State) : State :=
  let s := if s0.me.ap.isSome || !s0.me.present then s else landFlight s s0.me.key i s0.iss
  issueCycle s0 i (unstage s s0.iss)

/-! ### Placing an instruction where the next step runs it -/

/-- The context, the launch and the kernel under which a placed program word runs. -/
def fetchCfg (s : State) : CtxRec :=
  { heapBase := 0, heapLimit := 0x40000000#64, heapOff := BitVec.ofNat 64 (s.pkg * 2 ^ 39), fqBase := 0x10000#64,
    saveBase := 0x1000000#64, saveBytes := 6553600, poolBase := 0x2000000#64, poolQuota := 1048576, polderQuota := 65536,
    proxyBase := 0x3000000#64, proxyBytes := 25165824, binCount := 16, mgmtRing := 0x12000#64, timeoutUs := 64 }

def fetchKernel : Kernel :=
  { obj := 0x100000#64, refill := true, usesAtomf := true, vregs := 320, sregs := 128, depth := 16, spBytes := 65536,
    items := 64, descReq := 64, viewReq := 64, redBytes := 4096 }

/-- The header in front of the word: a block of one word, with a meeting two words on. -/
def fetchHeader : Word64 := BitVec.ofNat 64 (0b110110 * 2 ^ 58 + 1 * 2 ^ 52 + 2 * 2 ^ 4)

/-- A thread that stands at the word. -/
def fetchLane (w : Word64) : Lane :=
  { life := .live, pc := 0x100108#64, hdr := 0x100100#64, hword := fetchHeader, code := [w] }

/-- A program word as the only one of its block, at which a resident wave of 32 threads stands, or an address program where
only those execute it; the next turn issues it. -/
def placeWord (s : State) (w : Word64) : State :=
  let pa := s.pkg * 2 ^ 39 + 0x100100
  let isAp := match decode w with
    | some (.dlv ..) => true
    | _ => false
  let lanes : Lanes Lane := Vector.replicate 32 (fetchLane w)
  let wave : Wave := { present := true, lanes := lanes, active := true, inBlock := some 0,
                       bound := if isAp then some 0 else none }
  let ap : Wave := { present := true, ap := some {}, lanes := (Vector.replicate 32 {}).set 0 (fetchLane w) }
  { s with
    me := {}, iss := 0, fresh := max s.fresh 1, paired := Table.erase s.paired 0, apTurn := Table.erase s.apTurn 0,
    mem := putBytes (putBytes s.mem pa fetchHeader.toNat 8) (pa + 8) w.toNat 8,
    poison := s.poison.filter fun g => g != pa / 64,
    waves := Table.set (Table.mapVals s.waves fun _ w => if w.core == 0 then { w with active := false } else w) 0 wave,
    aps := if isAp then Table.set s.aps 0 ap else s.aps,
    groups := Table.set s.groups 0 { launch := some 0, kern := fetchKernel, waves := [0] },
    launches := Table.set s.launches 0 { kern := fetchKernel, placed := 1, items := 64, nextItem := 64,
                                         itemq := [(0, (List.range 32).map (32 + ·))] },
    dikes := Table.set s.dikes 0 { quads := 1, running := some 0 },
    ctxs := Table.set s.ctxs 0 { cfg := fetchCfg s },
    adm := { s.adm with fatal := false },
    agenda := (if isAp then Turn.issueAp 0 else Turn.issue 0) :: s.agenda }

/-- An admin command at the next entry of an enabled admin ring; the next turn takes it. -/
def placeCommand (s : State) (w : Nat) : State :=
  let a := s.adm
  { s with
    me := {}, iss := 0,
    mem := putBytes s.mem (hostBase + a.base.toNat + 64 * (a.head.toNat % 16)) w 64,
    poison := s.poison.filter fun g => g != (hostBase + a.base.toNat + 64 * (a.head.toNat % 16)) / 64,
    adm := { a with ready := true, size := 16, enable := true, tail := a.head + 1, cplBase := a.base + 0x1000, cplSize := 64,
                    cplHead := BitVec.ofNat 32 a.written, waiting := none, inProgress := none, fatal := false },
    agenda := .admin :: s.agenda }

end Sys2Proof.Machine
end

