-- ==== Sys2Proof/Machine/Step.lean ====
section
/-! DEFINITION. One step of the machine: the next turn of the agenda, or of the default schedule. -/
namespace Sys2Proof.Machine

def step (s : State) : Host.Outcome State Fault Refusal :=
  let (t, s1) := nextTurn s
  match turnJob s1 t with
  | .state s2 => finish (unstage s2 s2.iss)
  | .run i s2 =>
    match exec i s2 with
    | .next s3 => finish (afterWord s2 i s3)
    | .fault f => .fault f
    | .refused r => .refused r

/-- The state in which the next step runs the instruction with these bits, numbered as the opcode table numbers them. -/
def State.withFetchWord (s : State) (nbits w : Nat) : State :=
  if nbits ≤ 64 then placeWord s (BitVec.ofNat 64 w) else placeCommand s w

end Sys2Proof.Machine
end

