-- ==== Sys2Proof/Safety.lean ====
section
/-! DEFINITION. The words the claims are stated in: what counts as a safe run, which rows of the table are program words
and which are admin commands, when an instruction of the issuing path group has what it needs, and what it leaves alone. -/
namespace Sys2Proof

/-- The machine stops nowhere within n steps from a state. -/
def Safety.runsFor (n : Nat) (s : Machine.State) : Prop := ∃ t, core.run n s = .next t

/-- Whether an instruction of the table is a program word (02 R45). -/
def Instr.isWord : Instr → Bool
  | .dike .. | .create .. | .destroy .. | .update .. | .mapq .. | .zeroRange .. | .zone .. | .cold .. | .disturb ..
  | .podclr .. | .debugHaltStop .. | .debugHaltGo .. | .debugHaltStep .. | .debugFragMask .. | .debugFragState ..
  | .debugFragKill .. | .debugFragResume .. | .traceBuf .. | .spare .. | .power .. | .mgmtSsealNew ..
  | .mgmtSsealDrop .. | .mgmtSsealAdv .. | .mgmtVdefVoc .. | .launchRecord .. | .distributorTurn ..
  | .nodeGroupStart .. | .itemQueueRefill .. | .groupRetire .. | .reductionLogApply .. | .waveSwap ..
  | .forcedSwap .. | .loadResultReturn .. | .sleepExpiry .. | .waveTimerExpiry .. | .dlvReadReturn ..
  | .guardResolve .. | .redApply .. | .haltComplete .. | .copyLand .. | .copyFail .. | .tileTaskStart ..
  | .tileTaskEnd .. | .tileTaskFail .. | .extentBuildEnd .. | .extentEvictionEnd .. | .passEnd ..
  | .evictionRescan .. | .viewSweep .. | .detokProcess .. | .weirScanDone .. | .polderFadeTick ..
  | .sluiceAgeReady .. | .spillTimeout .. | .shadowQueueAge .. | .expansionDone .. | .timeSliceEnd ..
  | .contextSwitch .. | .bankSpillDone .. | .bankFillDone .. | .adminCommandComplete .. | .remoteTimeout ..
  | .podDegradedTimeout .. | .adminDoorbell .. | .admctl .. | .doorbell .. | .mgmtDoorbell .. | .faultPendingClear ..
  | .mailboxPendingClear .. | .prien .. | .registerWrite .. | .hostBar2 .. | .remoteBatchEntry .. | .priSuccess ..
  | .priInvalidRequest .. | .priResponseFailure .. | .atsInvalidation .. | .atsCompletion .. | .remoteResponse ..
  | .inbound .. | .portFailure .. | .supplySag .. | .stretchRelease .. | .powerSample .. | .thermalStep ..
  | .thermalTrip .. | .patrolScrub .. | .rowSpareSwitch .. | .traceSampleReturn .. | .stackAlert ..
  | .refreshCommand .. | .coldReset .. | .flrVf .. | .flrPf .. => false
  | _ => true

/-- Whether it is an admin command (16 R335). -/
def Instr.isCommand : Instr → Bool
  | .dike .. | .create .. | .destroy .. | .update .. | .mapq .. | .zeroRange .. | .zone .. | .cold .. | .disturb ..
  | .podclr .. | .debugHaltStop .. | .debugHaltGo .. | .debugHaltStep .. | .debugFragMask .. | .debugFragState ..
  | .debugFragKill .. | .debugFragResume .. | .traceBuf .. | .spare .. | .power .. => true
  | _ => false

namespace Machine

/-! ### When an instruction can complete -/

/-- The issue stage holds a present wave, or an access processor context, whose path group has a lane and only live ones
(03 R59), and nothing has stopped the machine. -/
structure Issuing (s : State) : Prop where
  present : s.me.present = true
  group : s.iss ≠ 0
  live : ∀ l : Fin 32, s.iss.getLsbD l = true → s.me.lanes[l].life = .live
  notFull : s.me.full = 0
  fine : s.stuck = none

/-- The state once the words that the active lanes need have been taken from the delivery queues among the sources
(04 R103). -/
def taken (s : State) (h : Head) (srcs : List (Operand × Nat)) : State :=
  let m := active s h
  (queuesIn srcs).foldl (fun s q => popQueue s m q) s

/-- The sources can be read: every delivery queue among them holds a word for each active lane that needs one (04 R103;
an address program has no such source, 04 R93), and no active lane reads a poisoned word (18 R403). -/
structure Sourced (s : State) (h : Head) (srcs : List (Operand × Nat)) : Prop where
  queues : ∀ q ∈ queuesIn srcs, (needers s.me (active s h) q).length ≤ readyWords (boundQueue s q)
  agent : queuesIn srcs = [] ∨ s.me.ap = none
  clean : poisonLanes (taken s h srcs) srcs (active s h) = 0

/-! ### What an instruction leaves alone -/

/-- What settling keeps of a lane: everything but its waits, meetings, barrier arrivals and place in the code; a lane
that is not held at a second arrival at a barrier keeps its program counter too. -/
structure LaneKept (a b : Lane) : Prop where
  life : b.life = a.life
  flags : b.flags = a.flags
  rng : b.rng = a.rng
  item : b.item = a.item
  batch : b.batch = a.batch
  failed : b.failed = a.failed
  handler : b.handler = a.handler
  timer : b.timerDue = a.timerDue
  stopped : b.stopped = a.stopped
  tret : b.tret = a.tret
  place : (∀ sc n p w t, a.wait ≠ .barHeld sc n p w t) → b.pc = a.pc ∧ ∀ sc n p w t, b.wait ≠ .barHeld sc n p w t

/-- What settling keeps of a wave: everything but its lanes, and of each lane what `LaneKept` says. -/
structure WaveKept (a b : Wave) : Prop where
  rest : b = { a with lanes := b.lanes }
  lanes : ∀ i : Fin 32, LaneKept a.lanes[i] b.lanes[i]

/-- A wave that another wave's instruction may have settled, or unbound from its access processor context. -/
structure WaveFramed (a b : Wave) : Prop where
  rest : b = { a with lanes := b.lanes, bound := b.bound, ended := b.ended }
  lanes : ∀ i : Fin 32, LaneKept a.lanes[i] b.lanes[i]

/-- Two groups differ at most in their barriers. -/
def GroupKept (a b : Group) : Prop := b = { a with bars := b.bars }

/-- Two contexts differ at most in their barriers. -/
def CtxKept (a b : Context) : Prop := b = { a with bars := b.bars }

/-- An entry of a table before and after. -/
def EntryKept {α : Type} (r : α → α → Prop) : Option α → Option α → Prop
  | none, none => True
  | some a, some b => r a b
  | _, _ => False

/-- The frame of an instruction that writes registers only: every part of the machine but the issuing wave is as before,
and so is every byte of memory; other waves, groups and contexts can have moved past a barrier or a meeting, and an access
processor context whose program has ended and whose queues are empty can have been freed (03 R62, R87, 04 R97). -/
structure Framed (p t : State) : Prop where
  rest : t = { p with me := t.me, waves := t.waves, aps := t.aps, groups := t.groups, ctxs := t.ctxs }
  waves : ∀ k, EntryKept WaveFramed (Table.get? p.waves k) (Table.get? t.waves k)
  aps : ∀ k, Table.get? t.aps k = Table.get? p.aps k ∨ Table.get? t.aps k = none
  groups : ∀ k, EntryKept GroupKept (Table.get? p.groups k) (Table.get? t.groups k)
  ctxs : ∀ k, EntryKept CtxKept (Table.get? p.ctxs k) (Table.get? t.ctxs k)

/-! ### What a register instruction writes -/

/-- The 32-bit half of a result that a register of a destination takes: none for a register it does not name. -/
def halfOf (w : Width) (i n : Nat) (x : Word64) : Option Word32 :=
  if n = i then some (x.setWidth 32)
  else if w = .w64 ∧ n = i + 1 then some ((x >>> 32).setWidth 32) else none

/-- What a lane of a vector register holds after a write at a width (01 R19, 02 R35). -/
def vecAfter (a : Wave) (w : Width) (d : Operand) (m : LaneMask) (val : Fin 32 → Word64) (n : Nat) (l : Fin 32) : Word32 :=
  match d with
  | .v i => if m.getLsbD l then (halfOf w i.val n (val l)).getD (readV a n l) else readV a n l
  | _ => readV a n l

/-- What a scalar register holds after a write at a width (02 R35, R40). -/
def scaAfter (a : Wave) (w : Width) (d : Operand) (m : LaneMask) (val : Fin 32 → Word64) (n : Nat) : Word32 :=
  match d with
  | .s i => if m ≠ 0 then (halfOf w i.val n (val (lowest m))).getD (readS a n) else readS a n
  | _ => readS a n

/-- Whether a lane of a vector register, or a scalar register, holds a poisoned word (18 R402). -/
def vecBad (w : Wave) (n : Nat) (l : Fin 32) : Bool := (Table.getD w.vpoison n 0).getLsbD l
def scaBad (w : Wave) (n : Nat) : Bool := w.spoison.contains n

/-- Whether a register is one of those that a destination register names at a width. -/
def names (w : Width) (i n : Nat) : Bool := n == i || (w == .w64 && n == i + 1)

/-- Whether a lane of a vector register, or a scalar register, takes part of a result. -/
def vecTakes (w : Width) (d : Operand) (m : LaneMask) (n : Nat) (l : Fin 32) : Bool :=
  match d with
  | .v i => m.getLsbD l && names w i.val n
  | _ => false
def scaTakes (w : Width) (d : Operand) (m : LaneMask) (n : Nat) : Bool :=
  match d with
  | .s i => m != 0 && names w i.val n
  | _ => false

/-- No register becomes poisoned or clean. -/
structure PoisonKept (a b : Wave) : Prop where
  vec : ∀ (n : Nat) (l : Fin 32), vecBad b n l = vecBad a n l
  sca : ∀ n : Nat, scaBad b n = scaBad a n

/-- One value per active lane in a destination (01 R19, 02 R35, R40, R41): a vector register or even pair takes each lane's
own value, a scalar one takes the lowest active lane's if a lane is active, %zero takes none; every other register, and
every mask register, keeps its value. What is written is poisoned no longer; all else stays as poisoned as it was
(18 R402, R403). -/
structure Wrote (a b : Wave) (w : Width) (d : Operand) (m : LaneMask) (val : Fin 32 → Word64) : Prop where
  vec : ∀ (n : Nat) (l : Fin 32), readV b n l = vecAfter a w d m val n l
  sca : ∀ n : Nat, readS b n = scaAfter a w d m val n
  mask : ∀ k, readK b k = readK a k
  vecClean : ∀ (n : Nat) (l : Fin 32), vecBad b n l = (vecBad a n l && !vecTakes w d m n l)
  scaClean : ∀ n : Nat, scaBad b n = (scaBad a n && !scaTakes w d m n)

/-- The bits of some lanes in one mask register (07 R175); nothing else. -/
structure WroteMask (a b : Wave) (k : BitVec 4) (m bits : LaneMask) : Prop where
  vec : ∀ (n : Nat) (l : Fin 32), readV b n l = readV a n l
  sca : ∀ n : Nat, readS b n = readS a n
  poison : PoisonKept a b
  mask : ∀ j, readK b j = if j = k then (readK a k &&& ~~~m) ||| (bits &&& m) else readK a j

/-- No register. -/
structure WroteNone (a b : Wave) : Prop where
  vec : ∀ (n : Nat) (l : Fin 32), readV b n l = readV a n l
  sca : ∀ n : Nat, readS b n = readS a n
  poison : PoisonKept a b
  mask : ∀ k, readK b k = readK a k

/-- A register instruction completed: from the state with its queue words taken it left the registers as `regs` says,
raised the flags `fl` on its active lanes and in the cause bitmap (05 R143), changed the generators of its active lanes by
`g` (05 R137, R138), moved every lane of the path group to the next word (03 R60), and left everything else alone. -/
structure Completed (p t : State) (m : LaneMask) (regs : Wave → Wave → Prop) (fl : Fin 32 → BitVec 5)
    (g : Fin 32 → Word32 → Word32) : Prop where
  regs : regs p.me t.me
  flags : ∀ l : Fin 32, t.me.lanes[l].flags = p.me.lanes[l].flags ||| (if m.getLsbD l then fl l else 0)
  causes : t.me.causes =
    p.me.causes ||| (((lanesIn m).foldl (fun (x : BitVec 5) l => x ||| fl l) 0#5).setWidth 64)
  rng : ∀ l : Fin 32, t.me.lanes[l].rng =
    if m.getLsbD l then g l p.me.lanes[l].rng else p.me.lanes[l].rng
  pc : ∀ l : Fin 32, p.iss.getLsbD l = true → t.me.lanes[l].pc = p.me.lanes[l].pc + 8
  lanes : ∀ l : Fin 32, t.me.lanes[l].life = p.me.lanes[l].life ∧ t.me.lanes[l].item = p.me.lanes[l].item ∧
    t.me.lanes[l].batch = p.me.lanes[l].batch ∧ t.me.lanes[l].failed = p.me.lanes[l].failed ∧
    t.me.lanes[l].handler = p.me.lanes[l].handler ∧ t.me.lanes[l].tret = p.me.lanes[l].tret
  wave : t.me = { p.me with v := t.me.v, vpoison := t.me.vpoison, s := t.me.s, spoison := t.me.spoison, k := t.me.k,
                            lanes := t.me.lanes, causes := t.me.causes, bound := t.me.bound, ended := t.me.ended }
  frame : Framed p t

/-- No flag is raised. -/
def noFlags (_ : Fin 32) : BitVec 5 := 0

/-- The generators stay, or advance by n steps (05 R137). -/
def keepRng (_ : Fin 32) (x : Word32) : Word32 := x
def stepRng (n : Nat) (_ : Fin 32) (x : Word32) : Word32 := (List.range n).foldl (fun x _ => rngStep x) x

/-- The doubleword whose bit j is a test of j. -/
def bits64 (f : Nat → Bool) : Word64 :=
  (List.finRange 64).foldl (fun r j => if f j.val then r ||| (1#64 <<< j.val) else r) 0

end Machine
end Sys2Proof
end

