-- ==== Sys2Proof/Certificates/Slice0/Obligations.lean ====
section
/-! DEFINITION. The statements for the provers, and the words they are stated in. -/
open Sys2Proof Sys2Proof.Machine
namespace Sys2Proof.Claims

/-! ### Registers: what a completed instruction writes -/

/-- A register instruction: its head, the width and the operand it writes, the sources with the words each reads, and the
value of a lane in the state whose queue words have been taken. -/
structure Form where
  h : Head
  w : Width
  d : Operand
  srcs : List (Operand × Nat)
  val : State → Fin 32 → Word64

/-- It completes: each active lane's value in the destination, no flag raised, everything else kept. -/
def Form.Completes (i : Instr) (f : Form) : Prop :=
  ∀ s, Issuing s → Sourced s f.h f.srcs → ∃ t, exec i s = .next t ∧
    Completed (taken s f.h f.srcs) t (active s f.h)
      (fun a b => Wrote a b f.w f.d (active s f.h) (f.val (taken s f.h f.srcs))) noFlags keepRng

/-- The integer of a source under a type (05 R134). -/
def int (s : State) (ty : IntTy) (o : Operand) (l : Fin 32) : Int := intOf ty (srcW s ty.width o l)

/-- The integer of a 24-bit immediate, which is sign-extended to the width and read under the type (07 R177). -/
def immInt (ty : IntTy) (imm : BitVec 24) : Int :=
  if tySigned ty then imm.toInt else imm.toInt.emod (2 ^ widthBits ty.width)

/-- wrap(z), or sat(z) with the S bit (07 R171); the destination takes the low bits of its width. -/
def fit (ty : IntTy) (sat : Bool) (z : Int) : Word64 :=
  BitVec.ofInt 64 (if sat then max (minOf ty) (min z (maxOf ty)) else z)

/-- The signed type of a width. -/
def signed (w : Width) : IntTy := if w = .w32 then .z32 else .z64

/-- Byte i of a word as an integer. -/
def byteInt (z : Bool) (x : Word32) (i : Nat) : Int :=
  let e := x.toNat / 256 ^ i % 256
  if z ∧ e ≥ 128 then (e : Int) - 256 else e

/-- The integer instructions (07 R171, R174). -/
def integerForm : Instr → Option Form
  | .iadd h ty sat d a b => some ⟨h, ty.width, d, [at_ ty.width a, at_ ty.width b], fun s l =>
      fit ty sat (int s ty a l + int s ty b l)⟩
  | .iaddImm h ty sat d a imm => some ⟨h, ty.width, d, [at_ ty.width a], fun s l =>
      fit ty sat (int s ty a l + immInt ty imm)⟩
  | .isub h ty sat d a b => some ⟨h, ty.width, d, [at_ ty.width a, at_ ty.width b], fun s l =>
      fit ty sat (int s ty a l - int s ty b l)⟩
  | .isubImm h ty sat d a imm => some ⟨h, ty.width, d, [at_ ty.width a], fun s l =>
      fit ty sat (int s ty a l - immInt ty imm)⟩
  | .imul h ty sat d a b => some ⟨h, ty.width, d, [at_ ty.width a, at_ ty.width b], fun s l =>
      fit ty sat (int s ty a l * int s ty b l)⟩
  | .imulImm h ty sat d a imm => some ⟨h, ty.width, d, [at_ ty.width a], fun s l =>
      fit ty sat (int s ty a l * immInt ty imm)⟩
  | .imulh h ty d a b => some ⟨h, ty.width, d, [at_ ty.width a, at_ ty.width b], fun s l =>
      fit ty false ((int s ty a l * int s ty b l).fdiv (2 ^ widthBits ty.width))⟩
  | .imad h ty sat d a b c => some ⟨h, ty.width, d, [at_ ty.width a, at_ ty.width b, at_ ty.width c], fun s l =>
      fit ty sat (int s ty a l * int s ty b l + int s ty c l)⟩
  | .imin h ty d a b => some ⟨h, ty.width, d, [at_ ty.width a, at_ ty.width b], fun s l =>
      fit ty false (min (int s ty a l) (int s ty b l))⟩
  | .iminImm h ty d a imm => some ⟨h, ty.width, d, [at_ ty.width a], fun s l =>
      fit ty false (min (int s ty a l) (immInt ty imm))⟩
  | .imax h ty d a b => some ⟨h, ty.width, d, [at_ ty.width a, at_ ty.width b], fun s l =>
      fit ty false (max (int s ty a l) (int s ty b l))⟩
  | .imaxImm h ty d a imm => some ⟨h, ty.width, d, [at_ ty.width a], fun s l =>
      fit ty false (max (int s ty a l) (immInt ty imm))⟩
  | .iabs h w sat d a => some ⟨h, w, d, [at_ w a], fun s l =>
      fit (signed w) sat (max (int s (signed w) a l) (-int s (signed w) a l))⟩
  | .ineg h w sat d a => some ⟨h, w, d, [at_ w a], fun s l => fit (signed w) sat (-int s (signed w) a l)⟩
  | .idot4 h za zb sat d a b c => some ⟨h, .w32, d, [(a, 1), (b, 1), (c, 1)], fun s l =>
      let x := src32 s a l
      let y := src32 s b l
      fit .z32 sat (byteInt za x 0 * byteInt zb y 0 + byteInt za x 1 * byteInt zb y 1 +
        byteInt za x 2 * byteInt zb y 2 + byteInt za x 3 * byteInt zb y 3 + (src32 s c l).toInt)⟩
  | _ => none

/-- The logic instructions, bit by bit (07 R171, R173). -/
def logicForm : Instr → Option Form
  | .and h w d a b => some ⟨h, w, d, [at_ w a, at_ w b], fun s l =>
      bits64 fun j => (srcW s w a l).getLsbD j && (srcW s w b l).getLsbD j⟩
  | .andImm h w d a imm => some ⟨h, w, d, [at_ w a], fun s l =>
      bits64 fun j => (srcW s w a l).getLsbD j && imm.getLsbD (min j 23)⟩
  | .or h w d a b => some ⟨h, w, d, [at_ w a, at_ w b], fun s l =>
      bits64 fun j => (srcW s w a l).getLsbD j || (srcW s w b l).getLsbD j⟩
  | .orImm h w d a imm => some ⟨h, w, d, [at_ w a], fun s l =>
      bits64 fun j => (srcW s w a l).getLsbD j || imm.getLsbD (min j 23)⟩
  | .xor h w d a b => some ⟨h, w, d, [at_ w a, at_ w b], fun s l =>
      bits64 fun j => (srcW s w a l).getLsbD j != (srcW s w b l).getLsbD j⟩
  | .xorImm h w d a imm => some ⟨h, w, d, [at_ w a], fun s l =>
      bits64 fun j => (srcW s w a l).getLsbD j != imm.getLsbD (min j 23)⟩
  | .not h w d a => some ⟨h, w, d, [at_ w a], fun s l => bits64 fun j => !(srcW s w a l).getLsbD j⟩
  | .bool3 h w t d a b c => some ⟨h, w, d, [at_ w a, at_ w b, at_ w c], fun s l =>
      bits64 fun j => t.getLsbD (4 * ((srcW s w a l).getLsbD j).toNat + 2 * ((srcW s w b l).getLsbD j).toNat +
        ((srcW s w c l).getLsbD j).toNat)⟩
  | _ => none

/-- Shifts and rotates of w bits by n, bit by bit (07 R172). -/
def shlBits (n : Nat) (x : Word64) : Word64 := bits64 fun j => decide (n ≤ j) && x.getLsbD (j - n)
def shrBits (w n : Nat) (x : Word64) : Word64 := bits64 fun j => decide (j + n < w) && x.getLsbD (j + n)
def sarBits (w n : Nat) (x : Word64) : Word64 := bits64 fun j => x.getLsbD (min (j + n) (w - 1))
def rotBits (w n : Nat) (x : Word64) : Word64 := bits64 fun j => x.getLsbD ((j + w - n % w) % w)

/-- The field of `bfx`: the position in bits 7:0 and the length in bits 15:8 of the third source; length 0 gives 0, and a
length above the width counts as the width (07 R173). -/
def fieldBits (sx : Bool) (w : Nat) (x : Word64) (pn : Nat) : Word64 :=
  let p := pn % 256
  let n := min (pn / 256 % 256) w
  let bit := fun j => decide (p + j < w) && x.getLsbD (p + j)
  bits64 fun j => if j < n then bit j else sx && decide (0 < n) && bit (n - 1)

/-- The shifts, fields and counts, bit by bit (07 R171 to R173). -/
def shiftForm : Instr → Option Form
  | .shl h w d a b => some ⟨h, w, d, [at_ w a, (b, 1)], fun s l =>
      shlBits (src32 s b l).toNat (srcW s w a l)⟩
  | .shlImm h w d a imm => some ⟨h, w, d, [at_ w a], fun s l => shlBits imm.toNat (srcW s w a l)⟩
  | .shr h w d a b => some ⟨h, w, d, [at_ w a, (b, 1)], fun s l =>
      shrBits (widthBits w) (src32 s b l).toNat (srcW s w a l)⟩
  | .shrImm h w d a imm => some ⟨h, w, d, [at_ w a], fun s l => shrBits (widthBits w) imm.toNat (srcW s w a l)⟩
  | .sar h w d a b => some ⟨h, w, d, [at_ w a, (b, 1)], fun s l =>
      sarBits (widthBits w) (src32 s b l).toNat (srcW s w a l)⟩
  | .sarImm h w d a imm => some ⟨h, w, d, [at_ w a], fun s l => sarBits (widthBits w) imm.toNat (srcW s w a l)⟩
  | .rot h w d a b => some ⟨h, w, d, [at_ w a, (b, 1)], fun s l =>
      rotBits (widthBits w) (src32 s b l).toNat (srcW s w a l)⟩
  | .rotImm h w d a imm => some ⟨h, w, d, [at_ w a], fun s l => rotBits (widthBits w) imm.toNat (srcW s w a l)⟩
  | .bfx h ty d a b => some ⟨h, ty.width, d, [at_ ty.width a, (b, 1)], fun s l =>
      fieldBits (tySigned ty) (widthBits ty.width) (srcW s ty.width a l) (src32 s b l).toNat⟩
  | .bfxImm h ty d a imm => some ⟨h, ty.width, d, [at_ ty.width a], fun s l =>
      fieldBits (tySigned ty) (widthBits ty.width) (srcW s ty.width a l) imm.toNat⟩
  | .bfi h w d a b c => some ⟨h, w, d, [at_ w a, (b, 1), at_ w c], fun s l =>
      let p := (src32 s b l).toNat % 256
      let n := min ((src32 s b l).toNat / 256 % 256) (widthBits w)
      bits64 fun j => if p ≤ j ∧ j < p + n then (srcW s w a l).getLsbD (j - p) else (srcW s w c l).getLsbD j⟩
  | .popc h w d a => some ⟨h, .w32, d, [at_ w a], fun s l =>
      BitVec.ofNat 64 ((List.range (widthBits w)).countP fun j => (srcW s w a l).getLsbD j)⟩
  | .clz h w d a => some ⟨h, .w32, d, [at_ w a], fun s l =>
      BitVec.ofNat 64 ((List.range (widthBits w)).takeWhile fun j =>
        !(srcW s w a l).getLsbD (widthBits w - 1 - j)).length⟩
  | .brev h w d a => some ⟨h, w, d, [at_ w a], fun s l =>
      bits64 fun j => (srcW s w a l).getLsbD (widthBits w - 1 - j)⟩
  | _ => none

/-- The address, move and select instructions (07 R176, R178). -/
def moveForm : Instr → Option Form
  | .lea h sh sx d a b => some ⟨h, .w64, d, [(a, 2), (b, 1)], fun s l =>
      BitVec.ofInt 64 ((src64 s a l).toNat +
        2 ^ sh.toNat * (if sx then (src32 s b l).toInt else ((src32 s b l).toNat : Int)))⟩
  | .leaImm h sh d a imm => some ⟨h, .w64, d, [(a, 2)], fun s l =>
      BitVec.ofInt 64 ((src64 s a l).toNat + 2 ^ sh.toNat * imm.toInt)⟩
  | .mov h w d a => some ⟨h, w, d, [at_ w a], fun s l => srcW s w a l⟩
  | .movi h w d imm => some ⟨h, w, d, [], fun _ _ => BitVec.ofInt 64 imm.toInt⟩
  | .movw h d imm => some ⟨h, .w32, d, [], fun _ _ => BitVec.ofNat 64 imm.toNat⟩
  | .sel h w d a b k => some ⟨h, w, d, [at_ w a, at_ w b], fun s l =>
      srcW s w (if (readK s.me k).getLsbD l then a else b) l⟩
  | .mad64 h n32 d a b c => some ⟨h, .w64, d, [(a, 1), (b, 1), (c, 2)], fun s l =>
      let x := src32 s a l
      let y := src32 s b l
      BitVec.ofInt 64 ((if n32 then (x.toNat * y.toNat : Int) else x.toInt * y.toInt) + (src64 s c l).toNat)⟩
  | _ => none

end Sys2Proof.Claims
open Sys2Proof.Claims

/-- Integer instructions leave the exact sum, difference, product, dot product, smaller, larger, magnitude or negative in the
destination, wrapped or clamped; addresses, moves and selects leave their value; nothing else changes (07 R171, R174, R176,
R178). -/
def Obligations.IntegerResults : Prop := ∀ i f, (integerForm i = some f ∨ moveForm i = some f) → f.Completes i

/-- Logic instructions, shifts, rotates, fields and bit counts compute each bit from the bits of their sources (07 R171 to R173). -/
def Obligations.BitResults : Prop := ∀ i f, (logicForm i = some f ∨ shiftForm i = some f) → f.Completes i

namespace Sys2Proof.Claims

/-- A register instruction in general: which registers it leaves how, the flags it raises and what becomes of the generators
of its active lanes, all from the state whose queue words have been taken. -/
structure Effect where
  h : Head
  srcs : List (Operand × Nat)
  regs : State → LaneMask → Wave → Wave → Prop
  flags : State → LaneMask → Fin 32 → BitVec 5 := fun _ _ => noFlags
  rng : State → Fin 32 → Word32 → Word32 := fun _ => keepRng

def Effect.Completes (i : Instr) (e : Effect) : Prop :=
  ∀ s, Issuing s → Sourced s e.h e.srcs → ∃ t, exec i s = .next t ∧
    Completed (taken s e.h e.srcs) t (active s e.h) (e.regs (taken s e.h e.srcs) (active s e.h))
      (e.flags (taken s e.h e.srcs) (active s e.h)) (e.rng (taken s e.h e.srcs))

/-- An instruction that writes one value per active lane and raises the flags that come with it; a scalar form raises on
every lane that passes the guard what its one value raises (05 R143). -/
def flagged (h : Head) (w : Width) (d : Operand) (srcs : List (Operand × Nat))
    (val : State → LaneMask → Fin 32 → Word64 × BitVec 5) (rng : State → Fin 32 → Word32 → Word32 := fun _ => keepRng) :
    Effect :=
  { h := h, srcs := srcs, regs := fun s m a b => Wrote a b w d m fun l => (val s m l).1,
    flags := fun s m l => (val s m (if d.isScalar then lowest m else l)).2, rng := rng }

/-- The mask of the lanes that pass a test. -/
def lanesMask (f : Fin 32 → Bool) : LaneMask := maskOf ((List.finRange 32).filter f)

/-- An instruction that writes the bits of its active lanes in a mask register and leaves the others (07 R175). -/
def masked (h : Head) (k : BitVec 4) (srcs : List (Operand × Nat)) (test : State → LaneMask → Fin 32 → Bool × BitVec 5) :
    Effect :=
  { h := h, srcs := srcs, regs := fun s m a b => WroteMask a b k m (lanesMask fun l => (test s m l).1),
    flags := fun s m l => (test s m l).2 }

/-- The order of two integers under a condition (07 R175). -/
def orders (c : ICond) (x y : Int) : Bool :=
  match c with
  | .eq => x = y
  | .ne => x ≠ y
  | .lt => x < y
  | .le => x ≤ y
  | .gt => y < x
  | .ge => y ≤ x

/-- The compares (07 R175, R181) and `elect` (07 R192). -/
def compareEffect : Instr → Option Effect
  | .icmp h ty c k a b => some (masked h k [at_ ty.width a, at_ ty.width b] fun s _ l =>
      (orders c (int s ty a l) (int s ty b l), 0))
  | .icmpImm h ty c k a imm => some (masked h k [at_ ty.width a] fun s _ l =>
      (orders c (int s ty a l) (immInt ty imm), 0))
  | .fcmp h c k a b => some (masked h k [(a.o, 1), (b.o, 1)] fun s _ l => fTest c (fVal s a l) (fVal s b l))
  | .elect h k => some (masked h k [] fun _ m l => (l == lowest m, 0))
  | _ => none

/-- A result code with its flags. -/
def word (x : Nat × BitVec 5) : Word64 × BitVec 5 := (BitVec.ofNat 64 x.1, x.2)

/-- The float instructions (07 R179 to R182, R184). -/
def floatEffect : Instr → Option Effect
  | .fadd h r d a b => some (flagged h .w32 d [(a.o, 1), (b.o, 1)] fun s _ l => word (fAdd r (fVal s a l) (fVal s b l)))
  | .fsub h r d a b => some (flagged h .w32 d [(a.o, 1), (b.o, 1)] fun s _ l =>
      word (fAdd r (fVal s a l) (negVal (fVal s b l))))
  | .fmul h r d a b => some (flagged h .w32 d [(a.o, 1), (b.o, 1)] fun s _ l => word (fMul r (fVal s a l) (fVal s b l)))
  | .ffma h r d a b c => some (flagged h .w32 d [(a.o, 1), (b.o, 1), (c.o, 1)] fun s _ l =>
      word (fFma r (fVal s a l) (fVal s b l) (fVal s c l)))
  | .fmin h d a b => some (flagged h .w32 d [(a.o, 1), (b.o, 1)] fun s _ l =>
      word (fPick false (fWord s a l) (fWord s b l)))
  | .fmax h d a b => some (flagged h .w32 d [(a.o, 1), (b.o, 1)] fun s _ l =>
      word (fPick true (fWord s a l) (fWord s b l)))
  | .fclass h d a => some (flagged h .w32 d [(a.o, 1)] fun s _ l => (BitVec.ofNat 64 (2 ^ fClassBit (fWord s a l)), 0))
  | .fdot2 h bf r d a b c => some (flagged h .w32 d [(a.o, 1), (b.o, 1), (c.o, 1)] fun s _ l =>
      let f : FFmt := if bf then .bf16 else .f16
      word (fDot2 r (halfVal f s a 0 l) (halfVal f s a 1 l) (halfVal f s b 0 l) (halfVal f s b 1 l) (fVal s c l)))
  | .frcp h r d a => some (flagged h .w32 d [(a.o, 1)] fun s _ l => word (fRcp r (fVal s a l)))
  | .fsqrt h r d a => some (flagged h .w32 d [(a.o, 1)] fun s _ l => word (fSqrt r (fVal s a l)))
  | .frsq h d a => some (flagged h .w32 d [(a.o, 1)] fun s _ l => word (fRsq (fVal s a l)))
  | .fex2 h d a => some (flagged h .w32 d [(a.o, 1)] fun s _ l => word (fEx2 (fVal s a l)))
  | .flg2 h d a => some (flagged h .w32 d [(a.o, 1)] fun s _ l => word (fLg2 (fVal s a l)))
  | .fsin h d a => some (flagged h .w32 d [(a.o, 1)] fun s _ l => word (fSin (fVal s a l)))
  | .fcos h d a => some (flagged h .w32 d [(a.o, 1)] fun s _ l => word (fCos (fVal s a l)))
  | .ftanh h d a => some (flagged h .w32 d [(a.o, 1)] fun s _ l => word (fTanh (fVal s a l)))
  | _ => none

/-- The generator of an active lane after a conversion of n elements: n steps on under `.rs`, else as it was (05 R138). -/
def rsSteps (r : Rnd) (n : Nat) : State → Fin 32 → Word32 → Word32 := fun _ => if r = .rs then stepRng n else keepRng

/-- The generator state that the i-th element of a lane is rounded with: one step on for each element up to it (05 R138). -/
def drawn (s : State) (l : Fin 32) (i : Nat) : Word32 := stepRng (i + 1) l s.me.lanes[l].rng

/-- The value of a source element of a format. -/
def elem (f : FFmt) (x : Word32) (i : Nat) : FVal := decodeF f (x.toNat / 2 ^ (i * f.bits))

/-- The conversions (07 R185 to R188, 05 R133, R137, R138). -/
def convertEffect : Instr → Option Effect
  | .cvt h (.intToFloat df sf r) d a => some (flagged h .w32 d [(a, widthWords (CvtKind.intToFloat df sf r).srcWidth)]
      fun s _ l => word (intToFloat df r (decodeI sf (srcW s (CvtKind.intToFloat df sf r).srcWidth a l).toNat)))
  | .cvt h (.floatToInt df sf r) d a => some (flagged h (CvtKind.floatToInt df sf r).dstWidth d [(a, 1)]
      fun s _ l => floatToInt df r (decodeF sf (src32 s a l).toNat))
  | .cvt h (.intToInt df sf sat) d a => some (flagged h (CvtKind.intToInt df sf sat).dstWidth d
      [(a, widthWords (CvtKind.intToInt df sf sat).srcWidth)]
      fun s _ l => (intToInt df sat (decodeI sf (srcW s (CvtKind.intToInt df sf sat).srcWidth a l).toNat), 0))
  | .fcvt h df sf r d a => some (flagged h .w32 d [(a, 1)]
      (fun s _ l => word (convF df r (drawn s l 0) (elem sf (src32 s a l) 0))) (rsSteps r 1))
  | .fpack h df j r d a b c => some (flagged h .w32 d [(a, 1), (b, 1), (c, 1)]
      (fun s _ l =>
        let x := convF df r (drawn s l 0) (f32 (src32 s a l))
        let y := convF df r (drawn s l 1) (f32 (src32 s b l))
        let lo := 2 * j.toNat * df.bits
        (bits64 fun i =>
          if lo ≤ i ∧ i < lo + df.bits then x.1.testBit (i - lo)
          else if lo + df.bits ≤ i ∧ i < lo + 2 * df.bits then y.1.testBit (i - lo - df.bits)
          else (src32 s c l).getLsbD i, x.2 ||| y.2)) (rsSteps r 2))
  | .funpk h sf i d a => some (flagged h .w32 d [(a, 1)] fun s _ l =>
      word (convF .f32 .rn 0 (elem sf (src32 s a l) i.toNat)))
  | .lgcvt h true _ d a => some (flagged h .w32 d [(a, 1)] fun s _ l =>
      word (convF .f32 .rn 0 (decodeLg (src32 s a l).toNat)))
  | .lgcvt h false r d a => some (flagged h .w32 d [(a, 1)]
      (fun s _ l => word (roundLg r (drawn s l 0) (f32 (src32 s a l)))) (rsSteps r 1))
  | .srnd h a => some
      { h := h, srcs := [(a, 1)], regs := fun _ _ => WroteNone,
        rng := fun s l _ =>
          let x := src32 s a l ^^^ BitVec.ofNat 32 (0x9E3779B9 * (l.val + 1))
          if x = 0 then 1 else x }
  | _ => none

/-- The values that `qe8` quantises: elements of a register group, then the exponent (06 R160, R162). -/
def quantised (vs : List FVal) (e : Nat) : Nat × BitVec 5 × Nat :=
  let (zs, den) := quantInputs vs (127 - (e : Int))
  quantPoint zs den (e = 255)

/-- Eight consecutive vector registers of a lane. -/
def group8 (s : State) (a : Operand) (n : Nat) (l : Fin 32) : List FVal :=
  (List.range n).map fun i => f32 (groupElem s a i l)

/-- The lattice instructions that count nothing (06 R162, R165). -/
def latticeEffect : Instr → Option Effect
  | .qe8 h p d a b => some (flagged h .w32 d [(a, 8 - p.toNat), (b, 1)] fun s _ l =>
      let q := quantised (group8 s a (8 - p.toNat) l) ((src32 s b l).toNat % 256)
      (BitVec.ofNat 64 q.1, q.2.1))
  | .e8scl h d a => some (flagged h .w32 d [(a, 8)] fun s m l =>
      let quartet := (List.finRange 32).filter fun (i : Fin 32) => m.getLsbD i.val && i.val / 4 == l.val / 4
      (BitVec.ofNat 64 (blockExp (quartet.flatMap fun i => group8 s a 8 i)), 0))
  | _ => none

/-- The lattice instructions that count non-canonical codes of their active lanes in the issuing context, before anything
else changes (06 R155, R163, R164): `qe8m` keeps the exact coordinates of unmasked elements; `de8` writes eight registers. -/
def countingEffect : Instr → Option (Operand × Effect)
  | .qe8m h p d a b c => some (c, flagged h .w32 d [(a, 8 - p.toNat), (b, 1), (c, 1)] fun s _ l =>
      let e := (src32 s b l).toNat % 256
      let cw := (src32 s c l).toNat
      let q := quantised ((List.range (8 - p.toNat)).map fun i =>
        if cw.testBit (16 + i) then f32 (groupElem s a i l)
        else
          let x := (decodePoint (cw % 65536)).getD i 0
          .fin (x < 0) x.natAbs ((e : Int) - 128)) e
      (BitVec.ofNat 64 q.1, q.2.1))
  | .de8 h p d a b => some (a,
      { h := h, srcs := [(a, 1), (b, 1)],
        regs := fun s m x y => (∀ k, readK y k = readK x k) ∧ (∀ n, readS y n = readS x n) ∧
          ∀ n l, readV y n l =
            match d with
            | .v r =>
              if m.getLsbD l ∧ r.val ≤ n ∧ n < r.val + 8 then
                de8Elem ((src32 s a l).toNat % 65536) ((src32 s b l).toNat % 256) p.toNat (n - r.val)
              else readV x n l
            | _ => readV x n l })
  | _ => none

/-- The lane that a lane of `shfl` reads: none outside the wave (07 R191). -/
def shuffleSource (mode : ShflMode) (l n : Nat) : Option (Fin 32) :=
  match mode with
  | .idx => some (Fin.ofNat 32 n)
  | .up => if n ≤ l then some (Fin.ofNat 32 (l - n)) else none
  | .down => if l + n < 32 then some (Fin.ofNat 32 (l + n)) else none
  | .xor => some (Fin.ofNat 32 (Nat.xor l (n % 32)))

/-- Combine two sides of a node of the tree of `wred`; an absent side passes the other on (07 R193). -/
def combine (op : WOp) (uns : Bool) : Option (Word32 × BitVec 5) → Option (Word32 × BitVec 5) → Option (Word32 × BitVec 5)
  | some (x, f), some (y, g) => some ((wStep op uns x y).1, (wStep op uns x y).2 ||| f ||| g)
  | some x, none => some x
  | none, y => y

/-- Node j of level n of the tree of `wred`: level 0 holds the lanes, level 5 the root (07 R193). -/
def node (op : WOp) (uns : Bool) (leaf : Nat → Option Word32) : Nat → Nat → Option (Word32 × BitVec 5)
  | 0, j => (leaf j).map fun x => (x, 0)
  | n + 1, j => combine op uns (node op uns leaf n (2 * j)) (node op uns leaf n (2 * j + 1))

/-- The values of the lanes of a list, combined one after another from the first on (07 R193). -/
def chain (op : WOp) (uns : Bool) (x : Fin 32 → Word32) : List (Fin 32) → Option (Word32 × BitVec 5)
  | [] => none
  | l :: t => some (t.foldl (fun a j => ((wStep op uns a.1 (x j)).1, a.2 ||| (wStep op uns a.1 (x j)).2)) (x l, 0))

/-- The cross-lane instructions (07 R191 to R193). -/
def laneEffect : Instr → Option Effect
  | .shfl h mode wide d a b => some (flagged h (widthOf wide) d [(a, widthWords (widthOf wide)), (b, 1)] fun s m l =>
      (srcW s (widthOf wide) a (((shuffleSource mode l.val (src32 s b l).toNat).filter fun (j : Fin 32) => m.getLsbD j.val).getD l), 0))
  | .matchLanes h w d a => some (flagged h .w32 d [(a, widthWords w)] fun s m l =>
      ((lanesMask fun j => m.getLsbD j && srcW s w a j == srcW s w a l).setWidth 64, 0))
  | .vote h test inv d k => some (flagged h .w32 d [] fun s m _ =>
      let passes := fun (l : Fin 32) => (readK s.me k).getLsbD l != inv
      let any := (lanesIn m).any passes
      let all := (lanesIn m).all passes
      (match test with
        | .gather => (lanesMask fun l => m.getLsbD l && passes l).setWidth 64
        | .some => if any then 1 else 0
        | .every => if all then 1 else 0
        | .agree => if all || !any then 1 else 0, 0))
  | .wred h op uns d a => some
      { h := h, srcs := [(a, 1)],
        regs := fun s m x y => Wrote x y .w32 d m fun _ =>
          (((node op uns (fun j => if m.getLsbD j then some (src32 s a (Fin.ofNat 32 j)) else none) 5 0).map
            Prod.fst).getD 0).setWidth 64,
        flags := fun s m _ =>
          ((node op uns (fun j => if m.getLsbD j then some (src32 s a (Fin.ofNat 32 j)) else none) 5 0).map Prod.snd).getD 0 }
  | .wpfx h op uns excl d a => some
      { h := h, srcs := [(a, 1)],
        regs := fun s m x y => Wrote x y .w32 d m fun l =>
          (((chain op uns (src32 s a) ((lanesIn m).filter fun j => if excl then j < l else j ≤ l)).map Prod.fst).getD
            (wIdentity op uns)).setWidth 64,
        flags := fun s m _ => ((chain op uns (src32 s a) (lanesIn m)).map Prod.snd).getD 0 }
  | _ => none

/-- A write of a whole mask register when a lane is active; an address program's has one bit (07 R194, 04 R95). -/
def WroteWholeMask (p : State) (m : LaneMask) (d : BitVec 4) (x : LaneMask) (a b : Wave) : Prop :=
  (∀ n l, readV b n l = readV a n l) ∧ (∀ n, readS b n = readS a n) ∧
  ∀ j, readK b j = if j = d ∧ m ≠ 0 then (if p.me.ap.isSome then x &&& 1 else x) else readK a j

/-- The mask instructions (07 R194). -/
def maskEffect : Instr → Option Effect
  | .kmov h (.kk d a) => some { h := h, srcs := [], regs := fun s m => WroteWholeMask s m d (readK s.me a) }
  | .kmov h (.kr d a) => some { h := h, srcs := [(a, 1)], regs := fun s m => WroteWholeMask s m d (src32 s a 0) }
  | .kmov h (.rk d a) => some (flagged h .w32 d [] fun s _ _ => ((readK s.me a).setWidth 64, 0))
  | .kand h d a b => some { h := h, srcs := [], regs := fun s m => WroteWholeMask s m d (readK s.me a &&& readK s.me b) }
  | .kor h d a b => some { h := h, srcs := [], regs := fun s m => WroteWholeMask s m d (readK s.me a ||| readK s.me b) }
  | .kxor h d a b => some { h := h, srcs := [], regs := fun s m => WroteWholeMask s m d (readK s.me a ^^^ readK s.me b) }
  | .knot h d a => some { h := h, srcs := [], regs := fun s m => WroteWholeMask s m d (~~~readK s.me a) }
  | .kpop h d k => some (flagged h .w32 d [] fun s _ _ =>
      (BitVec.ofNat 64 ((List.finRange 32).countP fun (l : Fin 32) => (readK s.me k).getLsbD l.val), 0))
  | .kfirst h d k => some (flagged h .w32 d [] fun s _ _ =>
      (BitVec.ofNat 64 ((List.range 32).takeWhile fun j => !(readK s.me k).getLsbD j).length, 0))
  | _ => none

/-! ### The one rounding (05 R133, R135, R136, R138) -/

/-- A dyadic number m × 2^e as a multiple of 2^q, for q ≤ e; the order and equality of two; their product and midpoint. -/
def atExp (q : Int) (d : Nat × Int) : Nat := d.1 * 2 ^ (d.2 - q).toNat
def Less (a b : Nat × Int) : Prop := atExp (min a.2 b.2) a < atExp (min a.2 b.2) b
def Same (a b : Nat × Int) : Prop := atExp (min a.2 b.2) a = atExp (min a.2 b.2) b
def times (a b : Nat × Int) : Nat × Int := (a.1 * b.1, a.2 + b.2)
def midpoint (a b : Nat × Int) : Nat × Int := (atExp (min a.2 b.2) a + atExp (min a.2 b.2) b, min a.2 b.2 - 1)

/-- The magnitudes that a destination rounds among: the magnitude of each code, the largest finite code, the word of a signed
code, the smallest code that is not tiny, and what an overflow delivers. -/
structure Grid where
  mag : Nat → Nat × Int
  top : Nat
  code : Bool → Nat → Nat
  normal : Nat
  beyond : Rnd → Bool → Nat

/-- The binary formats: an overflow gives an infinity or the largest finite value by the mode, where the format has infinities
(05 R136). -/
def floatGrid (f : FFmt) : Grid where
  mag := magValue f
  top := maxCode f
  code := signCode f
  normal := 2 ^ mantBits f
  beyond := fun r neg =>
    match f with
    | .e4m3 | .e2m1 => maxCode f
    | _ =>
      match r with
      | .rn | .rs => maxCode f + 1
      | .rz => maxCode f
      | .rp => if neg then maxCode f else maxCode f + 1
      | .rm => if neg then maxCode f + 1 else maxCode f

/-- LG6, which saturates and is tiny at zero only (05 R131, R133, R136). -/
def lgGrid : Grid where
  mag := fun l => (lgMag l, -27)
  top := 31
  code := fun neg c => if c = 0 then 0 else (if neg then 32 else 0) + c
  normal := 1
  beyond := fun _ _ => 31

/-- The exact magnitude lies strictly above a number, or at it. -/
structure Place where
  above : Nat × Int → Prop
  at_ : Nat × Int → Prop
  /-- of two neighbours around it, whether a generator state chooses the higher one (05 R138) -/
  draws : Nat × Int → Nat × Int → Prop

/-- The place of a dyadic magnitude, for a generator state: it draws the higher neighbour when it is below ⌊f × 2^32⌋ for its
share f of the step. -/
def placeOf (x : Nat × Int) (st : Word32) : Place where
  above := fun d => Less d x
  at_ := fun d => Same d x
  draws := fun lo hi =>
    let q := min x.2 (min lo.2 hi.2)
    (st.toNat + 1) * (atExp q hi - atExp q lo) ≤ (atExp q x - atExp q lo) * 2 ^ 32

/-- The places of a reciprocal, of a square root, and of the reciprocal of one. -/
def placeRcp (x : Nat × Int) : Place := ⟨fun d => Less (times d x) (1, 0), fun d => Same (times d x) (1, 0), fun _ _ => False⟩
def placeSqrt (x : Nat × Int) : Place := ⟨fun d => Less (times d d) x, fun d => Same (times d d) x, fun _ _ => False⟩
def placeRsq (x : Nat × Int) : Place :=
  ⟨fun d => Less (times (times d d) x) (1, 0), fun d => Same (times (times d d) x) (1, 0), fun _ _ => False⟩

/-- Whether the higher neighbour is chosen, of a code and the next (05 R135): to nearest with ties to the even code, toward
zero, toward one infinity or the other, or as the generator draws. -/
def GoesUp (g : Grid) (r : Rnd) (neg : Bool) (x : Place) (c : Nat) : Prop :=
  match r with
  | .rn => x.above (midpoint (g.mag c) (g.mag (c + 1))) ∨ (x.at_ (midpoint (g.mag c) (g.mag (c + 1))) ∧ c % 2 = 1)
  | .rz => False
  | .rp => neg = false
  | .rm => neg = true
  | .rs => x.draws (g.mag c) (g.mag (c + 1))

/-- Round(x, mode) (05 R136): a representable magnitude is itself and raises nothing; one between two neighbours takes the one
that the mode chooses, with inexact, and underflow where the result is tiny; the overflow point, chosen or reached,
delivers what the destination gives, with overflow and inexact. -/
structure Rounds (g : Grid) (r : Rnd) (neg : Bool) (x : Place) (res : Nat × BitVec 5) : Prop where
  exact : ∀ c ≤ g.top, x.at_ (g.mag c) → res = (g.code neg c, 0)
  lower : ∀ c ≤ g.top, x.above (g.mag c) → ¬ x.above (g.mag (c + 1)) → ¬ x.at_ (g.mag (c + 1)) →
    ¬ GoesUp g r neg x c → res = (g.code neg c, fNX ||| flagIf (decide (c < g.normal)) fUF)
  upper : ∀ c < g.top, x.above (g.mag c) → ¬ x.above (g.mag (c + 1)) → ¬ x.at_ (g.mag (c + 1)) →
    GoesUp g r neg x c → res = (g.code neg (c + 1), fNX ||| flagIf (decide (c + 1 < g.normal)) fUF)
  beyond : (x.above (g.mag g.top) ∧ GoesUp g r neg x g.top) ∨ x.above (g.mag (g.top + 1)) ∨ x.at_ (g.mag (g.top + 1)) →
    res = (g.code neg (g.beyond r neg), fOF ||| fNX)

/-- The sum of two signed dyadic numbers as an integer at the lower exponent. -/
def sumOf (n : Bool) (a : Nat × Int) (n' : Bool) (b : Nat × Int) : Int :=
  (if n then -(atExp (min a.2 b.2) a : Int) else atExp (min a.2 b.2) a) +
    (if n' then -(atExp (min a.2 b.2) b : Int) else atExp (min a.2 b.2) b)

/-- A sum rounds its exact value once; an exact zero is negative when both terms are, and under `.rm` when one is. -/
def SumRounds (r : Rnd) (n : Bool) (a : Nat × Int) (n' : Bool) (b : Nat × Int) (res : Nat × BitVec 5) : Prop :=
  let z := sumOf n a n' b
  if z = 0 then res = (signCode .f32 (if n = n' then n else r == .rm) 0, 0)
  else Rounds (floatGrid .f32) r (decide (z < 0)) (placeOf (z.natAbs, min a.2 b.2) 0) res

/-- The word of an infinity, a zero, one, and the canonical NaN of FP32. -/
def infWord (neg : Bool) : Nat := if neg then 0xFF800000 else 0x7F800000
def zeroWord (neg : Bool) : Nat := if neg then 0x80000000 else 0
def oneWord (neg : Bool) : Nat := if neg then 0xBF800000 else 0x3F800000

/-- The special inputs of the function instructions (07 R183). -/
structure SpecialInputs : Prop where
  nan : ∀ q r, let res := (0x7FC00000, flagIf q fNV)
    fRcp r (.nan q) = res ∧ fSqrt r (.nan q) = res ∧ fRsq (.nan q) = res ∧ fEx2 (.nan q) = res ∧ fLg2 (.nan q) = res ∧
      fSin (.nan q) = res ∧ fCos (.nan q) = res ∧ fTanh (.nan q) = res
  zero : ∀ n e r, fRcp r (.fin n 0 e) = (infWord n, fDZ) ∧ fSqrt r (.fin n 0 e) = (zeroWord n, 0) ∧
    fRsq (.fin n 0 e) = (infWord n, fDZ) ∧ fLg2 (.fin n 0 e) = (infWord true, fDZ) ∧ fTanh (.fin n 0 e) = (zeroWord n, 0)
  inf : ∀ n r, fRcp r (.inf n) = (zeroWord n, 0) ∧ fEx2 (.inf n) = (if n then 0 else infWord false, 0) ∧
    fSin (.inf n) = (0x7FC00000, fNV) ∧ fCos (.inf n) = (0x7FC00000, fNV) ∧ fTanh (.inf n) = (oneWord n, 0)
  plus : ∀ r, fSqrt r (.inf false) = (infWord false, 0) ∧ fRsq (.inf false) = (0, 0) ∧ fLg2 (.inf false) = (infWord false, 0)
  minus : ∀ r v, (v = .inf true ∨ ∃ m e, 0 < m ∧ v = .fin true m e) →
    fSqrt r v = (0x7FC00000, fNV) ∧ fRsq v = (0x7FC00000, fNV) ∧ fLg2 v = (0x7FC00000, fNV)
  log : fLg2 (f32 0x3F800000) = (0, 0)
  turns : ∀ n m e, (∃ k, Same (m, e) (k, 0)) → fSin (.fin n m e) = (zeroWord n, 0)
  half : ∀ n m e k, Same (m, e) (2 * k + 1, -1) → fCos (.fin n m e) = (0, 0)

/-- What an exact FP32 magnitude rounds to through the arithmetic and the algebraic functions (07 R179, R183). -/
structure Arithmetic : Prop where
  mul : ∀ r n m e n' m' e', 0 < m → 0 < m' →
    Rounds (floatGrid .f32) r (n != n') (placeOf (m * m', e + e') 0) (fMul r (.fin n m e) (.fin n' m' e'))
  add : ∀ r n m e n' m' e', SumRounds r n (m, e) n' (m', e') (fAdd r (.fin n m e) (.fin n' m' e'))
  fma : ∀ r n m e n' m' e' n'' m'' e'', SumRounds r (n != n') (m * m', e + e') n'' (m'', e'')
    (fFma r (.fin n m e) (.fin n' m' e') (.fin n'' m'' e''))
  rcp : ∀ (w : Word32) r n m e, f32 w = .fin n m e → 0 < m → r ≠ .rs →
    Rounds (floatGrid .f32) r n (placeRcp (m, e)) (fRcp r (f32 w))
  sqrt : ∀ (w : Word32) r m e, f32 w = .fin false m e → 0 < m → r ≠ .rs →
    Rounds (floatGrid .f32) r false (placeSqrt (m, e)) (fSqrt r (f32 w))
  rsq : ∀ (w : Word32) m e, f32 w = .fin false m e → 0 < m →
    Rounds (floatGrid .f32) .rn false (placeRsq (m, e)) (fRsq (f32 w))

/-- The overflow points of R136. -/
def OverflowPoints : Prop :=
  Same ((floatGrid .f32).mag 0x7F800000) (1, 128) ∧ Same ((floatGrid .f16).mag 0x7C00) (65536, 0) ∧
    Same ((floatGrid .bf16).mag 0x7F80) (1, 128) ∧ Same ((floatGrid .e4m3).mag 0x7F) (480, 0) ∧
    Same ((floatGrid .e5m2).mag 0x7C) (65536, 0) ∧ Same ((floatGrid .e2m1).mag 8) (8, 0) ∧ Same (lgGrid.mag 32) (16, 0)

end Sys2Proof.Claims

/-- Float arithmetic, comparison of magnitudes, classes, the two-element dot product and the function instructions, with the flags
they raise; conversions, packing and unpacking, and the generators that stochastic rounding draws from and `srnd` seeds (07 R179
to R188, 05 R137, R138, R143). What rounds does so once, as R136 says: every nonzero dyadic magnitude into each float format and
into LG6, under each mode (05 R133, R135, R136, R138), exact products, sums and fused sums (07 R179), reciprocals, square roots
and their reciprocals, and the special inputs of the functions (07 R183). That the other functions are correctly rounded rests
on log 31 (DEDUCED) and is no part of this statement. The model's choices, not the spec's: ties at the top of E4M3 (log 19); NV
of a fused product of zero and infinity (log 20). -/
def Obligations.FloatResults : Prop :=
  (∀ i e, (floatEffect i = some e ∨ convertEffect i = some e) → e.Completes i) ∧
  (∀ f r st neg m e, 0 < m → Rounds (floatGrid f) r neg (placeOf (m, e) st) (roundTo f r st neg m e)) ∧
  (∀ r st neg m e, 0 < m → Rounds lgGrid r neg (placeOf (m, e) st) (roundLg r st (.fin neg m e))) ∧
  OverflowPoints ∧ Arithmetic ∧ SpecialInputs

/-- The lattice instructions; `qe8m` and `de8` have counted the non-canonical codes among their active lanes in the issuing
context's counter, which saturates, and do nothing else outside the registers (06 R155, R162 to R165). Cross-lane instructions:
shuffles, matches, votes, reductions over the tree of the lanes and prefixes (07 R191 to R193). -/
def Obligations.LaneResults : Prop :=
  ((∀ i e, latticeEffect i = some e → e.Completes i) ∧
     ∀ i c e, countingEffect i = some (c, e) → ∀ s, Issuing s → Sourced s e.h e.srcs → ∃ t, exec i s = .next t ∧
       let p := taken s e.h e.srcs
       let m := active s e.h
       let n := (List.finRange 32).countP fun (l : Fin 32) => m.getLsbD l.val && nonCanonical ((src32 p c l).toNat % 65536)
       Completed (if n = 0 then p else setCtx p p.me.ctx fun x =>
           { x with e8n := BitVec.ofNat 32 (min (x.e8n.toNat + n) (2 ^ 32 - 1)) }) t m
         (e.regs p m) (e.flags p m) (e.rng p)) ∧
  (∀ i e, laneEffect i = some e → e.Completes i)

/-- Compares and `elect` write the bits of their active lanes in a mask register and leave the others; mask instructions act once
for the path group when a lane is active, and read and write every bit (07 R175, R181, R192, R194). -/
def Obligations.MaskResults : Prop := ∀ i e, (compareEffect i = some e ∨ maskEffect i = some e) → e.Completes i

namespace Sys2Proof.Claims

/-! ### Threads: words that only move on, transfers, barriers -/

/-- The word completes with no register, flag or generator changed, from a state that holds its effect. -/
def Passes (p t : State) : Prop := Completed p t 0 WroteNone noFlags keepRng

/-- The issuing wave with other lanes: those of a mask changed. -/
def lanesTo (s : State) (m : LaneMask) (f : Fin 32 → Lane → Lane) : State := modMe s fun w => mapLanes w m f

/-- The path group waits at its word, in a way; everything else is kept. -/
structure Parks (s t : State) (m : LaneMask) (w : Fin 32 → Wait) : Prop where
  lanes : ∀ l : Fin 32, m.getLsbD l = true → t.me.lanes[l].wait = w l ∧ t.me.lanes[l].pc = s.me.lanes[l].pc
  kept : WaveKept (mapLanes s.me m fun l x => { x with wait := w l }) t.me
  frame : Framed s t

/-- The wave that `yield` lets issue: a ready pending one of the core, of the highest priority and then the oldest (03 R76,
R83). -/
def yieldsTo (s : State) : Option Wave := swapIn s s.me.ctx s.me.core

/-- The issuing wave has become the youngest pending one and another one active (03 R76). -/
def yielded (s : State) (b : Wave) : State :=
  modWave { s with ageCount := s.ageCount + 1,
                   me := { s.me with active := false, age := s.ageCount + 1, readySince := s.wall } }
    b.key fun w => { w with active := true }

/-- The meeting stack of a thread that goes on to a header: as it was pushed, or popped because it met there (03 R62). -/
def MeetsAs (k : Kernel) (pushed : List Word32) (b : Lane) : Prop :=
  b.meets = pushed ∨ (pushed.head? = some (headerIndex k b.pc) ∧ b.meets = pushed.tail)

/-- What a transfer keeps of a thread. -/
def ThreadKept (a b : Lane) : Prop :=
  b.life = a.life ∧ b.flags = a.flags ∧ b.rng = a.rng ∧ b.item = a.item ∧ b.batch = a.batch ∧ b.failed = a.failed ∧
    b.handler = a.handler ∧ b.tret = a.tret

/-- The meeting header of the issuing block, and its entry in a meeting stack (02 R32, 03 R58). -/
def meetingHere (s : State) : Word64 := meetingOf s.me.lanes[lowest s.iss].hdr s.me.lanes[lowest s.iss].hword
def meetingEntry (s : State) : Word32 := headerIndex (kernOf s) (meetingHere s)

/-- A divergent block whose issuing lanes have different successors (03 R61). -/
def Splits (s : State) (next : Fin 32 → Word64) : Prop :=
  headerDivergent s.me.lanes[lowest s.iss].hword = true ∧
    ∃ i j : Fin 32, s.iss.getLsbD i = true ∧ s.iss.getLsbD j = true ∧ next i ≠ next j

/-- The meeting stack of a lane after its block: a split pushes the block's meeting unless it is on top already (03 R61). -/
def StackAfter (s : State) (next : Fin 32 → Word64) (l : Fin 32) (x : List Word32) : Prop :=
  (Splits s next ∧ s.me.lanes[l].meets.head? ≠ some (meetingEntry s) ∧ x = meetingEntry s :: s.me.lanes[l].meets) ∨
  ((¬ Splits s next ∨ s.me.lanes[l].meets.head? = some (meetingEntry s)) ∧ x = s.me.lanes[l].meets)

/-- Every issuing lane has gone to its successor, a header, and stands there (03 R60, R61, R67). -/
structure Transferred (s t : State) (next : Fin 32 → Word64) : Prop where
  moved : ∀ l : Fin 32, s.iss.getLsbD l = true →
    t.me.lanes[l].pc = next l ∧ t.me.lanes[l].hdr = next l ∧ t.me.lanes[l].code = [] ∧
      ThreadKept s.me.lanes[l] t.me.lanes[l] ∧
      ∃ x, StackAfter s next l x ∧ MeetsAs (kernOf s) x t.me.lanes[l]
  others : ∀ l : Fin 32, s.iss.getLsbD l = false → LaneKept s.me.lanes[l] t.me.lanes[l]
  wave : t.me = { s.me with lanes := t.me.lanes }
  frame : Framed s t

/-! ### Meetings (03 R62) -/

/-- The partners of a thread at its meeting: the other threads of the wave that have not exited and whose stack holds the
same entry at its depth, with the same entries below (03 R62). -/
def Partner (x : Fin 32 → Lane) (i j : Fin 32) : Prop := j ≠ i ∧ (x j).life ≠ .exited ∧ (x i).meets <:+ (x j).meets

/-- A thread stands held at its meeting: it runs, is not stopped, and arrived there. -/
def Arrived (x : Fin 32 → Lane) (i : Fin 32) : Prop :=
  (x i).life = .live ∧ (x i).wait = .held ∧ (x i).stopped = false

/-- A thread's meeting is complete: it has arrived, and so has each of its partners, at the same header and depth. -/
def Met (x : Fin 32 → Lane) (i : Fin 32) : Prop :=
  Arrived x i ∧ ∀ j, Partner x i j → Arrived x j ∧ (x j).hdr = (x i).hdr ∧ (x j).meets = (x i).meets

/-- From the lanes x, those whose meetings are complete have popped their top entry and are held no longer, all in one step;
every other lane is as in x (03 R62). -/
def MeetingsSettled (x : Fin 32 → Lane) (t : State) : Prop := ∀ i : Fin 32,
  (Met x i → t.me.lanes[i] = { x i with wait := .none, meets := (x i).meets.tail }) ∧
  (¬ Met x i → t.me.lanes[i] = x i)

/-- Nothing but its meetings can move a thread of the issuing wave when a word ends: no phase of a barrier of its group is
open, and no thread waits for the others of a `tramp`. -/
structure OnlyMeetings (s : State) : Prop where
  bars : ∀ e ∈ (groupOf s s.me.group).bars, e.2.threads = 0
  tramps : ∀ (l : Fin 32) (id : Nat), s.me.lanes[l].wait ≠ .tramp id

/-- A thread that has gone to a header with a stack: it is held there where the top entry names that header. -/
def goneTo (k : Kernel) (l : Lane) (a : Word64) (stack : List Word32) : Lane :=
  { l with pc := a, hdr := a, hword := 0, code := [], meets := stack, kept := [], answers := [], skipWatch := false,
           stepFirst := false, wait := if stack.head? = some (headerIndex k a) then .held else .none }

/-- A transfer can take place: every target is an aligned word with the header tag that can be fetched (03 R67); the meeting
header of a divergent block can be fetched, and where the block splits it has the header tag and every lane that needs
one has a free stack entry (03 R61). -/
structure CanTransfer (s : State) (next : Fin 32 → Word64) (moves : LaneMask) (tag : Word64 → Bool) : Prop where
  targets : ∀ l : Fin 32, moves.getLsbD l = true → checkTarget s (next l) tag = .ok
  meeting : headerDivergent s.me.lanes[lowest s.iss].hword = true → s.me.ap = none →
    checkTarget s (meetingHere s) (fun _ => true) ≠ .wait ∧ ∀ x, checkTarget s (meetingHere s) (fun _ => true) ≠ .hole x ∧
      checkTarget s (meetingHere s) (fun _ => true) ≠ .send x
  splits : Splits s next → checkTarget s (meetingHere s) (fun _ => true) = .ok ∧
    ∀ l : Fin 32, s.iss.getLsbD l = true → s.me.lanes[l].meets.head? ≠ some (meetingEntry s) →
      s.me.lanes[l].meets.length < (kernOf s).depth

/-- The target for the lanes that move, the header behind the block for the others (03 R61). -/
def nextOf (s : State) (moves : LaneMask) (target : Fin 32 → Word64) (l : Fin 32) : Word64 :=
  if moves.getLsbD l then target l else fallThrough s.me.lanes[l]

/-- The lanes that a branch moves, and where to (03 R68 to R70). -/
def transfer (s : State) : Instr → Option (LaneMask × (Fin 32 → Word64))
  | .bra h off => some (active s h, fun l => s.me.lanes[l].pc + BitVec.ofInt 64 (8 * off.toInt))
  | .brc h kind k off =>
    let m := active s h
    let bits := readK s.me k
    some (match kind with
      | .set => lanesMask fun l => m.getLsbD l && bits.getLsbD l
      | .clear => lanesMask fun l => m.getLsbD l && !bits.getLsbD l
      | .any => if (lanesIn m).any fun (l : Fin 32) => bits.getLsbD l.val then m else 0
      | .all => if (lanesIn m).all fun (l : Fin 32) => bits.getLsbD l.val then m else 0,
      fun l => s.me.lanes[l].pc + BitVec.ofInt 64 (8 * off.toInt))
  | .brx h .rel r off => some (active s h, fun l =>
      s.me.lanes[l].pc + BitVec.ofInt 64 (8 * (off.toInt + (src32 s r l).toInt)))
  | .brx h _ r _ => some (active s h, src64 s r)
  | .ret h link => some (active s h, src64 s link)
  | _ => none

/-- No active lane of an indirect transfer reads a poisoned register (18 R403). -/
def transferClean (s : State) : Instr → Prop
  | .brx h .rel r _ => poisonLanes s [(r, 1)] (active s h) = 0
  | .brx h _ r _ => poisonLanes s [(r, 2)] (active s h) = 0
  | .ret h link => poisonLanes s [(link, 2)] (active s h) = 0
  | _ => True

/-- The issuing lanes form one path group: they share a program counter and a block (03 R59). -/
def OneGroup (s : State) : Prop :=
  ∀ l : Fin 32, s.iss.getLsbD l = true → s.me.lanes[l].pc = s.me.lanes[lowest s.iss].pc ∧
    s.me.lanes[l].hdr = s.me.lanes[lowest s.iss].hdr ∧ s.me.lanes[l].code = s.me.lanes[lowest s.iss].code ∧
    s.me.lanes[l].hword = s.me.lanes[lowest s.iss].hword

/-- The issuing lanes do not wait in the middle of their word. -/
def FirstTry (s : State) : Prop :=
  s.me.lanes[lowest s.iss].wait = .none ∨ ∃ why, s.me.lanes[lowest s.iss].wait = .stall why

/-- A thread after a `tramp` (03 R78): its return slot. -/
def trampSlot (l : Lane) (id : Nat) : Tramp :=
  { ret := l.pc + 8, depth := l.meets.length, hdr := l.hdr, hword := l.hword, code := l.code, id := id }

/-- The phase that is open at a barrier of the issuing wave. -/
def openPhase (s : State) (sc : Scope) (num : BitVec 4) : Nat :=
  (barrierOf s s.me.group sc (barrierKey sc s.me.core num.toNat)).phase

/-- The count of a barrier instruction (03 R86). -/
def barCount (s : State) (cnt : Option Operand) : Nat :=
  match cnt with
  | some o => (src32 s o 0).toNat
  | none => 1

/-- A barrier of the issuing wave's group. -/
def barKey (s : State) (sc : Scope) (num : BitVec 4) : Nat := barrierKey sc s.me.core num.toNat

/-- A barrier instruction that can arrive: its count is one the spec allows and can be read, and none of its active lanes has
arrived in the open phase (03 R86, R87, 18 R403). -/
structure CanArrive (s : State) (h : Head) (sc : Scope) (num : BitVec 4) (cnt : Option Operand) : Prop where
  some_ : active s h ≠ 0
  low : 1 ≤ barCount s cnt
  high : barCount s cnt ≤ 16777216
  clean : ∀ o, cnt = some o → poisonLanes s [(o, 1)] (active s h) = 0
  first : ∀ l : Fin 32, (active s h).getLsbD l = true →
    arrivedIn s.me.lanes[l] (barKey s sc num) ≠ some (openPhase s sc num)

/-- No phase of another barrier of the group is open, and no thread is held at a second arrival. -/
structure OnlyBarrier (s : State) (sc : Scope) (num : BitVec 4) : Prop where
  others : ∀ e ∈ (groupOf s s.me.group).bars, e.1 ≠ barKey s sc num → e.2.threads = 0
  held : ∀ k ∈ wavesOf s s.me.group, heldAt (waveOf s k) (barKey s sc num) = false
  listed : ∃ g, Table.get? s.groups s.me.group = some g ∧ ∃ c, Table.get? s.ctxs g.ctx = some c
  core : s.me.core < 1152

/-- A thread that has arrived in the open phase, or does so with the word that issues; one that is halted or in a fragment
is not counted (03 R86, R91). -/
def ArrivesNow (s : State) (h : Head) (sc : Scope) (num : BitVec 4) (k : Nat) (i : Fin 32) : Prop :=
  (waveOf s k).lanes[i].life = .live ∧ (waveOf s k).lanes[i].stopped = false ∧
    ((k = s.me.key ∧ (active s h).getLsbD i = true) ∨
      arrivedIn (waveOf s k).lanes[i] (barKey s sc num) = some (openPhase s sc num))

/-- Every thread of the issuing wave's group that has not exited has arrived once the word has issued. -/
def LastArrival (s : State) (h : Head) (sc : Scope) (num : BitVec 4) : Prop :=
  ∀ k ∈ wavesOf s s.me.group, ∀ i : Fin 32, (waveOf s k).lanes[i].life = .exited ∨ ArrivesNow s h sc num k i

/-- The arrivals of threads that the group has made in the open phase. -/
def arrivals (s : State) (sc : Scope) (num : BitVec 4) : Nat :=
  let o := Table.getD (groupOf s s.me.group).bars (barKey s sc num) {}
  if o.phase = openPhase s sc num then o.threads else 0

/-- A phase that one of the lanes waits for, or that it has left behind once the phase ended (03 R87, R88). -/
def WaitsFor (s t : State) (l : Fin 32) (sc : Scope) (num : BitVec 4) (ph : Nat) : Prop :=
  t.me.lanes[l].pc = s.me.lanes[l].pc ∧ ∃ p since, ph ≤ p ∧ t.me.lanes[l].wait = .bar sc num.toNat p since

end Sys2Proof.Claims

/-- Words without an effect on registers: `nop` and `inop` (02 R51, 03 R66), `yield` (03 R76), `wprio` (03 R77), and `sleep`, which
lets the path group wait for n run cycles and then go on (03 R76). `exit` ends the active lanes; a wave all of whose threads
have ended and which has no fragment entry leaves its slot, its pending `red`s performed, the accesses of killed lanes answered
and the guard values its commands wait for landed (03 R72, 04 R107, 14 R326); in an address program it ends the program (04
R97). Time is counted as log 10 says. The model's choices, not the spec's: one cycle of every counter is one nanosecond (log
10). -/
def Obligations.PlainWordsGoOn : Prop :=
  (∀ s, Issuing s →
     (∀ h, ∃ t, exec (.nop h) s = .next t ∧ Passes s t) ∧
     (∀ a b c d, ∃ t, exec (.inop a b c d) s = .next t ∧ Passes s t) ∧
     (∀ h, ∃ t, exec (.yield h) s = .next t ∧
       ((active s h = 0 ∨ yieldsTo s = none) → Passes s t) ∧
       ∀ b, active s h ≠ 0 → yieldsTo s = some b → Passes (yielded s b) t) ∧
     (∀ h p, ∃ t, exec (.wprio h p) s = .next t ∧
       Passes (if active s h = 0 then s else { s with me := { s.me with prio := p.toNat } }) t) ∧
     (∀ h n, (∀ x, s.me.lanes[lowest s.iss].wait ≠ .sleep x) → ∃ t, exec (.sleep h n) s = .next t ∧
       if active s h = 0 ∨ n = 0 then Passes s t else Parks s t s.iss fun _ => .sleep (runNow s + n.toNat)) ∧
     ∀ h n x, s.me.lanes[lowest s.iss].wait = .sleep x → ∃ t, exec (.sleep h n) s = .next t ∧
       if x ≤ runNow s then Passes s t else t = s) ∧
  (∀ s h, Issuing s →
     (s.me.ap = none →
       ((∃ l : Fin 32, s.me.lanes[l].life ≠ .exited ∧ (active s h).getLsbD l = false) ∨
         (∃ f ∈ s.frags, f.2.wave = s.me.key) ∨ ∃ r ∈ s.remotes, owesAnswer r.2 s.me.key = true) →
       ∃ t, exec (.exit h) s = .next t ∧ t.me = { s.me with lanes := t.me.lanes } ∧ Framed s t ∧
         ∀ l : Fin 32,
           if (active s h).getLsbD l then t.me.lanes[l].life = .exited ∧ t.me.lanes[l].meets = []
           else if s.iss.getLsbD l then
             t.me.lanes[l].pc = s.me.lanes[l].pc + 8 ∧ ThreadKept s.me.lanes[l] t.me.lanes[l]
           else LaneKept s.me.lanes[l] t.me.lanes[l]) ∧
     (s.me.ap = none → (∀ l : Fin 32, s.me.lanes[l].life = .exited ∨ (active s h).getLsbD l = true) →
       (∀ f ∈ s.frags, f.2.wave ≠ s.me.key) → (∀ r ∈ s.remotes, owesAnswer r.2 s.me.key = false) →
       ∃ t, exec (.exit h) s = .next t ∧ t.me = {} ∧ t.iss = 0 ∧
         (∀ r ∈ t.reds, ¬ (r.core = s.me.core ∧ r.ctx = s.me.ctx)) ∧
         (∀ a, s.me.bound = some a → Table.get? t.aps a = none) ∧ t.frags = s.frags ∧ t.launches = s.launches ∧
         t.queues = s.queues ∧
         t.copies = Table.mapVals s.copies (fun _ c => if c.wave = s.me.key ∧ c.group = s.me.group then
           { c with guard := c.guard.map fun g => (g.1, landGuard g.2) } else c) ∧
         t.tasks = Table.mapVals s.tasks (fun _ c => if c.wave = s.me.key ∧ c.group = s.me.group then
           { c with guard := c.guard.map fun g => (g.1, landGuard g.2) } else c) ∧
         t.pushes = s.pushes.map fun c => if c.wave = s.me.key ∧ c.group = s.me.group then
           { c with guard := landGuard c.guard } else c) ∧
     (∀ p, s.me.ap = some p → active s h ≠ 0 →
       ∃ t, exec (.exit h) s = .next t ∧ t.mem = s.mem ∧ t.ctxs = s.ctxs ∧ t.groups = s.groups ∧ t.frags = s.frags ∧
         if ∀ q ∈ p.queues, q.2 = [] then t.me = {} ∧ t.iss = 0 ∧
           ∀ w, Table.get? s.waves p.owner = some w →
             Table.get? t.waves p.owner = some { w with bound := none, ended := some 0 }
         else t.me.ap = some { p with ended := true, code := 0 } ∧ t.me.lanes[0].life = .exited ∧ t.waves = s.waves))

/-- Branches and returns: each lane that the instruction moves goes to its target, every other lane of the path group to the header
behind the block, and a split in a divergent block pushes the block's meeting (03 R61, R67 to R70). Meetings: a lane that enters
the header its top entry names is held there; when every partner has arrived, all of them pop and are held no longer, in the
step of the last arrival, and a lane that exits is no partner from then on (03 R62). The meetings are stated where no barrier
phase of the group is open and no `tramp` is, which could move threads in the same step. -/
def Obligations.BranchesTransfer : Prop :=
  (∀ i s m target, transfer s i = some (m, target) → Issuing s → OneGroup s →
     transferClean s i → CanTransfer s (nextOf s m target) m noTag →
     ∃ t, exec i s = .next t ∧ Transferred s t (nextOf s m target) ∧
       (s.me.ap = none → OnlyMeetings s → ∃ x : Fin 32 → Lane, MeetingsSettled x t ∧ ∀ l : Fin 32,
         (s.iss.getLsbD l = true → ∃ stack, StackAfter s (nextOf s m target) l stack ∧
           x l = goneTo (kernOf s) s.me.lanes[l] (nextOf s m target l) stack) ∧
         (s.iss.getLsbD l = false → x l = s.me.lanes[l]))) ∧
  (∀ s h, Issuing s → s.me.ap = none → OnlyMeetings s →
     (∃ l : Fin 32, s.me.lanes[l].life ≠ .exited ∧ (active s h).getLsbD l = false) →
     ∃ t, exec (.exit h) s = .next t ∧ MeetingsSettled (fun l =>
       if (active s h).getLsbD l then exitLane s.me.lanes[l]
       else if s.iss.getLsbD l then nextWord (kernOf s) s.me.lanes[l] else s.me.lanes[l]) t)

/-- `call` writes the address behind its block for the lanes that move, then transfers (03 R70); `refill` gives the active lanes the
next items of the core's queue of the launch, in lane order, and transfers the lanes that got one (03 R74). The model's choices,
not the spec's: cores and their item queues (log 65). -/
def Obligations.CallsAndRefills : Prop := ∀ s h off, Issuing s → OneGroup s →
  (∀ link, CanTransfer s (nextOf s (active s h) fun l => s.me.lanes[l].pc + BitVec.ofInt 64 (8 * off.toInt)) (active s h)
      noTag →
    ∃ t b, exec (.call h link off) s = .next t ∧
      Wrote s.me b .w64 link (active s h) (fun l => s.me.lanes[l].hdr + 8 * BitVec.ofNat 64 (s.me.lanes[l].code.length + 1)) ∧
      b = { s.me with v := b.v, vpoison := b.vpoison, s := b.s, spoison := b.spoison } ∧
      Transferred { s with me := b } t
        (nextOf s (active s h) fun l => s.me.lanes[l].pc + BitVec.ofInt 64 (8 * off.toInt))) ∧
  ∀ lk la, (groupOf s s.me.group).launch = some lk → Table.get? s.launches lk = some la →
    (kernOf s).refill = true →
    let q := Table.getD la.itemq s.me.core []
    let draws := (lanesIn (active s h)).zip q
    let got := maskOf (draws.map Prod.fst)
    let next := nextOf s got fun l => s.me.lanes[l].pc + BitVec.ofInt 64 (8 * off.toInt)
    ((lanesIn (active s h)).length ≤ q.length ∨ la.items ≤ la.nextItem) →
    CanTransfer s next got headerRefill →
    ∃ t, exec (.refill h off) s = .next t ∧
      Transferred
        { lanesTo s got (fun l x => { x with item := BitVec.ofNat 64 (((draws.find? fun p => p.1 == l).map
            Prod.snd).getD 0) }) with
          launches := Table.modify s.launches lk fun la =>
            { la with itemq := Table.set la.itemq s.me.core (q.drop draws.length) } } t next

/-- Meetings: `meet.drop` pops the stack of each active lane, `meet.push` pushes the block's meeting unless it is on top (03 R71).
`tramp` sends the active lanes to its target with their return slot set and holds the others at the next word, and the path
group keeps its turn while they are away (03 R78, log 88); `tret` brings a lane back to the word its slot names, clears the slot
and pushes no meeting (03 R78, log 87). -/
def Obligations.MeetingsChange : Prop :=
  (∀ s h, Issuing s → OneGroup s →
     ((∀ l : Fin 32, (active s h).getLsbD l = true → s.me.lanes[l].meets ≠ []) →
       ∃ t, exec (.meetDrop h) s = .next t ∧ Passes s t ∧
         ∀ l : Fin 32, (active s h).getLsbD l = true → MeetsAs (kernOf s) s.me.lanes[l].meets.tail t.me.lanes[l]) ∧
     (headerMeet s.me.lanes[lowest s.iss].hword ≠ 0 → checkTarget s (meetingHere s) noTag = .ok →
       (∀ l : Fin 32, (active s h).getLsbD l = true → s.me.lanes[l].meets.head? ≠ some (meetingEntry s) →
         s.me.lanes[l].meets.length < (kernOf s).depth) →
       ∃ t, exec (.meetPush h) s = .next t ∧ Passes s t ∧
         ∀ l : Fin 32, (active s h).getLsbD l = true → MeetsAs (kernOf s)
           (if s.me.lanes[l].meets.head? = some (meetingEntry s) then s.me.lanes[l].meets
             else meetingEntry s :: s.me.lanes[l].meets) t.me.lanes[l])) ∧
  (∀ s h, Issuing s → OneGroup s →
     (∀ off, let a := s.me.lanes[lowest s.iss].pc + BitVec.ofInt 64 (8 * off.toInt)
       active s h ≠ 0 → (∀ l : Fin 32, (active s h).getLsbD l = true → s.me.lanes[l].tret = none) →
       checkTarget s a noTag = .ok →
       ∃ t, exec (.tramp h off) s = .next t ∧
         t.me = { s.me with lanes := t.me.lanes, away := some (s.fresh, s.iss) } ∧
         Framed { s with fresh := s.fresh + 1 } t ∧
         ∀ l : Fin 32,
           if (active s h).getLsbD l then
             t.me.lanes[l].pc = a ∧ t.me.lanes[l].hdr = a ∧ t.me.lanes[l].code = [] ∧
               t.me.lanes[l].tret = some (trampSlot s.me.lanes[l] s.fresh)
           else if s.iss.getLsbD l then
             t.me.lanes[l].pc = s.me.lanes[l].pc + 8 ∧ t.me.lanes[l].wait = .tramp s.fresh ∧
               ThreadKept s.me.lanes[l] t.me.lanes[l]
           else LaneKept s.me.lanes[l] t.me.lanes[l]) ∧
     (∀ off, active s h = 0 → ∃ t, exec (.tramp h off) s = .next t ∧ Passes s t) ∧
     ((∀ l : Fin 32, (active s h).getLsbD l = true →
         ∃ x, s.me.lanes[l].tret = some x ∧ x.depth = s.me.lanes[l].meets.length) →
       ∃ t, exec (.tret h) s = .next t ∧ t.me = { s.me with lanes := t.me.lanes } ∧ Framed s t ∧
         ∀ l : Fin 32,
           if (active s h).getLsbD l then
             ∃ x, s.me.lanes[l].tret = some x ∧ t.me.lanes[l].pc = x.ret ∧ t.me.lanes[l].tret = none ∧
               t.me.lanes[l].life = .live ∧ t.me.lanes[l].flags = s.me.lanes[l].flags
           else if s.iss.getLsbD l then
             t.me.lanes[l].pc = s.me.lanes[l].pc + 8 ∧ ThreadKept s.me.lanes[l] t.me.lanes[l]
           else LaneKept s.me.lanes[l] t.me.lanes[l]))

/-- Barriers: `bar` lets the active lanes arrive and wait for the open phase, `barv` lets them arrive and go on, `barw` lets them
wait for the phase they last arrived in; lanes that are not active go on at once, and once the phase has ended the waiting ones
do (03 R86 to R88). An arrival is recorded with each thread and counted at the barrier; when the last thread of a group that has
not exited arrives, a `.core` phase completes, and a wider one counts the group and completes when the count of the first group
to arrive is met; the next phase is open then (R86, R87; where lanes of that first group name different counts, the model takes
the last, log 86). A thread that arrives again before its phase has ended is held (R88). In a degraded pod a `barv.pod` waits at
its word (log 85). The model's choices, not the spec's: a `.pod` phase that was closed never completes (log 72); a uniform
special as the count (log 97). -/
def Obligations.BarriersWait : Prop := ∀ s, Issuing s → s.me.ap = none → FirstTry s →
  (∀ h sc num cnt, CanArrive s h sc num cnt → let key := barKey s sc num
    let ph := openPhase s sc num
    let ctx := (groupOf s s.me.group).ctx
    let b := barrierOf s s.me.group sc key
    let early := ¬ LastArrival s h sc num ∧ b.groups = [] ∧ b.others = 0
    let late := LastArrival s h sc num ∧ residentCtx s ctx = true
    let after := fun (t : State) =>
      (early → openPhase t sc num = ph ∧ ∃ o, Table.get? (groupOf t s.me.group).bars key = some o ∧ o.phase = ph ∧
         o.threads = arrivals s sc num + (lanesIn (active s h)).length ∧ o.expected = barCount s cnt) ∧
      (late → sc = .core → openPhase t sc num = ph + 1) ∧
      (late → sc ≠ .core → s.me.group ∉ b.groups → (∀ k ∈ b.groups, groupAway s k key ph = false) →
        let want := if b.groups = [] ∧ b.others = 0 then barCount s cnt else b.expected
        (want ≤ b.groups.length + b.others + 1 → ph < openPhase t sc num) ∧
        (b.groups.length + b.others + 1 < want →
          barrierOf t s.me.group sc key = { b with groups := insertNat s.me.group b.groups, expected := want }))
    (∃ t, exec (.bar h sc num cnt) s = .next t ∧ t.me = { s.me with lanes := t.me.lanes } ∧
      (OnlyBarrier s sc num → after t) ∧ ∀ l : Fin 32,
      if (active s h).getLsbD l then
        WaitsFor s t l sc num ph ∧ ∃ p, ph ≤ p ∧ arrivedIn t.me.lanes[l] key = some p
      else s.iss.getLsbD l = true → t.me.lanes[l].pc = s.me.lanes[l].pc + 8) ∧
    ∃ t, exec (.barv h sc num cnt) s = .next t ∧ t.me = { s.me with lanes := t.me.lanes } ∧
      (OnlyBarrier s sc num → after t) ∧
      ∀ l : Fin 32, s.iss.getLsbD l = true →
        ((active s h).getLsbD l = true → ∃ p, ph ≤ p ∧ arrivedIn t.me.lanes[l] key = some p) ∧
        if (active s h).getLsbD l = true ∧ sc = .pod ∧ s.degraded = true then
          t.me.lanes[l].pc = s.me.lanes[l].pc ∧ t.me.lanes[l].wait = .barvPod s.wall
        else t.me.lanes[l].pc = s.me.lanes[l].pc + 8) ∧
  (∀ h sc num cnt, active s h ≠ 0 → 1 ≤ barCount s cnt → barCount s cnt ≤ 16777216 →
    (∀ o, cnt = some o → poisonLanes s [(o, 1)] (active s h) = 0) → OnlyBarrier s sc num →
    let ph := openPhase s sc num
    let b := barrierOf s s.me.group sc (barKey s sc num)
    groupArrived s s.me.group (barKey s sc num) ph = false → b.groups = [] → b.others = 0 →
    (∀ l : Fin 32, (active s h).getLsbD l = true → arrivedIn s.me.lanes[l] (barKey s sc num) = some ph) →
    (∃ t, exec (.bar h sc num cnt) s = .next t ∧ ∀ l : Fin 32, (active s h).getLsbD l = true →
      t.me.lanes[l] = { s.me.lanes[l] with wait := .barHeld sc num.toNat ph true s.wall }) ∧
    ∃ t, exec (.barv h sc num cnt) s = .next t ∧ ∀ l : Fin 32, (active s h).getLsbD l = true →
      t.me.lanes[l] = { s.me.lanes[l] with wait := .barHeld sc num.toNat ph false s.wall }) ∧
  (∀ h sc num, ∃ t, exec (.barw h sc num) s = .next t ∧ t.me = { s.me with lanes := t.me.lanes } ∧
    ∀ l : Fin 32, s.iss.getLsbD l = true →
      (∀ p, (active s h).getLsbD l = true → arrivedIn s.me.lanes[l] (barKey s sc num) = some p →
        openPhase s sc num ≤ p → WaitsFor s t l sc num p) ∧
      (((active s h).getLsbD l = false ∨ ∀ p, arrivedIn s.me.lanes[l] (barKey s sc num) = some p →
        p < openPhase s sc num) → t.me.lanes[l].pc = s.me.lanes[l].pc + 8)) ∧
  ∀ i sc num ph since, (∃ h sc' n' c, i = .bar h sc' n' c ∨ i = .barv h sc' n' c ∨ i = .barw h sc' n') →
    ∀ u, u = lanesTo s s.iss (fun _ l => { l with wait := .bar sc num ph since }) →
    ph < (barrierOf s s.me.group sc (barrierKey sc s.me.core num)).phase →
    ∃ t, exec i u = .next t ∧ Passes u t

namespace Sys2Proof.Claims

/-! ### Memory -/

/-- n bytes from an address on as a number, lowest address first (00 R6). -/
def number (byte : Nat → Byte) (a n : Nat) : Nat :=
  (List.range n).foldl (fun v i => v + (byte (a + i)).toNat * 256 ^ i) 0

/-- What a load gives of the bytes it reads (11 R288, R289). -/
def loaded (sz : Size) (v : Nat) : BitVec 128 :=
  match sz with
  | .z8 => (BitVec.ofInt 32 (if v % 256 < 128 then (v % 256 : Nat) else (v % 256 : Nat) - 256)).setWidth 128
  | .z16 => (BitVec.ofInt 32 (if v % 65536 < 32768 then (v % 65536 : Nat) else (v % 65536 : Nat) - 65536)).setWidth 128
  | .n8 => BitVec.ofNat 128 (v % 256)
  | .n16 => BitVec.ofNat 128 (v % 65536)
  | _ => BitVec.ofNat 128 v

/-- k consecutive registers from the destination on take the 32-bit words of a value: a vector register each lane's own, a
scalar one the lowest active lane's; %zero takes none (11 R289, R290). -/
structure WroteWords (a b : Wave) (k : Nat) (d : Operand) (m : LaneMask) (val : Fin 32 → BitVec 128) : Prop where
  vec : ∀ (n : Nat) (l : Fin 32), readV b n l =
    match d with
    | .v i => if m.getLsbD l = true ∧ i.val ≤ n ∧ n < i.val + k then (val l).extractLsb' (32 * (n - i.val)) 32
        else readV a n l
    | _ => readV a n l
  sca : ∀ n : Nat, readS b n =
    match d with
    | .s i => if m ≠ 0 ∧ i.val ≤ n ∧ n < i.val + k then (val (lowest m)).extractLsb' (32 * (n - i.val)) 32 else readS a n
    | _ => readS a n
  mask : ∀ k, readK b k = readK a k

/-- The global address and the scratchpad offset of a lane (11 R282). -/
def globalAt (s : State) (m : MemOp) (size : Nat) (l : Fin 32) : Word64 :=
  BitVec.ofInt 64 ((src64 s m.base l).toNat + (src32 s m.index l).toNat + m.off.toInt * size)
def offsetAt (s : State) (m : MemOp) (size : Nat) (l : Fin 32) : Word32 :=
  BitVec.ofInt 32 ((src32 s m.base l).toNat + (src32 s m.index l).toNat + m.off.toInt * size)

/-- The lanes that access memory: the active ones, or the lowest of them for a scalar instruction (11 R290). -/
def accessors (scalar : Bool) (m : LaneMask) : List (Fin 32) := if scalar then (lanesIn m).take 1 else lanesIn m

/-- Every access was found to be possible: its bytes are at a physical address of the part, or its remote target has
answered (11 R284, R286). -/
def AllFound (ls : List (Fin 32)) (found : Fin 32 → Chk) : Prop :=
  ∀ l ∈ ls, (∃ pa, found l = .ok pa) ∨ ∃ pa v, found l = .far pa v

/-- The context of the issuing wave has no polder and samples nothing, and the core has no `red` pending: what an access then
does to memory is its own effect alone (11 R301, R314, 18 R412). -/
structure Quiet (s : State) : Prop where
  polders : (ctxOf s s.me.ctx).polders = []
  trace : (ctxOf s s.me.ctx).trace.enable = false
  reds : ∀ r ∈ s.reds, r.core ≠ s.me.core

/-- The value of a load at a place that was found. -/
def valueAt (s : State) (n : Nat) : Chk → Nat
  | .ok pa => number (seenByte s s.me.core) pa n
  | .far _ v => v.toNat
  | _ => 0

/-- The place a load or store of a lane was found at. -/
def loadPlace (s : State) (m : MemOp) (n : Nat) (l : Fin 32) : Chk :=
  globalChk s l (globalAt s m n l) n { load := true, watchLoad := true }
def storePlace (s : State) (m : MemOp) (n : Nat) (l : Fin 32) : Chk :=
  globalChk s l (globalAt s m n l) n { store := true, watchStore := true }

/-- The byte that the last of some lanes stores at an address, if any of them does: each stores n bytes of its value at the
physical address it was found at. -/
def storedByte (ls : List (Fin 32)) (found : Fin 32 → Chk) (n : Nat) (val : Fin 32 → BitVec 128) (x : Nat) : Option Byte :=
  (ls.reverse.findSome? fun l => match found l with
    | .ok pa => if pa ≤ x ∧ x < pa + n then some (BitVec.ofNat 8 ((val l).toNat / 256 ^ (x - pa))) else none
    | _ => none)

/-- A granule that the n bytes of one of some lanes cover whole. -/
def Covers (ls : List (Fin 32)) (found : Fin 32 → Chk) (n g : Nat) : Prop :=
  ∃ l ∈ ls, ∃ pa, found l = .ok pa ∧ pa ≤ 64 * g ∧ 64 * g + 64 ≤ pa + n

/-- A byte of a store that covers a poisoned granule whole: it is performed at once for every agent (18 R402, log 89). -/
def Mends (p : State) (ls : List (Fin 32)) (found : Fin 32 → Chk) (n x : Nat) : Prop :=
  ∃ l ∈ ls, ∃ pa, found l = .ok pa ∧ pa ≤ x ∧ x < pa + n ∧ ∃ g ∈ p.poison, pa ≤ 64 * g ∧ 64 * g + 64 ≤ pa + n

/-- The stores of some lanes took effect for the issuing core, on their bytes alone; what other cores have stored and others do
not see yet is as it was. No other agent sees the stores yet, but for those that cover a poisoned granule whole: they are
in memory, and the granule is clean (10 R262, R265, 18 R402). Registers are kept and the path group went on. -/
structure StoresOnly (p t : State) (m : LaneMask) (ls : List (Fin 32)) (found : Fin 32 → Chk) (n : Nat)
    (val : Fin 32 → BitVec 128) : Prop where
  next : Completed { p with mem := t.mem, dirty := t.dirty, poison := t.poison } t m WroteNone noFlags keepRng
  own : ∀ x < corePitch, coreByte t p.me.core x = (storedByte ls found n val x).getD (coreByte p p.me.core x)
  poison : ∀ g, g ∈ t.poison ↔ g ∈ p.poison ∧ ¬ Covers ls found n g
  mended : ∀ g ∈ p.poison, Covers ls found n g → ∀ x, 64 * g ≤ x → x < 64 * g + 64 → memByte t x = coreByte t p.me.core x
  seen : ∀ x, ¬ Mends p ls found n x → memByte t x = memByte p x
  pending : ∀ u x, u ≠ p.me.core → x < corePitch → (u ∈ levelPath p.me.core → ¬ Mends p ls found n x) →
    Table.get? t.dirty (u * corePitch + x) = Table.get? p.dirty (u * corePitch + x)

/-- No access of the part for a context has answers that it has not taken (16 R429). -/
def NoAnswers (s : State) (ctx : Nat) : Prop := (ctxOf s ctx).pri = [] ∧ (ctxOf s ctx).farAns = []

/-- The check of a scratchpad access (11 R297). -/
def spPlace (s : State) (m : MemOp) (n : Nat) (k : Kind) (l : Fin 32) : Chk := spChk s l (offsetAt s m n l) n k

/-- The scratchpad of the issuing group after the stores of some lanes; nothing else changed. -/
def PadStores (p t : State) (m : LaneMask) (regs : Wave → Wave → Prop) (byte : Nat → Byte) : Prop :=
  ∃ sp poison, Completed (modGroup p p.me.group fun g => { g with sp := sp, spPoison := poison }) t m regs noFlags keepRng ∧
    ∀ o, spByte (groupOf t t.me.group) o = byte o

/-- The atomics of some lanes on memory, one after another, each with the value it found (11 R298, R300). -/
def atomics (p : State) (ls : List (Fin 32)) (found : Fin 32 → Chk) (op : AtomOp) (uns wide : Bool)
    (x y : Fin 32 → Word64) : State × List (Fin 32 × Word64) :=
  ls.foldl (fun r l => match found l with
    | .ok pa => let u := atomAt r.1 p.me.core pa op uns wide (x l) (y l); (u.2, (l, u.1) :: r.2)
    | .far _ v => (r.1, (l, v.setWidth 64) :: r.2)
    | _ => r) (p, [])

/-- The same on the scratchpad of a group. -/
def padAtomics (g : Group) (ls : List (Fin 32)) (found : Fin 32 → Chk) (op : AtomOp) (uns wide : Bool)
    (x y : Fin 32 → Word64) : Group × List (Fin 32 × Word64) :=
  ls.foldl (fun r l => match found l with
    | .ok o =>
      let n := if wide then 8 else 4
      let old := BitVec.ofNat 64 (number (spByte r.1) o n)
      let new := atomValue op uns wide old (x l) (y l)
      (if op = .cas ∧ new = old then r.1 else spWrite r.1 o n new.toNat, (l, old) :: r.2)
    | _ => r) (g, [])

/-- The state of an access with release order, once its core's stores are visible at the scope (10 R267). -/
def released (p : State) (rel : Bool) (sc : Scope) : State := if rel then releaseAt p p.me.core sc else p

/-- The value an atomic gives a lane. -/
def givenTo (vs : List (Fin 32 × Word64)) (l : Fin 32) : Word64 := ((vs.find? fun e => e.1 == l).map Prod.snd).getD 0

/-- The value an atomic combines, and the one `cas` compares with (11 R299). -/
def operandsOf (s : State) (op : AtomOp) (wide : Bool) (x : Operand) (l : Fin 32) : Word64 × Word64 :=
  atomOperands s op wide x l

/-- The level at which the agents of a scope's instance around a core see what is released there; none is memory (10 R261). -/
def scopeLevel (sc : Scope) (core : Nat) : Option Nat :=
  match sc with
  | .core => some core
  | .quad => some (quadLevel (core / 4))
  | .die => some (dieLevel (core / 48))
  | _ => none

/-- The byte that a level sees, or memory. -/
def seenAt (s : State) (u : Option Nat) (a : Nat) : Byte :=
  match u with
  | some v => coreByte s v a
  | none => memByte s a

/-- An open access of a context to another package that `tlbinv` awaits: translated through an entry that it drops, on a core
of the scope's instance, or an engine's where the scope holds the engines (10 R277). -/
def AwaitedBy (s : State) (sc : Scope) (all : Bool) (through : Nat → Nat → Prop) (r : RemoteReq) : Prop :=
  r.ctx = s.me.ctx ∧ (all = true ∨ (inHeap (ctxOf s s.me.ctx).cfg r.addr.toNat = false ∧ through r.addr.toNat 1)) ∧
    if r.tag.isSome then sc ≠ .core ∧ sc ≠ .quad
    else scopeInstance sc (if r.ap then (apOf s r.wave).core else (waveOf s r.wave).core) = scopeInstance sc s.me.core

/-- What `tlbinv` does with the entries that satisfy a test: they are gone once the scope's stores and `red`s are performed;
the word completes, or waits for the open accesses through them (10 R277, 11 R305). -/
def Invalidates (s t : State) (sc : Scope) (all : Bool) (through : Nat → Nat → Prop) (refused : Nat → Prop) : Prop :=
  let p := performAll s sc s.me.core
  ∃ q, q = setCtx p s.me.ctx (fun c => { c with tlb := (ctxOf q s.me.ctx).tlb, denied := (ctxOf q s.me.ctx).denied }) ∧
    (Table.get? s.ctxs s.me.ctx ≠ none →
      (∀ e, e ∈ (ctxOf q s.me.ctx).tlb ↔ e ∈ (ctxOf s s.me.ctx).tlb ∧ ¬ through e.page e.bytes) ∧
      ∀ e, e ∈ (ctxOf q s.me.ctx).denied ↔ e ∈ (ctxOf s s.me.ctx).denied ∧ ¬ refused e.1) ∧
    ((∀ r ∈ s.remotes, ¬ AwaitedBy s sc all through r.2) → Passes q t) ∧
    ((∃ r ∈ s.remotes, AwaitedBy s sc all through r.2) → ∃ ks b, t = lanesTo q s.iss (fun _ l => { l with wait := .stall (.answers ks b) }) ∧
      ∀ k, k ∈ ks ↔ ∃ r ∈ s.remotes, r.1 = k ∧ AwaitedBy s sc all through r.2)

/-- A turn of `tlbinv`: the first drops the entries; one that waits for open accesses goes on once none of them is open. -/
def Invalidated (s t : State) (sc : Scope) (all : Bool) (through : Nat → Nat → Prop) (refused : Nat → Prop) : Prop :=
  match s.me.lanes[lowest s.iss].wait with
  | .stall (.answers ks _) =>
    ((∀ k ∈ ks, Table.get? s.remotes k = none) → Passes s t) ∧ (¬ (∀ k ∈ ks, Table.get? s.remotes k = none) → t = s)
  | _ => Invalidates s t sc all through refused

end Sys2Proof.Claims

/-- Loads: each active lane's bytes, extended, in the destination; a load changes no byte of memory or scratchpad (11 R282, R286,
R288 to R291). Where the part keeps a view's directory or a spilled save area, a load gives what `seenByte` says (09 R234; the
model's choice, logs 26 and 40). The model's choices, not the spec's: a load gives the newest byte its core can see (log 13);
answers of other packages are kept until the word completes (log 50). -/
def Obligations.LoadsReadMemory : Prop :=
  (∀ h sz acq sc nt d m s, let srcs := [(m.base, 2), (m.index, 1)]; let p := taken s h srcs; let n := sizeBytes sz
    Issuing s → Sourced s h srcs → Quiet s → AllFound (accessors d.isScalar (active s h)) (loadPlace p m n) →
    ∃ t, exec (.ld h sz acq sc nt d m) s = .next t ∧
      Completed p t (active s h)
        (fun a b => WroteWords a b (sizeWords sz) d (active s h) fun l =>
          loaded sz (valueAt p n (loadPlace p m n l))) noFlags keepRng) ∧
  (∀ h sz acq d m s, let srcs := [(m.base, 1), (m.index, 1)]; let p := taken s h srcs; let n := sizeBytes sz
    let place := spPlace p m n { load := true, watchLoad := true }
    Issuing s → Sourced s h srcs → (∀ l ∈ accessors d.isScalar (active s h), ∃ o, place l = .ok o) →
    ∃ t, exec (.ldsp h sz acq d m) s = .next t ∧
      Completed p t (active s h)
        (fun a b => WroteWords a b (sizeWords sz) d (active s h) fun l =>
          loaded sz (match place l with
            | .ok o => number (spByte (groupOf s s.me.group)) o n
            | _ => 0)) noFlags keepRng) ∧
  ∀ h sz d base off s, let srcs := [(base, 1)]; let p := taken s h srcs; let n := sizeBytes sz
    let place := fun l => dataChk p l (BitVec.ofInt 32 ((src32 p base l).toNat + BitVec.toInt off * n)) n
    Issuing s → Sourced s h srcs → Quiet s → AllFound (accessors d.isScalar (active s h)) place →
    ∃ t, exec (.ldc h sz d base off) s = .next t ∧
      Completed p t (active s h)
        (fun a b => WroteWords a b (sizeWords sz) d (active s h) fun l =>
          loaded sz (match place l with
            | .ok a => number (fun i => vaByte p p.me.ctx (some p.me.core) (BitVec.ofNat 64 i)) a n
            | .far _ v => v.toNat
            | _ => 0)) noFlags keepRng

/-- Stores: the low bytes of each active lane's data at its address, in ascending lane order; `zfill` stores 256 zero bytes (11
R282, R287, R290, R292). That a store which ends a granule's poison is performed at once is the model's choice (log 89). The
model's choices, not the spec's: a store is seen by its core first (log 13); stores to other packages wait (log 50). -/
def Obligations.StoresWriteMemory : Prop :=
  (∀ h sz rel sc nt x m s, let srcs := [(x, sizeWords sz), (m.base, 2), (m.index, 1)]; let p := taken s h srcs
    let n := sizeBytes sz
    Issuing s → Sourced s h srcs → Quiet s → AllFound (accessors x.isScalar (active s h)) (storePlace p m n) →
    ∃ t, exec (.st h sz rel sc nt x m) s = .next t ∧
      StoresOnly (released p (rel && active s h != 0) sc) t (active s h) (accessors x.isScalar (active s h))
        (storePlace p m n) n (storeData p sz x)) ∧
  (∀ h m s, let srcs := [(m.base, 2), (m.index, 1)]; let p := taken s h srcs
    Issuing s → Sourced s h srcs → Quiet s → AllFound (lanesIn (active s h)) (storePlace p m 256) →
    ∃ t, exec (.zfill h m) s = .next t ∧
      StoresOnly p t (active s h) (lanesIn (active s h)) (storePlace p m 256) 256 fun _ => 0) ∧
  ∀ h sz rel x m s, let srcs := [(x, sizeWords sz), (m.base, 1), (m.index, 1)]; let p := taken s h srcs
    let n := sizeBytes sz
    let place := spPlace p m n { store := true, watchStore := true }
    (Table.get? s.groups s.me.group).isSome = true →
    Issuing s → Sourced s h srcs → (∀ l ∈ accessors x.isScalar (active s h), ∃ o, place l = .ok o) →
    ∃ t, exec (.stsp h sz rel x m) s = .next t ∧
      PadStores p t (active s h) WroteNone fun o =>
        (storedByte (accessors x.isScalar (active s h)) place n (storeData p sz x) o).getD
          (spByte (groupOf s s.me.group) o)

/-- Atomics: `atom` and `atomsp` give each active lane, in ascending order, the value it found and put the combined one in its
place; `red` leaves one update per lane to the home L3, and `atomf` one record per lane in the launch's log. One update finds
what its core sees of the location, its core's own earlier stores included, puts the combined value there for every agent, and
changes no other byte as the core sees it (10 R264, R279, 11 R298 to R302). The model's choices, not the spec's: what a core
sees of its own stores (log 13); answers of other packages (log 50); the epoch a `red` carries (log 51). -/
def Obligations.AtomicsUpdate : Prop :=
  (∀ h op uns wide ord sc d base x s, let srcs := [(base, 2), (x, atomWords op wide)]; let p := taken s h srcs
    let place := fun l => globalChk p l (src64 p base l) (if wide then 8 else 4)
      { load := d != .zero, store := true, watchLoad := true, watchStore := true }
    let r := atomics (released p ((ord = .rel ∨ ord = .ar) && active s h != 0) sc) (accessors d.isScalar (active s h)) place op uns wide (fun l => (operandsOf p op wide x l).1)
      fun l => (operandsOf p op wide x l).2
    Issuing s → Sourced s h srcs → Quiet s → AllFound (accessors d.isScalar (active s h)) place →
    ∃ t, exec (.atom h op uns wide ord sc d base x) s = .next t ∧
      Completed r.1 t (active s h) (fun a b => Wrote a b (widthOf wide) d (active s h) (givenTo r.2)) noFlags keepRng) ∧
  (∀ h op uns wide ord d base x s, let srcs := [(base, 1), (x, atomWords op wide)]; let p := taken s h srcs
    let place := fun l => spChk p l (src32 p base l) (if wide then 8 else 4)
      { load := d != .zero, store := true, watchLoad := true, watchStore := true }
    let r := padAtomics (groupOf s s.me.group) (accessors d.isScalar (active s h)) place op uns wide
      (fun l => (operandsOf p op wide x l).1) fun l => (operandsOf p op wide x l).2
    (Table.get? s.groups s.me.group).isSome = true →
    Issuing s → Sourced s h srcs → (∀ l ∈ accessors d.isScalar (active s h), ∃ o, place l = .ok o) →
    ∃ t, exec (.atomsp h op uns wide ord d base x) s = .next t ∧
      PadStores p t (active s h) (fun a b => Wrote a b (widthOf wide) d (active s h) (givenTo r.2)) (spByte r.1)) ∧
  (∀ h op uns wide rel sc x base s, let srcs := [(x, if wide then 2 else 1), (base, 2)]; let p := taken s h srcs
    let place := fun l => globalChk p l (src64 p base l) (if wide then 8 else 4) { store := true, watchStore := true }
    Issuing s → Sourced s h srcs → Quiet s → AllFound (accessors x.isScalar (active s h)) place →
    ∃ t, exec (.red h op uns wide rel sc x base) s = .next t ∧
      Completed { released p (rel && active s h != 0) sc with reds := p.reds ++ (accessors x.isScalar (active s h)).filterMap fun l => match place l with
          | .ok pa => some { ctx := p.me.ctx, core := p.me.core, pa := pa, op := op, uns := uns, wide := wide,
                             val := srcW p (widthOf wide) x l, epoch := p.xlepoch }
          | _ => none } t (active s h) WroteNone noFlags keepRng) ∧
  (∀ h base x s lk la, let srcs := [(base, 2), (x, 1)]; let p := taken s h srcs
    let place := fun l => globalChk p l (src64 p base l) 4 { store := true, watchStore := true }
    Issuing s → Sourced s h srcs → (groupOf s s.me.group).launch = some lk → (kernOf s).usesAtomf = true →
    Table.get? s.launches lk = some la →
    (la.log.length + (lanesIn (active s h)).length) * 16 ≤ (kernOf s).redBytes →
    (∀ l ∈ lanesIn (active s h), ∃ pa, place l = .ok pa ∨ place l = .send pa ∨ ∃ v, place l = .far pa v) →
    ∃ t, exec (.atomf h base x) s = .next t ∧
      Completed { p with launches := Table.set p.launches lk { la with log := la.log ++ (lanesIn (active s h)).map fun l =>
          { group := (groupOf s s.me.group).index, thread := s.me.index * 32 + l.val, va := src64 p base l,
            val := src32 p x l } } } t (active s h) WroteNone noFlags keepRng) ∧
  ∀ s core pa op uns wide x y,
    let n := if wide then 8 else 4
    let r := atomAt s core pa op uns wide x y
    Table.rising s.dirty = true → pa % n = 0 → pa + n ≤ corePitch →
    r.1.toNat = number (coreByte s core) pa n ∧
    number (memByte r.2) pa n = (atomValue op uns wide r.1 x y).toNat % 256 ^ n ∧
    number (coreByte r.2 core) pa n = (atomValue op uns wide r.1 x y).toNat % 256 ^ n ∧
    ∀ a < corePitch, (a < pa ∨ pa + n ≤ a) → coreByte r.2 core a = coreByte s core a

/-- Fences, instruction-cache and translation invalidations. A release at a scope leaves every agent of the scope's instance seeing
what the core sees, changes nothing for the core, and leaves what others have stored as it is; with no `red` of the core pending
it changes nothing else. `icinv` performs the core's `red`s too. `tlbinv` performs every store and `red` of the scope's agents,
drops the context's translations, all of them or those of a range of pages, and waits while an access that went through one
awaits another package. A freed page waits in quarantine at its epoch until what was in flight at the free has been performed
(10 R261, R267, R276 to R278, 11 R303 to R305, 16 R349; what counts as in flight and how releases move stores are the model's
choices, log 13, 51). -/
def Obligations.FencesRelease : Prop :=
  (∀ s core sc, core < 1152 → Table.rising s.dirty = true → (∀ r ∈ s.reds, r.core ≠ core) →
    let t := releaseAt s core sc
    (∀ a < corePitch, coreByte t core a = coreByte s core a ∧
      (sc ≠ .core → seenAt t (scopeLevel sc core) a = coreByte s core a)) ∧
    (∀ u a, a < corePitch → u ∉ levelPath core → Table.get? t.dirty (u * corePitch + a) = Table.get? s.dirty (u * corePitch + a)) ∧
    ((scopeLevel sc core).isSome = true ∨ sc = .core → t.mem = s.mem) ∧ (sc = .core → t = s) ∧
    t = { s with mem := t.mem, dirty := t.dirty }) ∧
  (∀ s core sc, core < 1152 → Table.rising s.dirty = true →
    let t := performAll s sc core
    (∀ c < 1152, scopeInstance sc c = scopeInstance sc core → ∀ u ∈ levelPath c, ∀ a < corePitch,
      Table.get? t.dirty (u * corePitch + a) = none) ∧
    ∀ r ∈ t.reds, scopeInstance sc r.core ≠ scopeInstance sc core) ∧
  (∀ s page, let t := pageFree s page
    t.xlepoch = s.xlepoch + 1 ∧ t.xlquiet = s.xlquiet ∧
      ∃ f, t.quarantine = s.quarantine ++ [f] ∧ f.page = page ∧ f.epoch = s.xlepoch) ∧
  (∀ s f, s.quarantine = [f] →
    (quietSince s f = false → advanceQuiet s = s) ∧
    (quietSince s f = true → advanceQuiet s = { s with quarantine := [], xlquiet := f.epoch + 1 }) ∧
    (((∃ a ∈ f.stores, Table.get? s.dirty a ≠ none) ∨ (∃ r ∈ s.reds, r.epoch.toNat ≤ f.epoch.toNat) ∨
      (∃ c ∈ s.copies, c.1 < f.no) ∨ ∃ r ∈ s.remotes, r.1 < f.no) → quietSince s f = false)) ∧
  ∀ h sc s, Issuing s →
  (∃ t, exec (.fence h sc) s = .next t ∧ Passes (if active s h = 0 then s else releaseAt s s.me.core sc) t) ∧
  (∃ t, exec (.icinv h sc) s = .next t ∧
    Passes (if active s h = 0 then s else applyOwn (releaseAt s s.me.core sc) s.me.core) t) ∧
  (active s h ≠ 0 →
    ∃ t, exec (.tlbinv h sc none) s = .next t ∧ Invalidated s t sc true (fun _ _ => True) (fun _ => True)) ∧
  (∀ a b, Sourced s h [(a, 2), (b, 1)] → queuesIn [(a, 2), (b, 1)] = [] → active s h ≠ 0 →
    (src64 s a 0).toNat % 65536 = 0 → src32 s b 0 ≠ 0 →
    let lo := (src64 s a 0).toNat
    let hi := lo + 65536 * (src32 s b 0).toNat
    ∃ t, exec (.tlbinv h sc (some (a, b))) s = .next t ∧
      Invalidated s t sc false (fun page bytes => page < hi ∧ lo < page + bytes) (fun page => page < hi ∧ lo < page + 65536)) ∧
  (active s h = 0 → (∃ t, exec (.tlbinv h sc none) s = .next t ∧ Passes s t) ∧
    ∀ a b, ∃ t, exec (.tlbinv h sc (some (a, b))) s = .next t ∧ Passes s t) ∧
  (∀ lvl m, ∃ t, exec (.pref h lvl m) s = .next t ∧ Passes s t)

namespace Sys2Proof.Claims

/-! ### Exceptions and system instructions -/

/-- What an instruction whose own effect is an exception raises: the lanes, the cause, each lane's detail, and whether they
resume at the next word (02 R50, 05 R145, 17 R379, R387). -/
def raises (s : State) : Instr → Option (LaneMask × Cause × (Fin 32 → Word32) × Bool)
  | .trap h n => some (active s h, .trap, fun _ => n.setWidth 32, true)
  | .bkpt h n => some (active s h, .bkpt, fun _ => n.setWidth 32, false)
  | .toolop h n _ => some (active s h, .toolop, fun _ => BitVec.ofNat 32 n.val, false)
  | .tfence h => some (lanesMask fun l => (active s h).getLsbD l && s.me.lanes[l].flags &&& s.me.fpen != 0, .arith,
      fun l => (s.me.lanes[l].flags &&& s.me.fpen).setWidth 32, true)
  | _ => none

/-- The bytes of a range have physical addresses that follow one another. -/
def Linear (s : State) (ctx : Nat) (a : Word64) (n pa : Nat) : Prop :=
  (ctxOf s ctx).exmap = [] ∧ a.toNat + n ≤ 2 ^ 64 ∧ ∀ i < n, translate s ctx (a + BitVec.ofNat 64 i) true = .ok (pa + i)

/-- The fault queue of a context has room, and its next entry stands at a physical address (17 R384). -/
def LogRoom (s : State) (ctx pa : Nat) : Prop := ∃ c, Table.get? s.ctxs ctx = some c ∧
  (c.fqprod - c.fqcons).toNat ≠ c.cfg.fqEntries ∧
  Linear s ctx (c.cfg.fqBase + BitVec.ofNat 64 (64 * (c.fqprod.toNat % c.cfg.fqEntries))) 64 pa

/-- The next entry of a context's fault queue holds a record, each field at its offset, and the producer count is one higher;
where the driver had consumed every one before it, vector 0 tells the function (16 R340, 17 R384, R385). -/
structure Recorded (s t : State) (ctx pa : Nat) (r : FqRecord) : Prop where
  seq : number (memByte t) pa 8 = ((ctxOf s ctx).fqprod.toNat + 1) % 2 ^ 64
  type : (memByte t (pa + 8)).toNat = r.type % 256 ∧ (memByte t (pa + 9)).toNat = r.cause % 256
  nested : (memByte t (pa + 0x0A)).toNat = (if r.nested then 1 else 0) ∧ (memByte t (pa + 0x0B)).toNat = 0
  frag : number (memByte t) (pa + 0x0C) 4 = r.frag % 2 ^ 32
  mask : number (memByte t) (pa + 0x10) 4 = r.mask % 2 ^ 32
  detail : number (memByte t) (pa + 0x14) 4 = r.detail % 2 ^ 32
  pc : number (memByte t) (pa + 0x18) 8 = r.pc % 2 ^ 64
  addr : number (memByte t) (pa + 0x20) 8 = r.addr % 2 ^ 64
  time : number (memByte t) (pa + 0x28) 8 = s.wall % 2 ^ 64
  spec : number (memByte t) (pa + 0x30) 8 = r.spec % 2 ^ 64 ∧ number (memByte t) (pa + 0x38) 8 = 0
  count : (ctxOf t ctx).fqprod = (ctxOf s ctx).fqprod + 1
  told : (ctxOf s ctx).fqcons = (ctxOf s ctx).fqprod → ctx ∈ (fnOf t (ctxOf s ctx).cfg.fn).faultPending

/-- A full fault queue drops the record: the producer count stays, and the count of lost records rises, saturating
(17 R385). -/
def RecordLost (s t : State) (ctx : Nat) : Prop := (ctxOf t ctx).fqprod = (ctxOf s ctx).fqprod ∧
  (ctxOf t ctx).fqlost.toNat = min ((ctxOf s ctx).fqlost.toNat + 1) (2 ^ 32 - 1)

/-- A context's record is written where its queue has room, and lost where the queue is full. -/
def RecordEnds (s t : State) (ctx : Nat) (r : FqRecord) : Prop :=
  (∀ pa, LogRoom s ctx pa → Recorded s t ctx pa r) ∧
  ∀ c, Table.get? s.ctxs ctx = some c → (c.fqprod - c.fqcons).toNat = c.cfg.fqEntries → RecordLost s t ctx

/-- The lanes of a mask can form one fragment: they are lanes of a wave, all in a handler or none, and an entry is free for
them (17 R369, R372, R380). -/
structure CanFault (s : State) (m : LaneMask) (e : Nat) : Prop where
  wave : s.me.ap = none
  lanes : m ≠ 0
  same : ∀ l : Fin 32, m.getLsbD l = true → s.me.lanes[l].handler.isSome = s.me.lanes[lowest m].handler.isSome
  entry : (freeEntries s s.me.ctx s.me.core).head? = some e
  held : heldEntries s s.me.key < 16

/-- The fragment that the lanes form (17 R370). -/
structure Formed (s : State) (f : Frag) (m : LaneMask) (c : Cause) (detail : Fin 32 → Word32) (pc : Word64) : Prop where
  wave : f.wave = s.me.key
  lanes : f.lanes = m
  cause : f.cause = c
  pc : f.pc = pc
  word : f.word = s.word
  details : ∀ l : Fin 32, m.getLsbD l = true → ∃ i ∈ f.info, i.lane = l.val ∧ i.detail = detail l ∧ i.addr = 0

/-- The resume point of a lane: its own word, or the one behind it (17 R379). -/
def resumeAt (s : State) (after : Bool) : Word64 :=
  if after then s.me.lanes[lowest s.iss].pc + 8 else s.me.lanes[lowest s.iss].pc

/-- n bytes of a lane's trap frame from an offset on (17 R376, R377). -/
def frameField (t s : State) (l : Fin 32) (off n : Nat) : Nat :=
  number (fun i => memByte t (vaToPa s s.me.ctx ((ctxOf s s.me.ctx).cfg.hdlTab +
    BitVec.ofNat 64 (frameOffset s s.me l.val + i)) true)) off n

/-- What a fragment that parks with a cause tells the fault queue: the lowest lane's address and detail (17 R382, R384). -/
def parkedRecord (s : State) (m : LaneMask) (fk : Nat) (c : Cause) (detail : Fin 32 → Word32) (pc : Word64) (nested : Bool) :
    FqRecord :=
  { type := 1, cause := c.bitNo, nested := nested, frag := fragIdent s.me (some fk), mask := m.toNat,
    detail := (detail (lowest m)).toNat, pc := pc.toNat }

/-- A cause of lanes that parks their fragment: they are in a handler already, or the cause has no handler and is no breakpoint
of an attached debugger (17 R380, R382, R388). -/
def NoHandler (s : State) (m : LaneMask) (c : Cause) : Prop :=
  s.me.lanes[lowest m].handler.isSome = true ∨
    (handlerEntry (handlerTable s s.me.ctx) c = 0 ∧
      (c = .bkpt ∨ c = .watch → attached (handlerTable s s.me.ctx) = false))

/-- The context has a handler table whose entry for a cause names a header, the frames of the lanes can be written, the
group runs, and no lane is in a handler (17 R375 to R379). -/
structure CanEnter (s : State) (m : LaneMask) (c : Cause) (a : Word64) : Prop where
  table : ∃ v, handlerTable s s.me.ctx = some v ∧ a = BitVec.ofNat 64 (fieldAt v (0x40 + 8 * c.bitNo) 8) ∧
    (c = .bkpt → v % 2 = 0)
  entry : a ≠ 0 ∧ a.toNat % 8 = 0 ∧ ((∃ h, fetchWord s s.me.ctx s.me.core [] a = .word h ∧ isHeader h = true) ∨
    ∃ pa, fetchWord s s.me.ctx s.me.core [] a = .send pa)
  frames : ∀ l : Fin 32, m.getLsbD l = true → ∀ i < 256, ∃ pa,
    translate s s.me.ctx ((ctxOf s s.me.ctx).cfg.hdlTab + BitVec.ofNat 64 (frameOffset s s.me l.val + i)) true = .ok pa
  expansions : (ctxOf s s.me.ctx).exmap = []
  apart : ∀ l j : Fin 32, m.getLsbD l = true → m.getLsbD j = true → ∀ i < 256, ∀ k < 256, (l, i) ≠ (j, k) →
    vaToPa s s.me.ctx ((ctxOf s s.me.ctx).cfg.hdlTab + BitVec.ofNat 64 (frameOffset s s.me l.val + i)) true ≠
    vaToPa s s.me.ctx ((ctxOf s s.me.ctx).cfg.hdlTab + BitVec.ofNat 64 (frameOffset s s.me j.val + k)) true
  runs : (groupOf s s.me.group).halt = .running
  none : s.me.lanes[lowest m].handler = none

/-- The other lanes of the path group went on, and those of other path groups are where they were. -/
def OthersGoOn (s t : State) (m : LaneMask) : Prop :=
  ∀ l : Fin 32, m.getLsbD l = false →
    if s.iss.getLsbD l then t.me.lanes[l].pc = s.me.lanes[l].pc + 8 ∧ ThreadKept s.me.lanes[l] t.me.lanes[l]
    else LaneKept s.me.lanes[l] t.me.lanes[l]

/-- The registers of the issuing wave are as they were. -/
def RegsKept (s t : State) : Prop :=
  t.me.v = s.me.v ∧ t.me.s = s.me.s ∧ t.me.k = s.me.k ∧ t.me.guards = s.me.guards ∧ t.me.fpen = s.me.fpen ∧
    t.me.timer = s.me.timer ∧ t.me.prio = s.me.prio

/-- A field of a lane's trap frame loads as a number: the lane sees its own pending `red`s to the place, or another package
has answered (17 R383). -/
def FieldSays (s : State) (l : Fin 32) (o n v : Nat) : Prop :=
  (∃ pa, globalChk s l (frameAddr s l + BitVec.ofNat 64 o) n { load := true } = .ok pa ∧
    number (seenByte (settleReds s s.me.core pa n) s.me.core) pa n = v) ∨
  ∃ pa x, globalChk s l (frameAddr s l + BitVec.ofNat 64 o) n { load := true } = .far pa x ∧ v = x.toNat % 256 ^ n

/-- The fields that `hret` reads for a lane (17 R383) can be read: the depth is the lane's, and they name this resume point and
header. -/
structure FrameSays (s : State) (l : Fin 32) (pc hdr : Word64) : Prop where
  depth : FieldSays s l 0x28 1 s.me.lanes[l].meets.length
  pc : FieldSays s l 8 8 pc.toNat
  hdr : FieldSays s l 0x90 8 hdr.toNat

/-- A lane resumes at a point: it lives there, unless a wait at a second arrival that was interrupted is in force again and
its phase ends at once (03 R88, R91, 17 R373). -/
structure ResumedAt (a b : Lane) (pc : Word64) : Prop where
  life : b.life = .live
  place : (∀ sc n p w t, waitAgain a pc ≠ .barHeld sc n p w t) → b.pc = pc
  kept : b.flags = a.flags ∧ b.rng = a.rng

/-- What a readable register that is no lane's own holds for the issuing wave (01 R53, 16 R365, 17 R375, R399, 18 R409): a
sensor's reading is a free value of the number n. -/
def registerValue (s : State) (n : Nat) (sr : SysReg) : Word64 :=
  let w := s.me
  let c := ctxOf s w.ctx
  let die := w.core / 48
  let d := Table.getD s.dies die {}
  let used := Config.repairedRows die + d.sparesUsed
  let g := groupOf s w.group
  match sr with
  | .devid => 0x0D5E0B24
  | .stepid => 0xB0
  | .enchash => 0x9E4107C3
  | .fpflags | .srstate => 0
  | .fpen => BitVec.ofNat 64 w.fpen.toNat
  | .e8ncnt => BitVec.ofNat 64 c.e8n.toNat
  | .gaprec => BitVec.ofNat 64 c.gaprec.toNat
  | .xlepoch => s.xlepoch
  | .xlquiet => s.xlquiet
  | .ctxinfo => BitVec.ofNat 64 (w.ctx % 2 ^ 12 + c.cfg.prio % 2 ^ 3 * 2 ^ 12 + c.cfg.dike % 2 ^ 9 * 2 ^ 15)
  | .podstat => BitVec.ofNat 64 ((if s.degraded then 1 else 0) + (s.packages - 1) % 2 ^ 7 * 2 ^ 8)
  | .cause => w.causes
  | .hdltab => c.cfg.hdlTab
  | .grpid => BitVec.ofNat 64 (g.core / 48 * 2 ^ 19 + g.core % 48 * 2 ^ 13 + g.waves.headD 0 % 64 * 2 ^ 7)
  | .fqprod => c.fqprod
  | .fqcons => c.fqcons
  | .fqlost => BitVec.ofNat 64 c.fqlost.toNat
  | .wtime => BitVec.ofNat 64 w.timer.toNat
  | .wpaddr i => Table.getD c.wpaddr i.val 0
  | .wpctl i => BitVec.ofNat 64 (Table.getD c.wpctl i.val 0).toNat
  | .diecap => BitVec.ofNat 64 (16 * Config.channelBytes)
  | .dietemp => BitVec.ofNat 64 (Config.dieTemp die n).toNat
  | .dievolt => BitVec.ofNat 64 (Config.dieVolt die n).toNat
  | .dieproc => BitVec.ofNat 64 (Config.dieProc die).toNat
  | .fbstat => BitVec.ofNat 64 (d.stretch + (Config.dieV1 die).toNat * 2 ^ 16)
  | .fbcnt => BitVec.ofNat 64 d.fbcnt.toNat
  | .hbmtemp => BitVec.ofNat 64 (Config.stackTemp (die / 2) n).toNat
  | .ecccor => BitVec.ofNat 64 d.ecccor.toNat
  | .eccunc => BitVec.ofNat 64 d.eccunc.toNat
  | .spares => BitVec.ofNat 64 (used % 2 ^ 16 + (Config.sparesPerDie - used) % 2 ^ 16 * 2 ^ 16)
  | .clktgt => BitVec.ofNat 64 d.clkTgt

/-- A write of a system register (17 R399). -/
def sysWrite (s : State) (sr : SysReg) (x : Word64) : State :=
  let ctx := fun (f : Context → Context) => setCtx s s.me.ctx f
  match sr with
  | .fpen => { s with me := { s.me with fpen := BitVec.ofNat 5 (x.toNat % 32) } }
  | .e8ncnt => ctx fun c => { c with e8n := BitVec.ofNat 32 x.toNat }
  | .gaprec => ctx fun c => { c with gaprec := BitVec.ofNat 32 x.toNat }
  | .fqcons => ctx fun c => if c.fqcons.toNat ≤ x.toNat ∧ x.toNat ≤ c.fqprod.toNat then { c with fqcons := x } else c
  | .wpaddr i => ctx fun c => { c with wpaddr := Table.put c.wpaddr i.val 0 x }
  | .wpctl i =>
    let v : Word32 := BitVec.ofNat 32 (x.toNat % 2 ^ 32 / 256 * 256 + x.toNat % 16)
    ctx fun c => { c with wpctl := Table.put c.wpctl i.val 0 v }
  | _ => s

/-- An instruction that executes once for the path group and acts on the machine when a lane is active. -/
def Once (i : Instr) (h : Head) (srcs : List (Operand × Nat)) (act : State → State) : Prop :=
  ∀ s, Issuing s → Sourced s h srcs → ∃ t, exec i s = .next t ∧
    Passes (if active s h = 0 then taken s h srcs else act (taken s h srcs)) t

/-- A word that answers a status in a register when a lane is active. -/
def Status (h : Head) (d : Operand) (p t : State) (x : Word32) : Prop :=
  Completed p t (active p h) (fun a b => Wrote a b .w32 d (active p h) fun _ => x.setWidth 64) noFlags keepRng

/-- A lane reads a poisoned word: a register that a source names is poisoned for it (18 R402, R403). -/
def ReadsPoison (s : State) (srcs : List (Operand × Nat)) (l : Fin 32) : Prop := ∃ e ∈ srcs, ∃ j < e.2,
  match e.1 with
  | .v i => vecBad s.me (i.val + j) l = true
  | .s i => scaBad s.me (i.val + j) = true
  | _ => False

/-- A wave that holds its slot in a group. -/
def MemberOf (s : State) (g k : Nat) : Prop :=
  k ∈ (groupOf s g).waves ∧ (waveOf s k).present = true ∧ (waveOf s k).group = g

/-- A thread that the issuing word is not of. -/
def Elsewhere (s : State) (k : Nat) (l : Fin 32) : Prop := k = s.me.key → s.me.ap = none → s.iss.getLsbD l = false

/-- The number of threads of a group that have not exited. -/
def threadsOf (s : State) (g : Nat) : Nat :=
  (((groupOf s g).waves.filter fun k => (waveOf s k).present && (waveOf s k).group == g).map fun k =>
    (List.finRange 32).countP fun (l : Fin 32) => (waveOf s k).lanes[l].life != .exited).sum

/-- The record of a completed halt: the group's handle, the kind, and the number of threads stopped (17 R371, R384, R389). -/
def haltRecord (s : State) (g kind : Nat) : FqRecord where
  type := 7
  cause := 32
  frag := (groupOf s g).core / 48 * 2 ^ 19 + (groupOf s g).core % 48 * 2 ^ 13 + (groupOf s g).waves.headD 0 % 64 * 2 ^ 7
  detail := kind
  spec := threadsOf s g

/-- The lanes of a fragment: of one in its handler, those that are still there (17 R370, R383). -/
def LanesOf (s : State) (fk : Nat) (f : Frag) (m : LaneMask) : Prop :=
  ∀ l : Fin 32, m.getLsbD l = (f.lanes.getLsbD l && (f.st != .inHandler || (waveOf s f.wave).lanes[l].handler == some fk))

end Sys2Proof.Claims

/-- Taking an exception: the lanes form one fragment in the lowest free entry, the part writes each lane's trap frame, and the lanes
become one path group at the handler's header; the cause bit of the wave is set, registers and flags are kept, and the other
lanes go on (17 R369, R376, R377, R379). The model's choices, not the spec's: which entry a fragment takes (log 12); lanes of
one cause that stand in handlers form a fragment of their own (log 80). -/
def Obligations.ExceptionsEnterHandlers : Prop := ∀ s i m c detail after e a, raises s i = some (m, c, detail, after) →
  Issuing s → OneGroup s → CanFault s m e → CanEnter s m c a →
  let fk := slotKey s.me.ctx s.me.core e
  ∃ t f, exec i s = .next t ∧ Table.get? t.frags fk = some f ∧ f.st = .inHandler ∧
    Formed s f m c detail (resumeAt s after) ∧
    (∀ l : Fin 32, m.getLsbD l = true →
      t.me.lanes[l].life = .live ∧ t.me.lanes[l].handler = some fk ∧ t.me.lanes[l].pc = a ∧ t.me.lanes[l].hdr = a ∧
        t.me.lanes[l].code = [] ∧ t.me.lanes[l].flags = s.me.lanes[l].flags ∧
        frameField t s l 0 8 = 2 ^ c.bitNo ∧ frameField t s l 8 8 = (resumeAt s after).toNat ∧
        frameField t s l 0x10 8 = s.word.toNat ∧ frameField t s l 0x20 4 = (detail l).toNat ∧
        frameField t s l 0x24 4 = fragIdent s.me (some fk) % 2 ^ 32) ∧
    OthersGoOn s t m ∧ RegsKept s t ∧ t.me.causes = s.me.causes ||| causeBit c

/-- A cause without a handler, and any cause of lanes that are in a handler already, parks the fragment; the fault queue gets a
record where it has room, and counts one lost where it is full. `trap`, `bkpt`, `toolop` and `tfence` raise nothing where no
lane has a cause: the path group goes on (05 R145, 17 R380, R382, R384, R385, R387). A lane that reads a poisoned register takes
POISON with the address 0, every active lane where the destination is one scalar, and the others have their results (18 R402,
R403). The model's choices, not the spec's: which entry a fragment takes (log 12); record fields without a content are 0 (log
35); nested faults apart (log 80). -/
def Obligations.ExceptionsPark : Prop :=
  (∀ s i c detail after, raises s i = some (0, c, detail, after) → Issuing s → ∃ t, exec i s = .next t ∧ Passes s t) ∧
  (∀ i f s m e, (integerForm i = some f ∨ moveForm i = some f ∨ logicForm i = some f ∨ shiftForm i = some f) →
    Issuing s → OneGroup s → queuesIn f.srcs = [] →
    (∀ l : Fin 32, m.getLsbD l = true ↔ (active s f.h).getLsbD l = true ∧
      if f.d.isScalar then ∃ j : Fin 32, (active s f.h).getLsbD j = true ∧ ReadsPoison s f.srcs j
      else ReadsPoison s f.srcs l) →
    CanFault s m e → NoHandler s m .poison →
    let fk := slotKey s.me.ctx s.me.core e
    ∃ t x, exec i s = .next t ∧ Table.get? t.frags fk = some x ∧ x.st = .parked ∧
      Formed s x m .poison (fun _ => 0) (resumeAt s false) ∧
      (∀ l : Fin 32, m.getLsbD l = true → t.me.lanes[l].life = .frag e) ∧ OthersGoOn s t m ∧
      (Wrote s.me t.me f.w f.d (active s f.h &&& ~~~m) (f.val s)) ∧ t.me.causes = s.me.causes ||| causeBit .poison) ∧
  ∀ s i m c detail after e, raises s i = some (m, c, detail, after) →
  Issuing s → OneGroup s → CanFault s m e → NoHandler s m c →
  let fk := slotKey s.me.ctx s.me.core e
  ∃ t f, exec i s = .next t ∧ Table.get? t.frags fk = some f ∧ f.st = .parked ∧
    Formed s f m c detail (resumeAt s after) ∧
    (∀ l : Fin 32, m.getLsbD l = true → t.me.lanes[l].life = .frag e ∧ t.me.lanes[l].flags = s.me.lanes[l].flags) ∧
    OthersGoOn s t m ∧ RegsKept s t ∧ t.me.causes = s.me.causes ||| causeBit c ∧
    RecordEnds s t s.me.ctx (parkedRecord s m fk c detail (resumeAt s after) s.me.lanes[lowest m].handler.isSome)

/-- Returning from an exception: `hret` brings the active lanes back to the point that their frames name, out of their handler, and
frees the handler's entry once none of its lanes remains there; `hret.kill` ends them. Lanes that are in no handler park with
ILLEGAL, whatever handlers the context has (17 R374, R383, 19 R415). The model's choices, not the spec's: kept queue words of a
lane that returns elsewhere are dropped (log 16). -/
def Obligations.HandlersReturn : Prop := (∀ s h fk, Issuing s → s.me.ap = none → active s h ≠ 0 →
  (∀ l : Fin 32, (active s h).getLsbD l = true → s.me.lanes[l].handler = some fk) →
  (∀ pc hdr, (∀ l : Fin 32, (active s h).getLsbD l = true → FrameSays s l pc hdr) →
    pc.toNat % 8 = 0 → hdr.toNat % 8 = 0 →
    ∃ t, exec (.hret h false) s = .next t ∧ t.mem = s.mem ∧ RegsKept s t ∧ OthersGoOn s t (active s h) ∧
      (∀ l : Fin 32, (active s h).getLsbD l = true →
        ResumedAt s.me.lanes[l] t.me.lanes[l] pc ∧ t.me.lanes[l].handler = none) ∧
      ∀ f, Table.get? s.frags fk = some f → f.st = .inHandler → f.wave = s.me.key →
        (∀ l : Fin 32, f.lanes.getLsbD l = true → s.me.lanes[l].handler = some fk → (active s h).getLsbD l = true) →
        Table.get? t.frags fk = none) ∧
  ((∀ l : Fin 32, (active s h).getLsbD l = true → ∃ pc hdr, FrameSays s l pc hdr) →
    (∃ l : Fin 32, s.me.lanes[l].life ≠ .exited ∧ (active s h).getLsbD l = false) →
    ∃ t, exec (.hret h true) s = .next t ∧ t.me.v = s.me.v ∧ t.me.s = s.me.s ∧ t.me.k = s.me.k ∧ OthersGoOn s t (active s h) ∧
      ∀ l : Fin 32, (active s h).getLsbD l = true → t.me.lanes[l].life = .exited ∧ t.me.lanes[l].handler = none)) ∧
  ∀ s h kill e, Issuing s → OneGroup s → CanFault s (active s h) e →
    (∀ l : Fin 32, (active s h).getLsbD l = true → s.me.lanes[l].handler = none) →
    ∃ t f, exec (.hret h kill) s = .next t ∧ Table.get? t.frags (slotKey s.me.ctx s.me.core e) = some f ∧ f.st = .parked ∧
      Formed s f (active s h) .illegal (fun _ => 0) (resumeAt s false) ∧ OthersGoOn s t (active s h) ∧ RegsKept s t ∧
      RecordEnds s t s.me.ctx (parkedRecord s (active s h) (slotKey s.me.ctx s.me.core e) .illegal (fun _ => 0)
        (resumeAt s false) true)

/-- System registers: `rdsr` reads a lane's own register per lane, or as the OR over the active lanes in a scalar, and every other
register once; `wrsr` writes what R399 lets a program write (05 R146, 17 R399). `rdclk` reads the counters and `wtimer` sets the
wave's timer (01 R23, 17 R395, R396). The cause bitmap, the mailbox and markers: `ccause` reads the bitmap and clears the bits
of its operand, HALTED excepted in a halted group (17 R398); the mailbox words of the context, and its bell (16 R340, 17 R393);
`smark` (17 R397). The model's choices, not the spec's: sensor readings are free (log 5); the clocks (log 10); values at reset
(log 15); `%item` and `%zero` (log 75). -/
def Obligations.SystemRegisters : Prop :=
  ((∀ s h d sr, Issuing s → ∃ t, exec (.rdsr h d sr) s = .next t ∧
       if sr.perLane then
         let own := fun (l : Fin 32) => laneSr s.me.lanes[l] sr
         Completed s t (active s h) (fun a b => Wrote a b .w32 d (active s h) fun l =>
           (if d.isScalar then (lanesIn (active s h)).foldl (fun x l => x ||| own l) 0 else own l).setWidth 64) noFlags keepRng
       else Completed { s with fresh := s.fresh + 1 } t (active s h) (fun a b => Wrote a b sr.width d (active s h) fun _ =>
           registerValue s s.fresh sr) noFlags keepRng) ∧
     (∀ h sr a s, Issuing s → Sourced s h [(a, widthWords sr.width)] → ∃ t, exec (.wrsr h sr a) s = .next t ∧
       let p := taken s h [(a, widthWords sr.width)]
       if sr.perLane then
         Passes (lanesTo p (active s h) fun l x =>
           if sr = .srstate then { x with rng := if src32 p a l = 0 then 1 else src32 p a l }
           else { x with flags := BitVec.ofNat 5 ((src32 p a l).toNat % 32) }) t
       else Passes (if active s h = 0 then p else sysWrite p sr (srcW p sr.width a 0)) t) ∧
     (∀ s h mode d, Issuing s → ∃ t, exec (.rdclk h mode d) s = .next t ∧
       Completed s t (active s h) (fun a b => Wrote a b .w64 d (active s h) fun _ => BitVec.ofNat 64 (match mode with
         | .wall => s.wall
         | .cyc => s.cycles
         | .run => s.me.run)) noFlags keepRng) ∧
     ∀ h a, Once (.wtimer h a) h [(a, 1)] fun p => { p with me := { p.me with timer := src32 p a 0 } }) ∧
  ((∀ h d a s, Issuing s → Sourced s h [(a, 2)] → ∃ t, exec (.ccause h d a) s = .next t ∧
       let p := taken s h [(a, 2)]
       let left := s.me.causes &&& ~~~(src64 p a 0)
       let left := if (groupOf s s.me.group).halt = .stopped then left ||| (s.me.causes &&& causeBit .halted) else left
       Completed (if active s h = 0 then p else { p with me := { p.me with causes := left } }) t (active s h)
         (fun x y => Wrote x y .w64 d (active s h) fun _ => s.me.causes) noFlags keepRng) ∧
     (∀ h d a s, Issuing s → Sourced s h [(a, 1)] → queuesIn [(a, 1)] = [] → (active s h = 0 ∨ (src32 s a 0).toNat < 64) →
       ∃ t, exec (.mboxLd h d a) s = .next t ∧
         Completed s t (active s h) (fun x y => Wrote x y .w32 d (active s h) fun _ =>
           (Table.getD (ctxOf s s.me.ctx).mbox (src32 s a 0).toNat 0).setWidth 64) noFlags keepRng) ∧
     (∀ h a b s, Issuing s → Sourced s h [(a, 1), (b, 1)] → queuesIn [(a, 1), (b, 1)] = [] →
       (active s h = 0 ∨ (src32 s a 0).toNat < 64) →
       ∃ t, exec (.mboxSt h a b) s = .next t ∧
         Passes (if active s h = 0 then s else setCtx (releaseAt s s.me.core .sys) s.me.ctx fun c =>
           { c with mbox := Table.put c.mbox (src32 s a 0).toNat 0 (src32 s b 0) }) t) ∧
     (∀ h, Once (.mboxRing h) h [] fun p => setFn (releaseAt p p.me.core .sys) (ctxOf p p.me.ctx).cfg.fn fun f =>
       { f with mboxPending := insertNat p.me.ctx f.mboxPending, raised1 := f.raised1 + 1 }) ∧
     ∀ h n, Once (.smark h n) h [] fun p =>
       let l := p.me.lanes[lowest p.iss]
       let so := safeOrdinal (kernOf p) l.hdr l.pc l.code
       if (ctxOf p p.me.ctx).trace.enable then
         traceRecord p p.me.ctx (2 * 256 ^ 8 + fragIdent p.me l.handler % 2 ^ 32 * 256 ^ 12 + so.1 % 2 ^ 32 * 256 ^ 16 +
           so.2 % 2 ^ 32 * 256 ^ 20 + p.wall % 2 ^ 64 * 256 ^ 24 + n.toNat * 256 ^ 48)
       else p)

/-- Fragments by their identity: `frag.mask` and `frag.state` read a live entry, 0 for none; `frag.kill` and `frag.resume` answer 1
for one that is not parked, and else end its lanes, or bring them back to its resume point (17 R373, R374, R390). -/
def Obligations.FragmentsByIdentity : Prop := ∀ h d a s, Issuing s → Sourced s h [(a, 1)] → queuesIn [(a, 1)] = [] →
  active s h ≠ 0 →
  let key := fragNamed s s.me.ctx (src32 s a 0)
  let named := key.bind (Table.get? s.frags)
  (named = none → (∃ t, exec (.fragMask h d a) s = .next t ∧ Status h d s t 0) ∧
    ∃ t, exec (.fragState h d a) s = .next t ∧ Status h d s t 0) ∧
  (∀ fk f m, key = some fk → Table.get? s.frags fk = some f → LanesOf s fk f m →
    (∃ t, exec (.fragMask h d a) s = .next t ∧ Status h d s t m) ∧
    ∃ t, exec (.fragState h d a) s = .next t ∧ Status h d s t
      (BitVec.ofNat 32 (f.cause.bitNo % 64 + 64 * (match f.st with
        | .waiting => 1
        | .inHandler => 2
        | .parked => 3) + 256 * ((waveOf s f.wave).lanes[lowest m].meets.length % 32)))) ∧
  ((∀ f, named = some f → f.st ≠ .parked) →
    (∃ t, exec (.fragKill h d a) s = .next t ∧ Status h d s t 1) ∧
    ∃ t, exec (.fragResume h d a) s = .next t ∧ Status h d s t 1) ∧
  ∀ fk f, key = some fk → Table.get? s.frags fk = some f → f.st = .parked →
    (∀ l : Fin 32, f.lanes.getLsbD l = true → (waveOf s f.wave).lanes[l].handler = none) →
    (∃ l : Fin 32, (waveOf s f.wave).lanes[l].life ≠ .exited ∧ f.lanes.getLsbD l = false) →
    (∃ t, exec (.fragKill h d a) s = .next t ∧ Table.get? t.frags fk = none ∧
      ∀ l : Fin 32, f.lanes.getLsbD l = true → (waveOf t f.wave).lanes[l].life = .exited) ∧
    ((∀ l : Fin 32, f.lanes.getLsbD l = true → Elsewhere s f.wave l) →
      ∃ t, exec (.fragResume h d a) s = .next t ∧ Table.get? t.frags fk = none ∧
        ∀ l : Fin 32, f.lanes.getLsbD l = true → ResumedAt (waveOf s f.wave).lanes[l] (waveOf t f.wave).lanes[l] f.pc)

/-- Halting groups: `halt.stop`, `halt.go` and `halt.step` answer 0xA0 for a handle that names no group and 0xA1 for a group in the
wrong state; else the group begins to stop, runs again with every thread released, or lets each thread outside a handler go on;
released threads fetch their block anew (19 R415). A thread of a stopping group stops before a safe-point word; one that a step
let go issues the word at which it stood, whatever it is, and then runs until it stands before its next safe-point word. A group
all of whose threads have stopped is halted and recorded (17 R384, R389, 19 R416, R417). The model's choices, not the spec's: a
waiting thread counts as stopped where it stands (log 27). -/
def Obligations.GroupsHalt : Prop :=
  (∀ h d a s, Issuing s → Sourced s h [(a, 1)] → queuesIn [(a, 1)] = [] → active s h ≠ 0 →
    let gk := groupNamed s s.me.ctx (src32 s a 0).toNat
    (gk = none → ∀ i, i = .haltStop h d a ∨ i = .haltGo h d a ∨ i = .haltStep h d a →
      ∃ t, exec i s = .next t ∧ Status h d s t 0xA0) ∧
    ∀ g, gk = some g →
      ((groupOf s g).halt ≠ .running → ∃ t, exec (.haltStop h d a) s = .next t ∧ Status h d s t 0xA1) ∧
      ((groupOf s g).halt ≠ .stopped → ∀ i, i = .haltGo h d a ∨ i = .haltStep h d a →
        ∃ t, exec i s = .next t ∧ Status h d s t 0xA1) ∧
      ((groupOf s g).halt = .running → ∃ t, exec (.haltStop h d a) s = .next t ∧ (groupOf t g).halt = .stopping 0 ∧
        (Wrote s.me t.me .w32 d (active s h) fun _ => 0) ∧
        ∀ k, MemberOf s g k → ∀ l : Fin 32, Elsewhere s k l → (waveOf s k).lanes[l].life ≠ .exited →
          ((waveOf t k).lanes[l].stopped = true ↔ (waveOf s k).lanes[l].stopped = true ∨
            (waveOf s k).lanes[l].life ≠ .live ∨ (waveOf s k).lanes[l].wait ≠ .none ∨
            (waveOf s k).lanes[l].handler ≠ none)) ∧
      ((groupOf s g).halt = .stopped → (∀ f ∈ s.frags, f.2.st ≠ .waiting) →
        ∃ t, exec (.haltGo h d a) s = .next t ∧ (groupOf t g).halt = .running ∧
          (Wrote s.me t.me .w32 d (active s h) fun _ => 0) ∧
          ∀ k, MemberOf s g k → (waveOf t k).causes.getLsbD 32 = false ∧
            ∀ l : Fin 32, (waveOf t k).lanes[l].stopped = false ∧ (Elsewhere s k l → (waveOf s k).lanes[l].life = .live →
              (waveOf s k).lanes[l].pc ≠ (waveOf s k).lanes[l].hdr → (waveOf t k).lanes[l].code = [])) ∧
      ((groupOf s g).halt = .stopped → ∃ t, exec (.haltStep h d a) s = .next t ∧ (groupOf t g).halt = .stopping 1 ∧
        (Wrote s.me t.me .w32 d (active s h) fun _ => 0) ∧
        ∀ k, MemberOf s g k → ∀ l : Fin 32, (waveOf s k).lanes[l].life = .live →
          (waveOf s k).lanes[l].handler = none → (waveOf t k).lanes[l].stopped = false ∧
            (Elsewhere s k l → (waveOf s k).lanes[l].wait = .none →
              (waveOf s k).lanes[l].pc ≠ (waveOf s k).lanes[l].hdr →
              (waveOf t k).lanes[l].stepFirst = true ∧ (waveOf t k).lanes[l].pc = (waveOf s k).lanes[l].pc ∧
                (waveOf t k).lanes[l].code = []))) ∧
  (∀ s, Issuing s → OneGroup s → (∃ kind, (groupOf s s.me.group).halt = .stopping kind) →
    let here := s.me.lanes[lowest s.iss]
    let word := here.code.getD ((here.pc - here.hdr).toNat / 8 - 1) 0
    let first := lanesMask fun l => s.iss.getLsbD l && s.me.lanes[l].stepFirst
    here.code ≠ [] → vaPoisoned s s.me.ctx here.pc 8 = false → ∀ i, wordInstr { s with word := word } word = some i →
      (word.getLsbD 63 = true → (here.pc - (kernOf s).obj).toNat ∈ (kernOf s).safe → here.wait = .none → first ≠ s.iss →
        ∃ t, issueJob s = .state t ∧ t = { s with word := word, me := { s.me with lanes := t.me.lanes } } ∧
          ∀ l : Fin 32, t.me.lanes[l] =
            if s.iss.getLsbD l = true ∧ s.me.lanes[l].stepFirst = false then { s.me.lanes[l] with stopped := true }
            else s.me.lanes[l]) ∧
      ((word.getLsbD 63 = false ∨ (here.pc - (kernOf s).obj).toNat ∉ (kernOf s).safe ∨ here.wait ≠ .none ∨ first = s.iss) →
        (∀ l : Fin 32, s.iss.getLsbD l = true → s.me.lanes[l].timerDue = false) → s.me.vfly = [] →
        ∃ t, issueJob s = .run i t ∧ t = { s with word := word, me := t.me } ∧ t.me.lanes = s.me.lanes)) ∧
  (∀ s h, Issuing s → ∃ t, exec (.nop h) s = .next t ∧
    ∀ l : Fin 32, s.iss.getLsbD l = true → t.me.lanes[l].stepFirst = false) ∧
  ∀ s g kind, (groupOf s g).halt = .stopping kind → threadsOf s g ≠ 0 →
    (∀ k, MemberOf s g k → (waveOf s k).key = k ∧
      ∀ l : Fin 32, (waveOf s k).lanes[l].life = .exited ∨ (waveOf s k).lanes[l].stopped = true) →
    ∃ t, exec (.haltComplete g) s = .next t ∧ (groupOf t g).halt = .stopped ∧
      (∀ k, MemberOf s g k → (waveOf t k).causes.getLsbD 32 = true ∧
        (kind = 1 → (waveOf t k).causes.getLsbD 30 = true) ∧ (waveOf t k).lanes = (waveOf s k).lanes) ∧
      RecordEnds s t (groupOf s g).ctx (haltRecord s g kind)

namespace Sys2Proof.Claims
/-! ### Access processors, guards, sluices, proxies -/

/-- The path group waits at its word for something, and the word is tried again; nothing else changed. -/
def Stalls (s t : State) (why : Stall) : Prop := t = lanesTo s s.iss fun _ l => { l with wait := .stall why }

/-- Whether the other side of the m-th `rdv` has arrived: for a wave the address program, ended or there, with every word of a
`dlv` before its m-th `rdv` delivered; the wave for an address program (04 R100). -/
def partnerAt (s : State) (m : Nat) : Prop :=
  match s.me.ap with
  | some a => m ≤ (waveOf s a.owner).rdvs
  | none => ∀ a p, s.me.bound = some a → (apOf s a).ap = some p →
      (p.ended = true ∨ m ≤ p.rdvs) ∧ ∀ q ∈ p.queues, ∀ b sp n, QWord.reserved b sp n ∈ q.2 → m ≤ n

/-- The value of `gset` over the active lanes (04 R106). -/
def guardValue (cond : GCond) (bits m : LaneMask) : Bool :=
  match cond with
  | .any => (lanesIn m).any fun (l : Fin 32) => bits.getLsbD l.val
  | .all => (lanesIn m).all fun (l : Fin 32) => bits.getLsbD l.val
  | .lane0 => bits.getLsbD 0

/-- Whether a bit that `gset` takes is the result of an instruction in flight (04 R106). -/
def inFlight (s : State) (cond : GCond) (k : BitVec 4) (m : LaneMask) : Bool :=
  let fly := Table.getD s.me.kfly k.toNat []
  match cond with
  | .lane0 => fly.contains 0
  | _ => (lanesIn m).any fun (l : Fin 32) => fly.contains l.val

/-- The record that a lane pushes: n consecutive registers, the first at the lowest address (04 R112). -/
def pushRecord (s : State) (a : Operand) (n : Nat) (l : Fin 32) : Nat :=
  match a with
  | .v i => (List.range n).foldl (fun x j => x + (readV s.me (i.val + j) l).toNat * 2 ^ (32 * j)) 0
  | _ => 0

/-- A push that no slot holds back or discards: its guard is true, its unit holds nothing, its sources can be read. -/
structure CanPush (s : State) (h : Head) (sz : RecSize) (guard : Option (BitVec 3)) (a b : Operand) (proxy : Bool) : Prop where
  lanes : active s h ≠ 0
  clean : poisonLanes s [(a, sz.words), (b, 1)] (active s h) = 0 ∧ operandPoisoned s.me b 1 (lowest (active s h)) = false
  guard : ∀ g, guard = some g → guardOf s.me g = .isTrue
  unit : heldAtUnit s (pushUnit s (s.me.core / 48) (src32 s b 0).toNat proxy) = false

/-- The bin after records entered it (04 R112, R116). -/
def binWith (x : Bin) (now : Nat) (recs : List Nat) : Bin :=
  let rs := x.recs ++ recs.map fun r => { bytes := r, enter := now }
  { x with recs := rs, fullSince := if x.count ≤ rs.length then some (x.fullSince.getD now) else none }

/-- Records entered a bin of this package, the issuing core's stores are visible to the package, and the path group went on. The
bytes of a spillway that records go to are undefined (04 R114, log 26); no other byte changes. -/
def EnteredBin (s t : State) (b : Nat) (x : Bin) (recs : List Nat) (sc : Scope) : Prop :=
  let r := releaseAt s s.me.core sc
  Passes { r with bins := t.bins, mem := t.mem, fresh := t.fresh } t ∧
  (x.recs.length + recs.length ≤ 64 → t.mem = r.mem ∧ t.fresh = r.fresh) ∧
  ((ctxOf s x.ctx).exmap = [] → ∀ i, memByte t i = memByte r i ∨ ∃ e ∈ pageParts x.spillBase x.spillBytes, ∃ pa,
    translate s x.ctx e.1 true = .ok pa ∧ pa ≤ i ∧ i < pa + e.2) ∧
  Table.get? t.bins b = some (binWith x s.wall recs) ∧ ∀ j, j ≠ b → Table.get? t.bins j = Table.get? s.bins j

end Sys2Proof.Claims

/-- Access processors: `fork` binds the lowest free context, which starts at its header with s0 to s31 copied, or waits while none
is free or the wave's program runs; `rdv` pairs with the partner's in order; `dlv` reserves its words; `qstat` reports (04 R96,
R99, R100, R102). The model's choices: a fork starts the wave's count of `rdv`s at 0 again (log 91), and a context that is free
still reports how its last program ended (log 90). The model's choices, not the spec's: poison goes with the copied scalars (log
22); codes of a failed fetch or read (log 23); what other packages hold (log 33). -/
def Obligations.AddressPrograms : Prop := ∀ s h, Issuing s →
  (∀ off k, active s h ≠ 0 → ((boundAp s).map Ap.ended).getD true = true → freeApKey s s.me.ctx s.me.core = some k →
    let a := s.me.lanes[lowest s.iss].pc + BitVec.ofInt 64 (8 * off.toInt)
    checkTarget s a noTag = .ok →
    ∃ t p, exec (.fork h off) s = .next t ∧
      Passes { s with aps := t.aps, remotes := t.remotes, me := { s.me with bound := some k, ended := none, rdvs := 0 } } t ∧
      t.me.bound = some k ∧ t.remotes = s.remotes.filter (fun r => !(r.2.ap && s.me.bound == some r.2.wave)) ∧
      Table.get? t.aps k = some p ∧ p.present = true ∧ p.lanes[0].life = .live ∧ p.lanes[0].pc = a ∧
      p.lanes[0].hdr = a ∧ p.lanes[0].code = [] ∧ p.ap = some { owner := s.me.key, index := k % 16 } ∧
      (∀ n < 32, readS p n = readS s.me n ∧ scaBad p n = scaBad s.me n) ∧ (∀ j, readK p j = 0) ∧
      ∀ j, j ≠ k → s.me.bound ≠ some j → Table.get? t.aps j = Table.get? s.aps j) ∧
  (∀ off, active s h ≠ 0 →
    (((boundAp s).map Ap.ended).getD true = false ∨ freeApKey s s.me.ctx s.me.core = none) →
    ∃ t, exec (.fork h off) s = .next t ∧ Stalls s t .fork) ∧
  (FirstTry s → active s h ≠ 0 → s.me.ap = none →
    (partnerAt s (s.me.rdvs + 1) → ∃ t, exec (.rdv h) s = .next t ∧
      Passes { s with me := { s.me with rdvs := s.me.rdvs + 1 } } t) ∧
    (¬ partnerAt s (s.me.rdvs + 1) → ∃ t, exec (.rdv h) s = .next t ∧
      t = lanesTo { s with me := { s.me with rdvs := s.me.rdvs + 1 } } s.iss fun _ l =>
        { l with wait := .rdv (s.me.rdvs + 1) })) ∧
  (∀ p, FirstTry s → active s h ≠ 0 → s.me.ap = some p →
    (partnerAt s (p.rdvs + 1) → ∃ t, exec (.rdv h) s = .next t ∧
      Passes { s with me := { s.me with ap := some { p with rdvs := p.rdvs + 1 } } } t) ∧
    (¬ partnerAt s (p.rdvs + 1) → ∃ t, exec (.rdv h) s = .next t ∧
      t = lanesTo { s with me := { s.me with ap := some { p with rdvs := p.rdvs + 1, atRdv := true } } } s.iss fun _ l =>
        { l with wait := .rdv (p.rdvs + 1) })) ∧
  (∀ q cnt sp m p, s.me.ap = some p → active s h ≠ 0 →
    poisonLanes s [(m.base, 2), (m.index, 1)] (active s h) = 0 →
    let n := DlvCount.words cnt
    let full := BitVec.ofInt 64 ((src64 s m.base 0).toNat + (src32 s m.index 0).toNat + 4 * m.off.toInt)
    let a := if sp then BitVec.ofNat 64 (full.toNat % 2 ^ 32) else full
    let old := Table.getD p.queues q.toNat []
    a.toNat % 4 = 0 → (sp = true → a.toNat + 4 * n ≤ (kernOf s).spBytes) → old.length + n ≤ 256 →
    ∃ t p', exec (.dlv h q cnt sp m) s = .next t ∧ t.me.ap = some p' ∧
      Passes { s with me := { s.me with ap := some p' } } t ∧
      p' = { p with queues := p'.queues } ∧
      ∀ j, Table.getD p'.queues j [] = if j = q.toNat then
          old ++ (List.range n).map fun i => .reserved (a + BitVec.ofNat 64 (4 * i)) sp p.rdvs
        else Table.getD p.queues j []) ∧
  ∀ d q, ∃ t, exec (.qstat h d q) s = .next t ∧ Status h d s t (match boundAp s, s.me.ended with
    | none, none => 0
    | none, some code => BitVec.ofNat 32 (2 ^ 20 * code + if code = 0 then 2 ^ 17 else 2 ^ 18)
    | some p, _ => BitVec.ofNat 32 (2 ^ 20 * p.code + (if p.atRdv then 2 ^ 19 else 0) +
        (if p.ended ∧ p.code ≠ 0 then 2 ^ 18 else 0) + (if p.ended ∧ p.code = 0 then 2 ^ 17 else 0) + 2 ^ 16 +
        readyWords (Table.getD p.queues q.val [])))

/-- Guard slots and `slinfo`: `gset` writes its value over the active lanes, or leaves the slot pending with that value while a bit
it takes is in flight, and waits while the slot is pending; `slinfo` reads the handle of the group's bin, or its record count
and whether it fired by age (04 R106, R117). Where lane 0 is in a fragment that is to execute the producer of its bit again, the
value is not known before then. The model's choices, not the spec's: when a slot is pending (log 30). -/
def Obligations.GuardsAndInfo : Prop := ∀ s h, Issuing s →
  (∀ cond g k, active s h ≠ 0 → (∀ v x y, guardOf s.me g ≠ .pending v x y) →
    ∃ t, exec (.gset h cond g k) s = .next t ∧
      Passes { s with me := { s.me with guards := t.me.guards } } t ∧
      (∀ j, j ≠ g → guardOf t.me j = guardOf s.me j) ∧
      let v := guardValue cond (readK s.me k) (active s h)
      let again : Prop := ∃ e, s.me.lanes[0].life = .frag e
      (inFlight s cond k (active s h) = false → guardOf t.me g = if v then .isTrue else .isFalse) ∧
      (inFlight s cond k (active s h) = true →
        (cond ≠ .lane0 → guardOf t.me g = .pending v k.toNat (active s h)) ∧
        (cond = .lane0 → ¬ again → guardOf t.me g = .pending v k.toNat 1) ∧
        (cond = .lane0 → again → guardOf t.me g = .pending false (16 + k.toNat) 1))) ∧
  (∀ cond g k v x y, active s h ≠ 0 → guardOf s.me g = .pending v x y →
    ∃ t, exec (.gset h cond g k) s = .next t ∧ Stalls s t (.guard g)) ∧
  ∀ handle d, ∃ t, exec (.slinfo h handle d) s = .next t ∧ Status h d s t (BitVec.ofNat 32
    (if handle then (groupOf s s.me.group).slHandle
      else (groupOf s s.me.group).slCount % 2048 + (if (groupOf s s.me.group).slAged then 65536 else 0)))

/-- Pushes: the records of the active lanes enter the bin in ascending lane order, or the shadow queue of a bin on another package;
a false guard discards them, a pending one holds the command at its unit while the wave goes on (04 R107, R112, R122). The
model's choices, not the spec's: a push past its issue parks its live lanes (log 17); spillway and proxy bytes (log 26); a held
push without lanes (log 92); a uniform special as the handle (log 97). -/
def Obligations.PushesEnter : Prop := ∀ s h sz guard a b, Issuing s → OneGroup s →
  let hd := (src32 s b 0).toNat
  let m := active s h
  let recs := (lanesIn m).map (pushRecord s a sz.words)
  (∀ proxy x bn, CanPush s h sz guard a b proxy → (proxy = true → handlePkg hd = s.pkg) →
    binNamed s s.me.ctx hd = some bn → Table.get? s.bins bn = some x → x.enable = true → x.size = sz →
    x.recs.length + recs.length ≤ 64 + x.spillBytes / (4 * sz.words) →
    ∃ t, exec (if proxy then .pxpush h sz guard a b else .slpush h sz guard a b) s = .next t ∧
      EnteredBin s t bn x recs .pkg) ∧
  (∀ q, CanPush s h sz guard a b true → handlePkg hd ≠ s.pkg →
    q = (shadowOf s s.me.ctx (s.me.core / 48) hd).getD { die := s.me.core / 48, bin := hd } →
    shadowFits s s.me.ctx (s.me.core / 48) hd sz recs.length = none → (Table.get? s.ctxs s.me.ctx).isSome = true →
    shadowBytes q + recs.length * (4 * sz.words) < 4096 →
    ∃ t q', exec (.pxpush h sz guard a b) s = .next t ∧ t.bins = s.bins ∧
      shadowOf t s.me.ctx (s.me.core / 48) hd = some q' ∧ q'.slot.isSome = true ∧
      q'.pushed = q.pushed + recs.length ∧ q'.entered = q.entered ∧
      q'.recs = q.recs ++ (recs.map fun r => { size := sz, bytes := r, enter := s.wall }) ∧
      let c := (ctxOf s s.me.ctx).cfg
      let slot := (q.slot.orElse fun _ => freeQueueSlot s s.me.ctx (s.me.core / 48)).getD 0
      ∀ base, q.pos % 4 = 0 → Linear s s.me.ctx (slotAddr c (s.me.core / 48) slot) (slotBytes c) base →
        ∀ i, (i < base ∨ base + slotBytes c ≤ i) → memByte t i = memByte (releaseAt s s.me.core .pod) i) ∧
  (∀ g proxy, guard = some g → m ≠ 0 →
    poisonLanes s [(a, sz.words), (b, 1)] m = 0 → operandPoisoned s.me b 1 (lowest m) = false →
    (guardOf s.me g = .isFalse →
      ∃ t, exec (if proxy then .pxpush h sz guard a b else .slpush h sz guard a b) s = .next t ∧ Passes s t) ∧
    ∀ v k y, guardOf s.me g = .pending v k y →
      let sc := if proxy = true ∧ handlePkg hd ≠ s.pkg then Scope.pod else .pkg
      ∃ t p, exec (if proxy then .pxpush h sz guard a b else .slpush h sz guard a b) s = .next t ∧
        t.pushes = s.pushes ++ [p] ∧ Passes { releaseAt s s.me.core sc with pushes := t.pushes } t ∧
        p.wave = s.me.key ∧ p.slot = g ∧ p.guard = .pending v k y ∧ p.h = hd ∧ p.size = sz ∧ p.proxy = proxy ∧
        p.recs = recs ∧ p.lanes = m ∧ p.pc = s.me.lanes[lowest s.iss].pc)

/-- Bins and counters: `slcfg` answers 0x40 for a handle that names no bin of the context and else installs the bin its record
describes; `slcomb` takes one from a token's counter, and the last choice of a token enters the combine bin and sets the counter
anew (04 R110, R111, R120). `pxflush` sends what the context's shadow queues on the die hold (04 R123). The model's choices, not
the spec's: counters at other packages (log 33); uniform specials as handles (log 97). -/
def Obligations.BinsAndCounters : Prop :=
  (∀ s h d a b, Issuing s → Sourced s h [(a, 2), (b, 1)] → queuesIn [(a, 2), (b, 1)] = [] → active s h ≠ 0 →
    let hd := (src32 s b 0).toNat
    let p := applyOwn s s.me.core
    (binNamed s s.me.ctx hd = none → ∃ t, exec (.slcfg h d a b) s = .next t ∧ Status h d p t 0x40) ∧
    ∀ bn r k, binNamed s s.me.ctx hd = some bn →
      engineRead p s.me.ctx (tagLane s.me.key (lowest s.iss).val) (some s.me.core) (src64 s a 0) 64 = .ok r →
      readKernel p s.me.ctx (tagLane s.me.key (lowest s.iss).val) (some s.me.core) (BitVec.ofNat 64 (fieldAt r 8 8)) = .ok k →
      fieldAt r 6 1 < 4 → zeroAt r 7 1 = true → zeroAt r 0x1C 4 = true → zeroAt r 0x2D 3 = true → zeroAt r 0x34 4 = true →
      binRange s s.me.ctx r = true → (Table.getD s.bins bn {}).recs = [] → (∀ g ∈ s.groups, g.2.bin ≠ some bn) →
      fieldAt r 2 2 * (4 * (RecSize.ofCode (BitVec.ofNat 2 (fieldAt r 0 1))).words) ≤ k.spBytes → 8 ≤ k.vregs →
      ∃ t x, exec (.slcfg h d a b) s = .next t ∧ Table.get? t.bins bn = some x ∧
        (Wrote s.me t.me .w32 d (active s h) fun _ => 0) ∧ x.kern = k ∧ x.prio = fieldAt r 1 1 ∧ x.count = fieldAt r 2 2 ∧
        x.ageUs = fieldAt r 4 2 ∧ x.expert = (fieldAt r 6 1).testBit 0 ∧ x.enable = (fieldAt r 6 1).testBit 1 ∧
        x.spillBytes = fieldAt r 0x18 4 ∧ x.recs = [] ∧ ∀ j, j ≠ bn → Table.get? t.bins j = Table.get? s.bins j) ∧
  (∀ s h d base l x bn pa, Issuing s → active s h = laneBit l →
    poisonLanes s [(d, 1), (base, 1)] (active s h) = 0 → binNamed s s.me.ctx (src32 s base 0).toNat = some bn →
    Table.get? s.bins bn = some x → x.enable = true → x.expert = true → (src32 s d l).toNat < x.slots →
    globalChk s l (x.counters + BitVec.ofNat 64 (4 * (src32 s d l).toNat)) 4 { load := true, store := true } = .ok pa →
    (∀ r ∈ s.reds, r.core ≠ s.me.core) →
    let old := memRead (releaseAt s s.me.core .pkg) pa 4
    (1 < old → ∃ t, exec (.slcomb h d base) s = .next t ∧ memRead t pa 4 = old - 1 ∧ t.bins = s.bins ∧
      t.me.lanes[l].pc = s.me.lanes[l].pc + 8 ∧
      ∀ i, (i < pa ∨ pa + 4 ≤ i) → memByte t i = memByte (releaseAt s s.me.core .pkg) i) ∧
    (old = 1 → x.choices < 256 → pushRefusal s s.me.ctx x.combine .r16 = 0 →
      (Table.getD s.bins (x.combine % 2 ^ 14) {}).recs.length < 64 + (Table.getD s.bins (x.combine % 2 ^ 14) {}).spillBytes / 16 →
      ∃ t, exec (.slcomb h d base) s = .next t ∧
        ((Table.getD s.bins (x.combine % 2 ^ 14) {}).recs.length < 64 → memRead t pa 4 = x.choices) ∧
        t.me.lanes[l].pc = s.me.lanes[l].pc + 8 ∧
        Table.get? t.bins (x.combine % 2 ^ 14) = some (binWith (Table.getD s.bins (x.combine % 2 ^ 14) {}) s.wall
          [(src32 s d l).toNat + x.choices * 2 ^ 32]))) ∧
  ∀ s h wait, Issuing s → FirstTry s → active s h ≠ 0 → (∀ f ∈ s.frags, f.2.cause ≠ .spill) → s.pushes = [] →
    s.degraded = false →
    let mine := fun (q : Shadow) => q.die = s.me.core / 48 ∧ q.recs ≠ []
    ((∀ q ∈ (ctxOf s s.me.ctx).shadows, ¬ mine q) → ∃ t, exec (.pxflush h wait) s = .next t ∧ Passes s t) ∧
    ((∃ q ∈ (ctxOf s s.me.ctx).shadows, mine q) → ∃ t, exec (.pxflush h wait) s = .next t ∧
      (∀ q ∈ (ctxOf t s.me.ctx).shadows, ¬ mine q) ∧
      (∀ l : Fin 32, s.iss.getLsbD l = true → if wait then
          t.me.lanes[l].pc = s.me.lanes[l].pc ∧ ∃ ts since, t.me.lanes[l].wait = .flush ts since
        else t.me.lanes[l].pc = s.me.lanes[l].pc + 8) ∧
      t.mem = s.mem ∧ t.bins = s.bins ∧ RegsKept s t)

namespace Sys2Proof.Claims

/-! ### Copies, byte barriers, polders, weir scans -/

/-- The sources of `cpy`, and whether all are uniform: then it is one copy, else one for each active lane (11 R306). -/
def copySources (dir : CpyDir) (d a b c : Operand) : List (Operand × Nat) :=
  [(d, if CpyDir.toSp dir then 1 else 2), (a, if CpyDir.fromSp dir then 1 else 2), (b, 1), (c, 1)]
def uniformAll (srcs : List (Operand × Nat)) : Bool := srcs.all fun e => e.1.uniform
def actingLanes (uni : Bool) (m : LaneMask) : List (Fin 32) := if uni then (lanesIn m).take 1 else lanesIn m

/-- The copies that a core's sequencer holds are unfinished and none of them is being discarded (11 R308, 04 R108); numbers
that are still to be given name none. -/
def SequencerSteady (s : State) : Prop :=
  Table.rising s.copies = true ∧ (∀ k, s.fresh ≤ k → Table.get? s.copies k = none) ∧
  ∀ e ∈ sequencer s s.me.core, (∀ g, e.2.guard ≠ some (g, .isFalse)) ∧ e.2.landed.length < e.2.targets.length * (e.2.len / 8)

/-- A copy as a lane issues it (11 R306, R308). -/
structure CopyOf (p : State) (c : Copy) (dir : CpyDir) (guard : Option (BitVec 3)) (mc : BitVec 4) (x : CopyArgs)
    (l : Fin 32) : Prop where
  who : c.ctx = p.me.ctx ∧ c.wave = p.me.key ∧ c.lane = l.val ∧ c.group = p.me.group
  batch : c.batch = p.me.lanes[l].batch
  what : c.dir = dir ∧ c.dst = x.dst ∧ c.src = x.src ∧ c.len = x.len.toNat ∧ c.bar = x.bar.map BitVec.toNat
  where_ : c.targets = copyTargets p mc ∧ c.landed = [] ∧ c.got = []
  guarded : c.guard = guard.map fun g => (g, guardOf p.me g)

/-- The byte barrier at an offset of a group's scratchpad: landed count, error bit and expected count (11 R310). -/
def barrierWord (s : State) (g o : Nat) : Nat := number (spByte (groupOf s g)) o 8

/-- The word of a byte barrier. -/
def barrierOfParts (landed : Nat) (err : Bool) (expected : Nat) : Nat :=
  landed % 2 ^ 32 * 2 ^ 32 + (if err then 2 ^ 31 else 0) + expected % 2 ^ 31

/-- Barrier instructions that change words: the new word for an amount (11 R311). -/
def barrierChange (set : Bool) (old n : Nat) : Nat :=
  if set then barrierOfParts 0 false (min n (2 ^ 31 - 1))
  else barrierOfParts (old / 2 ^ 32) (old.testBit 31) (min (old % 2 ^ 31 + n) (2 ^ 31 - 1))

/-- The barrier offsets of the acting lanes are aligned, lie in the group's scratchpad and are distinct. -/
def GoodBarriers (p : State) (b : Operand) (ls : List (Fin 32)) : Prop :=
  (∀ l ∈ ls, (src32 p b l).toNat % 8 = 0 ∧ (src32 p b l).toNat + 8 ≤ (kernOf p).spBytes) ∧
  ∀ l ∈ ls, ∀ j ∈ ls, l ≠ j → src32 p b l ≠ src32 p b j

/-- A status word was written, and the context's record changed. -/
def StatusCtx (h : Head) (d : Operand) (s t : State) (x : Word32) (f : Context → Context) : Prop :=
  Status h d (setCtx s s.me.ctx f) t x

/-- What a unit of a copy carries: what the engine has read of its source, or reads now, as the agents of the die see it
(10 R261, 11 R308). -/
def unitValue (s : State) (c : Copy) (u : Nat) (src : Spot) : Nat :=
  match Table.get? c.got u with
  | some e => e.1
  | none => (spotRead s (copyLevel c) src).1

/-- A unit of a copy, still to be read or still to land, cannot be reached for a cause (11 R312). -/
def CopyFailed (s : State) (ck : Nat) (c : Copy) (why : CopyFailure) : Prop := ∃ u < c.len / 8,
  let off := BitVec.ofNat 64 (8 * u)
  (Table.get? c.got u = none ∧ copySpot s ck c (CpyDir.fromSp c.dir) c.group (c.src + off) false = .fail why) ∨
    ∃ i g, c.targets[i]? = some g ∧ i * 2 ^ 32 + u ∉ c.landed ∧
      copySpot s ck c (CpyDir.toSp c.dir) g (c.dst + off) true = .fail why

/-- Bytes of a window of a context's heap whose home is a die (01 R17, 11 R313). -/
def homedOn (s : State) (ctx : Nat) (start : Word64) (len die : Nat) : Nat :=
  (List.range len).countP fun i => dieOf (((start + (ctxOf s ctx).cfg.heapOff).toNat + i) % 2 ^ 39) == die

/-- The home dies of a window have room for it: the polders of the contexts of its dike hold at most 4 MiB for each polder way
on a die (11 R313, 16 R353). -/
def DiesHold (s : State) (ctx : Nat) (start : Word64) (len : Nat) : Prop := ∀ die < 24,
  let dk := (ctxOf s ctx).cfg.dike
  let held := ((s.ctxs.filter fun c => c.2.cfg.dike == dk).map fun c =>
    (c.2.polders.map fun p => homedOn s c.1 p.start p.len die).sum).sum
  homedOn s ctx start len die = 0 ∨ held + homedOn s ctx start len die ≤
    ((List.range 16).countP fun i => (Table.getD s.dikes dk {}).polderWays.getLsbD i) * 2 ^ 22

/-- The 64-byte command of `weir` as a number, and what it is to scan (11 R316, R317). -/
def weirRead (s : State) (a : Operand) (r : Nat) : Prop :=
  engineRead s s.me.ctx (tagLane s.me.key (lowest s.iss).val) (some s.me.core) (src64 s a 0) 64 = .ok r

end Sys2Proof.Claims

/-- `cpy` puts one copy per acting lane into the core's sequencer, each with its batch, targets and guard slot, and the scratchpad
lines it will write become absent in every target, and the die's agents see the core's earlier stores; `cseal` closes the batch
of each active lane and gives its number (11 R297, R306 to R309). The model's choices, not the spec's: the release of an issue
(log 13). -/
def Obligations.CopiesStart : Prop :=
  (∀ s h dir guard nt mc d a b c, let srcs := copySources dir d a b c; let p := taken s h srcs
    let own := actingLanes (uniformAll srcs) (active s h)
    let args := copyArgs p dir d a b c
    let q := if own = [] then p else releaseAt p p.me.core .die
    Issuing s → Sourced s h srcs → SequencerSteady s → copiesOn s s.me.core + own.length ≤ 256 →
    (∀ g, guard = some g → guardOf s.me g ≠ .isFalse) → copyTargets p mc ≠ [] →
    (∀ l ∈ own, copyFault (kernOf s).spBytes dir (args l) l = none ∧ (args l).len ≠ 0) →
    ∃ t gs, exec (.cpy h dir guard nt mc d a b c) s = .next t ∧
      Passes { q with copies := t.copies, groups := gs, fresh := s.fresh + own.length } t ∧
      (∀ l ∈ own, ∃ k x, Table.get? s.copies k = none ∧ Table.get? t.copies k = some x ∧ CopyOf p x dir guard mc (args l) l) ∧
      (∀ k x, Table.get? s.copies k = some x → Table.get? t.copies k = some x) ∧
      t.copies.length = s.copies.length + own.length ∧
      ∀ g x, Table.get? s.groups g = some x → ∃ y, Table.get? gs g = some y ∧ y = { x with pend := y.pend } ∧
        ∀ line, Table.getD y.pend line 0 = Table.getD x.pend line 0 +
          (if CpyDir.toSp dir then (copyTargets p mc).count g *
            own.countP fun l => (linesOf (args l).dst.toNat (args l).len.toNat).contains line else 0)) ∧
  ∀ s h d, Issuing s → ∃ t, exec (.cseal h d) s = .next t ∧
    Completed (lanesTo s (active s h) fun _ l => { l with batch := l.batch + 1 }) t (active s h)
      (fun x y => Wrote x y .w32 d (active s h) fun l => (s.me.lanes[l].batch).setWidth 64) noFlags keepRng

/-- A unit of a copy lands: the eight bytes, read once for all targets, stand at the destination, the byte barrier counts them, and
the copy leaves the sequencer with its last unit. A copy one of whose units cannot be reached can fail: it then counts its whole
length, sets the error bit and marks its batch; no other copy fails (11 R271, R308, R310, R312). When copies move is the model's
schedule (log 10). The model's choices, not the spec's: times in cycles are left out (log 10); when a unit lands (log 3). -/
def Obligations.CopiesEnd : Prop :=
  (∀ s ck unit c g src dst, Table.get? s.copies ck = some c → c.targets[unit / 2 ^ 32]? = some g →
    unit % 2 ^ 32 < c.len / 8 → unit ∉ c.landed → copyHeld s ck c = false →
    src = copySpot s ck c (CpyDir.fromSp c.dir) c.group (c.src + BitVec.ofNat 64 (8 * (unit % 2 ^ 32))) false →
    dst = copySpot s ck c (CpyDir.toSp c.dir) g (c.dst + BitVec.ofNat 64 (8 * (unit % 2 ^ 32))) true →
    ((∃ x y, src = .sp x y ∨ src = .mem y) ∨ (Table.get? c.got (unit % 2 ^ 32)).isSome = true) →
    (Table.get? s.groups g).isSome = true →
    (CpyDir.toSp c.dir = true → ∀ o, c.bar = some o →
      let d := (c.dst + BitVec.ofNat 64 (8 * (unit % 2 ^ 32))).toNat
      o + 8 ≤ d ∨ d + 8 ≤ o) →
    let v := unitValue s c (unit % 2 ^ 32) src % 2 ^ 64
    (∃ o, dst = .sp g o) ∨ (∃ pa, dst = .mem pa) →
    ∃ t, exec (.copyLand ck unit) s = .next t ∧
      (∀ o, dst = .sp g o → number (spByte (groupOf t g)) o 8 = v) ∧
      (∀ pa, dst = .mem pa → number (memByte t) pa 8 = v) ∧
      (∀ o, c.bar = some o → barrierWord t g o = barrierOfParts (barrierWord s g o / 2 ^ 32 + 8)
        ((barrierWord s g o).testBit 31) (barrierWord s g o % 2 ^ 31)) ∧
      if c.targets.length * (c.len / 8) ≤ c.landed.length + 1 then Table.get? t.copies ck = none
      else ∃ y, Table.get? t.copies ck = some y ∧
        y = { c with landed := insertNat unit c.landed, got := y.got } ∧
        ∀ n, Table.get? y.got n = if n = unit % 2 ^ 32 then
            some ((Table.get? c.got n).getD (spotRead s (copyLevel c) src)) else Table.get? c.got n) ∧
  ∀ s ck c why, Table.get? s.copies ck = some c →
    (¬ CopyFailed s ck c why → exec (.copyFail ck why) s = .next s) ∧
    (copyHeld s ck c = false → CopyFailed s ck c why →
    ∃ t, exec (.copyFail ck why) s = .next t ∧ Table.get? t.copies ck = none ∧
      (∀ g o, c.targets = [g] → c.bar = some o → c.landed = [] → (Table.get? s.groups g).isSome = true →
        barrierWord t g o =
          barrierOfParts (barrierWord s g o / 2 ^ 32 + c.len) true (barrierWord s g o % 2 ^ 31)) ∧
      ((waveOf s c.wave).group = c.group → c.lane < 32 →
        (waveOf s c.wave).lanes[Fin.ofNat 32 c.lane].life ≠ .exited →
        ∃ e, e ∈ (waveOf t c.wave).lanes[Fin.ofNat 32 c.lane].failed ∧ e.1 = c.batch))

/-- Waiting for copies: `cwait` goes on once the closed batches it names have ended and none failed, and waits before; `bxp.add` and
`bxp.set` change the expected count of byte barriers, and `bwait` waits until their landed count reaches it (11 R309 to R311).
The model's choices, not the spec's: the fault address of `cwait` is 0 (log 24); byte barriers do not wait for lines (log 32). -/
def Obligations.CopyWaits : Prop := ∀ s h b, Issuing s →
  (poisonLanes s [(b, 1)] (active s h) = 0 →
    let done := ∀ l ∈ lanesIn (active s h), batchesDone s s.me.key l (src32 s b l) = true
    (done → (∀ l ∈ lanesIn (active s h), oldestFailed s.me.lanes[l] (src32 s b l) = none) →
      ∃ t, exec (.cwait h b) s = .next t ∧ Passes s t) ∧
    (¬ done → ∃ t, exec (.cwait h b) s = .next t ∧ Stalls s t (.batches ((lanesIn (active s h)).flatMap fun l =>
      batchesOpen s s.me.key l (src32 s b l))))) ∧
  (∀ n set, let srcs := [(b, 1), (n, 1)]; let p := taken s h srcs
    let own := actingLanes (uniformAll srcs) (active s h)
    Sourced s h srcs → GoodBarriers p b own → (Table.get? s.groups s.me.group).isSome = true →
    ∃ t sp poison, exec (if set then .bxpSet h b n else .bxpAdd h b n) s = .next t ∧
      Passes (modGroup p s.me.group fun g => { g with sp := sp, spPoison := poison }) t ∧
      (∀ l ∈ own, barrierWord t s.me.group (src32 p b l).toNat =
        barrierChange set (barrierWord s s.me.group (src32 p b l).toNat) (src32 p n l).toNat) ∧
      ∀ o, (∀ l ∈ own, o < (src32 p b l).toNat ∨ (src32 p b l).toNat + 8 ≤ o) →
        spByte (groupOf t s.me.group) o = spByte (groupOf s s.me.group) o) ∧
  (let p := taken s h [(b, 1)]
    let own := actingLanes b.uniform (active s h)
    let word := fun (l : Fin 32) => barrierWord s s.me.group (src32 p b l).toNat
    Sourced s h [(b, 1)] → GoodBarriers p b own →
    ((∀ l ∈ own, word l % 2 ^ 31 ≤ word l / 2 ^ 32 ∧ (word l).testBit 31 = false) →
      ∃ t, exec (.bwait h b) s = .next t ∧ Passes p t) ∧
    ((∃ l ∈ own, word l / 2 ^ 32 < word l % 2 ^ 31) → queuesIn [(b, 1)] = [] →
      ∃ t, exec (.bwait h b) s = .next t ∧ Stalls s t (.bytes (own.map fun l => (src32 s b l).toNat))))

/-- Polders: `pin` answers the first failing status, gives the polder of an identical window its new fade count, or makes one of a
window; `unpin` removes the one that starts at its address, or answers 0x8E; an aging tick, the next of 2^20 ns, forgets a
touch, lowers a fade count, or ends a polder whose count runs out (11 R313 to R315). The model's choices, not the spec's: values
at creation (log 15). -/
def Obligations.PoldersHold : Prop :=
  (∀ s h d base len fade, Issuing s → Sourced s h [(base, 2), (len, 1)] → queuesIn [(base, 2), (len, 1)] = [] →
    active s h ≠ 0 →
    let a := src64 s base 0
    let n := (src32 s len 0).toNat
    let c := ctxOf s s.me.ctx
    let aligned := a.toNat % 256 = 0 ∧ n % 256 = 0 ∧ n ≠ 0
    let inside := c.cfg.heapBase.toNat ≤ a.toNat ∧ a.toNat + n ≤ c.cfg.heapBase.toNat + c.cfg.heapLimit.toNat
    let apart := ∀ p ∈ c.polders, a.toNat + n ≤ p.start.toNat ∨ p.start.toNat + p.len ≤ a.toNat
    (¬ aligned → ∃ t, exec (.pin h d base len fade) s = .next t ∧ Status h d s t 0x88) ∧
    (aligned → ¬ inside → ∃ t, exec (.pin h d base len fade) s = .next t ∧ Status h d s t 0x89) ∧
    let same := fun (p : Polder) => p.start = a ∧ p.len = n
    let meets := fun (p : Polder) => p.start.toNat < a.toNat + n ∧ a.toNat < p.start.toNat + p.len
    (aligned → inside → (∃ p ∈ c.polders, meets p ∧ ¬ same p) →
      ∃ t, exec (.pin h d base len fade) s = .next t ∧ Status h d s t 0x8A) ∧
    (aligned → inside → ¬ apart → (∀ p ∈ c.polders, meets p → same p) →
      ∃ t, exec (.pin h d base len fade) s = .next t ∧ StatusCtx h d s t 0 fun c =>
        { c with polders := c.polders.map fun p =>
            if p.start = a ∧ p.len = n then { p with fade := fade.toNat } else p }) ∧
    (aligned → inside → apart → 64 ≤ c.polders.length →
      ∃ t, exec (.pin h d base len fade) s = .next t ∧ Status h d s t 0x8B) ∧
    (aligned → inside → apart → c.polders.length < 64 → (c.polders.map Polder.len).sum + n ≤ c.cfg.polderQuota →
      ¬ DiesHold s s.me.ctx a n → ∃ t, exec (.pin h d base len fade) s = .next t ∧ Status h d s t 0x8D) ∧
    (aligned → inside → apart → c.polders.length < 64 →
      c.cfg.polderQuota < (c.polders.map Polder.len).sum + n →
      ∃ t, exec (.pin h d base len fade) s = .next t ∧ Status h d s t 0x8C) ∧
    (aligned → inside → apart → c.polders.length < 64 → (c.polders.map Polder.len).sum + n ≤ c.cfg.polderQuota →
      DiesHold s s.me.ctx a n →
      ∃ t, exec (.pin h d base len fade) s = .next t ∧ StatusCtx h d s t 0 fun c =>
        { c with polders := c.polders ++ [{ start := a, len := n, fade := fade.toNat }] })) ∧
  (∀ s h d base, Issuing s → Sourced s h [(base, 2)] → queuesIn [(base, 2)] = [] → active s h ≠ 0 →
    let a := src64 s base 0
    ((∀ p ∈ (ctxOf s s.me.ctx).polders, p.start ≠ a) →
      ∃ t, exec (.unpin h d base) s = .next t ∧ Status h d s t 0x8E) ∧
    ((∃ p ∈ (ctxOf s s.me.ctx).polders, p.start = a) →
      ∃ t, exec (.unpin h d base) s = .next t ∧ StatusCtx h d s t 0 fun c =>
        { c with polders := c.polders.filter fun p => p.start ≠ a })) ∧
  ∀ s ctx c, Table.get? s.ctxs ctx = some c → ∃ t, exec (.polderFadeTick ctx) s = .next t ∧
    let tick := c.fadeTick + 1
    t = { passTo s (tick * 2 ^ 20) with ctxs := t.ctxs } ∧ t.wall = max s.wall (tick * 2 ^ 20) ∧
    (∀ k, k ≠ ctx → Table.get? t.ctxs k = Table.get? s.ctxs k) ∧
    Table.get? t.ctxs ctx = some { c with fadeTick := tick, polders := c.polders.flatMap fun p =>
      if p.touched then [{ p with touched := false }] else if p.fade ≤ 1 then [] else [{ p with fade := p.fade - 1 }] }

/-- Weir scans: `weir` answers 0x81 to 0x83 for a bad command and else accepts it and zeroes its count word, or waits while the die
holds sixteen; a finished scan writes its count word once: the pairs written, the overflow and skip bits and the done bit (11
R316 to R319). A region that another package does not give counts as skipped (the model's choice, log 93). The model's choices,
not the spec's: a region is read at the end, and which pairs are kept is free (log 29). -/
def Obligations.WeirScans : Prop :=
  (∀ s h d a r, Issuing s → Sourced s h [(a, 2)] → queuesIn [(a, 2)] = [] → active s h ≠ 0 →
    let p := applyOwn s s.me.core
    weirRead p a r →
    let die := s.me.core / 48
    let x := scanOf s.me.ctx die r
    let st := weirStatus (ctxOf s s.me.ctx).cfg r x
    (st ≠ 0 → ∃ t, exec (.weir h d a) s = .next t ∧ (Wrote s.me t.me .w32 d (active s h) fun _ => BitVec.ofNat 64 st) ∧
      t.scans = s.scans ∧ t.mem = p.mem) ∧
    (st = 0 → (s.scans.filter fun e => e.2.die == die).length < 16 → Table.rising s.scans = true →
      ∀ pa, Linear s s.me.ctx x.cnt 8 pa →
      ∃ t k, exec (.weir h d a) s = .next t ∧ (Wrote s.me t.me .w32 d (active s h) fun _ => 0) ∧
        k = s.fresh ∧ Table.get? t.scans k = some x ∧ number (memByte t) pa 8 = 0) ∧
    (st = 0 → 16 ≤ (s.scans.filter fun e => e.2.die == die).length →
      ∃ t, exec (.weir h d a) s = .next t ∧ Stalls (touchPolders p s.me.ctx (src64 s a 0).toNat 64) t (.unit die))) ∧
  (∀ s k x pa, Table.get? s.scans k = some x → Linear s x.ctx x.cnt 8 pa →
    engineRange s x.ctx (tagOther k) x.base x.bytes false = .fail →
    ∃ t, exec (.weirScanDone k) s = .next t ∧ Table.get? t.scans k = none ∧ number (memByte t) pa 8 = 2 ^ 63 + 2 ^ 33) ∧
  ∀ s k x pa, Table.get? s.scans k = some x → x.cap < 2 ^ 32 → Linear s x.ctx x.cnt 8 pa → (ctxOf s x.ctx).polders = [] →
    engineRange s x.ctx (tagOther k) x.base x.bytes false = .ok () →
    (∀ n ≤ x.cap, engineRange s x.ctx (tagOther k) x.dst (8 * n) true = .ok ()) →
    let hits := weirHits s x
    let skipped := ∃ i < x.bytes / weirSize x.fmt,
      poisoned s (vaToPa s x.ctx (x.base + BitVec.ofNat 64 (weirSize x.fmt * i)) false) (weirSize x.fmt) = true
    ∃ t word, exec (.weirScanDone k) s = .next t ∧ Table.get? t.scans k = none ∧ number (memByte t) pa 8 = word ∧
      word % 2 ^ 32 = min hits.length x.cap ∧ (word.testBit 32 = true ↔ x.cap < hits.length) ∧
      (word.testBit 33 = true ↔ skipped) ∧ word.testBit 63 = true

namespace Sys2Proof.Claims

/-! ### Tiles -/

/-- The address of a tile record (08 R213). -/
def recordAt (s : State) (sp : Bool) (m : MemOp) (l : Fin 32) : Word64 :=
  let z : Int := (src64 s m.base l).toNat + (src32 s m.index l).toNat + 128 * m.off.toInt
  if sp then BitVec.ofNat 64 (BitVec.ofInt 32 z).toNat else BitVec.ofInt 64 z

/-- What the check of a lane's record finds. -/
def recordChk (s : State) (sp : Bool) (m : MemOp) (l : Fin 32) : Chk :=
  if sp then spChk s l ((recordAt s sp m l).setWidth 32) 128 { load := true }
  else globalChk s l (recordAt s sp m l) 128 { load := true }

/-- The state in which the records of some lanes are read: the core's pending `red`s to them come first (10 R262). -/
def recordsSeen (s : State) (sp : Bool) (m : MemOp) (ls : List (Fin 32)) : State :=
  if sp then s else settlePlaces s 128 (ls.map fun l => (l, recordChk s sp m l))

/-- The state after the records are read: the polders that hold them are touched (11 R314). -/
def recordsTaken (s : State) (sp : Bool) (m : MemOp) (ls : List (Fin 32)) : State :=
  if sp then s
  else ls.foldl (fun q l => touchPolders q s.me.ctx (recordAt s sp m l).toNat 128) (recordsSeen s sp m ls)

/-- A record of 128 bytes that a lane can read, or that another package has answered, as a number (08 R213). What another package
holds is a free value (log 33). -/
def RecordAt (s : State) (sp : Bool) (m : MemOp) (ls : List (Fin 32)) (l : Fin 32) (raw : Nat) : Prop :=
  ∃ p, (recordChk s sp m l = .ok p ∨ ∃ v, recordChk s sp m l = .far p v) ∧
    raw = number (if sp then spByte (groupOf s s.me.group) else agentByte (recordsSeen s sp m ls) (some s.me.core)) p 128

/-- The task that a record becomes in the queue of the issuing wave, with its guard slot's state (04 R107, 08 R195, R213). -/
def taskOf (s : State) (raw : Nat) : Task :=
  { ctx := s.me.ctx, wave := s.me.key, group := s.me.group, raw := raw,
    guard := if raw.testBit 19 then some (BitVec.ofNat 3 (raw / 2 ^ 16), guardOf s.me (BitVec.ofNat 3 (raw / 2 ^ 16)))
      else none }

/-- Tasks of the issuing wave that have not started. -/
def queuedHere (s : State) : Nat := s.tasks.countP fun e => e.2.wave == s.me.key && !e.2.running

/-- The counter of a `twait`. -/
def counterOf (s : State) (m : MemOp) (l : Fin 32) : Word64 :=
  BitVec.ofNat 64 ((BitVec.ofInt 64 ((src64 s m.base l).toNat + (src32 s m.index l).toNat + 8 * m.off.toInt)).toNat / 8 * 8)

/-- Bytes of a context written for a status instruction: one image at a linear address, and, where the core has no `red` pending,
no other byte of memory. -/
def Imaged (s t : State) (pa n x : Nat) : Prop :=
  number (memByte t) pa n = x ∧ ((∀ r ∈ s.reds, r.core ≠ s.me.core) → ∀ i, (i < pa ∨ pa + n ≤ i) → memByte t i = memByte s i)

/-- A status word in a register, the path group at the next word. -/
def Answered (s t : State) (h : Head) (d : Operand) (x : Word32) : Prop :=
  (Wrote s.me t.me .w32 d (active s h) fun _ => x.setWidth 64) ∧
  ∀ l : Fin 32, s.iss.getLsbD l = true → t.me.lanes[l].pc = s.me.lanes[l].pc + 8

/-- The drains of the context that name a descriptor and came before have ended; a word that waits for an access of its own
has waited for them (08 R216). -/
def DrainsEnded (s : State) (b : Nat) : Prop :=
  match s.me.lanes[lowest s.iss].wait with
  | .tasks ids => ∀ i ∈ ids, Table.get? s.tasks i = none
  | .stall _ => True
  | _ => ∀ e ∈ s.tasks, e.2.ctx = s.me.ctx → drainsTo e.2.raw b = false

/-- Memory, and what each level holds, is as it was but for some bytes. -/
def UntouchedBut (s t : State) (q : Nat → Prop) : Prop := ∀ i, ¬ q i → memByte t i = memByte s i ∧
  ∀ u, i < corePitch → Table.get? t.dirty (u * corePitch + i) = Table.get? s.dirty (u * corePitch + i)

/-- Where a task tells its end: its status word and its completion counter are 0, or aligned words that translate and do not
overlap; a code needs a status word (08 R203, R207). -/
structure Tells (s : State) (tk : Nat) (t : Task) (code sp cp : Nat) : Prop where
  status : let a := fieldAt t.raw 0x58 8
    (a = 0 ∧ code = 0) ∨ (a ≠ 0 ∧ a % 4 = 0 ∧ engineTr s t.ctx (tagTask tk) (BitVec.ofNat 64 a) true = .ok sp)
  counter : let a := fieldAt t.raw 0x50 8
    a = 0 ∨ (a % 8 = 0 ∧ engineTr s t.ctx (tagTask tk) (BitVec.ofNat 64 a) true = .ok cp)
  apart : sp + 4 ≤ cp ∨ cp + 8 ≤ sp
  cores : ∀ r ∈ s.reds, r.core < 1152

/-- The bytes in which a task tells its end. -/
def told (t : Task) (sp cp i : Nat) : Prop :=
  (fieldAt t.raw 0x58 8 ≠ 0 ∧ sp ≤ i ∧ i < sp + 4) ∨ (fieldAt t.raw 0x50 8 ≠ 0 ∧ cp ≤ i ∧ i < cp + 8)

/-- A task has ended with a code and a report: it is gone, its status word has the report ORed in and the code in bits 15:8, and
its completion counter is one higher, as the agents of the task's quad see them; what was written every agent sees
(08 R203, R207, R211, 10 R261). -/
structure Ended (s t' : State) (tk : Nat) (t : Task) (code report sp cp : Nat) : Prop where
  gone : ∀ k, Table.get? t'.tasks k = if k = tk then none else Table.get? s.tasks k
  status : fieldAt t.raw 0x58 8 ≠ 0 →
    let old := number (coreByte s t.level) sp 4
    let new := number (coreByte t' t.level) sp 4
    new % 256 = old % 256 ||| report ∧ new / 65536 = old / 65536 ∧
      (new / 256 % 256 = if code = 0 then old / 256 % 256 else code) ∧
      (code ≠ 0 ∨ report ≠ 0 → number (memByte t') sp 4 = new)
  counter : fieldAt t.raw 0x50 8 ≠ 0 →
    number (memByte t') cp 8 = (number (coreByte s t.level) cp 8 + 1) % 2 ^ 64 ∧
      number (coreByte t' t.level) cp 8 = number (memByte t') cp 8
  rest : t' = { s with tasks := t'.tasks, acc := t'.acc, tileRot := t'.tileRot, mem := t'.mem, dirty := t'.dirty,
                       poison := t'.poison, ctxs := t'.ctxs, fns := t'.fns }

/-- The key of the accumulators that a task uses. -/
def slotOf (t : Task) : Nat := (t.ctx * 288 + t.wave % 131072 / 256) * 256 + fieldAt t.raw 4 2

/-- A head of a queue that may start, or may not yet (08 R208). -/
def SlotBusy (s : State) (t : Task) : Prop := ∃ e ∈ s.tasks, e.2.running = true ∧ e.2.ctx = t.ctx ∧
  e.2.wave % 131072 / 256 = t.wave % 131072 / 256 ∧ fieldAt e.2.raw 4 2 = fieldAt t.raw 4 2
def CountReached (s : State) (tk : Nat) (t : Task) : Prop :=
  let a := fieldAt t.raw 0x40 8
  a = 0 ∨ a % 8 ≠ 0 ∨ ∃ v, engineRead s t.ctx (tagTask tk) (some t.level) (BitVec.ofNat 64 a) 8 = .ok v ∧ fieldAt t.raw 0x48 8 ≤ v
def CountBelow (s : State) (tk : Nat) (t : Task) : Prop :=
  let a := fieldAt t.raw 0x40 8
  a ≠ 0 ∧ a % 8 = 0 ∧ ∃ v, engineRead s t.ctx (tagTask tk) (some t.level) (BitVec.ofNat 64 a) 8 = .ok v ∧ v < fieldAt t.raw 0x48 8
def GuardOpen (t : Task) : Prop := t.guard = none ∨ ∃ g, t.guard = some (g, .isTrue)
def GuardPends (t : Task) : Prop := ∃ g v k m, t.guard = some (g, .pending v k m)
def HeadReady (s : State) (tk : Nat) (t : Task) : Prop := GuardOpen t ∧ ¬ SlotBusy s t ∧ CountReached s tk t
def HeadHeld (s : State) (tk : Nat) (t : Task) : Prop := GuardPends t ∨ SlotBusy s t ∨ CountBelow s tk t

/-- A task at the head of its wave's queue in a quad (08 R208). -/
def AtHead (s : State) (quad tk : Nat) (t : Task) : Prop :=
  Table.get? s.tasks tk = some t ∧ t.running = false ∧ t.wave % 131072 / 256 = quad ∧
    ∀ k x, Table.get? s.tasks k = some x → x.running = false → x.wave = t.wave → tk ≤ k

/-- How far a wave slot lies ahead in the rotation of its quad. -/
def turnsAway (s : State) (quad : Nat) (t : Task) : Nat := (t.wave % 256 + 256 - Table.getD s.tileRot quad 0) % 256

/-- The exact terms of one output element and whether one is 0 × ∞; a depth position that is a pad of an operand adds nothing
(06 R168, 08 R200, R201; the model's choice, log 34). -/
def elementTerms (s : State) (t : Task) (x : TileElem) : List (Term × Bool) :=
  let a := descAt s t.ctx (fieldAt t.raw 8 2)
  let b := descAt s t.ctx (fieldAt t.raw 0x0A 2)
  let k := tkDepth a.fmt b.fmt
  ((List.range k).filter fun kk => (fieldAt t.raw 0x24 2).testBit (kk / (k / 16))).filterMap fun kk =>
    let va := tileVal s t.ctx t.level a (tkIdx t.raw false x.i kk x.b)
    let vb := tileVal s t.ctx t.level b (tkIdx t.raw true x.j kk x.b)
    if va.pad || vb.pad then none else some (tileTerm (a.fmt == 6 && b.fmt == 6) va vb)

/-- An accumulator of a slot. -/
def accAt (s : State) (k e : Nat) : Word32 := Table.getD (Table.getD s.acc k {}).vals e 0

/-- Elements of a drain have their bytes at linear addresses that do not meet. -/
def ElementsApart (s : State) (t : Task) (d : Desc) (pa : TileElem × Idx → Nat) : Prop :=
  (∀ x ∈ drainElems t.raw d, Linear s t.ctx (d.addr x.2) (fmtBytes d.fmt) (pa x)) ∧
  ∀ x ∈ drainElems t.raw d, ∀ y ∈ drainElems t.raw d, x ≠ y → pa x + fmtBytes d.fmt ≤ pa y ∨ pa y + fmtBytes d.fmt ≤ pa x

end Sys2Proof.Claims

/-- Submitting tiles: the record of each active lane, or one for the path group, enters the wave's queue with the state of its guard
slot, numbered behind the tasks before it, and the core's stores are visible in its quad; a false slot discards it, and `tsub`
waits while the queue has too little room. `twait` goes on once the counter has reached the threshold, and waits before (08
R208, R213, R214, 10 R262). The bytes of a record that another package answered are free (log 33). The model's choices, not the
spec's: the release of an issue (log 13); more records than a queue holds (log 38). -/
def Obligations.TilesSubmit : Prop := ∀ s h, Issuing s →
  (∀ sp m (raw : Fin 32 → Nat), let srcs := [(m.base, 2), (m.index, 1)]
    let own := actingLanes (m.base.uniform && m.index.uniform) (active s h)
    queuesIn srcs = [] → poisonLanes s srcs (active s h) = 0 → (∀ l ∈ own, RecordAt s sp m own l (raw l)) →
    (queuedHere s + own.length ≤ 16 → (∀ e ∈ s.tasks, ∀ g, e.2.guard ≠ some (g, .isFalse)) →
      (∀ g : BitVec 3, guardOf s.me g ≠ .isFalse) →
      ∃ t, exec (.tsub h sp m) s = .next t ∧
        Passes { (if active s h = 0 then s else releaseAt (recordsTaken s sp m own) s.me.core .quad) with tasks := t.tasks, fresh := t.fresh } t ∧
        t.fresh = s.fresh + own.length ∧
        (∀ i (hi : i < own.length), Table.get? t.tasks (s.fresh + i) = some (taskOf s (raw own[i]))) ∧
        ∀ k, (k < s.fresh ∨ s.fresh + own.length ≤ k) → Table.get? t.tasks k = Table.get? s.tasks k) ∧
    (16 < queuedHere s + own.length → ∃ t, exec (.tsub h sp m) s = .next t ∧ Stalls s t (.taskRoom own.length)) ∧
    ∀ l, own = [l] → queuedHere s = 0 → (taskOf s (raw l)).guard.map Prod.snd = some .isFalse →
      fieldAt (raw l) 0x50 8 = 0 → NoAnswers s s.me.ctx →
      ∃ t, exec (.tsub h sp m) s = .next t ∧
        Passes { releaseAt (recordsTaken s sp m own) s.me.core .quad with tasks := t.tasks, fresh := s.fresh + 1 } t ∧
        ∀ k, Table.get? t.tasks k = if k = s.fresh then none else Table.get? s.tasks k) ∧
  ∀ x m pa, let srcs := [(x, 2), (m.base, 2), (m.index, 1)]
    let l := lowest (active s h)
    Sourced s h srcs → queuesIn srcs = [] → active s h ≠ 0 →
    (globalChk s l (counterOf s m l) 8 { load := true } = .ok pa →
      let p := settleReds s s.me.core pa 8
      ∃ t, exec (.twait h x m) s = .next t ∧
        if (src64 s x l).toNat ≤ number (seenByte p s.me.core) pa 8 then Passes p t
        else Stalls s t (.counter pa (src64 s x l).toNat)) ∧
    ∀ v, globalChk s l (counterOf s m l) 8 { load := true } = .far pa v → (src64 s x l).toNat ≤ v.toNat % 2 ^ 64 →
      ∃ t, exec (.twait h x m) s = .next t ∧ Passes s t

/-- Tensor descriptors: `tdesc` installs the descriptor of a valid image and refuses a number, a nonzero zero field, a broken limit,
or a descriptor that a task names; `tdget` writes a descriptor's image, which reads back as the same descriptor (05 R147, 08
R215). -/
def Obligations.TensorDescriptors : Prop :=
  (∀ s h d a b, Issuing s → Sourced s h [(a, 2), (b, 1)] → queuesIn [(a, 2), (b, 1)] = [] → active s h ≠ 0 →
    NoAnswers s s.me.ctx →
    let n := (src32 s b 0).toNat
    let p := applyOwn s s.me.core
    let named := ∃ e ∈ s.tasks, e.2.ctx = s.me.ctx ∧ n ∈ usedDescs e.2.raw
    (¬ (n ≤ 4095 ∧ n < (kernOf s).descReq) →
      (∃ t, exec (.tdesc h d a b) s = .next t ∧ Status h d p t 0x60) ∧
      ∃ t, exec (.tdget h d a b) s = .next t ∧ Status h d s t 0x60) ∧
    (n ≤ 4095 ∧ n < (kernOf s).descReq →
      (engineRead p s.me.ctx (tagMe s) (some s.me.core) (src64 s a 0) 128 = .fail →
        ∃ t, exec (.tdesc h d a b) s = .next t ∧ Status h d p t 0x61) ∧
      (∀ r, engineRead p s.me.ctx (tagMe s) (some s.me.core) (src64 s a 0) 128 = .ok r →
        (descReserved r = true → ∃ t, exec (.tdesc h d a b) s = .next t ∧ Status h d p t 0x62) ∧
        (descReserved r = false → descRange r = false → ∃ t, exec (.tdesc h d a b) s = .next t ∧ Status h d p t 0x63) ∧
        (descReserved r = false → descRange r = true → named →
          ∃ t, exec (.tdesc h d a b) s = .next t ∧ Status h d p t 0x64) ∧
        (descReserved r = false → descRange r = true → ¬ named →
          ∃ t, exec (.tdesc h d a b) s = .next t ∧ StatusCtx h d p t 0 fun c =>
            { c with descs := Table.put c.descs n {} (descOf r) })) ∧
      ∀ pa, Linear s s.me.ctx (src64 s a 0) 128 pa →
        ∃ t, exec (.tdget h d a b) s = .next t ∧ Answered s t h d 0 ∧ Imaged s t pa 128 ((descAt s s.me.ctx n).image % 2 ^ 1024))) ∧
  ∀ r < 2 ^ 1024, descReserved r = false → descRange r = true → (descOf r).image = r ∧ descOf (descOf r).image = descOf r

/-- Histograms: `hsget` and `hsclr` wait for the drains that came before, then copy the 32 counters, and `hsclr` clears them (08
R216); for `hsclr` alone the address `%zero` means no copy. The model's choices, not the spec's: the order of the checks (log
37). -/
def Obligations.Histograms : Prop := ∀ s h d a b, Issuing s → Sourced s h [(a, 2), (b, 1)] →
  queuesIn [(a, 2), (b, 1)] = [] → active s h ≠ 0 → NoAnswers s s.me.ctx →
  let n := (src32 s b 0).toNat
  let x := descAt s s.me.ctx n
  let p := applyOwn s s.me.core
  ((∀ ids, s.me.lanes[lowest s.iss].wait ≠ .tasks ids) → ¬ DrainsEnded s n →
    (∃ t, exec (.hsget h d a b) s = .next t ∧ ∃ ids, Parks s t s.iss fun _ => .tasks ids) ∧
    ∃ t, exec (.hsclr h d a b) s = .next t ∧ ∃ ids, Parks s t s.iss fun _ => .tasks ids) ∧
  (DrainsEnded s n → ¬ (n ≤ 4095 ∧ n < (kernOf s).descReq) →
    (∃ t, exec (.hsget h d a b) s = .next t ∧ Status h d p t 0x60) ∧
    ∃ t, exec (.hsclr h d a b) s = .next t ∧ Status h d p t 0x60) ∧
  (DrainsEnded s n → n ≤ 4095 ∧ n < (kernOf s).descReq →
    ((x.rank = 0 ∨ x.hist = false) → (∃ t, exec (.hsget h d a b) s = .next t ∧ Status h d p t 0x66) ∧
      ∃ t, exec (.hsclr h d a b) s = .next t ∧ Status h d p t 0x66) ∧
    (x.rank ≠ 0 ∧ x.hist = true → ∀ v ha pa,
      engineRead p s.me.ctx (tagMe s) (some s.me.core) x.histAddr 128 = .ok v →
      Linear p s.me.ctx x.histAddr 128 ha → Linear p s.me.ctx (src64 s a 0) 128 pa → (ha + 128 ≤ pa ∨ pa + 128 ≤ ha) →
      (∃ t, exec (.hsget h d a b) s = .next t ∧ Answered p t h d 0 ∧ Imaged p t pa 128 v) ∧
      (a ≠ .zero → ∃ t, exec (.hsclr h d a b) s = .next t ∧ Answered p t h d 0 ∧ number (memByte t) pa 128 = v ∧
        number (memByte t) ha 128 = 0) ∧
      ∃ t, exec (.hsclr h d .zero b) s = .next t ∧ Answered p t h d 0 ∧ Imaged p t ha 128 0))

/-- The tile scheduler starts the ready head that comes next in rotation, if an engine of the quad is free: it claims its slot, with
zero accumulators if its group did not hold it, and runs; or it is refused with the first failing check, and ends (08 R207 to
R209). The model's choices, not the spec's: a misaligned or poisoned wait counter (log 36). -/
def Obligations.TilesStart : Prop := ∀ s quad, s.stuck = none → Table.rising s.tasks = true →
  Table.getD s.tileRot quad 0 < 256 →
  (∀ tk t, AtHead s quad tk t → quadsReady s t.ctx = true ∧ (HeadReady s tk t ∨ HeadHeld s tk t) ∧
    ∀ g, t.guard ≠ some (g, .isFalse)) →
  ((∀ tk t, AtHead s quad tk t → HeadHeld s tk t) ∨
      4 ≤ s.tasks.countP (fun e => e.2.running && e.2.wave % 131072 / 256 == quad) →
    exec (.tileTaskStart quad) s = .next s) ∧
  ∀ tk t, AtHead s quad tk t → HeadReady s tk t →
    (∀ k x, AtHead s quad k x → HeadReady s k x → k ≠ tk → turnsAway s quad t < turnsAway s quad x) →
    s.tasks.countP (fun e => e.2.running && e.2.wave % 131072 / 256 == quad) < 4 →
    (tkRefusal s t = 0 → ∃ t', exec (.tileTaskStart quad) s = .next t' ∧
      t' = { s with tasks := t'.tasks, acc := t'.acc, tileRot := t'.tileRot } ∧
      (∀ k, Table.get? t'.tasks k = if k = tk then some { t with running := true } else Table.get? s.tasks k) ∧
      (∀ k, k ≠ slotOf t → Table.get? t'.acc k = Table.get? s.acc k) ∧
      (∀ x, Table.get? s.acc (slotOf t) = some x → x.owner = t.group + 1 → Table.get? t'.acc (slotOf t) = some x) ∧
      ((∀ x, Table.get? s.acc (slotOf t) = some x → x.owner ≠ t.group + 1) →
        Table.get? t'.acc (slotOf t) = some { owner := t.group + 1 }) ∧
      Table.getD t'.tileRot quad 0 = (t.wave + 1) % 256) ∧
    (tkRefusal s t ≠ 0 → ∀ sp cp, Tells s tk t (tkRefusal s t) sp cp →
      ∃ t', exec (.tileTaskStart quad) s = .next t' ∧ Ended s t' tk t (tkRefusal s t) 0 sp cp ∧ t'.acc = s.acc ∧
        UntouchedBut s t' (told t sp cp))

/-- A product leaves in each enabled accumulator the exact sum of the old value and the unmasked terms, rounded once; a zero task
leaves +0. Other accumulators, other slots and every byte but the task's status word and counter are kept (08 R200 to R203,
R211, 16 R355). The model's choices, not the spec's: a pad adds nothing (log 34); a task reads its operands at its end (log 36);
code addresses that rows share count once (log 96). -/
def Obligations.ProductsRoundOnce : Prop := ∀ s tk t sp cp, s.stuck = none → Table.get? s.tasks tk = some t →
  t.running = true → tkKind t.raw ≤ 2 → taskRange s tk t = .ok () → Tells s tk t 0 sp cp →
  (ctxOf s t.ctx).polders = [] →
  let own := tkElems t.raw
  ∃ t' report, exec (.tileTaskEnd tk) s = .next t' ∧ Ended s t' tk t 0 report sp cp ∧
    (∀ x ∈ own, accAt t' (slotOf t) x.e =
      if tkKind t.raw = 2 then 0
      else
        let old := if tkFlag t.raw 0 then 0 else accAt s (slotOf t) x.e
        let ts := elementTerms s t x
        BitVec.ofNat 32 (sumTerms (termOf (f32 old) :: ts.map Prod.fst) (ts.any Prod.snd) .rn).1) ∧
    (∀ e, (∀ x ∈ own, x.e ≠ e) → accAt t' (slotOf t) e = accAt s (slotOf t) e) ∧
    (∀ k, k ≠ slotOf t → Table.get? t'.acc k = Table.get? s.acc k) ∧
    UntouchedBut s t' (told t sp cp)

/-- A drain stores each enabled accumulator whose element lies inside the tensor, converted to the tensor's format, and counts it in
the tensor's histogram; it changes no accumulator and no other byte. It is stated for every format but E2M1 and E8P, whose
elements do not fill bytes of their own, for tasks that name no counter and no status word, and for accumulators without poison.
A task whose access fails ends with TFAIL. The counters are read and written as the agents of the task's quad see them (05 R150
to R152, 08 R204, R206, R210). The model's choices, not the spec's: a failed task (log 36); where rows overlap the last element
stands (log 95). -/
def Obligations.DrainsStore : Prop :=
  (∀ s tk t pa ha, s.stuck = none → Table.get? s.tasks tk = some t → t.running = true → 2 < tkKind t.raw →
    tkFlag t.raw 3 = false → taskRange s tk t = .ok () → fieldAt t.raw 0x58 8 = 0 →
    fieldAt t.raw 0x50 8 = 0 → (ctxOf s t.ctx).polders = [] → (∀ r ∈ s.reds, r.core < 1152) →
    let d := descAt s t.ctx (fieldAt t.raw 0x0C 2)
    let xs := drainElems t.raw d
    let a := Table.getD s.acc (slotOf t) {}
    d.fmt ≠ 5 → d.fmt ≠ 7 → ElementsApart s t d pa → a.poison = [] →
    (d.hist = true → xs ≠ [] → Linear s t.ctx d.histAddr 128 ha ∧
      ∀ x ∈ xs, pa x + fmtBytes d.fmt ≤ ha ∨ ha + 128 ≤ pa x) →
    ∃ t', exec (.tileTaskEnd tk) s = .next t' ∧ Table.get? t'.tasks tk = none ∧ t'.acc = s.acc ∧
      (∀ x ∈ xs, number (memByte t') (pa x) (fmtBytes d.fmt) =
        (storedCode d (Rnd.ofCode (BitVec.ofNat 3 (fieldAt t.raw 3 1))) (blockByte s t.ctx t.level d x.2)
          (f32 (accAt s (slotOf t) x.1.e))).1 % 256 ^ fmtBytes d.fmt) ∧
      (d.hist = true → xs ≠ [] → ∀ b < 32, number (coreByte t' t.level) (ha + 4 * b) 4 =
        min (number (coreByte s t.level) (ha + 4 * b) 4 + xs.countP fun x => histBin d (accAt s (slotOf t) x.1.e) false == b)
          (2 ^ 32 - 1)) ∧
      UntouchedBut s t' fun i => (∃ x ∈ xs, pa x ≤ i ∧ i < pa x + fmtBytes d.fmt) ∨
        (d.hist = true ∧ xs ≠ [] ∧ ha ≤ i ∧ i < ha + 128)) ∧
  ∀ s tk t n sp cp, s.stuck = none → Table.get? s.tasks tk = some t → t.running = true → taskRange s tk t = .fail →
    Tells s tk t 0x56 sp cp → (tkKind t.raw ≤ 2 ∨ n = 0) →
    ∃ t', exec (.tileTaskFail tk n) s = .next t' ∧ Ended s t' tk t 0x56 0 sp cp ∧ t'.acc = s.acc ∧
      UntouchedBut s t' (told t sp cp)

namespace Sys2Proof.Claims

/-! ### Sources, views, detokenisation -/

/-- What a source entry is asked to do: a new sealed length, a drop, or a new entry from an image that was read, or not. -/
inductive SealOp
  | adv (len : Nat)
  | drop
  | new (image : Option Nat)

/-- The limits of a source image (09 R217). -/
def sourceLimits (r : Nat) : Bool :=
  let cap := fieldAt r 8 8
  let gap := fieldAt r 0x18 8
  let seg := fieldAt r 0x20 8
  let len := fieldAt r 0x28 8
  fieldAt r 0 8 % 256 == 0 &&
    ((fieldAt r 0x10 1 == 0 && 1 ≤ cap && gap == 0 && seg == 0 && len ≤ cap) ||
      (fieldAt r 0x10 1 == 1 && cap % 16384 == 0 && gap % 16 == 0 && seg % 16 == 0 && len ≤ cap / 16384))

/-- The first failing status of an operation on entry h and what the entry holds after it (09 R219). -/
def sealSays (s : State) (ctx h : Nat) (op : SealOp) : Word32 × Option Source :=
  let cur := Table.get? (ctxOf s ctx).sources h
  let used := ((ctxOf s ctx).views.any fun v => v.2.src == h) || s.detoks.any fun e => e.2.ctx == ctx && e.2.dst == h
  if 4095 < h then (0x68, cur)
  else
    match op, cur with
    | .adv _, none | .drop, none => (0x6E, none)
    | .new _, some x => (0x6D, some x)
    | .drop, some x => if used then (0x6D, some x) else (0, none)
    | .adv len, some x =>
      if (if x.packed then x.capacity / 16384 else x.capacity) < len then (0x6B, some x)
      else if len < x.sealed then (0x6C, some x) else (0, some { x with sealed := len })
    | .new none, none => (0x69, none)
    | .new (some r), none =>
      if fieldAt r 0x11 7 ≠ 0 ∨ fieldAt r 0x30 16 ≠ 0 then (0x6A, none)
      else if !sourceLimits r then (0x6B, none)
      else (0, some { base := BitVec.ofNat 64 (fieldAt r 0 8), capacity := fieldAt r 8 8, packed := fieldAt r 0x10 1 == 1,
                      gapTable := BitVec.ofNat 64 (fieldAt r 0x18 8), segTable := BitVec.ofNat 64 (fieldAt r 0x20 8),
                      sealed := fieldAt r 0x28 8 })

/-- Reading an image gave it, or failed. -/
def ReadAs (g : Got Nat) (x : Option Nat) : Prop :=
  match x with
  | some r => g = .ok r
  | none => g = .fail

/-- The source table of a context after an operation on one entry. -/
def SourceSet (s t : State) (ctx h : Nat) (x : Option Source) : Prop :=
  Table.get? (ctxOf t ctx).sources h = x ∧
  ∀ k, k ≠ h → Table.get? (ctxOf t ctx).sources k = Table.get? (ctxOf s ctx).sources k

/-- A management entry has been taken: its status byte is written, no other byte, and the queue's index is one higher
(16 R339, R343). -/
def EntryTaken (s t : State) (ctx : Nat) (st : Word32) : Prop :=
  (ctxOf t ctx).mgmtCons = (ctxOf s ctx).mgmtCons + 1 ∧
  ∀ pa, translate s ctx (mgmtEntry (ctxOf s ctx) + 1) true = .ok pa →
    memByte t pa = BitVec.ofNat 8 st.toNat ∧ ∀ i, i ≠ pa → memByte t i = memByte s i

/-- The extent of a view, and an element found in a resident one (09 R231, R234, R235). -/
def extentIn (s : State) (ctx h n : Nat) : Extent := ((viewOf s ctx h).map fun v => extOf v n).getD {}

structure Found (s : State) (ctx h e : Nat) (v : View) (y : Elem) : Prop where
  view : viewOf s ctx h = some v
  exists_ : extExists s ctx h v (e / 2 ^ 24) = true
  resident : (extOf v (e / 2 ^ 24)).st = .resident
  element : (extOf v (e / 2 ^ 24)).elems[e % 2 ^ 24]? = some y

/-- An extent touched once (09 R239). -/
def touchedOnce (s : State) (x : Extent) : Extent :=
  { x with touches := min 15 (owedTouches s x + 1), stamp := s.wall / 65536 % 65536 }

/-- Extents reached are touched once; every other one is as before. -/
def Touches (s t : State) (ctx : Nat) (reached : Nat → Nat → Prop) : Prop :=
  ∀ h n, (reached h n → extentIn t ctx h n = touchedOnce s (extentIn s ctx h n)) ∧
    (¬ reached h n → extentIn t ctx h n = extentIn s ctx h n)

/-- Values in a destination and bits in a mask register. -/
structure WroteBoth (a b : Wave) (w : Width) (d : Operand) (k : BitVec 4) (m : LaneMask) (val : Fin 32 → Word64)
    (bits : LaneMask) : Prop where
  vec : ∀ (n : Nat) (l : Fin 32), readV b n l = vecAfter a w d m val n l
  sca : ∀ n : Nat, readS b n = scaAfter a w d m val n
  mask : ∀ j, readK b j = if j = k then (readK a k &&& ~~~m) ||| (bits &&& m) else readK a j

/-- The element of a byte of a span: it lies in extent n, the last whose start is not behind it, and is the first that covers it,
or, where none does, the next one of the extent (09 R245). -/
structure ByteAt (s : State) (ctx h b : Nat) (v : View) (n i : Nat) (between : Bool) : Prop where
  view : viewOf s ctx h = some v
  inside : b < v.len
  behind : n ≤ b / 65536 ∧ ∃ x, boundGot s ctx (tagBuild h n) v n = .ok x ∧ x ≤ b
  last : ∀ j, n < j → j ≤ b / 65536 → ∃ x, boundGot s ctx (tagBuild h j) v j = .ok x ∧ b < x
  exists_ : extExists s ctx h v n = true
  resident : (extOf v n).st = .resident
  element : let covers := fun (y : Elem) => y.off ≤ b ∧ b < y.off + y.len
    ∃ y, (extOf v n).elems[i]? = some y ∧
      (if between then b < y.off ∧ (∀ z ∈ (extOf v n).elems, ¬ covers z) ∧
          ∀ j < i, ∀ z, (extOf v n).elems[j]? = some z → z.off ≤ b
        else covers y ∧ ∀ j < i, ∀ z, (extOf v n).elems[j]? = some z → ¬ covers z)

/-- Elements in the extents before n. -/
def countBefore (v : View) (n : Nat) : Nat := ((List.range n).map fun i => (extOf v i).count).sum

/-- A statistic that needs no pass (09 R234, R248). -/
def StatIs (s : State) (ctx : Nat) (op : VStatOp) (h e x : Nat) : Prop := ∃ v, viewOf s ctx h = some v ∧
  let n := e / 2 ^ 24
  match op with
  | .state => n < v.nominal ∧ x =
      (match (extOf v n).st with
        | .absent => 0
        | .building => 1
        | .resident => 2
        | .evicting => 3
        | .failed => 4) + (if (extOf v n).pin then 2 ^ 3 else 0) + (if (extOf v n).entry then 2 ^ 4 else 0) +
        (if (extOf v n).counted then 2 ^ 5 else 0) + (if (extOf v n).known then 2 ^ 6 else 0)
  | .count => extExists s ctx h v n = true ∧ (extOf v n).counted = true ∧ x = (extOf v n).count
  | .dense => extExists s ctx h v n = true ∧ (∀ i ≤ n, (extOf v i).counted = true) ∧ e % 2 ^ 24 < (extOf v n).count ∧
      x = countBefore v n + e % 2 ^ 24
  | .anch => ∃ i, (∀ j ≤ i, extExists s ctx h v j = true ∧ (extOf v j).counted = true) ∧ countBefore v i ≤ e ∧
      e < countBefore v (i + 1) ∧ x = i * 2 ^ 24 + (e - countBefore v i)
  | .nx => (∀ i < v.nominal, i ≠ 0 → (extOf (boundView s ctx v) i).known = true ∨ (boundView s ctx v).code = 6) ∧
      x = (List.range v.nominal).countP fun i => extExists s ctx h v i

/-- The status of `vpin` or `vunpin` for one lane, and the extent after it (09 R247). -/
def pinSays (s : State) (ctx h e : Nat) (pin : Bool) : Word32 × Extent :=
  let n := e / 2 ^ 24
  let x := extentIn s ctx h n
  match viewOf s ctx h with
  | none => (3, x)
  | some v =>
    if !extExists s ctx h v n then (3, x)
    else if x.st = .failed then (2, x)
    else if x.pin = pin then (1, x) else (0, { x with pin := pin })

/-- The elements of bytes of a plain span under a transform (09 R225 to R228). -/
def elementsOf (s : State) (ctx : Nat) (v : View) (b e : Nat) : Option (List Elem) :=
  let bytes := (List.range (e - b)).map fun i =>
    vaByte s ctx none ((srcOfView s ctx v).base + BitVec.ofNat 64 (v.start + b + i))
  match v.code with
  | 1 => let r := fields (fieldCfg v) (e == v.len) b bytes
    if v.strict && e == v.len && r.2 then none else some r.1
  | 2 => some (tokens (vocOfView s ctx v) false b bytes)
  | 3 => some (tokens (vocOfView s ctx v) true b bytes)
  | _ => codePoints v.strict b bytes.length bytes

/-- A fragment that waits for the views of a context: none of its extents is still open but the one named (09 R236). -/
def WaitsOnlyFor (s : State) (ctx fk : Nat) (f : Frag) (h n : Nat) : Prop :=
  Table.get? s.frags fk = some f ∧ fk / 131072 = ctx ∧ f.cause = .viewmiss ∧ f.st = .waiting ∧
    ∃ l, f.obj = .extents l ∧ ∀ q ∈ l, q = (h, n) ∨
      ((extentIn s ctx q.1 q.2).st ≠ .building ∧ (extentIn s ctx q.1 q.2).st ≠ .evicting)

/-- Bytes that an engine reads stand at physical addresses that follow one another. -/
def Readable (s : State) (ctx : Nat) (a : Word64) (n pa : Nat) : Prop :=
  (ctxOf s ctx).exmap = [] ∧ a.toNat + n ≤ 2 ^ 64 ∧ (∀ i < n, translate s ctx (a + BitVec.ofNat 64 i) false = .ok (pa + i)) ∧
    vaPoisoned s ctx a n = false

/-- A window of a scan: the next 64 records of the pool in clock-hand order, wrapping round (09 R241). -/
def poolWindow (s : State) (ctx : Nat) : List (Nat × Nat) :=
  let rs := poolRecords (ctxOf s ctx)
  let at_ := (ctxOf s ctx).hand % max 1 rs.length
  (rs.drop at_ ++ rs.take at_).take 64

/-- The hand has moved past a window. -/
def handMoved (s : State) (ctx : Nat) : State :=
  let n := max 1 (poolRecords (ctxOf s ctx)).length
  setCtx s ctx fun c => { c with hand := (c.hand % n + (poolWindow s ctx).length) % n }

/-- The scan goes on: it lacks space, has evicted less than one eighth of the quota, and has not met four idle windows in a row. -/
structure ScanGoes (s : State) (ctx need gone idle : Nat) : Prop where
  lacks : poolFree (ctxOf s ctx) < need
  eighth : gone * 8 < (ctxOf s ctx).cfg.poolQuota
  idle : idle < 4

/-- A scan for space as R241 describes it, from a state with so many bytes evicted and so many idle windows behind it. -/
inductive ScansTo (ctx need : Nat) : State → Nat → Nat → ScanEnd → State → Prop
  | free (s : State) (gone idle : Nat) : need ≤ poolFree (ctxOf s ctx) → ScansTo ctx need s gone idle .free s
  | later (s : State) (gone idle : Nat) : poolFree (ctxOf s ctx) < need → (ctxOf s ctx).cfg.poolQuota ≤ gone * 8 →
      ScansTo ctx need s gone idle .later s
  | abandon (s : State) (gone idle : Nat) : poolFree (ctxOf s ctx) < need → gone * 8 < (ctxOf s ctx).cfg.poolQuota →
      4 ≤ idle → ScansTo ctx need s gone idle .abandon s
  | nothing (s t : State) (gone idle : Nat) (e : ScanEnd) : ScanGoes s ctx need gone idle →
      (∀ r ∈ poolWindow s ctx, evictable s ctx r.1 r.2 = false) →
      ScansTo ctx need (handMoved s ctx) gone (idle + 1) e t → ScansTo ctx need s gone idle e t
  | evict (s t : State) (gone idle h n : Nat) (e : ScanEnd) : ScanGoes s ctx need gone idle →
      lowestScore s ctx (poolWindow s ctx) = some (h, n) →
      ScansTo ctx need (evictExt (handMoved s ctx) ctx h n) (gone + 4096 * (extentIn s ctx h n).size) 0 e t →
      ScansTo ctx need s gone idle e t

/-- The scan for the directory of a view of so many nominal extents, once the view's own extents and directory are gone (09 R222). -/
def dirScan (p : State) (ctx h nominal : Nat) : ScanEnd × State :=
  let q := setCtx p ctx fun c => { c with views := Table.erase c.views h }
  scanPool ctx (32 * nominal) (scanFuel (ctxOf q ctx)) q 0 0

/-- The source of a view image is empty, or its layout does not suit the transform (09 R222). -/
def BadSource (s : State) (ctx : Nat) (v : View) : Prop := 4095 < v.src ∨ Table.get? (ctxOf s ctx).sources v.src = none ∨
  ∃ x, Table.get? (ctxOf s ctx).sources v.src = some x ∧ v.code ≤ 6 ∧ x.packed ≠ (v.code == 6)

/-- The vocabulary that a token view names is not installed. -/
def BadVoc (s : State) (ctx : Nat) (v : View) : Prop :=
  (v.code = 2 ∨ v.code = 3) ∧ (15 < v.voc ∨ Table.get? (ctxOf s ctx).vocs v.voc = none)

/-- No byte of the source of a view stands where the part keeps a directory or a save area. -/
def SourceApart (s : State) (ctx : Nat) (v : View) : Prop :=
  v.code ≤ 4 ∧ ∀ i < v.len, recordByte s (vaToPa s ctx (spanAddr s ctx v i) false) = none

/-- The pool has room for an extent of the most elements that one may have. -/
def RoomyPool (s : State) (ctx : Nat) (v : View) : Prop :=
  4096 * extentUnits s ctx v (2 ^ 24) ≤ poolFree (ctxOf s ctx)

/-- The units that a build reserves at its start: none while its elements cannot be told (09 R234, R236). -/
def unitsNow (s : State) (ctx h n : Nat) (v : View) : Nat :=
  match buildGot s ctx (tagBuild h n) v n [] with
  | .ok (some es) => extentUnits s ctx v es.length
  | _ => 0

/-- An absent extent was touched, its build has started, and no other extent changed. The units it reserves are those of its
elements where its source stands apart from what the part keeps. -/
def BuildStarts (s t : State) (ctx h n : Nat) (v : View) : Prop :=
  let y := extentIn t ctx h n
  y = { touchedOnce s (extOf v n) with st := .building, rebuild := false, loc := y.loc, size := y.size } ∧
    (SourceApart s ctx v → y.size = unitsNow s ctx h n v) ∧
    ∀ i j, (i, j) ≠ (h, n) → extentIn t ctx i j = extentIn s ctx i j

/-- Two ranges of addresses do not meet. -/
def Apart (a n b m : Nat) : Prop := a + n ≤ b ∨ b + m ≤ a

end Sys2Proof.Claims

/-- Sources: `sseal` and the management entries for sources answer the first failing status of R219, and change the one entry where
it is 0; `sseal.new` and `sseal.adv` make the core's stores visible to the package (09 R217 to R219, 10 R274, 16 R343). That
`sseal.new` does so is the model's choice (log 13). The model's choices, not the spec's: a packed source of capacity 0 (log 39). -/
def Obligations.SourcesSeal : Prop :=
  (∀ s h d a b r, Issuing s → Sourced s h [(a, 1), (b, 2)] → queuesIn [(a, 1), (b, 2)] = [] → active s h ≠ 0 →
    NoAnswers s s.me.ctx →
    let n := (src32 s a 0).toNat
    let p := releaseAt s s.me.core .pkg
    let verdict := sealSays s s.me.ctx n
    (ReadAs (engineRead p s.me.ctx (tagMe s) (some s.me.core) (src64 s b 0) 64) r →
      ∃ t, exec (.ssealNew h d a b) s = .next t ∧ Answered s t h d (verdict (.new r)).1 ∧
        SourceSet s t s.me.ctx n (verdict (.new r)).2 ∧ t.mem = p.mem) ∧
    (∃ t, exec (.ssealAdv h d a b) s = .next t ∧ Answered s t h d (verdict (.adv (src64 s b 0).toNat)).1 ∧
      SourceSet s t s.me.ctx n (verdict (.adv (src64 s b 0).toNat)).2 ∧ t.mem = p.mem) ∧
    ∃ t, exec (.ssealDrop h d a b) s = .next t ∧ Answered s t h d (verdict .drop).1 ∧
      SourceSet s t s.me.ctx n (verdict .drop).2 ∧ t.mem = s.mem) ∧
  ∀ s ctx (h : BitVec 32) a r, s.stuck = none → (Table.get? s.ctxs ctx).isSome = true → NoAnswers s ctx →
    let verdict := sealSays s ctx h.toNat
    (ReadAs (engineRead s ctx tagMgmt none a 64) r →
      ∃ t, exec (.mgmtSsealNew ctx h a) s = .next t ∧ EntryTaken s t ctx (verdict (.new r)).1 ∧
        SourceSet s t ctx h.toNat (verdict (.new r)).2) ∧
    (∃ t, exec (.mgmtSsealAdv ctx h a) s = .next t ∧ EntryTaken s t ctx (verdict (.adv a.toNat)).1 ∧
      SourceSet s t ctx h.toNat (verdict (.adv a.toNat)).2) ∧
    ∃ t, exec (.mgmtSsealDrop ctx h a) s = .next t ∧ EntryTaken s t ctx (verdict .drop).1 ∧
      SourceSet s t ctx h.toNat (verdict .drop).2

/-- Views: `vdef` refuses a number, a busy view, an unreadable image, a reserved field, a source that is empty or of the wrong
layout, a vocabulary that is not installed, a broken limit, and a directory that does not fit the pool after one scan, in the
order of R222; it drops a view under transform 0, and else defines it as its image says, with no extent. `vdef.voc` and the
management entry install a private copy of a vocabulary (09 R220 to R224, 16 R343). A directory goes to a free piece of the
pool, and is found one whenever there is one: which piece is the model's free choice (log 40). The model's choices, not the
spec's: `vdef` releases (log 13); the windows of a scan (log 41); the order of the checks (log 43). -/
def Obligations.ViewsDefine : Prop :=
  (∀ s h d a b, Issuing s → Sourced s h [(a, 2), (b, 1)] → queuesIn [(a, 2), (b, 1)] = [] → active s h ≠ 0 →
    NoAnswers s s.me.ctx →
    let ctx := s.me.ctx
    let n := (src32 s b 0).toNat
    let p := releaseAt s s.me.core .pkg
    let answers := fun (x : Word32) => ∃ t, exec (.vdef h d a b) s = .next t ∧ Status h d p t x
    (¬ (n ≤ 65535 ∧ n < (kernOf s).viewReq) → answers 0x70) ∧
    (n ≤ 65535 ∧ n < (kernOf s).viewReq →
      (viewBusy s ctx n = true → answers 0x76) ∧
      (viewBusy s ctx n = false →
        let g := engineRead p ctx (tagMe s) (some s.me.core) (src64 s a 0) 64
        (g = .fail → answers 0x71) ∧
        ∀ r, g = .ok r →
          let v := viewOfImage r
          let x := Table.getD (ctxOf s ctx).sources v.src {}
          let tab := if x.packed then engineRead p ctx (tagMe s) none x.segTable (144 * x.sealed) else .ok 0
          let scan := dirScan p ctx n v.nominal
          let place := poolPlace (ctxOf scan.2 ctx) scan.2.fresh (32 * v.nominal)
          (viewReserved r = true → answers 0x72) ∧
          (viewReserved r = false → v.code = 0 → ∃ t, exec (.vdef h d a b) s = .next t ∧ Answered p t h d 0 ∧
            viewOf t ctx n = none ∧ ∀ k, k ≠ n → viewOf t ctx k = viewOf s ctx k) ∧
          (viewReserved r = false → v.code ≠ 0 → (BadSource s ctx v → answers 0x74) ∧
            (¬ BadSource s ctx v → BadVoc s ctx v → answers 0x75) ∧
            (¬ BadSource s ctx v → ¬ BadVoc s ctx v → (tab = .fail → answers 0x71) ∧
              ∀ y, tab = .ok y → (viewRange p ctx r x = false → answers 0x73) ∧
                (viewRange p ctx r x = true → (scan.1 ≠ .free ∨ place = none) → ∃ t, exec (.vdef h d a b) s = .next t ∧
                  Answered p t h d 0x77 ∧ viewOf t ctx n = viewOf s ctx n ∧
                  ∀ k, k ≠ n → viewOf t ctx k = viewOf scan.2 ctx k) ∧
                ∀ dir, viewRange p ctx r x = true → scan.1 = .free → place = some dir →
                  ∃ t, exec (.vdef h d a b) s = .next t ∧ Answered p t h d 0 ∧
                    viewOf t ctx n = some { v with sealed := x.sealed, dir := dir } ∧
                    ∀ k, k ≠ n → viewOf t ctx k = viewOf scan.2 ctx k))))) ∧
  (∀ c k n, (∀ dir, poolPlace c k n = some dir → ∃ o, dir = c.cfg.poolBase + BitVec.ofNat 64 o ∧ o + n ≤ c.cfg.poolQuota ∧
      ∀ u ∈ poolPieces c, Apart o n u.1 u.2) ∧
    ∀ o, o + n ≤ c.cfg.poolQuota → (∀ u ∈ poolPieces c, Apart o n u.1 u.2) → (poolPlace c k n).isSome = true) ∧
  (∀ s h d a b, Issuing s → Sourced s h [(a, 2), (b, 1)] → queuesIn [(a, 2), (b, 1)] = [] → active s h ≠ 0 →
    NoAnswers s s.me.ctx →
    let ctx := s.me.ctx
    let n := (src32 s b 0).toNat
    let p := applyOwn s s.me.core
    let uses := (ctxOf s ctx).views.any fun v => (v.2.code == 2 || v.2.code == 3) && v.2.voc == n
    let answers := fun (x : Word32) => ∃ t, exec (.vdefVoc h d a b) s = .next t ∧ Status h d p t x
    let g := engineRead p ctx (tagMe s) (some s.me.core) (src64 s a 0) 320
    (15 < n → answers 0x70) ∧ (n ≤ 15 → uses = true → answers 0x76) ∧
    (n ≤ 15 → uses = false → g = .fail → answers 0x71) ∧
    (∀ img, n ≤ 15 → uses = false → g = .ok img → vocArrays p ctx (tagMe s) (some s.me.core) img = .unread →
      answers 0x71) ∧
    ∀ img arr merges strs, n ≤ 15 → uses = false → g = .ok img →
      vocArrays p ctx (tagMe s) (some s.me.core) img = .ok arr merges strs →
      let v := vocOf img arr merges strs
      (vocReserved img arr = true → answers 0x72) ∧
      (vocReserved img arr = false → vocBad img arr v = true → answers 0x78) ∧
      (vocReserved img arr = false → vocBad img arr v = false → ∃ t, exec (.vdefVoc h d a b) s = .next t ∧
        Status h d (setCtx (touchPolders p ctx (src64 s a 0).toNat 320) ctx fun c =>
          { c with vocs := Table.set c.vocs n v }) t 0)) ∧
  ∀ s ctx (h : BitVec 32) a img arr merges strs, s.stuck = none → (Table.get? s.ctxs ctx).isSome = true →
    NoAnswers s ctx → h.toNat ≤ 15 →
    ((ctxOf s ctx).views.any fun v => (v.2.code == 2 || v.2.code == 3) && v.2.voc == h.toNat) = false →
    engineRead s ctx tagMgmt none a 320 = .ok img → vocArrays s ctx tagMgmt none img = .ok arr merges strs →
    vocReserved img arr = false → vocBad img arr (vocOf img arr merges strs) = false →
    ∃ t, exec (.mgmtVdefVoc ctx h a) s = .next t ∧ EntryTaken s t ctx 0 ∧
      Table.get? (ctxOf t ctx).vocs h.toNat = some (vocOf img arr merges strs)

/-- Cutting a span at pre-token boundaries changes no token: the tokens of three pieces that meet at such boundaries are those of
the pieces, each at its own offset. Tokens and code points cover their bytes without gap or overlap (09 R225 to R228, R232,
R233). -/
def Obligations.TokensAlign : Prop :=
  (∀ v ranked off a b c, (∀ e ∈ v.entries, e.str ≠ []) →
    (∀ x y, a.getLast? = some x → (b ++ c).head? = some y → preBoundary v x y = true) →
    (∀ x y, b.getLast? = some x → c.head? = some y → preBoundary v x y = true) →
    tokens v ranked off (a ++ b ++ c) =
      tokens v ranked off a ++ tokens v ranked (off + a.length) b ++ tokens v ranked (off + a.length + b.length) c) ∧
  (∀ v ranked off l, (∀ e ∈ v.entries, e.str ≠ []) → let ts := tokens v ranked off l
    (ts.map Elem.len).sum = l.length ∧
    ∀ i x, ts[i]? = some x → x.off = off + ((ts.take i).map Elem.len).sum) ∧
  ∀ off l, ∃ cs, codePoints false off l.length l = some cs ∧ (cs.map Elem.len).sum = l.length ∧
    (∀ i x, cs[i]? = some x → x.off = off + ((cs.take i).map Elem.len).sum) ∧
    ∀ x ∈ cs, x.val < 0x110000 ∧ ¬ (0xD800 ≤ x.val ∧ x.val < 0xE000) ∧ 1 ≤ x.len ∧ x.len ≤ 4

/-- View accesses that hit: `vld` gives the bytes of its element, `vmap` its span, `vfind` the element of a byte and whether it lies
between elements; `vld` and `vmap` touch each extent they reach once (09 R235, R239, R244, R245). The model's choices, not the
spec's: `vfind` between two elements (log 43). -/
def Obligations.ViewAccessesHit : Prop :=
  (∀ s h sz d m (v : Fin 32 → View) (y : Fin 32 → Elem), let srcs := [(m.base, 1), (m.index, 2)]
    let own := accessors d.isScalar (active s h)
    let n := 8 * vsizeBytes sz
    let hd := fun (l : Fin 32) => (src32 s m.base l).toNat
    let e := fun (l : Fin 32) => (src64 s m.index l).toNat
    Issuing s → Sourced s h srcs → queuesIn srcs = [] → 0 ≤ m.off.toInt →
    (∀ l ∈ own, Found s s.me.ctx (hd l) (e l) (v l) (y l) ∧
      (m.off.toInt + 1) * vsizeBytes sz ≤ (elemBytes s s.me.ctx (v l) : Int)) →
    ∃ t, exec (.vld h sz d m) s = .next t ∧
      Completed { s with ctxs := t.ctxs } t (active s h)
        (fun a b => Wrote a b (if sz = .b64 then .w64 else .w32) d (active s h) fun l =>
          BitVec.ofNat 64 ((y l).val / 2 ^ (n * m.off.toInt.toNat) % 2 ^ n)) noFlags keepRng ∧
      Touches s t s.me.ctx fun h n => ∃ l ∈ own, hd l = h ∧ e l / 2 ^ 24 = n) ∧
  (∀ s h d a b (v : Fin 32 → View) (x y : Fin 32 → Elem), let srcs := [(a, 1), (b, 2)]
    let own := accessors d.isScalar (active s h)
    let hd := fun (l : Fin 32) => (src32 s a l).toNat
    let e := fun (l : Fin 32) => (src64 s b l).toNat
    Issuing s → Sourced s h srcs → queuesIn srcs = [] →
    (∀ l ∈ own, Found s s.me.ctx (hd l) (e l) (v l) (x l) ∧
      if (v l).code = 5 then ∃ w, Found s s.me.ctx (v l).tokView (e l) w (y l) else y l = x l) →
    ∃ t, exec (.vmap h d a b) s = .next t ∧
      Completed { s with ctxs := t.ctxs } t (active s h)
        (fun p q => Wrote p q .w64 d (active s h) fun l => BitVec.ofNat 64 ((y l).off % 2 ^ 32 + (y l).len * 2 ^ 32))
        noFlags keepRng ∧
      Touches s t s.me.ctx fun h n => ∃ l ∈ own, e l / 2 ^ 24 = n ∧ (hd l = h ∨ ((v l).code = 5 ∧ (v l).tokView = h))) ∧
  ∀ s h d a b k (v : Fin 32 → View) (n i : Fin 32 → Nat) (between : Fin 32 → Bool), let srcs := [(a, 1), (b, 1)]
    let own := accessors d.isScalar (active s h)
    Issuing s → Sourced s h srcs → queuesIn srcs = [] →
    (∀ l ∈ own, ByteAt s s.me.ctx (src32 s a l).toNat (src32 s b l).toNat (v l) (n l) (i l) (between l)) →
    ∃ t, exec (.vfind h d a b k) s = .next t ∧
      Completed s t (active s h)
        (fun p q => WroteBoth p q .w64 d k (active s h) (fun l => BitVec.ofNat 64 (n l * 2 ^ 24 + i l))
          (lanesMask fun l => between (if d.isScalar then lowest (active s h) else l))) noFlags keepRng

/-- Lanes that miss form one VIEWMISS fragment, which waits for the extents they miss without a handler; a miss on an extent that is
building joins that build, and a miss on an absent one starts its build, with its space reserved where its elements can be told;
registers are kept, and the lanes stay at their word (09 R234 to R236, R239, 17 R369). The model's choices, not the spec's:
where an extent stands in the pool (log 40); a build reserves its space at its start (log 41). -/
def Obligations.ViewMissesWait : Prop := ∀ s h sz d m e, let srcs := [(m.base, 1), (m.index, 2)]
  let act := active s h
  let own := accessors d.isScalar act
  let ctx := s.me.ctx
  let hd := fun (l : Fin 32) => (src32 s m.base l).toNat
  let ext := fun (l : Fin 32) => (src64 s m.index l).toNat / 2 ^ 24
  let missing := fun (st : ExtState) => ∀ l ∈ own, ∃ v, viewOf s ctx (hd l) = some v ∧
    extExists s ctx (hd l) v (ext l) = true ∧ v.code ≠ 5 ∧ (extOf v (ext l)).st = st
  let fk := slotKey ctx s.me.core e
  let waits := fun (t : State) => ∃ f, exec (.vld h sz d m) s = .next t ∧ Table.get? t.frags fk = some f ∧
    f.cause = .viewmiss ∧ f.st = .waiting ∧
    f.wave = s.me.key ∧ f.lanes = act ∧ f.pc = s.me.lanes[lowest s.iss].pc ∧ f.word = s.word ∧
    (∃ l, f.obj = .extents l ∧ ∀ q, q ∈ l ↔ ∃ j ∈ own, q = (hd j, ext j)) ∧
    (∀ l : Fin 32, act.getLsbD l = true → t.me.lanes[l].life = .frag e ∧ t.me.lanes[l].flags = s.me.lanes[l].flags) ∧
    OthersGoOn s t act ∧ RegsKept s t ∧ t.me.causes = s.me.causes ||| causeBit .viewmiss
  Issuing s → OneGroup s → Sourced s h srcs → queuesIn srcs = [] → CanFault s act e →
  (missing .building → ∃ t, waits t ∧ Touches s t ctx fun h n => ∃ l ∈ own, hd l = h ∧ ext l = n) ∧
  ∀ h0 n0 v, missing .absent → (∀ l ∈ own, hd l = h0 ∧ ext l = n0) → viewOf s ctx h0 = some v →
    (extOf v n0).waitingSpace = false → RoomyPool s ctx v → ∃ t, waits t ∧ BuildStarts s t ctx h0 n0 v

/-- View statistics and hints: `vstat` gives a statistic that needs no pass; `vpin` and `vunpin` answer 0 to 3 and set or clear the
pin; `vtouch` touches the extents it reaches, goes on whatever they are, and starts the build of an absent one (09 R234, R246 to
R248). The model's choices, not the spec's: which extents exist (log 41); bit 4 of the state byte (log 42); hints raise nothing
(log 47); passes (log 48). -/
def Obligations.ViewHints : Prop :=
  (∀ s h op d a b (x : Fin 32 → Nat), let srcs := [(a, 1), (b, 2)]
    Issuing s → Sourced s h srcs → queuesIn srcs = [] →
    (∀ l ∈ accessors d.isScalar (active s h),
      StatIs s s.me.ctx op (src32 s a l).toNat (src64 s b l).toNat (x l)) →
    ∃ t, exec (.vstat h op d a b) s = .next t ∧
      Completed s t (active s h)
        (fun p q => Wrote p q (if op = .dense ∨ op = .anch then .w64 else .w32) d (active s h) fun l =>
          BitVec.ofNat 64 (x l)) noFlags keepRng) ∧
  (∀ s h d a b pin, let srcs := [(a, 1), (b, 2)]
    let own := accessors d.isScalar (active s h)
    let hd := fun (l : Fin 32) => (src32 s a l).toNat
    let e := fun (l : Fin 32) => (src64 s b l).toNat
    Issuing s → Sourced s h srcs → queuesIn srcs = [] →
    (∀ l ∈ own, ∀ j ∈ own, l ≠ j → (hd l, e l / 2 ^ 24) ≠ (hd j, e j / 2 ^ 24)) →
    (∀ l ∈ own, ∀ v, pin = true → viewOf s s.me.ctx (hd l) = some v → v.code ≠ 5 ∧
      (extOf v (e l / 2 ^ 24)).st ≠ .absent ∧ (extOf v (e l / 2 ^ 24)).st ≠ .evicting) →
    ∃ t, exec (if pin then .vpin h d a b else .vunpin h d a b) s = .next t ∧
      Completed { s with ctxs := t.ctxs } t (active s h)
        (fun p q => Wrote p q .w32 d (active s h) fun l => (pinSays s s.me.ctx (hd l) (e l) pin).1.setWidth 64)
        noFlags keepRng ∧
      (∀ l ∈ own, extentIn t s.me.ctx (hd l) (e l / 2 ^ 24) = (pinSays s s.me.ctx (hd l) (e l) pin).2) ∧
      ∀ h n, (∀ l ∈ own, (hd l, e l / 2 ^ 24) ≠ (h, n)) → extentIn t s.me.ctx h n = extentIn s s.me.ctx h n) ∧
  ∀ s h a b, Issuing s →
    let hd := fun (l : Fin 32) => (src32 s a l).toNat
    let n := fun (l : Fin 32) => (src64 s b l).toNat / 2 ^ 24
    let reached := fun x y => ∃ l ∈ lanesIn (active s h), hd l = x ∧ n l = y ∧ ∃ v, viewOf s s.me.ctx x = some v ∧
      extExists s s.me.ctx x v y = true ∧ (extOf v y).st ≠ .failed
    ((∀ x y, reached x y → (∀ v, viewOf s s.me.ctx x = some v → v.code ≠ 5) ∧
        ((extentIn s s.me.ctx x y).st = .resident ∨ (extentIn s s.me.ctx x y).st = .building)) →
      ∃ t, exec (.vtouch h a b) s = .next t ∧ Passes { s with ctxs := t.ctxs } t ∧ Touches s t s.me.ctx reached) ∧
    ∀ l v, active s h = laneBit l → reached (hd l) (n l) → viewOf s s.me.ctx (hd l) = some v → v.code ≠ 5 →
      (extOf v (n l)).st = .absent → (extOf v (n l)).waitingSpace = false → RoomyPool s s.me.ctx v →
      ∃ t, exec (.vtouch h a b) s = .next t ∧
        (∀ j : Fin 32, s.iss.getLsbD j = true → t.me.lanes[j].pc = s.me.lanes[j].pc + 8) ∧
        BuildStarts s t s.me.ctx (hd l) (n l) v

/-- Builds and the arbiter: a build whose bytes can be read ends resident with the elements of its bytes, or failed where there are
none, and the fragments that waited for it alone resume; an eviction ends absent; a pass ends with its count; a sweep brings a
record's age back. A scan takes windows of the next 64 records in hand order, moves the hand past each, evicts in each the
evictable record of lowest score, the earliest among equals, and ends with the space free, one eighth of the quota evicted, or
four idle windows; a build that lacked space scans again at the next aging period boundary (09 R225 to R231, R234, R236, R237,
R239 to R241, R248). The model's choices, not the spec's: the build cost (log 7); windows and when space is free (log 41); a
failed token extent (log 44); when `gaprec` counts (log 45); passes (log 48); builds go on while the context is out (log 53). -/
def Obligations.ExtentsBuild : Prop :=
  (∀ s ctx h n v b e, s.stuck = none → viewOf s ctx h = some v → n < v.nominal → 1 ≤ v.code ∧ v.code ≤ 4 →
    (extOf v n).st = .building → (extOf v n).waitingSpace = false → (extOf v n).size ≠ 0 → b < e →
    extentSpan s ctx (tagBuild h n) v n = .ok (b, e) →
    spanGot s ctx (tagBuild h n) v b (e - b) = .ok () →
    ∃ t, exec (.extentBuildEnd ctx h n) s = .next t ∧
      (∀ es, elementsOf s ctx v b e = some es → es.length ≤ 2 ^ 24 →
        (extentIn t ctx h n).st = .resident ∧ (extentIn t ctx h n).elems = es ∧
          (extentIn t ctx h n).counted = true ∧ (extentIn t ctx h n).count = es.length ∧
          (extentIn t ctx h n).known = true) ∧
      (elementsOf s ctx v b e = none → (extentIn t ctx h n).st = .failed ∧ (extentIn t ctx h n).size = 0) ∧
      ∀ fk f, WaitsOnlyFor s ctx fk f h n → Table.get? t.frags fk = none) ∧
  (∀ s ctx h n v, viewOf s ctx h = some v → (extOf v n).st = .evicting → (extOf v n).rebuild = false →
    extRefs s ctx h n = 0 →
    ∃ t, exec (.extentEvictionEnd ctx h n) s = .next t ∧ t = { s with ctxs := t.ctxs } ∧
      extentIn t ctx h n = { extOf v n with st := .absent, size := 0, rebuild := false } ∧
      ∀ x y, (x, y) ≠ (h, n) → extentIn t ctx x y = extentIn s ctx x y) ∧
  (∀ s ctx, ((∀ v ∈ (ctxOf s ctx).views, ∀ e ∈ v.2.exts, e.2.waitingSpace = false) →
      exec (.evictionRescan ctx) s = .next s) ∧
    ((∃ v ∈ (ctxOf s ctx).views, ∃ e ∈ v.2.exts, e.2.waitingSpace = true) → ∃ t, exec (.evictionRescan ctx) s = .next t ∧
      t.wall % 2 ^ 20 = 0 ∧ s.wall < t.wall ∧ t.wall ≤ s.wall + 2 ^ 20) ∧
    ∀ h n v es, viewOf s ctx h = some v → v.code ≠ 5 → (extOf v n).st = .building → (extOf v n).size = 0 →
      (extOf v n).waitingSpace = true →
      (∀ e ∈ (ctxOf s ctx).views, ∀ x ∈ e.2.exts, x.2.waitingSpace = true → e.1 = h ∧ x.1 = n) →
      Table.rising (ctxOf s ctx).views = true → Table.rising v.exts = true →
      buildGot s ctx (tagBuild h n) v n [] = .ok (some es) →
      4096 * extentUnits s ctx v es.length ≤ poolFree (ctxOf s ctx) →
      ∃ t, exec (.evictionRescan ctx) s = .next t ∧ (extentIn t ctx h n).st = .building ∧
        (extentIn t ctx h n).waitingSpace = false ∧ (extentIn t ctx h n).size = extentUnits s ctx v es.length) ∧
  (∀ s ctx need, let r := scanPool ctx need (scanFuel (ctxOf s ctx)) s 0 0
    ScansTo ctx need s 0 0 r.1 r.2) ∧
  (∀ s ctx win, lowestScore s ctx win = none ↔ ∀ r ∈ win, evictable s ctx r.1 r.2 = false) ∧
  (∀ s ctx h n, evictable s ctx h n = true ↔ ∃ v, viewOf s ctx h = some v ∧ (extOf v n).st = .resident ∧
    (extOf v n).pin = false ∧ extRefs s ctx h n = 0) ∧
  (∀ s ctx h n v, viewOf s ctx h = some v →
    extentIn (evictExt s ctx h n) ctx h n = { extOf v n with st := .evicting, elems := [], loc := 0 } ∧
    ∀ x y, (x, y) ≠ (h, n) → extentIn (evictExt s ctx h n) ctx x y = extentIn s ctx x y) ∧
  (∀ s ctx h n v, viewOf s ctx h = some v → n < v.nominal → (extOf v n).stamp < 65536 →
    let age := fun (x : Extent) => (s.wall / 65536 % 65536 + 65536 - x.stamp) % 65536
    ∃ t, exec (.viewSweep ctx h n) s = .next t ∧
      (age (extOf v n) < 2 ^ 15 → t = s) ∧
      (2 ^ 15 ≤ age (extOf v n) → age (extentIn t ctx h n) = 2 ^ 15 ∧
        (extentIn t ctx h n).touches = (extOf v n).touches / 16)) ∧
  (∀ s ctx h n v k, s.stuck = none → viewOf s ctx h = some v → (h, 2 * n + 1) ∈ (ctxOf s ctx).passes →
    countGot s ctx h v n = .ok (some k) →
    ∃ t, exec (.passEnd ctx h n) s = .next t ∧ (h, 2 * n + 1) ∉ (ctxOf t ctx).passes ∧
      (extentIn t ctx h n).counted = true ∧ (extentIn t ctx h n).count = k) ∧
  ∀ s ctx (win : List (Nat × Nat)) h n, let score := fun (r : Nat × Nat) => extScore s (ctxOf s ctx).cfg (extentIn s ctx r.1 r.2)
    (∀ r ∈ win, evictable s ctx r.1 r.2 = true → (extentIn s ctx r.1 r.2).size ≠ 0) →
    lowestScore s ctx win = some (h, n) →
    evictable s ctx h n = true ∧
      ∃ i : Nat, win[i]? = some (h, n) ∧ ∀ (j : Nat) r, win[j]? = some r → evictable s ctx r.1 r.2 = true →
        (score (h, n)).1 * (score r).2 ≤ (score r).1 * (score (h, n)).2 ∧
        (j < i → (score (h, n)).1 * (score r).2 < (score r).1 * (score (h, n)).2)

/-- Detokenisation: `detok` accepts a command whose fields are within their limits and refuses any other with the first failing
status; its engine stores what the tokens emit behind the destination's sealed length, seals it, writes the stream state and
adds to the counter. The stop stage emits what precedes the stop string that ends first, and otherwise holds back the longest
suffix that could begin one (09 R253 to R258). The model's choices, not the spec's: an unreadable buffer or state (log 46). -/
def Obligations.Detokenise : Prop :=
  (∀ s h fin d a c stops, Issuing s → Sourced s h [(a, 2)] → queuesIn [(a, 2)] = [] → active s h ≠ 0 →
    NoAnswers s s.me.ctx →
    let n := fieldAt c 0x0D 1
    let p := applyOwn s s.me.core
    let src := Table.get? (ctxOf s s.me.ctx).sources (fieldAt c 0x10 4)
    let plain := fieldAt c 0x10 4 ≤ 4095 ∧ ∃ x, src = some x ∧ x.packed = false
    let voc := (Table.get? (ctxOf s s.me.ctx).vocs (fieldAt c 0x0C 1)).isSome
    engineRead p s.me.ctx (tagMe s) (some s.me.core) (src64 s a 0) 64 = .ok c →
    engineRead p s.me.ctx (tagMe s) (some s.me.core) (BitVec.ofNat 64 (fieldAt c 0x20 8)) (40 * n) = .ok stops →
    (detokReserved c stops n = true → ∃ t, exec (.detok h fin d a) s = .next t ∧ Status h d p t 0x7A) ∧
    (detokReserved c stops n = false → detokRange c stops n = false →
      ∃ t, exec (.detok h fin d a) s = .next t ∧ Status h d p t 0x7B) ∧
    (detokReserved c stops n = false → detokRange c stops n = true →
      (¬ plain → ∃ t, exec (.detok h fin d a) s = .next t ∧ Status h d p t 0x7C) ∧
      (plain → voc = false → ∃ t, exec (.detok h fin d a) s = .next t ∧ Status h d p t 0x7D) ∧
      (plain → voc = true → ∃ t x, exec (.detok h fin d a) s = .next t ∧ Answered p t h d 0 ∧
        Table.get? t.detoks s.fresh = some x ∧ x.ctx = s.me.ctx ∧ x.die = s.me.core / 48 ∧ x.fin = fin ∧
        x.buf.toNat = fieldAt c 0 8 ∧ x.count = fieldAt c 8 4 ∧ x.voc = fieldAt c 0x0C 1 ∧ x.dst = fieldAt c 0x10 4 ∧
        x.stream.toNat = fieldAt c 0x18 8 ∧ x.done.toNat = fieldAt c 0x28 8 ∧ x.stops = stopStrings stops n ∧
        ∀ k, k ≠ s.fresh → Table.get? t.detoks k = Table.get? s.detoks k))) ∧
  (∀ s die k c pb ps pd pc, let src := Table.getD (ctxOf s c.ctx).sources c.dst {}
    let r := number (agentByte s none) ps 64
    let ids := (List.range c.count).map fun i => number (agentByte s none) (pb + 4 * i) 4
    let room := src.capacity - src.sealed
    let ran := runDetok (Table.getD (ctxOf s c.ctx).vocs c.voc {}) c ids room (streamOf r)
    let len := ran.1.length
    s.stuck = none → s.detoks.find? (fun e => e.2.die == die) = some (k, c) →
    Readable s c.ctx c.buf (4 * c.count) pb → Readable s c.ctx c.stream 64 ps → Linear s c.ctx c.stream 64 ps →
    Linear s c.ctx (src.base + BitVec.ofNat 64 src.sealed) room pd → (c.done ≠ 0 → Linear s c.ctx c.done 8 pc) →
    c.dst ≤ 4095 → Table.get? (ctxOf s c.ctx).sources c.dst = some src → src.packed = false →
    Apart ps 64 pd room → Apart ps 64 pc 8 → Apart pd room pc 8 → streamBad r c.stops = false → r % 2 = 0 →
    ∃ t, exec (.detokProcess die) s = .next t ∧ Table.get? t.detoks k = none ∧
      (∀ i (hi : i < len), memByte t (pd + i) = ran.1[i]) ∧
      number (memByte t) ps 64 = ran.2.image % 2 ^ 512 ∧
      Table.get? (ctxOf t c.ctx).sources c.dst = some { src with sealed := src.sealed + len } ∧
      (c.done ≠ 0 → number (memByte t) pc 8 = (number (memByte s) pc 8 + 1) % 2 ^ 64) ∧
      ∀ i, (i < pd ∨ pd + len ≤ i) → (i < ps ∨ ps + 64 ≤ i) → (c.done ≠ 0 → i < pc ∨ pc + 8 ≤ i) →
        memByte t i = memByte s i) ∧
  ∀ stops x new ord, (∀ t ∈ stops, t ≠ []) → let l := x.held ++ new
    let r := stopStage stops x new ord
    let ends := fun (n : Nat) (t : List Byte) => t ∈ stops ∧ t <:+ l.take n
    ((∀ n ≤ l.length, ∀ t, ¬ ends n t) → r.1 ++ r.2.held = l ∧ stopPrefix stops r.2.held = true ∧ r.2.flags = x.flags ∧
      ∀ u v, u ++ v = l → stopPrefix stops v = true → v.length ≤ r.2.held.length) ∧
    ∀ n ≤ l.length, (∃ t, ends n t) → (∀ k < n, ∀ t, ¬ ends k t) →
      r.2.held = [] ∧ r.2.flags.getLsbD 0 = true ∧ r.2.ordinal = ord ∧
      ∃ t, stops[r.2.stop]? = some t ∧ ends n t ∧ r.1 ++ t = l.take n ∧
        ∀ i u, stops[i]? = some u → ends n u → u.length < t.length ∨ (u.length = t.length ∧ r.2.stop ≤ i)

namespace Sys2Proof.Claims

/-! ### The admin queue and the host -/

/-- The completion ring has room: the driver has consumed all but fewer than CPLSIZE completions (16 R338). -/
def RingHasRoom (a : Admin) : Prop := (a.written + 1 + 2 ^ 32 - a.cplHead.toNat) % 2 ^ 32 ≤ a.cplSize

/-- A completion has been written: its 32 bytes stand at the next place of the ring with the phase of the pass, vector 2 is raised
where the driver had consumed every one before it, and no other byte of memory changed (16 R338). -/
structure CompletionWritten (p t : State) (low addr ctx die : Nat) : Prop where
  image : number (memByte t) (hostBase + p.adm.cplBase.toNat + 32 * (p.adm.written % p.adm.cplSize)) 32 =
    low + (if p.adm.written / p.adm.cplSize % 2 = 0 then 2 ^ 31 else 0) + addr * 2 ^ 64 + p.wall % 2 ^ 64 * 2 ^ 128 +
      (ctx % 2 ^ 12 + die % 32 * 2 ^ 16) * 2 ^ 192
  bytes : ∀ i, (i < hostBase + p.adm.cplBase.toNat + 32 * (p.adm.written % p.adm.cplSize) ∨
    hostBase + p.adm.cplBase.toNat + 32 * (p.adm.written % p.adm.cplSize) + 32 ≤ i) → memByte t i = memByte p i
  rest : t = { p with mem := t.mem, poison := t.poison, adm := { p.adm with
    written := p.adm.written + 1,
    raised2 := if p.adm.cplHead.toNat = p.adm.written % 2 ^ 32 then p.adm.raised2 + 1 else p.adm.raised2 } }

/-- An admin command has ended: its completion with its tag, a status and a value is written, or waits for room (16 R335,
R338). -/
def CommandEnds (p t : State) (tag : BitVec 16) (st : Byte) (v : Word32) : Prop :=
  let q := { p with adm := { p.adm with inProgress := none } }
  (RingHasRoom p.adm → CompletionWritten q t (tag.toNat + st.toNat * 2 ^ 16 + v.toNat * 2 ^ 32) 0 0 0) ∧
  (¬ RingHasRoom p.adm → t = { q with adm := { q.adm with waiting := some (tag, st, v) } })

/-- A command whose zero fields are zero comes to something; any other is refused with ARESV. -/
def shaped (s : State) (c : AdminCmd) (zeros : Bool) (rest : Byte × State) : Option (AdminCmd × Byte × State) :=
  some (c, if c.resv || !zeros then (0x91, s) else rest)

/-- The installed context that a command names, or ARANGE. -/
def named (s : State) (c : AdminCmd) (f : Context → Byte × State) : Byte × State :=
  match Table.get? s.ctxs c.n.toNat with
  | some x => if x.ending then (0x92, s) else f x
  | none => (0x92, s)

/-- The status and the effect of a command that ends at once (16 R335, R337, R344, R364, R429, 18 R405, R406, R408). The row of an
address, and the spare rows of a bank that the fuses took, are the model's free values (log 9). -/
def commandSays (s : State) : Instr → Option (AdminCmd × Byte × State)
  | .dike c =>
    let r := number (memByte s) (hostBase + c.a.toNat) 64
    let d := dikeOf r
    let others := s.dikes.filter fun e => e.1 ≠ c.n.toNat
    shaped s c (c.b == 0 && c.c == 0)
      (if poisoned s (hostBase + c.a.toNat) 64 then (0x90, s)
      else if fieldAt r 0x2E 18 ≠ 0 then (0x91, s)
      else if !dikeRange s c.n.toNat d then (0x92, s)
      else if s.ctxs.any fun e => e.2.cfg.dike == c.n.toNat then (0x93, s)
      else if others.any fun e => e.2.quads &&& d.quads != 0 || e.2.ways &&& d.ways != 0 then (0x94, s)
      else (0, { s with dikes := Table.set s.dikes c.n.toNat d }))
  | .create c =>
    let r := number (memByte s) (hostBase + c.a.toNat) 256
    shaped s c (c.b == 0 && c.c == 0)
      (if poisoned s (hostBase + c.a.toNat) 256 then (0x90, s)
      else if !ctxZeros r then (0x91, s)
      else if 4095 < c.n.toNat || !ctxRange s (ctxRecOf r) then (0x92, s)
      else if (Table.get? s.ctxs c.n.toNat).isSome then (0x93, s)
      else if s.ctxs.any fun e => binsMeet e.2.cfg (ctxRecOf r) then (0x94, s)
      else (0, { s with ctxs := Table.set s.ctxs c.n.toNat { cfg := ctxRecOf r, fadeTick := s.wall / 2 ^ 20 } }))
  | .update c =>
    let r := number (memByte s) (hostBase + c.a.toNat) 256
    let x := ctxRecOf r
    shaped s c (c.b == 0 && c.c == 0) (named s c fun old =>
      let same := { x with prio := old.cfg.prio, poolQuota := old.cfg.poolQuota, polderQuota := old.cfg.polderQuota,
                           alpha := old.cfg.alpha, beta := old.cfg.beta, timeoutUs := old.cfg.timeoutUs }
      if poisoned s (hostBase + c.a.toNat) 256 then (0x90, s)
      else if !ctxZeros r then (0x91, s)
      else if !ctxRange s x || same ≠ old.cfg then (0x92, s)
      else (0, { s with ctxs := Table.set s.ctxs c.n.toNat { old with cfg := x } }))
  | .mapq c =>
    let q := c.b.toNat % 2 ^ 32
    let e := c.b.toNat / 2 ^ 32
    let new : Queue := { ctx := c.n.toNat, ring := c.a, entries := e, wb := c.c }
    shaped s c true (named s c fun x =>
      let inside := fun (a : Word64) (n : Nat) => x.cfg.heapBase.toNat ≤ a.toNat ∧
        a.toNat + n ≤ x.cfg.heapBase.toNat + x.cfg.heapLimit.toNat
      if 131071 < q then (0x92, s)
      else if c.a ≠ 0 ∧ ¬ (c.a.toNat % 64 = 0 ∧ c.c.toNat % 8 = 0 ∧ (16 ≤ e ∧ e ≤ 65536 ∧ 2 ^ e.log2 = e) ∧
          inside c.a (64 * e) ∧ inside c.c 8) then (0x92, s)
      else if ((Table.get? s.queues q).map Queue.ctx).getD c.n.toNat ≠ c.n.toNat then (0x93, s)
      else (0, { s with queues := if c.a = 0 then Table.erase s.queues q else Table.set s.queues q new }))
  | .zone c =>
    shaped s c (c.n == 0 && c.c == 0)
      (if c.a.toNat % 65536 = 0 ∧ c.b.toNat % 65536 = 0 ∧ c.a.toNat + c.b.toNat ≤ usableBytes then
        (0, { s with zoneStart := c.a.toNat, zoneBytes := c.b.toNat, zoneData := [], zoneSlots := [], zonePoison := [] })
      else (0x92, s))
  | .disturb c =>
    let lv := c.b.toNat
    shaped s c (c.a == 0)
      (if c.n.toNat ≤ 11 ∧ ((c.c = 0 ∧ 16 ≤ lv ∧ lv ≤ 255) ∨ (c.c = 1 ∧ 64 ≤ lv ∧ lv ≤ 4095)) then
        (0, { s with hbmStacks := Table.set s.hbmStacks c.n.toNat { mode := c.c.toNat, level := lv } })
      else (0x92, s))
  | .podclr c => shaped s c (c.n == 0 && c.a == 0 && c.b == 0 && c.c == 0) (0, { s with degraded := false, lost := [] })
  | .spare c =>
    let row := Config.rowOf c.a.toNat
    let bank := Config.bankOf row
    let n := (Table.get? s.sparesBy bank).getD (Config.repairedIn bank)
    let d := Table.getD s.dies (dieOf c.a.toNat) {}
    shaped s c (c.n == 0 && c.b == 0 && c.c == 0)
      (if !usable c.a.toNat then (0x92, s)
      else if (Table.get? s.rowCopies row).isSome then (0, s)
      else if 2 ≤ n then (0x93, s)
      else (0, { s with dies := Table.set s.dies (dieOf c.a.toNat) { d with sparesUsed := d.sparesUsed + 1 },
                        rowCopies := Table.set s.rowCopies row (c.a.toNat, 0), sparesBy := Table.set s.sparesBy bank (n + 1) }))
  | .power c =>
    shaped s c (c.n == 0 && c.a == 0 && c.b == 0)
      (if 1200 ≤ c.c.toNat ∧ c.c.toNat ≤ 3600 then (0, { s with powerLimit := c.c.toNat }) else (0x92, s))
  | _ => none

/-- What a DEBUG command does to a group or a fragment of its context (17 R389, R390). -/
def debugSays (s : State) (n : Nat) (a : Word32) : Instr → Option (AdminCmd × Option Word32 × State)
  | .debugHaltStop c => some (c, some (haltStop s n a.toNat).1, (haltStop s n a.toNat).2)
  | .debugHaltGo c => some (c, some (haltGo s n a.toNat).1, (haltGo s n a.toNat).2)
  | .debugHaltStep c => some (c, some (haltStep s n a.toNat).1, (haltStep s n a.toNat).2)
  | .debugFragMask c => some (c, some (fragMask s n a), s)
  | .debugFragState c => some (c, some (fragState s n a), s)
  | .debugFragKill c => some (c, fragKill s n a)
  | .debugFragResume c => some (c, fragResume s n a)
  | _ => none

/-- Nothing of a context is in progress (16 R342). -/
def NothingRuns (s : State) (n : Nat) : Prop :=
  (∀ e ∈ s.launches, e.2.ctx ≠ n) ∧ (∀ e ∈ s.groups, e.2.ctx ≠ n) ∧ (∀ e ∈ s.copies, e.2.ctx ≠ n) ∧
    (∀ e ∈ s.tasks, e.2.ctx ≠ n) ∧ (∀ e ∈ s.scans, e.2.ctx ≠ n) ∧ (∀ e ∈ s.detoks, e.2.ctx ≠ n) ∧
    ∀ r ∈ s.remotes, r.2.ctx ≠ n

/-- A context is gone with what belongs to it, and every other context is as it was (16 R342, R345). -/
structure ContextGone (s t : State) (n : Nat) : Prop where
  ctx : ∀ k, Table.get? t.ctxs k = if k = n then none else Table.get? s.ctxs k
  queues : ∀ e, e ∈ t.queues ↔ e ∈ s.queues ∧ e.2.ctx ≠ n
  bins : ∀ e, e ∈ t.bins ↔ e ∈ s.bins ∧ e.2.ctx ≠ n
  waves : ∀ e, e ∈ t.waves ↔ e ∈ s.waves ∧ e.2.ctx ≠ n
  frags : ∀ e, e ∈ t.frags ↔ e ∈ s.frags ∧ e.1 / 131072 ≠ n
  idle : ∀ k d, Table.get? t.dikes k = some d → d.running ≠ some n ∧ d.shadow ≠ some n ∧ d.chosen ≠ some n

end Sys2Proof.Claims

/-- Admin commands that end at once: each checks its zero fields, then its limits, answers the first failing status with no other
effect, and else has the effect of its row; its completion returns its tag (16 R334, R335, R337, R338, R344, R364, 18 R405,
R408). The model's choices, not the spec's: the order of the checks (log 54); values outside the limits of a ring (log 55);
CREATE (log 56); MAPQ (log 57); ZONE (log 58); PODCLR (log 59). -/
def Obligations.AdminCommandsEnd : Prop := ∀ s i c st p, commandSays s i = some (c, st, p) → s.stuck = none →
  ∃ t, exec i s = .next t ∧ CommandEnds p t c.tag st 0

/-- ZERO writes zero to its range and to no other byte of the part; COLD fills a zone slot with a page, and TRACE sets a context's
buffer (16 R335, R351, 18 R412). The model's choices, not the spec's: the order of the checks (log 54); the zone (log 58); a
buffer that is disabled (log 61). -/
def Obligations.MemoryCommands : Prop := ∀ s c, s.stuck = none → c.resv = false →
  (let pa := s.pkg * 2 ^ 39 + c.a.toNat
   c.n = 0 → c.c = 0 → c.a.toNat % 65536 = 0 → c.b.toNat % 65536 = 0 → c.a.toNat + c.b.toNat ≤ usableBytes →
    ∃ p t, exec (.zeroRange c) s = .next t ∧ CommandEnds p t c.tag 0 0 ∧ p = { s with mem := p.mem, poison := p.poison } ∧
      (∀ i, memByte p i = if pa ≤ i ∧ i < pa + c.b.toNat then 0 else memByte s i) ∧
      ∀ g, g ∈ p.poison ↔ g ∈ s.poison ∧ ¬ (pa ≤ g * 64 ∧ g * 64 + 64 ≤ pa + c.b.toNat)) ∧
  (¬ (c.a.toNat % 65536 = 0 ∧ c.b.toNat % 65536 = 0 ∧ c.a.toNat + c.b.toNat ≤ usableBytes) → c.n = 0 → c.c = 0 →
    ∃ t, exec (.zeroRange c) s = .next t ∧ CommandEnds s t c.tag 0x92 0) ∧
  (∀ x pa, Table.get? s.ctxs c.n.toNat = some x → x.ending = false → c.c = 0 → x.cfg.paged = true → NoAnswers s c.n.toNat →
    inHeap x.cfg c.a.toNat = false → c.a.toNat % 65536 = 0 → s.zoneBytes ≠ 0 → c.b.toNat < 2 ^ 23 →
    engineTr s c.n.toNat tagCold c.a false = .ok pa → Memory.wf s.mem = true → Memory.wf s.zoneData = true →
    ∃ p t, exec (.cold c) s = .next t ∧ CommandEnds p t c.tag 0 0 ∧ c.b.toNat ∈ p.zoneSlots ∧
      p = { s with zoneData := p.zoneData, zoneSlots := p.zoneSlots, zonePoison := p.zonePoison } ∧
      ∀ i, Table.getD p.zoneData i 0 =
        if c.b.toNat * 65536 ≤ i ∧ i < c.b.toNat * 65536 + 65536 then memByte s (pa + (i - c.b.toNat * 65536))
        else Table.getD s.zoneData i 0) ∧
  ∀ x, Table.get? s.ctxs c.n.toNat = some x → x.ending = false → c.c = 0 → c.b.toNat / 2 ^ 40 % 2 ^ 23 = 0 →
    let n := c.b.toNat % 2 ^ 32
    let k := c.b.toNat / 2 ^ 32 % 256
    let good := c.a.toNat % 4096 = 0 ∧ (64 ≤ n ∧ n ≤ 2 ^ 24 ∧ 2 ^ n.log2 = n) ∧ 4 ≤ k ∧ k ≤ 24 ∧
      x.cfg.heapBase.toNat ≤ c.a.toNat ∧ c.a.toNat + 64 * n ≤ x.cfg.heapBase.toNat + x.cfg.heapLimit.toNat
    (¬ good → ∃ t, exec (.traceBuf c) s = .next t ∧ CommandEnds s t c.tag 0x92 0) ∧
    (good → x.samples = [] → ∃ t, exec (.traceBuf c) s = .next t ∧
      CommandEnds (setCtx s c.n.toNat fun y => { y with trace :=
          { base := c.a, count := n, k := k, enable := c.b.getLsbD 63 } }) t c.tag 0
        (if x.trace.enable then BitVec.ofNat 32 x.trace.lost else 0)) ∧
    (good → x.samples ≠ [] → ∃ t, exec (.traceBuf c) s = .next t ∧ t.adm.inProgress = some (.traceBuf c) ∧
      (ctxOf t c.n.toNat).trace.enable = false)

/-- DEBUG applies an operation of `halt` or `frag`, whose answer stands in the completion's value; DESTROY ends a context, whose
completion waits until nothing of it is in progress, its accesses at other packages included, and its stores and `red`s have
been performed; a completion that found the ring full is written once there is room (16 R335, R337, R338, R342, 17 R389, R390).
The model's choices, not the spec's: the order of the checks (log 54); when DESTROY kills and when it completes (log 60). -/
def Obligations.CommandsThatWait : Prop :=
  (∀ s i c v p x, debugSays s c.n.toNat (c.b.setWidth 32) i = some (c, v, p) → s.stuck = none → p.stuck = none →
    c.resv = false → c.c = 0 → c.b.toNat < 2 ^ 32 → Table.get? s.ctxs c.n.toNat = some x → x.ending = false →
    ∃ t, exec i s = .next t ∧ (match v with
      | some v => CommandEnds p t c.tag 0 v
      | none => t = { p with adm := { p.adm with inProgress := some i } })) ∧
  (∀ s c x, s.stuck = none → c.resv = false → c.a = 0 → c.b = 0 → c.c = 0 → Table.get? s.ctxs c.n.toNat = some x →
    x.ending = false →
    (NothingRuns s c.n.toNat → ∃ p t, exec (.destroy c) s = .next t ∧ CommandEnds p t c.tag 0 0 ∧
      ContextGone s t c.n.toNat ∧ p.dirty = [] ∧ p.reds = [] ∧ (s.dirty = [] → s.reds = [] → p.mem = s.mem)) ∧
    ((∃ e ∈ s.groups, e.2.ctx = c.n.toNat) → ∃ t, exec (.destroy c) s = .next t ∧
      t.adm.inProgress = some (.destroy c) ∧ (ctxOf t c.n.toNat).ending = true ∧ (ctxOf t c.n.toNat).views = [] ∧
      ∀ e ∈ t.queues, e.2.ctx ≠ c.n.toNat)) ∧
  (∀ s tag st v, s.adm.waiting = some (tag, st, v) →
    (RingHasRoom s.adm → ∃ t, exec .adminCommandComplete s = .next t ∧
      CompletionWritten { s with adm := { s.adm with waiting := none } } t (tag.toNat + st.toNat * 2 ^ 16 + v.toNat * 2 ^ 32)
        0 0 0) ∧
    (¬ RingHasRoom s.adm → exec .adminCommandComplete s = .next s)) ∧
  ∀ s c, s.stuck = none → s.adm.waiting = none → s.adm.inProgress = some (.destroy c) → c.resv = false →
    NothingRuns s c.n.toNat →
    ∃ p t, exec .adminCommandComplete s = .next t ∧ CommandEnds p t c.tag 0 0 ∧ Table.get? t.ctxs c.n.toNat = none

namespace Sys2Proof.Claims

/-! ### Host accesses, answers and peers -/

/-- An installed context of a function (16 R339). -/
def Owned (s : State) (fn ctx : Nat) : Prop := ∃ c, Table.get? s.ctxs ctx = some c ∧ c.cfg.fn = fn ∧ c.ending = false

/-- Bytes of a function's BAR2 that show memory: the whole HBM for the physical function, the heap of the window's context for a
virtual one (16 R341). -/
structure BarAt (s : State) (fn off n pa : Nat) : Prop where
  inside : off + n ≤ 2 ^ 39
  place : if fn = 0 then pa = s.pkg * 2 ^ 39 + off
    else
      let w := (fnOf s fn).winctx.toNat
      let c := (ctxOf s (w % 4096)).cfg
      w.testBit 31 = true ∧ Owned s fn (w % 4096) ∧ off + n ≤ c.heapLimit.toNat ∧ pa = (c.heapBase + c.heapOff).toNat + off
  usable : ∀ i < n, podAddr s (pa + i) = .ok (pa + i)

/-- n bytes have been written, and no other byte of memory. -/
def WrittenAt (s t : State) (pa n x : Nat) : Prop :=
  number (memByte t) pa n = x ∧ ∀ i, (i < pa ∨ pa + n ≤ i) → memByte t i = memByte s i

/-- A 32-bit word in the low or the high half of a 64-bit register. -/
def halfPut (old : Word64) (high : Bool) (v : Word32) : Word64 :=
  if high then BitVec.ofNat 64 (v.toNat * 2 ^ 32 + old.toNat % 2 ^ 32)
  else BitVec.ofNat 64 (old.toNat / 2 ^ 32 * 2 ^ 32 + v.toNat)

/-- The words of a function's BAR0 as R336 lists them: what each reads as. -/
def bar0Reads (s : State) (fn off n : Nat) : Word32 :=
  let f := fnOf s fn
  let a := s.adm
  let bits := fun (l : List Nat) (w : Nat) => BitVec.ofNat 32 (((List.range 32).map fun i => if 32 * w + i ∈ l then 2 ^ i else 0).sum)
  let word := fun (x : Word64) => BitVec.ofNat 32 (x.toNat / 2 ^ (off % 8 * 8))
  if 0x100000 ≤ off ∧ off < 0x200000 then
    let c := (off - 0x100000) / 256
    if ownedBy s fn c then Table.getD (ctxOf s c).mbox (off % 256 / 4) 0 else 0
  else if 0x208000 ≤ off ∧ off < 0x208200 then bits f.faultPending ((off - 0x208000) / 4)
  else if 0x208200 ≤ off ∧ off < 0x208400 then bits f.mboxPending ((off - 0x208200) / 4)
  else if off = 0x209000 then f.winctx
  else if fn ≠ 0 then 0
  else if off / 8 = 0x400000 / 8 then word a.base
  else if off = 0x400008 then BitVec.ofNat 32 a.size
  else if off = 0x40000C then (if a.enable then 1 else 0)
  else if off = 0x400014 then a.head
  else if off / 8 = 0x400018 / 8 then word a.cplBase
  else if off = 0x400020 then BitVec.ofNat 32 a.cplSize
  else if off = 0x400024 then a.cplHead
  else if off = 0x400028 then a.cplLost
  else if off = 0x400030 then
    BitVec.ofNat 32 ((if a.ready then 1 else 0) + (if a.fatal then 2 else 0) + (if a.bellError then 4 else 0))
  else if off / 8 = 0x400038 / 8 then word a.apBase
  else if 0x800000 ≤ off ∧ (off - 0x800000) / 4096 < 24 ∧ off % 4096 < 88 then
    word (readDie s ((off - 0x800000) / 4096) (SysReg.ofCode (BitVec.ofNat 16 (0x60 + off % 4096 / 8))) n)
  else 0

/-- A record of this type, cause, address and type-specific word has been written, its other fields 0, and no other byte of
memory changed. -/
structure Logged (s t : State) (ctx pa type cause addr spec : Nat) : Prop where
  record : Recorded s t ctx pa { type := type, cause := cause, addr := addr, spec := spec }
  bytes : ∀ i, (i < pa ∨ pa + 64 ≤ i) → memByte t i = memByte s i

/-- A page has been asked for with a page request, or with an ATS request, and no answer has come (16 R347, R348). -/
def Asked (s : State) (ctx page : Nat) : Prop := ∃ q ∈ (ctxOf s ctx).pri, q.page = page ∧ q.answer = .pending
def AskedAts (s : State) (ctx page : Nat) : Prop := ∃ a ∈ (ctxOf s ctx).ats, a.1 = page

/-- No write-back word of a context awaits its translation. -/
def NoWriteBacks (s : State) (ctx : Nat) : Prop := ∀ e ∈ s.queues, e.2.ctx = ctx → e.2.wbPending = false

/-- The one fragment of the machine waits for the last answer to the page requests of its lanes, each lane for its own page: all
that are still open are for one page (16 R348, 17 R369). -/
structure PageFragment (s : State) (ctx page fk : Nat) (f : Frag) : Prop where
  only : s.frags = [(fk, f)]
  who : fk / 131072 = ctx ∧ f.cause = .page ∧ f.st = .waiting
  wave : (waveOf s f.wave).present = true ∧ (waveOf s f.wave).ctx = ctx
  asked : ∃ i ∈ f.info, i.page = some page ∧ i.answer = .pending
  last : ∀ i ∈ f.info, i.page.isSome = true ∧ (i.answer = .pending → i.page = some page)
  each : (f.info.map FaultInfo.lane).Nodup ∧ ∀ i ∈ f.info, i.lane < 32
  lanes : ∀ l : Fin 32, f.lanes.getLsbD l = true ↔ ∃ i ∈ f.info, i.lane = l.val

/-- The answer of a lane once a page has been answered. -/
def finalAnswer (page : Nat) (a : PageAnswer) (i : FaultInfo) : PageAnswer :=
  if i.page = some page ∧ i.answer = .pending then a else i.answer

/-- A lane of a page fragment whose page was refused. -/
def RefusedLane (f : Frag) (page : Nat) (a : PageAnswer) (l : Fin 32) : Prop :=
  ∃ i ∈ f.info, i.lane = l.val ∧ (finalAnswer page a i = .invalid ∨ finalAnswer page a i = .failure)

/-- The event of an answer to a page request. -/
def AnswerEvent (ctx page : Nat) (a : PageAnswer) (i : Instr) : Prop :=
  match a with
  | .pending => False
  | .success => i = .priSuccess ctx page
  | .invalid => i = .priInvalidRequest ctx page
  | .failure => i = .priResponseFailure ctx page

/-- A lane that waits for the pod in a way that only the remote timeout ends, since a wall time: at a `.pod` barrier whose phase is
open or closed without completion, at its second arrival, at `barv.pod`, or at `pxflush.wait` for records held for a lost
package (03 R90, 04 R124). -/
def PodWaiter (s : State) (w : Wave) (l : Lane) (since : Nat) : Prop :=
  l.life = .live ∧ l.stopped = false ∧
    ((∃ n ph, l.wait = .bar .pod n ph since ∧ (barrierOf s w.group .pod (barrierKey .pod w.core n)).phase ≤ ph) ∨
      (∃ n ph wt, l.wait = .barHeld .pod n ph wt since) ∨ l.wait = .barvPod since ∨
      ∃ ts, l.wait = .flush ts since ∧ ∃ t ∈ flushOpen s w.ctx ts, handlePkg (t.1 % 2 ^ 40) ∈ s.lost)

/-- The pod has become degraded: the packages are lost, each open phase of a `.pod` barrier closed without completion, and the one
context's fault queue says so (03 R90, 17 R384). -/
def PodDegrades (s t : State) (n q : Nat) (c : Context) (gone : Nat → Prop) : Prop :=
  t.degraded = true ∧ (∀ p, p ∈ t.lost ↔ p ∈ s.lost ∨ gone p) ∧ Logged s t n q 6 0xFF 0 s.packages ∧
    ∀ k b, Table.get? c.bars k = some b → k / 16 / 2048 = 4 →
      Table.get? (ctxOf t n).bars k = some { phase := b.phase + 1 }

end Sys2Proof.Claims

/-- What the host writes: the admin queue's tail and control word, doorbells within their rings, interrupt bitmaps that clear by
writing one, the page request control, the registers of BAR0 at their offsets, and memory through BAR2; and what it reads there:
each register of BAR0, zero where none stands or another function's context owns it, and memory (16 R336, R337, R339 to R341,
R348, 18 R409). The 4-byte halves of 64-bit registers are the model's choice (log 63). The model's choices, not the spec's: host
memory and what a host read returns (log 4); ring registers (log 55). -/
def Obligations.HostActs : Prop :=
  (∀ s v, exec (.adminDoorbell v) s = .next { s with adm :=
    if (v - s.adm.head).toNat ≤ s.adm.size then { s.adm with tail := v } else { s.adm with bellError := true } }) ∧
  (∀ s v, ∃ t, exec (.admctl v) s = .next t ∧ t = { s with adm := { s.adm with enable := v.getLsbD 0, bellError := t.adm.bellError } } ∧
    (t.adm.bellError = true ↔ s.adm.bellError = true ∧ ¬ (v.getLsbD 0 = true ∧ s.adm.enable = false))) ∧
  (∀ s fn q v x, Table.get? s.queues q = some x →
    (¬ Owned s fn x.ctx → exec (.doorbell fn q v) s = .next s) ∧
    (Owned s fn x.ctx → (v - x.cons).toNat ≤ x.entries →
      exec (.doorbell fn q v) s = .next { s with queues := Table.set s.queues q { x with prod := v } }) ∧
    (Owned s fn x.ctx → x.entries < (v - x.cons).toNat → ∀ pa, Linear s x.ctx x.wb 8 pa →
      ∃ t, exec (.doorbell fn q v) s = .next t ∧ WrittenAt s t pa 8 (2 ^ 63 + x.cons.toNat) ∧
        (∀ k, Table.get? t.queues k =
          if k = q then some { x with err := true, wbPending := false, wbFailed := false } else Table.get? s.queues k))) ∧
  (∀ s fn ctx v, (¬ Owned s fn ctx ∨ 64 < (v - (ctxOf s ctx).mgmtCons).toNat → exec (.mgmtDoorbell fn ctx v) s = .next s) ∧
    (Owned s fn ctx → (v - (ctxOf s ctx).mgmtCons).toNat ≤ 64 →
      exec (.mgmtDoorbell fn ctx v) s = .next (setCtx s ctx fun c => { c with mgmtProd := v }))) ∧
  (∀ s fn word v, let cleared := fun (n : Nat) => n / 32 = word ∧ v.getLsbD (n % 32) = true
    (∃ t, exec (.faultPendingClear fn word v) s = .next t ∧ t = { s with fns := t.fns } ∧
      fnOf t fn = { fnOf s fn with faultPending := (fnOf t fn).faultPending } ∧ (∀ k, k ≠ fn → fnOf t k = fnOf s k) ∧
      ∀ n, n ∈ (fnOf t fn).faultPending ↔ n ∈ (fnOf s fn).faultPending ∧ ¬ cleared n) ∧
    ∃ t, exec (.mailboxPendingClear fn word v) s = .next t ∧ t = { s with fns := t.fns } ∧
      fnOf t fn = { fnOf s fn with mboxPending := (fnOf t fn).mboxPending } ∧ (∀ k, k ≠ fn → fnOf t k = fnOf s k) ∧
      ∀ n, n ∈ (fnOf t fn).mboxPending ↔ n ∈ (fnOf s fn).mboxPending ∧ ¬ cleared n) ∧
  (∀ s fn v, ∃ t, exec (.prien fn v) s = .next t ∧ t = { s with fns := t.fns } ∧ (∀ k, k ≠ fn → fnOf t k = fnOf s k) ∧
    fnOf t fn = { fnOf s fn with priStopped := (fnOf s fn).priStopped && !v.getLsbD 0 }) ∧
  (∀ s fn v, (∀ q < 131072, exec (.registerWrite fn (8 * q) false v) s = exec (.doorbell fn q (v.setWidth 32)) s) ∧
    (∀ c < 4096, exec (.registerWrite fn (0x200000 + 8 * c) false v) s = exec (.mgmtDoorbell fn c (v.setWidth 32)) s) ∧
    (∀ n i, n < 4096 → i < 64 → Owned s fn n → ∃ t, exec (.registerWrite fn (0x100000 + 256 * n + 4 * i) false v) s = .next t ∧
      t = { s with ctxs := t.ctxs } ∧ Table.getD (ctxOf t n).mbox i 0 = v.setWidth 32 ∧
      (∀ j, j ≠ i → Table.getD (ctxOf t n).mbox j 0 = Table.getD (ctxOf s n).mbox j 0) ∧
      ∀ k, k ≠ n → Table.get? t.ctxs k = Table.get? s.ctxs k) ∧
    (∀ off wide, off % 4 ≠ 0 → exec (.registerWrite fn off wide v) s = .next s) ∧
    (fn ≠ 0 → ∀ off wide, 0x400000 ≤ off → exec (.registerWrite fn off wide v) s = .next s) ∧
    exec (.registerWrite 0 0x400010 false v) s = exec (.adminDoorbell (v.setWidth 32)) s ∧
    exec (.registerWrite 0 0x40000C false v) s = exec (.admctl (v.setWidth 32)) s ∧
    exec (.registerWrite 0 0x400000 true v) s =
      .next (if s.adm.enable then s else { s with adm := { s.adm with base := v } }) ∧
    exec (.registerWrite 0 0x400018 true v) s =
      .next (if s.adm.enable then s else { s with adm := { s.adm with cplBase := v } }) ∧
    exec (.registerWrite 0 0x400008 false v) s =
      .next (if s.adm.enable then s else { s with adm := { s.adm with size := (v.setWidth 32).toNat } }) ∧
    exec (.registerWrite 0 0x400024 false v) s = .next { s with adm := { s.adm with cplHead := v.setWidth 32 } } ∧
    exec (.registerWrite 0 0x400038 true v) s = .next { s with adm := { s.adm with apBase := v } } ∧
    ∀ high : Bool, let o := if high then 4 else 0
      exec (.registerWrite 0 (0x400000 + o) false v) s =
        .next (if s.adm.enable then s else { s with adm := { s.adm with base := halfPut s.adm.base high (v.setWidth 32) } }) ∧
      exec (.registerWrite 0 (0x400018 + o) false v) s =
        .next (if s.adm.enable then s
          else { s with adm := { s.adm with cplBase := halfPut s.adm.cplBase high (v.setWidth 32) } }) ∧
      exec (.registerWrite 0 (0x400038 + o) false v) s =
        .next { s with adm := { s.adm with apBase := halfPut s.adm.apBase high (v.setWidth 32) } }) ∧
  (∀ s fn off, off % 4 = 0 →
    readReg s fn off 4 = { s with fresh := s.fresh + 1, hostPoison := false,
                                  hostRead := (bar0Reads { s with fresh := s.fresh + 1 } fn off s.fresh).setWidth 64 } ∧
    (off % 8 = 0 → readReg s fn off 8 = { s with
      fresh := s.fresh + 1, hostPoison := false,
      hostRead := BitVec.ofNat 64 ((bar0Reads { s with fresh := s.fresh + 1 } fn off s.fresh).toNat +
        (bar0Reads { s with fresh := s.fresh + 1 } fn (off + 4) s.fresh).toNat * 2 ^ 32) })) ∧
  ∀ s fn off n pa, 0 < n → n ≤ 8 → BarAt s fn off n pa →
    exec (.hostBar2 fn off n none) s =
      .next { s with hostRead := BitVec.ofNat 64 (number (agentByte s none) pa n), hostPoison := poisoned s pa n } ∧
    ∀ v, ∃ t, exec (.hostBar2 fn off n (some v)) s = .next t ∧ WrittenAt s t pa n (v.toNat % 256 ^ n) ∧
      t = { s with mem := t.mem, poison := t.poison }

/-- What answers the part: page requests that succeed let their fragment resume and ask for the translation anew; of a fragment that
waits for several pages, the lanes whose pages were refused trap as one fragment that keeps the entry, and the others resume; a
refused page fails the engines that asked; ATS answers and invalidations; remote responses and their timeout; a peer's access;
ports that fail, and the lanes that wait for a lost package (03 R90, 10 R277, 11 R286, 16 R347 to R349, R366, 17 R384, R386).
The model's choices, not the spec's: answers are events (log 11); other packages (log 33); when a fragment of several pages
settles (log 49); answers are kept with the lane (log 50); the cause in the record (log 71); closed phases (log 72). -/
def Obligations.PeersAnswer : Prop :=
  (∀ s ctx page, ¬ Asked s ctx page → exec (.priSuccess ctx page) s = .next s ∧ exec (.priInvalidRequest ctx page) s = .next s ∧
    exec (.priResponseFailure ctx page) s = .next s) ∧
  (∀ s ctx page fk f a i, AnswerEvent ctx page a i → Asked s ctx page → PageFragment s ctx page fk f →
    let resumed := fun (t : State) (l : Fin 32) => ResumedAt (waveOf s f.wave).lanes[l] (waveOf t f.wave).lanes[l] f.pc
    let refused := RefusedLane f page a
    ((∀ l, ¬ refused l) → ∃ t, exec i s = .next t ∧ t.frags = [] ∧
      ∀ l : Fin 32, f.lanes.getLsbD l = true → resumed t l) ∧
    ((∃ l, refused l) → (ctxOf s ctx).cfg.hdlTab = 0 → NoWriteBacks s ctx →
      ∃ t g, exec i s = .next t ∧ Table.get? t.frags fk = some g ∧ g.st = .parked ∧ g.cause = .page ∧
        (∀ l : Fin 32, g.lanes.getLsbD l = true ↔ refused l) ∧
        (∀ i ∈ g.info, ∃ j ∈ f.info, j.lane = i.lane ∧ i.addr = j.addr ∧
          i.detail = if finalAnswer page a j = .failure then 2 else 1) ∧
        ∀ l : Fin 32, f.lanes.getLsbD l = true → ¬ refused l → resumed t l)) ∧
  (∀ s ctx page, Asked s ctx page → NoWriteBacks s ctx → s.frags = [] → Table.get? s.ctxs ctx ≠ none →
    (∃ t, exec (.priSuccess ctx page) s = .next t ∧ ¬ Asked t ctx page ∧
      ∀ q ∈ (ctxOf s ctx).pri, q.page = page → q.answer = .pending → (page, q.write) ∈ (ctxOf t ctx).ats) ∧
    (∃ t, exec (.priInvalidRequest ctx page) s = .next t ∧ ¬ Asked t ctx page ∧ t.fns = s.fns) ∧
    ∃ t, exec (.priResponseFailure ctx page) s = .next t ∧ ¬ Asked t ctx page ∧
      (fnOf t (ctxOf s ctx).cfg.fn).priStopped = true) ∧
  (∀ s ctx page tag va, s.frags = [] → NoWriteBacks s ctx → pageOf va = page → tag ≠ 0 →
    (ctxOf s ctx).pri = [{ page := page, write := true, tag := tag }] → translate s ctx va true = .page → readOnlyPage s ctx va = false →
    engineTr s ctx tag va true = .wait ∧ ∃ t, exec (.priInvalidRequest ctx page) s = .next t ∧ engineTr t ctx tag va true = .fail) ∧
  (∀ s ctx page ans, ¬ AskedAts s ctx page → exec (.atsCompletion ctx page ans) s = .next s) ∧
  (∀ s ctx page, AskedAts s ctx page → NoWriteBacks s ctx →
    (∀ a : AtsAnswer, ∃ t, exec (.atsCompletion ctx page (some a)) s = .next t ∧ ¬ AskedAts t ctx page ∧
      let bytes := if a.big then 2097152 else 65536
      let lo := page / bytes * bytes
      ∀ va write, (ctxOf s ctx).cfg.paged = true → (ctxOf s ctx).exmap = [] → inHeap (ctxOf s ctx).cfg va.toNat = false →
        lo ≤ va.toNat → va.toNat < lo + bytes → (if write then a.write else a.read) = true →
        translate t ctx va write = hostAddr s (a.addr.toNat + (va.toNat - lo))) ∧
    ∃ t, exec (.atsCompletion ctx page none) s = .next t ∧
      ∀ w, (page, w) ∈ (ctxOf s ctx).ats → (page, w) ∈ (ctxOf t ctx).denied ∧ (page, w) ∉ (ctxOf t ctx).ats) ∧
  (∀ s ctx page bytes, let meets := fun (lo n : Nat) => lo < page + bytes ∧ page < lo + n
    ((∃ r ∈ s.remotes, r.2.ctx = ctx ∧ meets r.2.addr.toNat r.2.bytes) → exec (.atsInvalidation ctx page bytes) s = .next s) ∧
    ((∀ r ∈ s.remotes, r.2.ctx = ctx → ¬ meets r.2.addr.toNat r.2.bytes) → ∃ t, exec (.atsInvalidation ctx page bytes) s = .next t ∧
      (∀ e, e ∈ (ctxOf t ctx).tlb ↔ e ∈ (ctxOf s ctx).tlb ∧ ¬ meets e.page e.bytes) ∧
      (ctxOf t ctx).exmap = (ctxOf s ctx).exmap ∧ t.dirty = [] ∧ t.reds = [])) ∧
  (∀ s req ans, (Table.get? s.remotes req = none → exec (.remoteResponse req ans) s = .next s ∧
      exec (.remoteTimeout req) s = .next s) ∧
    ∀ r, Table.get? s.remotes req = some r →
      (∀ l : Fin 32, l.val = r.lane → r.tag = none → r.ap = false → (waveOf s r.wave).group = r.group →
        (waveOf s r.wave).lanes[l].life = .live → (∃ why, (waveOf s r.wave).lanes[l].wait = .stall why) →
        (∃ t, exec (.remoteResponse req ans) s = .next t ∧ Table.get? t.remotes req = none ∧ t.wall = s.wall ∧
          (waveOf t r.wave).lanes[l].answers = (waveOf s r.wave).lanes[l].answers ++ [(r.pa, some ans)]) ∧
        ∃ t, exec (.remoteTimeout req) s = .next t ∧ Table.get? t.remotes req = none ∧
          t.wall = max s.wall (r.since + 1000 * (ctxOf s r.ctx).cfg.timeoutUs) ∧
          (waveOf t r.wave).lanes[l].answers = (waveOf s r.wave).lanes[l].answers ++ [(r.pa, none)]) ∧
      ∀ tag, r.tag = some tag → Table.get? s.ctxs r.ctx ≠ none → NoWriteBacks s r.ctx →
        (∃ t, exec (.remoteResponse req ans) s = .next t ∧
          (ctxOf t r.ctx).farAns = (ctxOf s r.ctx).farAns ++ [(tag, r.pa / 2 ^ 39, some ans)]) ∧
        ∃ t, exec (.remoteTimeout req) s = .next t ∧
          (ctxOf t r.ctx).farAns = (ctxOf s r.ctx).farAns ++ [(tag, r.pa / 2 ^ 39, none)]) ∧
  (∀ s ctx va pkg c, Table.get? s.ctxs ctx = some c →
    (∀ pa, translate s ctx va false = .ok pa → exec (.inbound ctx va pkg none) s = .next (touchPolders s ctx va.toNat 8)) ∧
    (∀ pa v, translate s ctx va true = .ok pa → ∃ t, exec (.inbound ctx va pkg (some v)) s = .next t ∧ WrittenAt s t pa 8 v.toNat) ∧
    ∀ q wr, LogRoom s ctx q →
      (translate s ctx va wr.isSome = .page ∨ (∃ d, translate s ctx va wr.isSome = .refused d) →
        ∃ t, exec (.inbound ctx va pkg wr) s = .next t ∧ Logged s t ctx q 3 15 va.toNat (pkg % 128)) ∧
      (∀ a, translate s ctx va wr.isSome = .remote a →
        ∃ t, exec (.inbound ctx va pkg wr) s = .next t ∧ Logged s t ctx q 3 22 va.toNat (pkg % 128))) ∧
  (∀ s port, port < 36 →
    ((insertNat port s.portsDown).length < 36 → exec (.portFailure port) s = .next { s with portsDown := insertNat port s.portsDown }) ∧
    ∀ n c q, 36 ≤ (insertNat port s.portsDown).length → s.degraded = false → (∃ p < s.packages, p ≠ s.pkg) → s.packages < 2 ^ 64 →
      s.ctxs = [(n, c)] → LogRoom s n q →
      ∃ t, exec (.portFailure port) s = .next t ∧ PodDegrades s t n q c fun p => p < s.packages ∧ p ≠ s.pkg) ∧
  (∀ s p n c q, p < s.packages → p ≠ s.pkg → s.degraded = false → s.packages < 2 ^ 64 → s.ctxs = [(n, c)] → LogRoom s n q →
    PodDegrades s (packageLost s p) n q c (· = p)) ∧
  ∀ s ctx, s.me.present = false →
    (s.degraded = false → exec (.podDegradedTimeout ctx) s = .next s) ∧
    ∀ k w (l : Fin 32) since e rest, s.degraded = true → Table.get? s.waves k = some w → w.key = k → w.ctx = ctx → w.present = true →
      w.ap = none → PodWaiter s w w.lanes[l] since → (∀ j : Fin 32, j ≠ l → w.lanes[j].life = .exited) →
      (∀ x ∈ s.waves, x.2.ctx = ctx → x = (k, w)) → freeEntries s ctx w.core = e :: rest → heldEntries s k < 16 →
      (ctxOf s ctx).cfg.hdlTab = 0 →
      ∃ t f, exec (.podDegradedTimeout ctx) s = .next t ∧
        t.wall = max s.wall (since + 1000 * (ctxOf s ctx).cfg.timeoutUs) ∧
        Table.get? t.frags (slotKey ctx w.core e) = some f ∧ f.cause = .remoteTimeout ∧ f.lanes = laneBit l ∧ f.wave = k ∧
        f.st = .parked

namespace Sys2Proof.Claims

/-! ### The distributor, launches, sluices and the culvert -/

/-- A launch record that the part refuses for its own fields, with the first failing check (03 R79, R80). -/
def recordSays (r : Nat) : Nat :=
  let good := fieldAt r 3 1 ≤ 3 ∧ fieldAt r 8 8 % 256 = 0 ∧ 1 ≤ fieldAt r 0x10 4 ∧ fieldAt r 0x10 4 < 2 ^ 31 ∧
    fieldAt r 0x20 8 % 8 = 0 ∧ fieldAt r 0x28 8 % 8 = 0
  if fieldAt r 0 2 ≠ 1 then 0x20
  else if 3 < fieldAt r 2 1 ∨ fieldAt r 4 4 ≠ 0 ∨ fieldAt r 0x14 4 ≠ 0 ∨ fieldAt r 0x30 16 ≠ 0 then 0x21
  else if good then 0 else 0x22

/-- A launch has the fields of its record (03 R79). -/
structure LaunchOf (la : Launch) (ctx q idx r : Nat) : Prop where
  who : la.ctx = ctx ∧ la.queue = q ∧ la.record = idx
  flags : la.coResident = (fieldAt r 2 1).testBit 0 ∧ la.ordered = (fieldAt r 2 1).testBit 1 ∧ la.prio = fieldAt r 3 1
  kernel : la.kern.obj.toNat = fieldAt r 8 8
  groups : la.ngroups = fieldAt r 0x10 4 ∧ la.placed = 0 ∧ la.retired = 0 ∧ la.ending = 0 ∧ la.log = []
  items : la.items = (if fieldAt r 0x18 8 = 0 then la.kern.items else fieldAt r 0x18 8) ∧ la.nextItem = 0
  args : la.args.toNat = fieldAt r 0x20 8 ∧ la.status.toNat = fieldAt r 0x28 8

/-- No thread, copy, task or held push of a group is left (03 R72). -/
def GroupOver (s : State) (gk : Nat) : Prop :=
  (∀ w ∈ allWaves s, w.group ≠ gk) ∧ (∀ e ∈ s.copies, e.2.group ≠ gk) ∧ (∀ e ∈ s.tasks, e.2.group ≠ gk) ∧
    ∀ p ∈ s.pushes, p.group ≠ gk

/-- Every group of a launch that was or will be placed has retired (03 R80, R81). -/
def AllRetired (la : Launch) : Prop := la.retired = if la.ending ≠ 0 then la.placed else la.ngroups

/-- The status word of a finished launch can be written, and nothing of the context waits in a core, for a page or for another
package. -/
structure StatusAt (s : State) (la : Launch) (pa : Nat) : Prop where
  place : Linear s la.ctx la.status 8 pa
  aligned : la.status.toNat % 8 = 0
  calm : s.dirty = [] ∧ s.reds = [] ∧ NoAnswers s la.ctx

/-- How far a core lies ahead in the search for one (03 R81). -/
def coresAway (s : State) (c : Nat) : Nat := if s.search ≤ c then c - s.search else c + 1152 - s.search

/-- No fragment waits for room, and no push is held. -/
def NoWaitingPush (s : State) : Prop := (∀ f ∈ s.frags, f.2.cause ≠ .spill) ∧ s.pushes = []

end Sys2Proof.Claims

/-- Launch records: the distributor takes the next record of a queue and writes the queue's new count; it passes over a record of
type 0, refuses one with the first failing check in its status word, and otherwise the launch has the fields of its record (03
R79, R80, 16 R339). The model's choices, not the spec's: an unreadable ring entry (log 54); records that await a translation are
held (log 66). -/
def Obligations.RecordsLaunch : Prop :=
  (∀ s q, (∀ x, Table.get? s.queues q = some x → x.held = none ∧ (x.cons = x.prod ∨ (ctxOf s x.ctx).ending = true)) →
    exec (.launchRecord q) s = .next s) ∧
  (∀ s q x r pa, Table.get? s.queues q = some x → x.held = none → x.cons ≠ x.prod → (ctxOf s x.ctx).ending = false →
    NoAnswers s x.ctx → Linear s x.ctx x.wb 8 pa →
    let idx := x.cons.toNat % x.entries
    engineRead s x.ctx (tagLaunch q) none (x.ring + BitVec.ofNat 64 (64 * idx)) 64 = .ok r →
    ∃ s1, exec (.launchRecord q) s = exec (.launchRecord q) s1 ∧
      WrittenAt s s1 pa 8 ((if x.err then 2 ^ 63 else 0) + (x.cons + 1).toNat) ∧
      (∀ k, Table.get? s1.queues k = if k = q then
        some { x with cons := x.cons + 1, held := some (idx, r), wbPending := false, wbFailed := false }
        else Table.get? s.queues k) ∧
      s1 = { s with queues := s1.queues, mem := s1.mem, poison := s1.poison }) ∧
  ∀ s q x idx r, s.stuck = none → Table.get? s.queues q = some x → x.held = some (idx, r) → NoAnswers s x.ctx →
    let freed := fun (t : State) => ∀ k, Table.get? t.queues k = if k = q then some { x with held := none } else Table.get? s.queues k
    (fieldAt r 0 2 = 0 → ∃ t, exec (.launchRecord q) s = .next t ∧ freed t ∧ t = { s with queues := t.queues }) ∧
    (∀ pa, fieldAt r 0 2 ≠ 0 → recordSays r ≠ 0 → s.dirty = [] → s.reds = [] → fieldAt r 0x28 8 % 8 = 0 →
      Linear s x.ctx (BitVec.ofNat 64 (fieldAt r 0x28 8)) 8 pa →
      ∃ t, exec (.launchRecord q) s = .next t ∧ freed t ∧ WrittenAt s t pa 8 (recordSays r) ∧ t.launches = s.launches) ∧
    ∀ la, acceptRecord s x.ctx q idx r = .ok la → LaunchOf la x.ctx q idx r ∧
      ∃ t, exec (.launchRecord q) s = .next t ∧ freed t ∧
        t = { s with queues := t.queues, launches := Table.set s.launches s.fresh la, fresh := s.fresh + 1 }

/-- Groups: a dike's turn places the next group of a launch on the first core, from the one behind the last, on which it fits, with
every thread at the entry and its item; records of a firing land before its waves start; a core claims items; a group retires
once nothing of it is left; and the last one lets the log be applied and the status word be written (03 R72 to R75, R80, R81, 04
R116, 10 R279 to R281). The model's choices, not the spec's: where the search for a core begins (log 65); which queue a turn may
serve (log 66); when records land (log 67); the lowest free wave slots (log 94). -/
def Obligations.GroupsRun : Prop :=
  (∀ s ctx k lk c, s.search ≤ 1152 → pickCore s ctx k lk = some c →
    let d := Table.getD s.dikes (ctxOf s ctx).cfg.dike {}
    d.quads.getLsbD (c / 4) = true ∧ fits s ctx c k lk = true ∧
      ∀ j < 1152, d.quads.getLsbD (j / 4) = true → fits s ctx j k lk = true → coresAway s c ≤ coresAway s j) ∧
  (∀ s dike d ctx lk (la : Launch) core, Table.get? s.dikes dike = some d → d.running = some ctx → s.launches = [(lk, la)] →
    la.ctx = ctx → la.queue < 131072 → la.ending = 0 → la.placed < la.ngroups → la.coResident = false → la.kern.refill = false →
    (∀ e ∈ s.queues, e.2.ctx = ctx → e.1 = la.queue) → (∀ e ∈ s.bins, e.2.ctx ≠ ctx) →
    pickCore s ctx la.kern (some lk) = some core →
    let gk := s.fresh
    ∃ t g, exec (.distributorTurn dike) s = .next t ∧ Table.get? t.groups gk = some g ∧
      g.launch = some lk ∧ g.kern = la.kern ∧ g.ctx = ctx ∧ g.core = core ∧ g.index = la.placed ∧ g.ngroups = la.ngroups ∧
      g.args = la.args ∧ g.landing = [] ∧ (∀ k, k ≠ gk → Table.get? t.groups k = Table.get? s.groups k) ∧
      Table.get? t.launches lk = some { la with placed := la.placed + 1 } ∧ t.search = core + 1 ∧ t.mem = s.mem ∧
      Table.get? t.dikes dike = some { d with rot := la.queue + 1 } ∧
      ∀ (i : Nat) k, g.waves[i]? = some k → ∃ w, Table.get? t.waves k = some w ∧ w.present = true ∧ w.key = k ∧ w.ctx = ctx ∧
        w.core = core ∧ w.group = gk ∧ w.index = i ∧ w.prio = la.prio ∧ w.parked = false ∧
        (2 ≤ la.kern.sregs → readS w 0 = la.args.setWidth 32 ∧ readS w 1 = (la.args >>> (32 : Nat)).setWidth 32) ∧
        ∀ l : Fin 32, if i * 32 + l.val < la.kern.gsize then
            w.lanes[l].life = .live ∧ w.lanes[l].pc = la.kern.obj + BitVec.ofNat 64 la.kern.entry ∧ w.lanes[l].meets = [] ∧
              w.lanes[l].item = BitVec.ofNat 64 (la.placed * la.kern.gsize + (i * 32 + l.val)) ∧ w.lanes[l].flags = 0
          else w.lanes[l].life = .exited) ∧
  (∀ s gk g b x, Table.get? s.groups gk = some g → g.bin = some b → Table.get? s.bins b = some x →
    (g.landing = [] → exec (.nodeGroupStart gk) s = .next s) ∧
    (g.landing ≠ [] → ∃ t, exec (.nodeGroupStart gk) s = .next t ∧ (groupOf t gk).landing = [] ∧
      (∀ (i : Nat) r, g.landing[i]? = some r →
        number (spByte (groupOf t gk)) (RecSize.bytes x.size * i) (RecSize.bytes x.size) = r % 256 ^ RecSize.bytes x.size) ∧
      (∀ o, RecSize.bytes x.size * g.landing.length ≤ o → spByte (groupOf t gk) o = spByte g o) ∧
      (∀ k ∈ wavesOf s gk, (waveOf t k).parked = false) ∧ t.mem = s.mem)) ∧
  (∀ s core lk, (Table.getD s.launches lk {}).kern.refill = false ∨ queuesItems s lk core = false →
    exec (.itemQueueRefill core lk) s = .next s) ∧
  (∀ s core lk la, Table.get? s.launches lk = some la → la.kern.refill = true → queuesItems s lk core = true →
    (Table.getD la.itemq core []).length < 32 → la.nextItem < la.items →
    let n := min 32 (la.items - la.nextItem)
    ∃ t x, exec (.itemQueueRefill core lk) s = .next t ∧ t = { s with launches := t.launches } ∧
      (∀ k, Table.get? t.launches k = if k = lk then some x else Table.get? s.launches k) ∧ x.nextItem = la.nextItem + n ∧
      x = { la with itemq := x.itemq, nextItem := x.nextItem } ∧
      ∀ c, Table.getD x.itemq c [] = Table.getD la.itemq c [] ++
        if c = core then (List.range n).map (la.nextItem + ·) else []) ∧
  (∀ s gk g, Table.get? s.groups gk = some g → (¬ GroupOver s gk → exec (.groupRetire gk) s = .next s) ∧
    ∀ lk la, GroupOver s gk → g.launch = some lk → Table.get? s.launches lk = some la →
      (¬ AllRetired { la with retired := la.retired + 1 } ∨ la.log ≠ [] → ∃ t, exec (.groupRetire gk) s = .next t ∧
        (∀ k, Table.get? t.groups k = if k = gk then none else Table.get? s.groups k) ∧
        (∀ k, Table.get? t.launches k = if k = lk then some { la with retired := la.retired + 1 } else Table.get? s.launches k) ∧
        (∀ e, e ∈ t.acc ↔ e ∈ s.acc ∧ e.2.owner ≠ gk + 1) ∧
        t = { s with groups := t.groups, launches := t.launches, acc := t.acc }) ∧
      ∀ pa, AllRetired { la with retired := la.retired + 1 } → la.log = [] → StatusAt s la pa →
        ∃ t, exec (.groupRetire gk) s = .next t ∧ Table.get? t.groups gk = none ∧ Table.get? t.launches lk = none ∧
          WrittenAt s t pa 8 (((if la.ending ≠ 0 then la.ending else 1) + (la.retired + 1) * 2 ^ 32) % 2 ^ 64)) ∧
  (∀ s lk la, Table.get? s.launches lk = some la → (¬ AllRetired la → exec (.reductionLogApply lk) s = .next s) ∧
    ∀ pa, AllRetired la → StatusAt s la pa →
      let word := ((if la.ending ≠ 0 then la.ending else 1) + la.retired * 2 ^ 32) % 2 ^ 64
      (la.log = [] → ∃ t, exec (.reductionLogApply lk) s = .next t ∧ Table.get? t.launches lk = none ∧ WrittenAt s t pa 8 word) ∧
      (∀ r, la.log = [r] → translate s la.ctx r.va true = .ats →
        ∃ t, exec (.reductionLogApply lk) s = .next t ∧ Table.get? t.launches lk = some la ∧ AskedAts t la.ctx (pageOf r.va)) ∧
      ∀ r ra, la.log = [r] → translate s la.ctx r.va true = .ok ra → poisoned s ra 4 = false → Apart ra 4 pa 8 →
        ∃ t, exec (.reductionLogApply lk) s = .next t ∧ Table.get? t.launches lk = none ∧ number (memByte t) pa 8 = word ∧
          number (memByte t) ra 4 = (fAdd .rn (f32 (BitVec.ofNat 32 (number (memByte s) ra 4))) (f32 r.val)).1 % 2 ^ 32 ∧
          ∀ i, (i < ra ∨ ra + 4 ≤ i) → (i < pa ∨ pa + 8 ≤ i) → memByte t i = memByte s i) ∧
  ∀ log, (logOrder log).Perm log ∧
    (logOrder log).Pairwise (fun a b => a.group < b.group ∨ (a.group = b.group ∧ a.thread ≤ b.thread)) ∧
    ∀ g th, (logOrder log).filter (fun r => r.group = g && r.thread = th) = log.filter fun r => r.group = g && r.thread = th

/-- Sluices and the culvert: a bin fires its oldest records once the oldest is old enough; a parked push that waited for a
millisecond traps; a shadow queue is sent once its oldest record is old enough, and a batch enters the remote unit or is dropped
with a record; one that a peer sends enters its bin in order, where that may take it (04 R114 to R116, R122, R123). The model's
choices, not the spec's: spillway and proxy bytes (log 26); when records land (log 67); held pushes (log 92). -/
def Obligations.SluicesMove : Prop :=
  (∀ s b x r rest core, s.bins = [(b, x)] → x.recs = r :: rest → x.recs.length < x.count → s.wall < r.enter + 1000 * x.ageUs →
    x.enable = true → (Table.getD s.dikes (ctxOf s x.ctx).cfg.dike {}).running = some x.ctx → NoWaitingPush s →
    pickCore s x.ctx x.kern none = some core →
    ∃ t g, exec (.sluiceAgeReady b) s = .next t ∧ t.wall = r.enter + 1000 * x.ageUs ∧
      Table.get? t.groups s.fresh = some g ∧ g.launch = none ∧ g.bin = some b ∧ g.kern = x.kern ∧
      g.core = core ∧ g.args = x.args ∧ g.slCount = x.recs.length ∧ g.slAged = true ∧ g.slHandle = s.pkg * 2 ^ 14 + b ∧
      g.landing = x.recs.map BinRec.bytes ∧ (∀ k ∈ g.waves, ∃ w, Table.get? t.waves k = some w ∧ w.parked = true) ∧
      Table.get? t.bins b = some { x with recs := [], turnKept := false, fullSince := none }) ∧
  (∀ s b x, Table.get? s.bins b = some x → x.recs = [] → exec (.sluiceAgeReady b) s = .next s) ∧
  (∀ s fk f, Table.get? s.frags fk = some f → f.cause = .spill → f.st = .waiting →
    (groupOf s (waveOf s f.wave).group).halt = .running → f.inner = false →
    (ctxOf s (waveOf s f.wave).ctx).cfg.hdlTab = 0 →
    ∃ t g, exec (.spillTimeout fk) s = .next t ∧ t.wall = max s.wall (f.since + 1000000) ∧
      Table.get? t.frags fk = some g ∧ g = { f with st := .parked, inner := false }) ∧
  (∀ s ctx die bin q r rest sz, shadowOf s ctx die bin = some q → q.recs = r :: rest → (∀ x ∈ q.recs, x.size = sz) →
    (s.degraded = true → bin / 2 ^ 14 % 128 ∉ s.lost) → NoWaitingPush s →
    let bk := s.fresh
    ∃ t, exec (.shadowQueueAge ctx die bin) s = .next t ∧ t.wall = max s.wall (r.enter + 2000) ∧
      shadowOf t ctx die bin = some { q with recs := [], slot := none, pos := 0 } ∧
      (∀ k, Table.get? t.batches k = if k = bk then
        some { ctx := ctx, die := die, bin := bin, size := sz, recs := q.recs.map ShadowRec.bytes }
        else Table.get? s.batches k) ∧ t.mem = s.mem) ∧
  (∀ s ctx b x sz recs, Table.get? s.bins b = some x →
    let h := s.pkg * 2 ^ 14 + b
    let p := batchIn s ctx b sz recs
    (binNamed s ctx h ≠ some b ∨ x.enable = false ∨ x.size ≠ sz ∨ 64 + x.spillBytes / RecSize.bytes x.size < x.recs.length + recs.length →
      p = s) ∧
    (binNamed s ctx h = some b → x.enable = true → x.size = sz → recs ≠ [] →
      x.recs.length + recs.length ≤ 64 + x.spillBytes / RecSize.bytes x.size →
      ∃ y, Table.get? p.bins b = some y ∧ y.recs = x.recs ++ recs.map (fun r => { bytes := r, enter := s.wall }) ∧
        y = { x with recs := y.recs, fullSince := y.fullSince } ∧ (x.recs.length + recs.length ≤ 64 → p.mem = s.mem) ∧
        ∀ k, k ≠ b → Table.get? p.bins k = Table.get? s.bins k)) ∧
  ∀ s k b, Table.get? s.batches k = some b →
    let older := ∃ e ∈ s.batches, e.1 < k ∧ e.2.ctx = b.ctx ∧ e.2.die = b.die ∧ e.2.bin = b.bin
    (older → ∀ ok, exec (.remoteBatchEntry k ok) s = .next s) ∧
    (¬ older → (∀ q, shadowOf s b.ctx b.die b.bin = some q → ∃ t, exec (.remoteBatchEntry k true) s = .next t ∧
        Table.get? t.batches k = none ∧
        shadowOf t b.ctx b.die b.bin = some { q with entered := q.entered + b.recs.length } ∧ t.mem = s.mem) ∧
      ∀ pa, LogRoom s b.ctx pa → b.recs.length < 2 ^ 64 → ∃ t, exec (.remoteBatchEntry k false) s = .next t ∧
        Table.get? t.batches k = none ∧ Logged s t b.ctx pa 4 0xFF 0 b.recs.length ∧
        number (memByte t) (pa + 0x14) 4 = b.bin % 2 ^ 32)

namespace Sys2Proof.Claims

/-! ### Waves in and out, results, time, contexts in and out -/

/-- Nothing is in the issue stage, and the table holds a wave under its own key. -/
def Stored (s : State) (w : Wave) : Prop := s.me.present = false ∧ Table.get? s.waves w.key = some w

/-- A pending wave of a core is ready and comes before every other (03 R83). -/
def FirstPending (s : State) (ctx core : Nat) (w : Wave) : Prop :=
  Stored s w ∧ w ∈ allWaves s ∧ w.ctx = ctx ∧ w.core = core ∧ w.active = false ∧ waveReady s w = true ∧
    ∀ x ∈ allWaves s, x.ctx = ctx → x.core = core → x.active = false → waveReady s x = true → x ≠ w →
      x.prio < w.prio ∨ (x.prio = w.prio ∧ w.age < x.age)

/-- The active waves of a core whose resident context is given. -/
def activeOn (s : State) (core : Nat) : List Wave := (coreWaves s core).filter Wave.active

/-- One entry of the wave table changed. -/
def WaveSet (s t : State) (k : Nat) (w : Wave) : Prop :=
  t = { s with waves := t.waves } ∧ ∀ j, Table.get? t.waves j = if j = k then some w else Table.get? s.waves j

/-- A wave has come into the active set in the place of another. -/
def WavesSwapped (s t : State) (out inn : Wave) : Prop :=
  t = { s with waves := t.waves } ∧ ∀ j, Table.get? t.waves j =
    if j = inn.key then some { inn with active := true, swappable := false }
    else if j = out.key then some { out with active := false, readySince := t.wall }
    else Table.get? s.waves j

/-- A lane waits for a translation, or for another package at a word whose W bit is clear: waits that keep the wave in its slot
(03 R83, 11 R286). -/
def KeepsSlot (l : Lane) : Prop := (∃ ps, l.wait = .stall (.ats ps)) ∨ ∃ reqs, l.wait = .stall (.answers reqs false)

/-- The next entry of a context's expansion ring offers a frame (16 R352). -/
structure FrameOffered (s : State) (ctx ring frame : Nat) : Prop where
  place : ((ctxOf s ctx).cfg.expRing + (ctxOf s ctx).cfg.heapOff + BitVec.ofNat 64 (8 * ((ctxOf s ctx).expHead % 64))).toNat = ring
  there : podAddr s ring = .ok ring
  offer : let e := number (memByte s) ring 8
    e.testBit 0 = true ∧ frame = e / 65536 % 2 ^ 23 * 65536
  whole : ∀ i < 65536, podAddr s (s.pkg * 2 ^ 39 + frame + i) = .ok (s.pkg * 2 ^ 39 + frame + i)
  apart : Apart ring 8 (s.pkg * 2 ^ 39 + frame) 65536

end Sys2Proof.Claims

/-- Waves: a free slot, or that of a swappable wave, goes to the first ready pending wave; one that has been ready for 4,096 cycles
comes in by force in the place of the wave that waited longest, or of the lowest priority; results return; sleeps and timers run
down with run cycles; words reach their queue; pending guards resolve; `red`s are performed (03 R76, R83 to R85, 04 R99, R101,
R106 to R108, 10 R262, 11 R301, 17 R396). The model's choices, not the spec's: one cycle is one nanosecond (log 10); what a read
sees (log 13); which waves start active (log 14); codes of a failed read (log 23); pending guards (log 30); registers in flight
(log 73). -/
def Obligations.WavesMove : Prop :=
  (∀ s ctx core inn, FirstPending s ctx core inn → (∀ w ∈ coreWaves s core, w.ctx = ctx) → inn ∈ coreWaves s core →
    ((activeOn s core).length < 8 → ∃ t, exec (.waveSwap core) s = .next t ∧
      WaveSet s t inn.key { inn with active := true, swappable := false }) ∧
    (8 ≤ (activeOn s core).length →
      ((∀ w ∈ activeOn s core, canSwap s w = false) → exec (.waveSwap core) s = .next s) ∧
      ∀ out, out ∈ activeOn s core → canSwap s out = true → (∀ w ∈ activeOn s core, canSwap s w = true → w = out) →
        Stored s out → out.key ≠ inn.key →
        ∃ t, exec (.waveSwap core) s = .next t ∧ WavesSwapped s t out inn)) ∧
  (∀ s w, (w.swappable = true → w.vfly ≠ [] → canSwap s w = true) ∧
    (w.swappable = false → w.full = 0 → (∃ l : Fin 32, w.lanes[l].life = .live) →
      (∀ l : Fin 32, w.lanes[l].life = .live → KeepsSlot w.lanes[l]) → canSwap s w = false)) ∧
  (∀ s core inn, let due := fun (w : Wave) => w ∈ coreWaves s core ∧ w.active = false ∧ waveReady s w = true
    let p := passTo s (inn.readySince + 4096)
    let came := { waveOf p inn.key with active := true, swappable := false }
    Stored s inn → due inn → (∀ w, due w → w ≠ inn → inn.readySince < w.readySince) → p.wall = max s.wall (inn.readySince + 4096) ∧
    ((activeOn p core).length < 8 → ∃ t, exec (.forcedSwap core) s = .next t ∧ WaveSet p t inn.key came) ∧
    ∀ out, 8 ≤ (activeOn p core).length → forcedVictim p (activeOn p core) = some out → Stored p out → out.key ≠ inn.key →
      ∃ t, exec (.forcedSwap core) s = .next t ∧ WavesSwapped p t out (waveOf p inn.key)) ∧
  (∀ s ns w, Stored s w → (waveOf (passTime s ns) w.key).readySince = if waveReady s w = true then w.readySince else s.wall + ns) ∧
  (∀ s act out, forcedVictim s act = some out → out ∈ act ∧
    ((∃ w ∈ act, waveReady s w = false) → waveReady s out = false ∧
      ∀ w ∈ act, waveReady s w = false → out.lastIssue ≤ w.lastIssue) ∧
    ((∀ w ∈ act, waveReady s w = true) → ∀ w ∈ act, out.prio < w.prio ∨ (out.prio = w.prio ∧ w.age ≤ out.age))) ∧
  (∀ s w reg, Stored s w →
    (reg < 512 → ∃ t, exec (.loadResultReturn w.key reg) s = .next t ∧
      let fly := w.vfly.filter fun r => r ≠ reg
      WaveSet s t w.key { w with vfly := fly, swappable := w.swappable && !fly.isEmpty }) ∧
    (512 ≤ reg → (∀ e ∈ w.guards, ∀ v k m, e.2 = .pending v k m → k % 16 + 512 ≠ reg) →
      ∃ t, exec (.loadResultReturn w.key reg) s = .next t ∧
        WaveSet s t w.key { w with kfly := Table.erase w.kfly (reg - 512) })) ∧
  (∀ s w u, Stored s w → w.ap = none → residentCtx s w.ctx = true → (wakeTimes s w).min? = some u → w.run < u →
    ∃ t, exec (.sleepExpiry w.key) s = .next t ∧ t.wall = s.wall + (u - w.run) ∧ (waveOf t w.key).run = u ∧
      t.cycles = s.cycles + (u - w.run) ∧
      (∀ l : Fin 32, w.lanes[l].life = .live → w.lanes[l].wait = .sleep u →
        waitOver t (waveOf t w.key) (waveOf t w.key).lanes[l] = true) ∧ t.mem = s.mem) ∧
  (∀ s w, Stored s w → w.present = true → w.timer ≠ 0 → residentCtx s w.ctx = true →
    ∃ t, exec (.waveTimerExpiry w.key) s = .next t ∧ t.wall = s.wall + w.timer.toNat ∧ t.cycles = s.cycles + w.timer.toNat ∧ (waveOf t w.key).timer = 0 ∧
      (waveOf t w.key).run = w.run + w.timer.toNat ∧ (waveOf t w.key).causes = w.causes ||| causeBit .timer ∧
      (∀ l : Fin 32, (waveOf t w.key).lanes[l] = if w.lanes[l].life = .exited then w.lanes[l] else { w.lanes[l] with timerDue := true }) ∧
      t.mem = s.mem) ∧
  (∀ s ap w p (q : Fin 4) i a m, s.me.present = false → Table.get? s.aps ap = some w → w.ap = some p →
    let l := Table.getD p.queues q.val []
    let filled := fun (t : State) (x : QWord) => ∃ p', (apOf t ap).ap = some p' ∧ p' = { p with queues := p'.queues } ∧
      ∀ j, Table.getD p'.queues j [] = if j = q.val then l.set i x else Table.getD p.queues j []
    (l[i]? = some (.reserved a true m) → linesPresent (groupOf s w.group) a.toNat 4 = true →
      ∃ t, exec (.dlvReadReturn ap q i) s = .next t ∧
        filled t (.word (BitVec.ofNat 32 (number (spByte (groupOf s w.group)) a.toNat 4)) (spPoisoned (groupOf s w.group) a.toNat 4))) ∧
    (l[i]? = some (.reserved a true m) → linesPresent (groupOf s w.group) a.toNat 4 = false → exec (.dlvReadReturn ap q i) s = .next s) ∧
    (l[i]? = some (.reserved a false m) → NoAnswers s w.ctx → (∀ r ∈ s.reds, r.core ≠ w.core) →
      (∀ pa, translate s w.ctx a false = .ok pa → ∃ t, exec (.dlvReadReturn ap q i) s = .next t ∧
        filled t (.word (BitVec.ofNat 32 (number (seenByte s w.core) pa 4)) (poisoned s pa 4))) ∧
      (Table.get? s.ctxs w.ctx ≠ none → translate s w.ctx a false = .ats → ∃ t, exec (.dlvReadReturn ap q i) s = .next t ∧
        AskedAts t w.ctx (pageOf a) ∧ t.aps = s.aps) ∧
      (∀ pa, translate s w.ctx a false = .remote pa → (∀ r ∈ s.remotes, r.2.ap = false ∨ r.2.wave ≠ w.key ∨ r.2.addr ≠ a) →
        ∃ t, exec (.dlvReadReturn ap q i) s = .next t ∧ t.aps = s.aps ∧ Table.get? t.remotes s.fresh = some
          { ctx := w.ctx, wave := w.key, group := w.group, ap := true, addr := a, pa := pa, bytes := 4, since := s.wall }) ∧
      (∀ d, translate s w.ctx a false = .refused d → p.ended = false → ∃ t, exec (.dlvReadReturn ap q i) s = .next t ∧
        ∀ p', (apOf t ap).ap = some p' → p'.ended = true ∧ p'.code = 1 ∧ Table.getD p'.queues q.val [] = l.take i))) ∧
  (∀ s w (g : BitVec 3) v k m, Stored s w → guardOf w g = .pending v k m → k < 16 → s.tasks = [] → s.pushes = [] →
    (s.copies = [] → ∃ t, exec (.guardResolve w.key g) s = .next t ∧ t = { s with waves := t.waves } ∧
      (∀ (x : BitVec 3), guardOf (waveOf t w.key) x = match guardOf w x with
        | .pending v' k' m' => if k' = k then (if v' then .isTrue else .isFalse) else .pending v' k' m'
        | y => y) ∧ ∀ j, Table.get? (waveOf t w.key).kfly j = if j = k then none else Table.get? w.kfly j) ∧
    ∀ ck c, s.copies = [(ck, c)] → c.wave = w.key → c.group = w.group → c.guard = some (g, .pending v k m) → c.landed.length < c.targets.length * (c.len / 8) →
      ∃ t, exec (.guardResolve w.key g) s = .next t ∧
        Table.get? t.copies ck = if v then some { c with guard := some (g, .isTrue) } else none) ∧
  ∀ s (i : Nat) r, s.reds[i]? = some r → let n := if r.wide then 8 else 4
    ((∃ j : Nat, ∃ x, j < i ∧ s.reds[j]? = some x ∧ x.core = r.core ∧ x.pa < r.pa + 8 ∧ r.pa < x.pa + 8) → exec (.redApply i) s = .next s) ∧
    ((∀ (j : Nat) x, j < i → s.reds[j]? = some x → x.core = r.core → x.pa + 8 ≤ r.pa ∨ r.pa + 8 ≤ x.pa) →
      (poisoned s r.pa n = true → exec (.redApply i) s = .next { s with reds := s.reds.eraseIdx i }) ∧
      (poisoned s r.pa n = false → Table.rising s.dirty = true → r.pa % n = 0 → r.pa + n ≤ corePitch →
        ∃ t, exec (.redApply i) s = .next t ∧ t.reds = s.reds.eraseIdx i ∧
          number (memByte t) r.pa n =
            (atomValue r.op r.uns r.wide (BitVec.ofNat 64 (number (coreByte s r.core) r.pa n)) r.val 0).toNat % 256 ^ n ∧
          ∀ a < corePitch, (a < r.pa ∨ r.pa + n ≤ a) → coreByte t r.core a = coreByte s r.core a))

/-- Contexts: the scheduler chooses the runnable context of highest priority, among equals the one that ran least recently; a slice
ends, the banks change places, and they spill and fill; a cold page is expanded into the next frame of the ring, mapped and
reported (16 R341, R351 to R359). The model's choices, not the spec's: 64 cycles of a switch (log 10); the save area (log 26);
when a context is out (log 53); an expansion waits for room (log 62); what makes a context runnable (log 99). -/
def Obligations.ContextsSwitch : Prop :=
  (∀ s dike p c, choose s dike p = some c → ∃ x, (c, x) ∈ s.ctxs ∧ x.cfg.dike = dike ∧ x.ending = false ∧ p c = true ∧
    runnable s c = true ∧ ∀ e ∈ s.ctxs, e.2.cfg.dike = dike → e.2.ending = false → p e.1 = true → runnable s e.1 = true →
      e.2.cfg.prio < x.cfg.prio ∨ (e.2.cfg.prio = x.cfg.prio ∧ x.lastRan ≤ e.2.lastRan)) ∧
  (∀ s dike d r c, Table.get? s.dikes dike = some d → d.running = some r →
    let u := passTo s (d.sliceStart + 1000 * d.sliceUs)
    let p := setCtx u r fun x => { x with lastRan := u.wall }
    choose p dike (fun _ => true) = some c →
    let e := if r = c then { d with sliceStart := p.wall, chosen := none }
      else if d.shadow = some c ∨ d.spilling = true then { d with chosen := some c }
      else { d with chosen := some c, shadow := some c, filling := true }
    exec (.timeSliceEnd dike) s = .next { p with dikes := Table.set s.dikes dike e }) ∧
  (∀ s dike d, Table.get? s.dikes dike = some d → preempts s dike d = none →
    (d.chosen = none → exec (.contextSwitch dike) s = .next s) ∧
    ∀ c, d.chosen = some c →
      (d.shadow ≠ some c ∨ d.spilling = true ∨ d.filling = true → exec (.contextSwitch dike) s = .next s) ∧
      (d.shadow = some c → d.spilling = false → d.filling = false → (∀ r, d.running = some r → tasksBusy s r = false) →
        ∃ t, exec (.contextSwitch dike) s = .next t ∧ t.wall = s.wall + 64 ∧ t.cycles = s.cycles + 64 ∧
          Table.get? t.dikes dike = some { d with
            running := some c, shadow := d.running, chosen := none,
            spilling := d.running.isSome, filling := d.running.isNone, sliceStart := s.wall + 64 } ∧
          (∀ r, d.running = some r → ∀ k, Table.get? t.tasks k = (Table.get? s.tasks k).map fun x =>
            if x.ctx = r then { x with running := false } else x) ∧ t.mem = s.mem ∧
          ((∀ g ∈ s.groups, g.2.ctx ≠ c) → ∀ k w, Table.get? s.waves k = some w → (ctxOf s w.ctx).cfg.dike = dike →
            ∃ x, Table.get? t.waves k = some x ∧ x = { w with readySince := x.readySince }))) ∧
  (∀ s dike d, Table.get? s.dikes dike = some d →
    (d.spilling = false → exec (.bankSpillDone dike) s = .next s) ∧
    (d.spilling = true →
      let u := { s with fresh := s.fresh + 1 }
      let p := match d.shadow with
        | some o => setCtx u o fun c => { c with spilled := some s.fresh }
        | none => u
      exec (.bankSpillDone dike) s = .next { p with dikes := Table.set s.dikes dike { d with
        spilling := false, filling := true,
        shadow := match d.chosen with
          | some c => some c
          | none => choose p dike fun c => d.running ≠ some c } }) ∧
    exec (.bankFillDone dike) s = .next { s with dikes := Table.set s.dikes dike { d with filling := false } }) ∧
  (∀ s ctx page, page ∉ (ctxOf s ctx).expanding → exec (.expansionDone ctx page) s = .next s) ∧
  ∀ s ctx page slot ring frame, let c := ctxOf s ctx
    page ∈ c.expanding → page % 65536 = 0 → page < 2 ^ 64 → (∀ i < 65536, inHeap c.cfg (page + i) = false) →
    translate s ctx (BitVec.ofNat 64 page) false = .cold slot →
    FrameOffered s ctx ring frame → c.exmap.length < 1024 → RingHasRoom s.adm → s.adm.waiting = none → s.frags = [] →
    NoWriteBacks s ctx → slot ∈ s.zoneSlots → Memory.wf s.zoneData = true →
    ∃ p t, exec (.expansionDone ctx page) s = .next t ∧
      CompletionWritten p t (2 ^ 24 + c.expHead % 64 * 2 ^ 32) page ctx 0 ∧
      (memByte t ring).getLsbD 0 = false ∧ (ctxOf t ctx).expHead = c.expHead + 1 ∧
      (∀ i < 65536, memByte t (s.pkg * 2 ^ 39 + frame + i) = Table.getD s.zoneData (slot * 65536 + i) 0 ∧
        translate t ctx (BitVec.ofNat 64 (page + i)) false = .ok (s.pkg * 2 ^ 39 + frame + i)) ∧
      ∀ i < hostBase, (i ≠ ring) → (i < s.pkg * 2 ^ 39 + frame ∨ s.pkg * 2 ^ 39 + frame + 65536 ≤ i) → memByte t i = memByte s i

namespace Sys2Proof.Claims

/-! ### Reliability, power, resets -/

/-- One die's monitor counters changed. -/
def DieSet (s t : State) (die : Nat) (d : DieMon) : Prop :=
  t = { s with dies := t.dies, wall := t.wall } ∧ ∀ k, dieMon t k = if k = die then d else dieMon s k

/-- An event of kinds 2 to 7 has its completion, or is dropped and counted where the ring is full (16 R338, 18 R411). -/
def Reported (p t : State) (kind value addr die : Nat) : Prop :=
  (RingHasRoom p.adm → CompletionWritten p t (kind * 2 ^ 24 + value % 2 ^ 32 * 2 ^ 32) (addr % 2 ^ 64) 0 die) ∧
  (¬ RingHasRoom p.adm → t = { p with adm := { p.adm with
    cplLost := if p.adm.cplLost = 0xFFFFFFFF then p.adm.cplLost else p.adm.cplLost + 1 } })

/-- The row of a DPA begins to be spared, or its bank has no spare left and the host is told (18 R405, R411). -/
def RowSpared (p t : State) (dpa : Nat) : Prop :=
  let row := Config.rowOf dpa
  let bank := Config.bankOf row
  let n := Table.getD p.sparesBy bank (Config.repairedIn bank)
  if (Table.get? p.rowCopies row).isSome then t = p
  else if 2 ≤ n then Reported p t 4 0 dpa (dieOf dpa)
  else t = { p with dies := t.dies, rowCopies := Table.set p.rowCopies row (dpa, 0), sparesBy := Table.set p.sparesBy bank (n + 1) } ∧
    ∀ k, dieMon t k = if k = dieOf dpa then { dieMon p k with sparesUsed := (dieMon p k).sparesUsed + 1 } else dieMon p k

/-- A 32-bit count that saturates. -/
def counted (x : Word32) : Word32 := if x = 0xFFFFFFFF then x else x + 1

/-- An error in HBM that the code corrects counts for its die and its row; the fourth since the last patrol visit spares the row
(18 R405). -/
def ErrorCorrected (s t : State) (dpa : Nat) : Prop :=
  let row := Config.rowOf dpa
  let n := Table.getD s.rowErrors row 0
  ∃ p, p = { s with dies := p.dies, rowErrors := p.rowErrors } ∧
    (∀ k, dieMon p k = if k = dieOf dpa then { dieMon s k with ecccor := counted (dieMon s k).ecccor } else dieMon s k) ∧
    (∀ r, Table.get? p.rowErrors r = if r = row then (if n < 3 then some (n + 1) else none) else Table.get? s.rowErrors r) ∧
    if n < 3 then t = p else RowSpared p t dpa

/-- An uncorrectable error in HBM poisons its granule, is reported, and spares the row (18 R402, R405, R411). -/
def ErrorPoisons (s t : State) (dpa : Nat) : Prop := ∃ p q,
  p = { s with dies := p.dies, poison := insertNat ((s.pkg * 2 ^ 39 + dpa) / 64) s.poison } ∧
    (∀ k, dieMon p k = if k = dieOf dpa then { dieMon s k with eccunc := counted (dieMon s k).eccunc } else dieMon s k) ∧
    Reported p q 2 0 dpa (dieOf dpa) ∧ RowSpared q t dpa

end Sys2Proof.Claims

/-- The supply, the clock targets and the temperature: stretches are entered, counted and released; the package steps with its power
limit; a hot die lowers its own target, and at 110 degrees every launch is killed, what had been placed still ends, and only a
cold reset lets work begin again (18 R407, R408, R411). Which die the events of the whole package name is the model's choice
(log 9). The model's choices, not the spec's: what a power step reports (log 68); what goes on after a trip (log 70). -/
def Obligations.PowerFollows : Prop :=
  (∀ s die deep, (24 ≤ die → exec (.supplySag die deep) s = .next s) ∧ (die < 24 → ∃ t, exec (.supplySag die deep) s = .next t ∧ t.wall = s.wall ∧
    let d := dieMon s die
    let lv := if deep then 2 else 1
    DieSet s t die (if d.stretch < lv then { d with stretch := lv, sagAt := s.wall, fbcnt := counted d.fbcnt }
      else { d with sagAt := s.wall }))) ∧
  (∀ s die, (24 ≤ die ∨ (dieMon s die).stretch = 0 → exec (.stretchRelease die) s = .next s) ∧
    (die < 24 → (dieMon s die).stretch ≠ 0 → ∃ t, exec (.stretchRelease die) s = .next t ∧
      t.wall = max s.wall ((dieMon s die).sagAt + 1000) ∧
      DieSet s t die { dieMon s die with stretch := (dieMon s die).stretch - 1, sagAt := t.wall })) ∧
  (∀ s watts, let target := fun (clk : Nat) => if s.powerLimit < watts then max 600 (clk - 100)
      else if watts * 100 < s.powerLimit * 95 then min 1800 (clk + 100) else clk
    ((∀ k < 24, target (dieMon s k).clkTgt = (dieMon s k).clkTgt) → exec (.powerSample watts) s = .next s) ∧
    ((∃ k < 24, target (dieMon s k).clkTgt ≠ (dieMon s k).clkTgt) → ∃ p t, exec (.powerSample watts) s = .next t ∧
      p = { s with dies := p.dies, fresh := s.fresh + 1 } ∧ (∃ d < 24, Reported p t 5 (target (dieMon s d).clkTgt) 0 d) ∧
      ∀ k, dieMon p k = if k < 24 then { dieMon s k with clkTgt := target (dieMon s k).clkTgt } else dieMon s k)) ∧
  (∀ s die temp, let d := dieMon s die
    let hot := decide (1600 ≤ temp.toInt) || (!decide (temp.toInt < 1520) && d.hot)
    let clk := if hot = true then max 600 (d.clkTgt - 100) else d.clkTgt
    (24 ≤ die → exec (.thermalStep die temp) s = .next s) ∧
    (die < 24 → ∃ p t, exec (.thermalStep die temp) s = .next t ∧ p.wall = s.wall ∧ DieSet s p die { d with hot := hot, clkTgt := clk } ∧
      if clk = d.clkTgt then t = p else Reported p t 6 clk 0 die)) ∧
  (∀ s (temp : BitVec 16), (temp.toInt < 1760 ∨ s.adm.fatal = true → exec (.thermalTrip temp) s = .next s) ∧
    (1760 ≤ temp.toInt → s.adm.fatal = false → ∃ t, exec (.thermalTrip temp) s = .next t ∧ t.adm.fatal = true ∧
      t.adm.raised3 = s.adm.raised3 + 1 ∧ (∀ k la, Table.get? t.launches k = some la → la.ending ≠ 0) ∧
      (s.launches = [] → s.groups = [] → ∃ d < 24, Reported
        { s with adm := { s.adm with fatal := true, raised3 := s.adm.raised3 + 1 }, fresh := s.fresh + 1 } t 7 temp.toNat 0 d))) ∧
  ∀ s, s.adm.fatal = true → (∀ i, allowed s i = true → (∀ q, i ≠ .launchRecord q) ∧ (∀ d, i ≠ .distributorTurn d) ∧
      (∀ g, i ≠ .nodeGroupStart g) ∧ (∀ b, i ≠ .sluiceAgeReady b) ∧ ∀ d, i ≠ .contextSwitch d) ∧
    allowed s .coldReset = true ∧ (∀ g, allowed s (.groupRetire g) = true) ∧
    (∀ k, turnJob s (.env (.reductionLogApply k)) = .run (.reductionLogApply k) s) ∧ (∀ k, turnJob s (.issue k) = .state s) ∧
    (∀ k, turnJob s (.issueAp k) = .state s) ∧ turnJob s .admin = .state s

/-- Errors and their repair: a patrol visit starts the count of its row anew; an error in HBM that the code corrects counts, and the
fourth spares the row; any other poisons its granule and is reported, in the arrays of a die too; a spare copy carries line
after line and the row switches at its end without a byte changing (rows, DPAs and 16 lines per row as log 9 has them); a
stack's alert and refresh change no byte; a sampled request leaves its record (16 R363, R364, 18 R401 to R406, R410, R411,
R413). The model's choices, not the spec's: a full sample buffer (log 25); where errors come from (log 68); activate counts (log
74). -/
def Obligations.ErrorsRepaired : Prop :=
  (∀ s dpa f, usable dpa = false → exec (.patrolScrub dpa f) s = .next s) ∧
  (∀ s dpa, usable dpa = true →
    let p := { s with rowErrors := Table.erase s.rowErrors (Config.rowOf dpa) }
    exec (.patrolScrub dpa .clean) s = .next p ∧
    (∃ t, exec (.patrolScrub dpa .corrected) s = .next t ∧ ErrorCorrected p t dpa) ∧
    (∃ t, exec (.patrolScrub dpa .uncorrectable) s = .next t ∧ ErrorPoisons p t dpa) ∧
    ErrorCorrected s (arrayError s (.hbm dpa) true) dpa ∧ ErrorPoisons s (arrayError s (.hbm dpa) false) dpa) ∧
  (∀ s pl die, placeDie s pl = some die → (∀ dpa, pl ≠ .hbm dpa) →
    DieSet s (arrayError s pl true) die { dieMon s die with ecccor := counted (dieMon s die).ecccor } ∧
    ∃ p, DieSet (poisonPlace s pl) p die { dieMon s die with eccunc := counted (dieMon s die).eccunc } ∧ p.wall = s.wall ∧
      Reported p (arrayError s pl false) 2 0 (match pl with
        | .cache _ dpa => dpa
        | _ => 0) die) ∧
  (∀ s k w, s.me.present = false → Table.get? s.waves k = some w →
    (∀ n l, Table.getD (waveOf (poisonPlace s (.vreg k n l)) k).vpoison n 0 = Table.getD w.vpoison n 0 ||| laneBit l) ∧
    ∀ n, n ∈ (waveOf (poisonPlace s (.sreg k n)) k).spoison) ∧
  (∀ s row, (Table.get? s.rowCopies row = none → copyLine s row = s) ∧
    ∀ dpa p, Table.get? s.rowCopies row = some (dpa, p) →
      (p < 16 → copyLine s row = { s with rowCopies := Table.set s.rowCopies row (dpa, p + 1) }) ∧ (16 ≤ p → copyLine s row = s)) ∧
  (∀ s dpa, let row := Config.rowOf dpa
    (usable dpa = false ∨ Table.get? s.rowCopies row = none → exec (.rowSpareSwitch dpa) s = .next s) ∧
    ∀ at_ p, usable dpa = true → Table.get? s.rowCopies row = some (at_, p) →
      (p < 16 → exec (.rowSpareSwitch dpa) s = .next s) ∧
      (16 ≤ p → ∃ t, exec (.rowSpareSwitch dpa) s = .next t ∧
        Reported { s with rowCopies := Table.erase s.rowCopies row } t 3 0 at_ (dieOf at_))) ∧
  (∀ s k, let x := Table.getD s.hbmStacks k {}
    (11 < k ∨ x.mode ≠ 1 → exec (.stackAlert k) s = .next s) ∧
    (k ≤ 11 → x.mode = 1 → exec (.stackAlert k) s = .next { s with hbmStacks := Table.set s.hbmStacks k { x with alerts := x.alerts + 1 } })) ∧
  (∀ s k bank, let x := Table.getD s.hbmStacks k {}
    ∃ t, exec (.refreshCommand k bank) s = .next t ∧ t = { s with hbmStacks := t.hbmStacks, fresh := s.fresh + 1 } ∧
      (11 < k ∨ x.mode = 1 → t.hbmStacks = s.hbmStacks) ∧
      (k ≤ 11 → x.mode ≠ 1 → x.level ≠ 0 → ∃ n < x.level, ∃ y, Table.get? t.hbmStacks k = some y ∧
        Table.getD y.counts bank 0 = n - x.level / 4 ∧ ∀ b, b ≠ bank → Table.getD y.counts b 0 = Table.getD x.counts b 0)) ∧
  ∀ s ctx (i : Nat) waits served latency,
    ((ctxOf s ctx).samples[i]? = none → exec (.traceSampleReturn ctx i waits served latency) s = .next s) ∧
    (∀ x r, (ctxOf s ctx).samples[i]? = some x → x.req = some r → Table.get? s.remotes r ≠ none →
      exec (.traceSampleReturn ctx i waits served latency) s = .next s) ∧
    ∀ x pa, (ctxOf s ctx).samples[i]? = some x → (∀ r, x.req = some r → Table.get? s.remotes r = none) →
      let tr := (ctxOf s ctx).trace
      let by_ := if x.req.isSome then 4 else min served.toNat 3
      (tr.count ≤ tr.produced → ∃ t, exec (.traceSampleReturn ctx i waits served latency) s = .next t ∧ t = { s with ctxs := t.ctxs } ∧
        (ctxOf t ctx).samples = (ctxOf s ctx).samples.eraseIdx i ∧ (ctxOf t ctx).trace = { tr with lost := tr.lost + 1 }) ∧
      (tr.produced < tr.count → tr.produced < 2 ^ 63 → Linear s ctx (tr.base + BitVec.ofNat 64 (64 * tr.produced)) 64 pa →
        ∃ t, exec (.traceSampleReturn ctx i waits served latency) s = .next t ∧
          (ctxOf t ctx).samples = (ctxOf s ctx).samples.eraseIdx i ∧ (ctxOf t ctx).trace = { tr with produced := tr.produced + 1 } ∧
          number (memByte t) pa 8 = tr.produced + 1 ∧ (memByte t (pa + 8)).toNat = 1 ∧
          (memByte t (pa + 9)).toNat = by_ ∧ (memByte t (pa + 0x0A)).toNat = x.access % 256 ∧
          number (memByte t) (pa + 0x0C) 4 = x.frag.toNat ∧ number (memByte t) (pa + 0x10) 4 = x.ordinal.toNat ∧
          number (memByte t) (pa + 0x14) 4 = x.off.toNat ∧ number (memByte t) (pa + 0x18) 8 = x.wall % 2 ^ 64 ∧
          number (memByte t) (pa + 0x20) 16 = waits.toNat % 2 ^ (16 * [1, 3, 6, 8, 5].getD by_ 5) ∧ number (memByte t) (pa + 0x30) 4 = latency.toNat ∧
          number (memByte t) (pa + 0x38) 8 = x.line.toNat ∧
          ∀ j, (j < pa ∨ pa + 64 ≤ j) → memByte t j = memByte s j)

/-- Resets: right after a cold reset HBM reads zero and holds no poison, no context, dike, queue, polder, wave or group exists, the
wall counter is 0, the ready bit is set, and the byte tables have their form; the reset leaves host memory alone, and a die that
fails self-test is fused off, so that the package does not report ready. A function reset takes the function's contexts and its
registers, and one of the physical function every context, the dikes and the admin registers, while HBM, spared rows and the
wall counter stay (18 R414). The model's choices, not the spec's: host memory (log 4); values at reset (log 15); what a reset
keeps (log 69). -/
def Obligations.ResetsLeave : Prop :=
  (let r := State.reset
   (∀ a, memByte r a = 0) ∧ r.poison = [] ∧ r.ctxs = [] ∧ r.dikes = [] ∧ r.queues = [] ∧ r.waves = [] ∧ r.groups = [] ∧
    r.launches = [] ∧ r.me.present = false ∧ r.wall = 0 ∧ r.adm.ready = true ∧ Memory.wf r.mem = true ∧
    Table.rising r.dirty = true) ∧
  (∀ s, ∃ t, exec .coldReset s = .next t ∧
    t = { State.reset with
      mem := t.mem, pkg := s.pkg, packages := s.packages, fresh := s.fresh, agenda := s.agenda, tick := s.tick,
      hostRead := s.hostRead, hostPoison := s.hostPoison, fused := s.fused, adm := { ready := s.fused.isEmpty } } ∧
    ∀ a, memByte t a = if a < hostBase then 0 else memByte s a) ∧
  (∀ s dies, s.wall = 0 → s.ctxs = [] → s.dikes = [] → let t := selfTest s dies
    t = { s with fused := t.fused, adm := { s.adm with ready := t.adm.ready } } ∧
    (∀ d, d ∈ t.fused ↔ d ∈ s.fused ∨ (d ∈ dies ∧ d < 24)) ∧ (t.adm.ready = true ↔ s.adm.ready = true ∧ t.fused = [])) ∧
  (∀ s fn, fn = 0 ∨ 1024 < fn → exec (.flrVf fn) s = .next s) ∧
  (∀ s fn, fn ≠ 0 → fn ≤ 1024 → Table.rising s.ctxs = true →
    (∀ n c, Table.get? s.ctxs n = some c → c.cfg.fn = fn → NothingRuns s n) →
    ∃ t, exec (.flrVf fn) s = .next t ∧ (s.dirty = [] → s.reds = [] → t.mem = s.mem) ∧ t.adm = s.adm ∧ t.wall = s.wall ∧
      (∀ n, Table.get? t.ctxs n = match Table.get? s.ctxs n with
        | some c => if c.cfg.fn = fn then none else some c
        | none => none) ∧
      (∀ e, e ∈ t.queues ↔ e ∈ s.queues ∧ ∀ c, Table.get? s.ctxs e.2.ctx = some c → c.cfg.fn ≠ fn) ∧
      ∀ k, fnOf t k = if k = fn then {} else fnOf s k) ∧
  ∀ s, Table.rising s.ctxs = true → (∀ n c, Table.get? s.ctxs n = some c → NothingRuns s n) →
    ∃ t, exec .flrPf s = .next t ∧ (s.dirty = [] → s.reds = [] → t.mem = s.mem) ∧ t.wall = s.wall ∧ t.rowCopies = s.rowCopies ∧ (∀ n, Table.get? t.ctxs n = none) ∧
      t.dikes = [] ∧ t.adm = { fatal := s.adm.fatal, ready := s.adm.ready } ∧ ∀ k, fnOf t k = if k = 0 then {} else fnOf s k

namespace Sys2Proof.Claims

/-! ### The machine as a whole -/

/-- What stands after an instruction of a turn: its answer, with what `step` does around it. -/
def around (q : State) (i : Instr) : Host.Outcome State Fault Refusal :=
  match exec i q with
  | .next t => finish (afterWord q i t)
  | .fault f => .fault f
  | .refused r => .refused r

/-- The issue stage holds the wave or access processor context q of a turn, which stands at a word of its block: the state, and the
word (03 R59, R60, 04 R95). -/
def Standing (q p : State) (word : Word64) : Prop :=
  p = { q with word := word } ∧ unfetched q.me.lanes[lowest q.iss] = false ∧ word = wordHere q

/-- Nothing stops the word: no poison in it, no safe-point stop, no timer due, and no result that its W bit waits for
(17 R388, R394, R396, 03 R83, 18 R403). -/
structure Unhindered (p : State) (word : Word64) : Prop where
  clean : vaPoisoned p p.me.ctx p.me.lanes[lowest p.iss].pc 8 = false
  going : stopsHere p word = 0
  calm : timersHere p = 0
  swap : word.getLsbD 62 = false ∨ p.me.vfly = []

/-- A turn that staged q runs the word at which its path group stands: its instruction where it may stand there, and otherwise
the illegal exception (02 R47, R48). -/
def RunsWord (s q : State) : Prop := ∀ (p : State) (word : Word64), Standing q p word →
  (∀ i, isHeader word = false → decode word = some i → mayStand p i = true → Unhindered p word →
    step s = around (modMe p fun w => takeFlight w i p.iss) i) ∧
  ((isHeader word = true ∨ ∀ i, decode word = some i → mayStand p i = false) →
    vaPoisoned p p.me.ctx p.me.lanes[lowest p.iss].pc 8 = false →
    step s = finish (unstage (illegalWord p) (illegalWord p).iss))

/-- A common head without stop bit, switch marker or guard. -/
def plain : Head := { stop := false, sw := false, k := 0, inv := false }

/-- Every table of bytes has its canonical form: rising addresses, and in memory and in the cold zone no byte 0. -/
def BytesFormed (s : State) : Prop :=
  Memory.wf s.mem = true ∧ Table.rising s.dirty = true ∧ Memory.wf s.zoneData = true

end Sys2Proof.Claims

/-- A step runs the instruction of its turn: the word at which a wave's path group or an address program stands, the admin command
at the head of the ring, the entry of a management ring, or an event of the part; a wave issues only where it is the choice of
its core, and the contexts of an access processor take turns; a word that stands for no instruction there takes the illegal
exception (02 R47, R48, 03 R82, 04 R95, R98, 16 R337, R339). The model's choices, not the spec's: one step is one turn (log 3);
the words of a block are those of its entry (log 21). -/
def Obligations.StepRunsTheDecodedInstruction : Prop :=
  (∀ s k w, let s1 := (nextTurn s).2
    (nextTurn s).1 = .issue k → Table.get? s1.waves k = some w → canIssue s1 w = true → s.adm.fatal = false →
    (secondChoice s1 w.core = some k → RunsWord s (stage s1 w)) ∧
    (secondChoice s1 w.core ≠ some k → firstChoice s1 w.core = some k →
      RunsWord s (stage { s1 with paired := Table.erase s1.paired w.core } w)) ∧
    (secondChoice s1 w.core ≠ some k → firstChoice s1 w.core ≠ some k → step s = finish (unstage s1 s1.iss))) ∧
  (∀ s k w, let s1 := (nextTurn s).2
    (nextTurn s).1 = .issueAp k → Table.get? s1.aps k = some w → s.adm.fatal = false →
    (apChoice s1 w.core = some k → RunsWord s (stageAp { s1 with apTurn := Table.set s1.apTurn w.core (k % 16) } w)) ∧
    (apChoice s1 w.core ≠ some k → step s = finish (unstage s1 s1.iss))) ∧
  (∀ s i, let s1 := (nextTurn s).2
    (nextTurn s).1 = .admin → adminReady s1 = true → ∀ w, (takeCommand s1).1 = some w → decodeAdmin w = some i →
    step s = around (takeCommand s1).2 i) ∧
  (∀ s i n, let s1 := (nextTurn s).2
    (nextTurn s).1 = .mgmt n → mgmtTake s1 n = some (some i) → step s = around s1 i) ∧
  (∀ s i, (nextTurn s).1 = .env i → allowed s i = true → step s = around (nextTurn s).2 i) ∧
  ∀ s e, (nextTurn s).1 = .outside e → step s = finish (unstage (outsideTurn (nextTurn s).2 e) (outsideTurn (nextTurn s).2 e).iss)

/-- Decoding and encoding agree: every well-formed program word and admin command is read back as it was written, with every operand
at every value, no program word is taken for a header, and a word is read as at most one instruction (02 R30, R34 to R47, 16
R335, R337). -/
def Obligations.WordsReadBack : Prop :=
  (∀ i, Instr.isWord i = true → i.wf = true → decode i.encode = some i ∧ isHeader i.encode = false) ∧
  (∀ w i, decode w = some i → i.wf = true ∧ i.encode = w) ∧
  ∀ i, Instr.isCommand i = true → i.wf = true → decodeAdmin (encodeAdmin i) = some i

/-- The words that the spec works out, and words that it gives no instruction (02 R35, R44, R45, R47, 06 R161, 07 R185, 08 R212, 09
R243, 11 R299, R306, 17 R400). -/
def Obligations.SampleWordsDecode : Prop :=
  decode 0x11000A0119400000 = some (.qe8 plain 0 (.v 40) (.v 8) (.s 20)) ∧
  decode 0x1010024100000184 = some (.fcvt plain .e4m3 .f32 .rs (.v 9) (.v 8)) ∧
  decode 0x2480003098600100 = some (.tsub plain false ⟨.s 4, .s 6, 1⟩) ∧
  decode 0x24A060B098600000 = some (.tdesc plain (.s 2) (.s 4) (.s 6)) ∧
  decode 0x2810023080A00002 = some (.vld plain .b32 (.v 8) ⟨.s 4, .v 10, 0⟩) ∧
  decode 0x200001B100760020 = some (.atom plain .add false false .acq .pkg (.v 6) (.s 8) (.v 7)) ∧
  decode 0x240062B098CC7001 = some (.cpy plain .sg none false 0 (.s 10) (.s 4) (.s 12) (.s 14)) ∧
  decode 0x30100000000000A0 = some (.trap plain 5) ∧
  decode 0xB020000000000020 = some (.bkpt { plain with stop := true } 1) ∧
  decode 0x3050650000080000 = some (.rdsr plain (.s 20) .cause) ∧
  decode 0x30A0003058300001 = some (.mboxSt plain (.s 2) (.s 3)) ∧
  decode 0x30C06130A0000000 = some (.haltStop plain (.s 4) (.s 5)) ∧
  decode 0x0000800000000000 = none ∧ decode 0x3400000000000000 = none ∧ decode 0x1800000000000000 = none

/-- Whatever the turn, a step leaves every table of bytes in its canonical form (10 R262 to R266, 16 R346, R351). The model's
choices, not the spec's: host memory (log 4); pending stores (log 13). -/
def Obligations.BytesStayFormed : Prop := ∀ s t, BytesFormed s → step s = .next t → BytesFormed t

namespace Sys2Proof.Claims

end Sys2Proof.Claims
end

