-- ==== Sys2Proof/Laws/Encoding.lean ====
section
/-! SUPPORT. What each field reader finds in a word of each format, and what the code tables give back. -/
namespace Sys2Proof

/-! ### Fields of the formats (02 R34, R37) -/

@[simp] theorem headOf_packA (h : Head) (op : BitVec 10) (d a b c : BitVec 9) (m : BitVec 11) :
    headOf (packA h op d a b c m) = h := by
  rcases h with ⟨s, w, k, v⟩
  simp only [headOf, packA, packHead, bit, BitVec.getLsbD_append, Head.mk.injEq]
  refine ⟨by simp, by simp, ?_, by simp⟩
  apply BitVec.eq_of_getLsbD_eq
  intro i hi
  simp only [BitVec.getLsbD_extractLsb', BitVec.getLsbD_append]
  grind

@[simp] theorem opcodeOf_packA (h : Head) (op : BitVec 10) (d a b c : BitVec 9) (m : BitVec 11) :
    opcodeOf (packA h op d a b c m) = op := by
  apply BitVec.eq_of_getLsbD_eq
  intro i hi
  simp only [opcodeOf, packA, packHead, bit, BitVec.getLsbD_extractLsb', BitVec.getLsbD_append]
  grind

@[simp] theorem fieldD_packA (h : Head) (op : BitVec 10) (d a b c : BitVec 9) (m : BitVec 11) :
    fieldD (packA h op d a b c m) = d := by
  apply BitVec.eq_of_getLsbD_eq
  intro i hi
  simp only [fieldD, packA, packHead, bit, BitVec.getLsbD_extractLsb', BitVec.getLsbD_append]
  grind

@[simp] theorem fieldA_packA (h : Head) (op : BitVec 10) (d a b c : BitVec 9) (m : BitVec 11) :
    fieldA (packA h op d a b c m) = a := by
  apply BitVec.eq_of_getLsbD_eq
  intro i hi
  simp only [fieldA, packA, packHead, bit, BitVec.getLsbD_extractLsb', BitVec.getLsbD_append]
  grind

@[simp] theorem fieldB_packA (h : Head) (op : BitVec 10) (d a b c : BitVec 9) (m : BitVec 11) :
    fieldB (packA h op d a b c m) = b := by
  apply BitVec.eq_of_getLsbD_eq
  intro i hi
  simp only [fieldB, packA, packHead, bit, BitVec.getLsbD_extractLsb', BitVec.getLsbD_append]
  grind

@[simp] theorem fieldC_packA (h : Head) (op : BitVec 10) (d a b c : BitVec 9) (m : BitVec 11) :
    fieldC (packA h op d a b c m) = c := by
  apply BitVec.eq_of_getLsbD_eq
  intro i hi
  simp only [fieldC, packA, packHead, bit, BitVec.getLsbD_extractLsb', BitVec.getLsbD_append]
  grind

@[simp] theorem modsA_packA (h : Head) (op : BitVec 10) (d a b c : BitVec 9) (m : BitVec 11) :
    modsA (packA h op d a b c m) = m := by
  apply BitVec.eq_of_getLsbD_eq
  intro i hi
  simp only [modsA, packA, packHead, bit, BitVec.getLsbD_extractLsb', BitVec.getLsbD_append]
  grind

@[simp] theorem headOf_packI (h : Head) (op : BitVec 10) (d a : BitVec 9) (imm : BitVec 24) (m : BitVec 5) :
    headOf (packI h op d a imm m) = h := by
  rcases h with ⟨s, w, k, v⟩
  simp only [headOf, packI, packHead, bit, BitVec.getLsbD_append, Head.mk.injEq]
  refine ⟨by simp, by simp, ?_, by simp⟩
  apply BitVec.eq_of_getLsbD_eq
  intro i hi
  simp only [BitVec.getLsbD_extractLsb', BitVec.getLsbD_append]
  grind

@[simp] theorem opcodeOf_packI (h : Head) (op : BitVec 10) (d a : BitVec 9) (imm : BitVec 24) (m : BitVec 5) :
    opcodeOf (packI h op d a imm m) = op := by
  apply BitVec.eq_of_getLsbD_eq
  intro i hi
  simp only [opcodeOf, packI, packHead, bit, BitVec.getLsbD_extractLsb', BitVec.getLsbD_append]
  grind

@[simp] theorem fieldD_packI (h : Head) (op : BitVec 10) (d a : BitVec 9) (imm : BitVec 24) (m : BitVec 5) :
    fieldD (packI h op d a imm m) = d := by
  apply BitVec.eq_of_getLsbD_eq
  intro i hi
  simp only [fieldD, packI, packHead, bit, BitVec.getLsbD_extractLsb', BitVec.getLsbD_append]
  grind

@[simp] theorem fieldA_packI (h : Head) (op : BitVec 10) (d a : BitVec 9) (imm : BitVec 24) (m : BitVec 5) :
    fieldA (packI h op d a imm m) = a := by
  apply BitVec.eq_of_getLsbD_eq
  intro i hi
  simp only [fieldA, packI, packHead, bit, BitVec.getLsbD_extractLsb', BitVec.getLsbD_append]
  grind

@[simp] theorem imm24_packI (h : Head) (op : BitVec 10) (d a : BitVec 9) (imm : BitVec 24) (m : BitVec 5) :
    imm24 (packI h op d a imm m) = imm := by
  apply BitVec.eq_of_getLsbD_eq
  intro i hi
  simp only [imm24, packI, packHead, bit, BitVec.getLsbD_extractLsb', BitVec.getLsbD_append]
  grind

@[simp] theorem modsI_packI (h : Head) (op : BitVec 10) (d a : BitVec 9) (imm : BitVec 24) (m : BitVec 5) :
    modsI (packI h op d a imm m) = m := by
  apply BitVec.eq_of_getLsbD_eq
  intro i hi
  simp only [modsI, packI, packHead, bit, BitVec.getLsbD_extractLsb', BitVec.getLsbD_append]
  grind

@[simp] theorem headOf_packW (h : Head) (op : BitVec 10) (d : BitVec 9) (imm : BitVec 32) (m : BitVec 6) :
    headOf (packW h op d imm m) = h := by
  rcases h with ⟨s, w, k, v⟩
  simp only [headOf, packW, packHead, bit, BitVec.getLsbD_append, Head.mk.injEq]
  refine ⟨by simp, by simp, ?_, by simp⟩
  apply BitVec.eq_of_getLsbD_eq
  intro i hi
  simp only [BitVec.getLsbD_extractLsb', BitVec.getLsbD_append]
  grind

@[simp] theorem opcodeOf_packW (h : Head) (op : BitVec 10) (d : BitVec 9) (imm : BitVec 32) (m : BitVec 6) :
    opcodeOf (packW h op d imm m) = op := by
  apply BitVec.eq_of_getLsbD_eq
  intro i hi
  simp only [opcodeOf, packW, packHead, bit, BitVec.getLsbD_extractLsb', BitVec.getLsbD_append]
  grind

@[simp] theorem fieldD_packW (h : Head) (op : BitVec 10) (d : BitVec 9) (imm : BitVec 32) (m : BitVec 6) :
    fieldD (packW h op d imm m) = d := by
  apply BitVec.eq_of_getLsbD_eq
  intro i hi
  simp only [fieldD, packW, packHead, bit, BitVec.getLsbD_extractLsb', BitVec.getLsbD_append]
  grind

@[simp] theorem imm32_packW (h : Head) (op : BitVec 10) (d : BitVec 9) (imm : BitVec 32) (m : BitVec 6) :
    imm32 (packW h op d imm m) = imm := by
  apply BitVec.eq_of_getLsbD_eq
  intro i hi
  simp only [imm32, packW, packHead, bit, BitVec.getLsbD_extractLsb', BitVec.getLsbD_append]
  grind

@[simp] theorem headOf_packM (h : Head) (op : BitVec 10) (d base index : BitVec 9) (off : BitVec 12) (m : BitVec 8) :
    headOf (packM h op d base index off m) = h := by
  rcases h with ⟨s, w, k, v⟩
  simp only [headOf, packM, packHead, bit, BitVec.getLsbD_append, Head.mk.injEq]
  refine ⟨by simp, by simp, ?_, by simp⟩
  apply BitVec.eq_of_getLsbD_eq
  intro i hi
  simp only [BitVec.getLsbD_extractLsb', BitVec.getLsbD_append]
  grind

@[simp] theorem opcodeOf_packM (h : Head) (op : BitVec 10) (d base index : BitVec 9) (off : BitVec 12) (m : BitVec 8) :
    opcodeOf (packM h op d base index off m) = op := by
  apply BitVec.eq_of_getLsbD_eq
  intro i hi
  simp only [opcodeOf, packM, packHead, bit, BitVec.getLsbD_extractLsb', BitVec.getLsbD_append]
  grind

@[simp] theorem fieldD_packM (h : Head) (op : BitVec 10) (d base index : BitVec 9) (off : BitVec 12) (m : BitVec 8) :
    fieldD (packM h op d base index off m) = d := by
  apply BitVec.eq_of_getLsbD_eq
  intro i hi
  simp only [fieldD, packM, packHead, bit, BitVec.getLsbD_extractLsb', BitVec.getLsbD_append]
  grind

@[simp] theorem fieldA_packM (h : Head) (op : BitVec 10) (d base index : BitVec 9) (off : BitVec 12) (m : BitVec 8) :
    fieldA (packM h op d base index off m) = base := by
  apply BitVec.eq_of_getLsbD_eq
  intro i hi
  simp only [fieldA, packM, packHead, bit, BitVec.getLsbD_extractLsb', BitVec.getLsbD_append]
  grind

@[simp] theorem fieldB_packM (h : Head) (op : BitVec 10) (d base index : BitVec 9) (off : BitVec 12) (m : BitVec 8) :
    fieldB (packM h op d base index off m) = index := by
  apply BitVec.eq_of_getLsbD_eq
  intro i hi
  simp only [fieldB, packM, packHead, bit, BitVec.getLsbD_extractLsb', BitVec.getLsbD_append]
  grind

@[simp] theorem off12_packM (h : Head) (op : BitVec 10) (d base index : BitVec 9) (off : BitVec 12) (m : BitVec 8) :
    off12 (packM h op d base index off m) = off := by
  apply BitVec.eq_of_getLsbD_eq
  intro i hi
  simp only [off12, packM, packHead, bit, BitVec.getLsbD_extractLsb', BitVec.getLsbD_append]
  grind

@[simp] theorem modsM_packM (h : Head) (op : BitVec 10) (d base index : BitVec 9) (off : BitVec 12) (m : BitVec 8) :
    modsM (packM h op d base index off m) = m := by
  apply BitVec.eq_of_getLsbD_eq
  intro i hi
  simp only [modsM, packM, packHead, bit, BitVec.getLsbD_extractLsb', BitVec.getLsbD_append]
  grind

@[simp] theorem headOf_packB (h : Head) (op : BitVec 10) (kind : BitVec 3) (r : BitVec 9) (off : BitVec 32) :
    headOf (packB h op kind r off) = h := by
  rcases h with ⟨s, w, k, v⟩
  simp only [headOf, packB, packHead, bit, BitVec.getLsbD_append, Head.mk.injEq]
  refine ⟨by simp, by simp, ?_, by simp⟩
  apply BitVec.eq_of_getLsbD_eq
  intro i hi
  simp only [BitVec.getLsbD_extractLsb', BitVec.getLsbD_append]
  grind

@[simp] theorem opcodeOf_packB (h : Head) (op : BitVec 10) (kind : BitVec 3) (r : BitVec 9) (off : BitVec 32) :
    opcodeOf (packB h op kind r off) = op := by
  apply BitVec.eq_of_getLsbD_eq
  intro i hi
  simp only [opcodeOf, packB, packHead, bit, BitVec.getLsbD_extractLsb', BitVec.getLsbD_append]
  grind

@[simp] theorem kindB_packB (h : Head) (op : BitVec 10) (kind : BitVec 3) (r : BitVec 9) (off : BitVec 32) :
    kindB (packB h op kind r off) = kind := by
  apply BitVec.eq_of_getLsbD_eq
  intro i hi
  simp only [kindB, packB, packHead, bit, BitVec.getLsbD_extractLsb', BitVec.getLsbD_append]
  grind

@[simp] theorem regB_packB (h : Head) (op : BitVec 10) (kind : BitVec 3) (r : BitVec 9) (off : BitVec 32) :
    regB (packB h op kind r off) = r := by
  apply BitVec.eq_of_getLsbD_eq
  intro i hi
  simp only [regB, packB, packHead, bit, BitVec.getLsbD_extractLsb', BitVec.getLsbD_append]
  grind

@[simp] theorem off32_packB (h : Head) (op : BitVec 10) (kind : BitVec 3) (r : BitVec 9) (off : BitVec 32) :
    off32 (packB h op kind r off) = off := by
  apply BitVec.eq_of_getLsbD_eq
  intro i hi
  simp only [off32, packB, packHead, bit, BitVec.getLsbD_extractLsb', BitVec.getLsbD_append]
  grind

@[simp] theorem headOf_packS (h : Head) (op : BitVec 10) (d a : BitVec 9) (sr : BitVec 16) (m : BitVec 13) :
    headOf (packS h op d a sr m) = h := by
  rcases h with ⟨s, w, k, v⟩
  simp only [headOf, packS, packHead, bit, BitVec.getLsbD_append, Head.mk.injEq]
  refine ⟨by simp, by simp, ?_, by simp⟩
  apply BitVec.eq_of_getLsbD_eq
  intro i hi
  simp only [BitVec.getLsbD_extractLsb', BitVec.getLsbD_append]
  grind

@[simp] theorem opcodeOf_packS (h : Head) (op : BitVec 10) (d a : BitVec 9) (sr : BitVec 16) (m : BitVec 13) :
    opcodeOf (packS h op d a sr m) = op := by
  apply BitVec.eq_of_getLsbD_eq
  intro i hi
  simp only [opcodeOf, packS, packHead, bit, BitVec.getLsbD_extractLsb', BitVec.getLsbD_append]
  grind

@[simp] theorem fieldD_packS (h : Head) (op : BitVec 10) (d a : BitVec 9) (sr : BitVec 16) (m : BitVec 13) :
    fieldD (packS h op d a sr m) = d := by
  apply BitVec.eq_of_getLsbD_eq
  intro i hi
  simp only [fieldD, packS, packHead, bit, BitVec.getLsbD_extractLsb', BitVec.getLsbD_append]
  grind

@[simp] theorem fieldA_packS (h : Head) (op : BitVec 10) (d a : BitVec 9) (sr : BitVec 16) (m : BitVec 13) :
    fieldA (packS h op d a sr m) = a := by
  apply BitVec.eq_of_getLsbD_eq
  intro i hi
  simp only [fieldA, packS, packHead, bit, BitVec.getLsbD_extractLsb', BitVec.getLsbD_append]
  grind

@[simp] theorem sysS_packS (h : Head) (op : BitVec 10) (d a : BitVec 9) (sr : BitVec 16) (m : BitVec 13) :
    sysS (packS h op d a sr m) = sr := by
  apply BitVec.eq_of_getLsbD_eq
  intro i hi
  simp only [sysS, packS, packHead, bit, BitVec.getLsbD_extractLsb', BitVec.getLsbD_append]
  grind

theorem modsA_packI (h : Head) (op : BitVec 10) (d a : BitVec 9) (imm : BitVec 24) (m : BitVec 5) :
    modsA (packI h op d a imm m) = imm.extractLsb' 0 6 ++ m := by
  apply BitVec.eq_of_getLsbD_eq
  intro i hi
  simp only [modsA, packI, packHead, bit, BitVec.getLsbD_extractLsb', BitVec.getLsbD_append]
  grind

theorem low_packB (h : Head) (op : BitVec 10) (kind : BitVec 3) (r : BitVec 9) (off : BitVec 32) :
    (packB h op kind r off).extractLsb' 0 32 = off := off32_packB h op kind r off

theorem imm_packI (h : Head) (op : BitVec 10) (d a : BitVec 9) (imm : BitVec 24) (m : BitVec 5) (s n : Nat)
    (hs : 5 ≤ s) (hn : s + n ≤ 29) : (packI h op d a imm m).extractLsb' s n = imm.extractLsb' (s - 5) n := by
  apply BitVec.eq_of_getLsbD_eq
  intro i hi
  simp only [packI, packHead, bit, BitVec.getLsbD_extractLsb', BitVec.getLsbD_append]
  grind

theorem mods_packA (h : Head) (op : BitVec 10) (d a b c : BitVec 9) (m : BitVec 11) (s n : Nat) (hn : s + n ≤ 11) :
    (packA h op d a b c m).extractLsb' s n = m.extractLsb' s n := by
  apply BitVec.eq_of_getLsbD_eq
  intro i hi
  simp only [packA, packHead, bit, BitVec.getLsbD_extractLsb', BitVec.getLsbD_append]
  grind

theorem mods_packM (h : Head) (op : BitVec 10) (d a b : BitVec 9) (o : BitVec 12) (m : BitVec 8) (s n : Nat)
    (hn : s + n ≤ 8) : (packM h op d a b o m).extractLsb' s n = m.extractLsb' s n := by
  apply BitVec.eq_of_getLsbD_eq
  intro i hi
  simp only [packM, packHead, bit, BitVec.getLsbD_extractLsb', BitVec.getLsbD_append]
  grind

theorem off_packM (h : Head) (op : BitVec 10) (d a b : BitVec 9) (o : BitVec 12) (m : BitVec 8) (s n : Nat)
    (hs : 8 ≤ s) (hn : s + n ≤ 20) : (packM h op d a b o m).extractLsb' s n = o.extractLsb' (s - 8) n := by
  apply BitVec.eq_of_getLsbD_eq
  intro i hi
  simp only [packM, packHead, bit, BitVec.getLsbD_extractLsb', BitVec.getLsbD_append]
  grind

theorem low_append (v w : Nat) (x : BitVec v) (y : BitVec w) : (x ++ y).extractLsb' 0 w = y := by
  apply BitVec.eq_of_getLsbD_eq
  intro i hi
  simp only [BitVec.getLsbD_extractLsb', BitVec.getLsbD_append]
  grind

theorem high_append (v w s n : Nat) (x : BitVec v) (y : BitVec w) (h : w ≤ s) :
    (x ++ y).extractLsb' s n = x.extractLsb' (s - w) n := by
  apply BitVec.eq_of_getLsbD_eq
  intro i hi
  simp only [BitVec.getLsbD_extractLsb', BitVec.getLsbD_append]
  grind

theorem bit_append (v w i : Nat) (x : BitVec v) (y : BitVec w) (h : w ≤ i) :
    (x ++ y).getLsbD i = x.getLsbD (i - w) := by
  simp only [BitVec.getLsbD_append]
  grind

theorem lowBit_append (v w i : Nat) (x : BitVec v) (y : BitVec w) (h : i < w) :
    (x ++ y).getLsbD i = y.getLsbD i := by
  simp only [BitVec.getLsbD_append]
  grind

theorem bit_bit (b : Bool) : (bit b).getLsbD 0 = b := by cases b <;> rfl

theorem modsLow_packI (h : Head) (op : BitVec 10) (d a : BitVec 9) (imm : BitVec 24) (m : BitVec 5) (s n : Nat)
    (hn : s + n ≤ 5) : (modsA (packI h op d a imm m)).extractLsb' s n = m.extractLsb' s n := by
  apply BitVec.eq_of_getLsbD_eq
  intro i hi
  simp only [modsA, packI, packHead, bit, BitVec.getLsbD_extractLsb', BitVec.getLsbD_append]
  grind

theorem modsBit_packI (h : Head) (op : BitVec 10) (d a : BitVec 9) (imm : BitVec 24) (m : BitVec 5) (i : Nat)
    (hi : i < 5) : (modsA (packI h op d a imm m)).getLsbD i = m.getLsbD i := by
  simp only [modsA, packI, packHead, bit, BitVec.getLsbD_extractLsb', BitVec.getLsbD_append]
  grind

theorem modBit_packA (h : Head) (op : BitVec 10) (d a b c : BitVec 9) (m : BitVec 11) (i : Nat) (hi : i < 11) :
    (packA h op d a b c m).getLsbD i = m.getLsbD i := by
  simp only [packA, packHead, bit, BitVec.getLsbD_append]
  grind

theorem modBit_packM (h : Head) (op : BitVec 10) (d a b : BitVec 9) (o : BitVec 12) (m : BitVec 8) (i : Nat) (hi : i < 8) :
    (packM h op d a b o m).getLsbD i = m.getLsbD i := by
  simp only [packM, packHead, bit, BitVec.getLsbD_append]
  grind

/-! ### Codes -/

@[simp] theorem IntTy.ofCode_code (x : IntTy) : IntTy.ofCode x.code = x := by cases x <;> rfl

@[simp] theorem Width.ofCode_code (x : Width) : Width.ofCode x.code = x := by cases x <;> rfl

@[simp] theorem ICond.ofCode_code (x : ICond) : ICond.ofCode x.code = x := by cases x <;> rfl

@[simp] theorem FCond.ofCode_code (x : FCond) : FCond.ofCode x.code = x := by cases x <;> rfl

@[simp] theorem Rnd.ofCode_code (x : Rnd) : Rnd.ofCode x.code = x := by cases x <;> rfl

@[simp] theorem FFmt.ofCode_code (x : FFmt) : FFmt.ofCode x.code = x := by cases x <;> rfl

@[simp] theorem IFmt.ofCode_code (x : IFmt) : IFmt.ofCode x.code = x := by cases x <;> rfl

@[simp] theorem Scope.ofCode_code (x : Scope) : Scope.ofCode x.code = x := by cases x <;> rfl

@[simp] theorem BrcKind.ofCode_code (x : BrcKind) : BrcKind.ofCode x.code = x := by cases x <;> rfl

@[simp] theorem BrxKind.ofCode_code (x : BrxKind) : BrxKind.ofCode x.code = x := by cases x <;> rfl

@[simp] theorem ShflMode.ofCode_code (x : ShflMode) : ShflMode.ofCode x.code = x := by cases x <;> rfl

@[simp] theorem VoteTest.ofCode_code (x : VoteTest) : VoteTest.ofCode x.code = x := by cases x <;> rfl

@[simp] theorem WOp.ofCode_code (x : WOp) : WOp.ofCode x.code = x := by cases x <;> rfl

@[simp] theorem Size.ofCode_code (x : Size) : Size.ofCode x.code = x := by cases x <;> rfl

@[simp] theorem VSize.ofCode_code (x : VSize) : VSize.ofCode x.code = x := by cases x <;> rfl

@[simp] theorem PLevel.ofCode_code (x : PLevel) : PLevel.ofCode x.code = x := by cases x <;> rfl

@[simp] theorem AtomOp.ofCode_code (x : AtomOp) : AtomOp.ofCode x.code = x := by cases x <;> rfl

@[simp] theorem Order.ofCode_code (x : Order) : Order.ofCode x.code = x := by cases x <;> rfl

@[simp] theorem CpyDir.ofCode_code (x : CpyDir) : CpyDir.ofCode x.code = x := by cases x <;> rfl

@[simp] theorem GCond.ofCode_code (x : GCond) : GCond.ofCode x.code = x := by cases x <;> rfl

@[simp] theorem DlvCount.ofCode_code (x : DlvCount) : DlvCount.ofCode x.code = x := by cases x <;> rfl

@[simp] theorem RecSize.ofCode_code (x : RecSize) : RecSize.ofCode x.code = x := by cases x <;> rfl

@[simp] theorem VStatOp.ofCode_code (x : VStatOp) : VStatOp.ofCode x.code = x := by cases x <;> rfl

@[simp] theorem ClkMode.ofCode_code (x : ClkMode) : ClkMode.ofCode x.code = x := by cases x <;> rfl

@[simp] theorem SysReg.ofCode_code (x : SysReg) : SysReg.ofCode x.code = x := by
  rcases x with _ | _ | _ | _ | _ | _ | _ | _ | _ | _ | _ | _ | _ | _ | _ | _ | _ | _ | _ | i | i | _ | _ | _ | _ | _ |
    _ | _ | _ | _ | _ | _
  case wpaddr => rcases i with ⟨i, hi⟩; rcases i with _ | _ | _ | _ | _ <;> first | rfl | omega
  case wpctl => rcases i with ⟨i, hi⟩; rcases i with _ | _ | _ | _ | _ <;> first | rfl | omega
  all_goals rfl

@[simp] theorem Special.ofIndex_index (x : Special) : Special.ofIndex x.index = x := by cases x <;> rfl

@[simp] theorem Operand.ofBits_toBits (o : Operand) : Operand.ofBits o.toBits = o := by
  cases o with
  | v n =>
    have h := n.isLt
    have e : n.val % 512 = n.val := by omega
    simp only [ofBits, toBits, BitVec.toNat_ofNat, Nat.reducePow, e, dif_pos h]
  | q n =>
    have h := n.isLt
    have e : (320 + n.val) % 512 = 320 + n.val := by omega
    simp only [ofBits, toBits, BitVec.toNat_ofNat, Nat.reducePow, e]
    rw [dif_neg (by omega), if_pos (by omega)]
    refine congrArg Operand.q (Fin.ext ?_)
    show (320 + n.val - 320) % 4 = n.val
    omega
  | special x => cases x <;> simp [ofBits, toBits, Special.index, Special.ofIndex]
  | zero => simp [ofBits, toBits]
  | s n =>
    have h := n.isLt
    have e : (384 + n.val) % 512 = 384 + n.val := by omega
    simp only [ofBits, toBits, BitVec.toNat_ofNat, Nat.reducePow, e]
    rw [dif_neg (by omega), if_neg (by omega), if_neg (by omega), if_neg (by omega)]
    refine congrArg Operand.s (Fin.ext ?_)
    show (384 + n.val - 384) % 128 = n.val
    omega

@[simp] theorem kOf_kField (k : BitVec 4) : kOf (kField k) = k := by revert k; decide
@[simp] theorem gOf_gField (g : BitVec 3) : gOf (gField g) = g := by revert g; decide
@[simp] theorem guardOfPush_pushGuard (g : Option (BitVec 3)) : guardOfPush (pushGuard g) = g := by
  cases g with
  | none => rfl
  | some g => revert g; decide
@[simp] theorem guardOfCpy_cpyGuard (g : Option (BitVec 3)) : guardOfCpy (cpyGuard g) = g := by
  cases g with
  | none => rfl
  | some g => revert g; decide

end Sys2Proof
end

