-- ==== Sys2Proof/Laws/Table.lean ====
section
/-! SUPPORT. What tables with rising keys answer after each operation, and that every operation keeps their form. -/
namespace Sys2Proof.Machine.Table

variable {α : Type}

theorem get?_set (m : List (Nat × α)) (k j : Nat) (v : α) :
    get? (set m k v) j = if j = k then some v else get? m j := by
  induction m with
  | nil => simp [set, get?]
  | cons e t ih =>
    obtain ⟨k', v'⟩ := e
    simp only [set]
    split
    · simp only [get?]; split <;> simp_all
    · split
      · simp only [get?]
      · simp only [get?, ih]
        split <;> split <;> simp_all

theorem get?_erase (m : List (Nat × α)) (k j : Nat) :
    get? (erase m k) j = if j = k then none else get? m j := by
  induction m with
  | nil => simp [erase, get?]
  | cons e t ih =>
    obtain ⟨k', v'⟩ := e
    simp only [erase]
    split
    · rw [ih]; simp only [get?]; split <;> simp_all
    · simp only [get?, ih]
      split <;> split <;> simp_all

theorem getD_put [DecidableEq α] (m : List (Nat × α)) (k j : Nat) (d v : α) :
    getD (put m k d v) j d = if j = k then v else getD m j d := by
  unfold getD put
  split
  · rw [get?_erase]; split <;> simp_all
  · rw [get?_set]; split <;> simp_all

theorem getD_set (m : List (Nat × α)) (k j : Nat) (d v : α) :
    getD (set m k v) j d = if j = k then v else getD m j d := by
  unfold getD
  rw [get?_set]; split <;> simp_all

theorem get?_modify (m : List (Nat × α)) (k j : Nat) (f : α → α) :
    get? (modify m k f) j = if j = k then (get? m k).map f else get? m j := by
  unfold modify
  cases h : get? m k with
  | none => simp only [Option.map_none]; split <;> simp_all
  | some v => rw [get?_set]; simp

theorem getD_modify (m : List (Nat × α)) (k j : Nat) (d : α) (f : α → α) (hd : get? m k ≠ none ∨ f d = d) :
    getD (modify m k f) j d = if j = k then f (getD m k d) else getD m j d := by
  unfold getD
  rw [get?_modify]
  split
  · cases h : get? m k <;> simp_all
  · rfl

theorem get?_mapVals (m : List (Nat × α)) (f : Nat → α → α) (j : Nat) :
    get? (mapVals m f) j = (get? m j).map (f j) := by
  induction m with
  | nil => rfl
  | cons e t ih =>
    obtain ⟨k', v'⟩ := e
    simp only [mapVals, List.map_cons, get?] at *
    split <;> simp_all

/-! ### The form is kept -/

/-- Every key of a table lies above a number. -/
def above (n : Nat) (m : List (Nat × α)) : Prop := ∀ e ∈ m, n < e.1

theorem rising_cons (e : Nat × α) (m : List (Nat × α)) : rising (e :: m) = true ↔ above e.1 m ∧ rising m = true := by
  induction m generalizing e with
  | nil => simp [rising, above]
  | cons f t ih =>
    simp only [rising, Bool.and_eq_true, decide_eq_true_eq, above, List.mem_cons, forall_eq_or_imp]
    constructor
    · rintro ⟨h, hr⟩
      refine ⟨⟨h, fun x hx => ?_⟩, hr⟩
      exact Nat.lt_trans h ((ih f).1 hr |>.1 x hx)
    · rintro ⟨⟨h, -⟩, hr⟩
      exact ⟨h, hr⟩

theorem above_set (n : Nat) (m : List (Nat × α)) (k : Nat) (v : α) (h : above n m) (hk : n < k) : above n (set m k v) := by
  induction m with
  | nil => simpa [set, above] using hk
  | cons e t ih =>
    have ht : above n t := fun x hx => h x (List.mem_cons_of_mem _ hx)
    have he : n < e.1 := h e List.mem_cons_self
    simp only [set]
    split
    · intro x hx
      rcases List.mem_cons.1 hx with rfl | hx
      · exact hk
      · exact ht x hx
    · split
      · intro x hx
        rcases List.mem_cons.1 hx with rfl | hx
        · exact hk
        · exact h x hx
      · intro x hx
        rcases List.mem_cons.1 hx with rfl | hx
        · exact he
        · exact ih ht x hx

theorem rising_set (m : List (Nat × α)) (k : Nat) (v : α) (h : rising m = true) : rising (set m k v) = true := by
  induction m with
  | nil => rfl
  | cons e t ih =>
    obtain ⟨ha, hr⟩ := (rising_cons e t).1 h
    simp only [set]
    split
    · next hk => exact (rising_cons _ _).2 ⟨by simpa [hk] using ha, hr⟩
    · split
      · next hk hlt =>
        refine (rising_cons _ _).2 ⟨?_, h⟩
        intro x hx
        rcases List.mem_cons.1 hx with rfl | hx
        · exact hlt
        · exact Nat.lt_trans hlt (ha x hx)
      · next hk hlt => exact (rising_cons _ _).2 ⟨above_set _ _ _ _ ha (by simp only at *; omega), ih hr⟩

theorem mem_erase (m : List (Nat × α)) (k : Nat) (e : Nat × α) (h : e ∈ erase m k) : e ∈ m := by
  induction m with
  | nil => exact h
  | cons f t ih =>
    simp only [erase] at h
    split at h
    · exact List.mem_cons_of_mem _ (ih h)
    · rcases List.mem_cons.1 h with rfl | h
      · exact List.mem_cons_self
      · exact List.mem_cons_of_mem _ (ih h)

theorem mem_set (m : List (Nat × α)) (k : Nat) (v : α) (e : Nat × α) (h : e ∈ set m k v) : e = (k, v) ∨ e ∈ m := by
  induction m with
  | nil => simpa [set] using h
  | cons f t ih =>
    simp only [set] at h
    split at h
    · rcases List.mem_cons.1 h with rfl | h
      · exact Or.inl rfl
      · exact Or.inr (List.mem_cons_of_mem _ h)
    · split at h
      · rcases List.mem_cons.1 h with rfl | h
        · exact Or.inl rfl
        · exact Or.inr h
      · rcases List.mem_cons.1 h with rfl | h
        · exact Or.inr List.mem_cons_self
        · rcases ih h with h | h
          · exact Or.inl h
          · exact Or.inr (List.mem_cons_of_mem _ h)

theorem rising_erase (m : List (Nat × α)) (k : Nat) (h : rising m = true) : rising (erase m k) = true := by
  induction m with
  | nil => rfl
  | cons e t ih =>
    obtain ⟨ha, hr⟩ := (rising_cons e t).1 h
    simp only [erase]
    split
    · exact ih hr
    · exact (rising_cons _ _).2 ⟨fun x hx => ha x (mem_erase _ _ _ hx), ih hr⟩

theorem rising_put [DecidableEq α] (m : List (Nat × α)) (k : Nat) (d v : α) (h : rising m = true) :
    rising (put m k d v) = true := by
  unfold put
  split
  · exact rising_erase m k h
  · exact rising_set m k v h

theorem rising_filter (m : List (Nat × α)) (p : Nat × α → Bool) (h : rising m = true) : rising (m.filter p) = true := by
  induction m with
  | nil => rfl
  | cons e t ih =>
    obtain ⟨ha, hr⟩ := (rising_cons e t).1 h
    simp only [List.filter_cons]
    split
    · exact (rising_cons _ _).2 ⟨fun x hx => ha x (List.mem_filter.1 hx).1, ih hr⟩
    · exact ih hr

end Sys2Proof.Machine.Table
end

