-- ==== Sys2Proof/Laws/Memory.lean ====
section
/-! SUPPORT. What each memory operation leaves at an address, and that each keeps the canonical form of memory. -/
namespace Sys2Proof.Machine

/-! ### The canonical form -/

theorem Memory.wf_erase (m : List Host.Cell) (k : Nat) (h : Memory.wf m = true) : Memory.wf (Table.erase m k) = true := by
  simp only [Memory.wf, Bool.and_eq_true, List.all_eq_true] at *
  exact ⟨Table.rising_erase m k h.1, fun c hc => h.2 c (Table.mem_erase m k c hc)⟩

theorem Memory.wf_put (m : List Host.Cell) (k : Nat) (b : Byte) (h : Memory.wf m = true) :
    Memory.wf (Table.put m k 0 b) = true := by
  unfold Table.put
  split
  · exact Memory.wf_erase m k h
  · next hb =>
    simp only [Memory.wf, Bool.and_eq_true, List.all_eq_true] at *
    refine ⟨Table.rising_set m k b h.1, fun c hc => ?_⟩
    rcases Table.mem_set m k b c hc with rfl | hc
    · simpa using hb
    · exact h.2 c hc

theorem Memory.wf_filter (m : List Host.Cell) (p : Host.Cell → Bool) (h : Memory.wf m = true) :
    Memory.wf (m.filter p) = true := by
  simp only [Memory.wf, Bool.and_eq_true, List.all_eq_true] at *
  exact ⟨Table.rising_filter m p h.1, fun c hc => h.2 c (List.mem_filter.1 hc).1⟩

theorem Memory.wf_foldl {β : Type} (f : List Host.Cell → β → List Host.Cell)
    (hf : ∀ m b, Memory.wf m = true → Memory.wf (f m b) = true) (l : List β) (m : List Host.Cell)
    (h : Memory.wf m = true) : Memory.wf (l.foldl f m) = true := by
  induction l generalizing m with
  | nil => exact h
  | cons b t ih => exact ih _ (hf m b h)

theorem Memory.wf_foldr {β : Type} (f : β → List Host.Cell → List Host.Cell)
    (hf : ∀ b m, Memory.wf m = true → Memory.wf (f b m) = true) (l : List β) (m : List Host.Cell)
    (h : Memory.wf m = true) : Memory.wf (l.foldr f m) = true := by
  induction l with
  | nil => exact h
  | cons b t ih => exact hf b _ ih

theorem Memory.wf_putBytes (m : List Host.Cell) (a v n : Nat) (h : Memory.wf m = true) :
    Memory.wf (putBytes m a v n) = true := by
  induction n generalizing m a v with
  | zero => exact h
  | succ n ih => exact ih _ _ _ (Memory.wf_put m a _ h)

@[simp] theorem clearPoison_mem (s : State) (pa n : Nat) : (clearPoison s pa n).mem = s.mem := by
  unfold clearPoison; split <;> rfl

@[simp] theorem clearPoison_dirty (s : State) (pa n : Nat) : (clearPoison s pa n).dirty = s.dirty := by
  unfold clearPoison; split <;> rfl

theorem memWrite_wf (s : State) (pa n v : Nat) (h : Memory.wf s.mem = true) :
    Memory.wf (memWrite s pa n v).mem = true := by
  simp only [memWrite, clearPoison_mem]
  exact Memory.wf_putBytes _ _ _ _ h

theorem moveCells_wf (s : State) (u : Nat) (dst : Option Nat) (p : Nat → Bool) (h : Memory.wf s.mem = true) :
    Memory.wf (moveCells s u dst p).mem = true := by
  unfold moveCells
  split
  · exact h
  · cases dst with
    | none => exact Memory.wf_foldl _ (fun m _ hm => Memory.wf_put m _ _ hm) _ _ h
    | some v => exact h

theorem foldr_wf {β : Type} (f : β → State → State) (hf : ∀ s b, Memory.wf s.mem = true → Memory.wf (f b s).mem = true)
    (l : List β) (s : State) (h : Memory.wf s.mem = true) : Memory.wf (l.foldr f s).mem = true := by
  induction l with
  | nil => exact h
  | cons b t ih => exact hf _ b ih

theorem foldl_wf {β : Type} (f : State → β → State) (hf : ∀ s b, Memory.wf s.mem = true → Memory.wf (f s b).mem = true)
    (l : List β) (s : State) (h : Memory.wf s.mem = true) : Memory.wf (l.foldl f s).mem = true := by
  induction l generalizing s with
  | nil => exact h
  | cons b t ih => exact ih _ (hf s b h)

theorem drainUnit_wf (s : State) (u unit : Nat) (h : Memory.wf s.mem = true) :
    Memory.wf (drainUnit s u unit).mem = true := moveCells_wf _ _ _ _ h

theorem drainPath_wf (s : State) (u unit : Nat) (h : Memory.wf s.mem = true) :
    Memory.wf (drainPath s u unit).mem = true := foldr_wf _ (fun s v hs => moveCells_wf s v none _ hs) _ _ h

theorem flushLevel_wf (s : State) (u : Nat) (h : Memory.wf s.mem = true) :
    Memory.wf (flushLevel s u).mem = true := foldr_wf _ (fun s v hs => moveCells_wf s v none _ hs) _ _ h

theorem atomAt_wf (s : State) (core pa : Nat) (op : AtomOp) (uns wide : Bool) (x cmp : Word64)
    (h : Memory.wf s.mem = true) : Memory.wf (atomAt s core pa op uns wide x cmp).2.mem = true := by
  simp only [atomAt]
  have h1 := drainPath_wf s core (pa / 8) h
  split
  · split
    · exact h1
    · exact memWrite_wf _ _ _ _ h1
  · split
    · exact h1
    · exact memWrite_wf _ _ _ _ h1

theorem applyRed_wf (s : State) (r : PendingRed) (h : Memory.wf s.mem = true) :
    Memory.wf (applyRed s r).mem = true := by
  unfold applyRed
  generalize (if r.wide = true then 8 else 4) = n
  split
  · exact h
  · exact atomAt_wf _ _ _ _ _ _ _ _ h

theorem applyReds_wf (s : State) (p : PendingRed → Bool) (h : Memory.wf s.mem = true) :
    Memory.wf (applyReds s p).mem = true := by
  unfold applyReds
  split
  · exact h
  · exact foldl_wf _ (fun s r hs => applyRed_wf s r hs) _ _ h

theorem flushCore_wf (s : State) (core : Nat) (h : Memory.wf s.mem = true) :
    Memory.wf (flushCore s core).mem = true := applyReds_wf _ _ (flushLevel_wf s core h)

theorem flushAll_wf (s : State) (h : Memory.wf s.mem = true) : Memory.wf (flushAll s).mem = true := by
  unfold flushAll
  refine applyReds_wf _ _ ?_
  split
  · exact h
  · exact Memory.wf_foldr _ (fun c m hm => Memory.wf_put m _ _ hm) _ _ h

theorem releaseAt_wf (s : State) (core : Nat) (sc : Scope) (h : Memory.wf s.mem = true) :
    Memory.wf (releaseAt s core sc).mem = true := by
  cases sc with
  | core => exact h
  | quad => exact applyReds_wf _ _ (moveCells_wf _ _ _ _ h)
  | die => exact applyReds_wf _ _ (moveCells_wf _ _ _ _ (moveCells_wf _ _ _ _ h))
  | pkg | pod | sys => exact flushCore_wf s core h

theorem settleReds_wf (s : State) (core pa n : Nat) (h : Memory.wf s.mem = true) :
    Memory.wf (settleReds s core pa n).mem = true := applyReds_wf _ _ h

theorem partWrite_wf (s : State) (core pa n v : Nat) (h : Memory.wf s.mem = true) :
    Memory.wf (partWrite s core pa n v).mem = true := memWrite_wf _ _ _ _ (settleReds_wf s core pa n h)

theorem coreStore_wf (s : State) (core pa n v : Nat) (h : Memory.wf s.mem = true) :
    Memory.wf (coreStore s core pa n v).mem = true := by
  unfold coreStore
  split
  · exact partWrite_wf s core pa n v h
  · exact h

theorem vaWrite_wf (s : State) (ctx : Nat) (core : Option Nat) (va : Word64) (v n : Nat) (h : Memory.wf s.mem = true) :
    Memory.wf (vaWrite s ctx core va v n).mem = true := by
  induction n generalizing s va v with
  | zero => exact h
  | succ n ih =>
    refine ih _ _ _ ?_
    cases core with
    | none => exact memWrite_wf _ _ _ _ h
    | some c => exact partWrite_wf _ _ _ _ _ h

/-! ### What a byte reads as -/

theorem getD_putBytes (m : List Host.Cell) (a v n j : Nat) :
    Table.getD (putBytes m a v n) j 0 = if a ≤ j ∧ j < a + n then byteOf v (j - a) else Table.getD m j 0 := by
  induction n generalizing m a v with
  | zero => rw [if_neg (by omega)]; rfl
  | succ n ih =>
    simp only [putBytes, ih, Table.getD_put]
    by_cases h1 : a + 1 ≤ j ∧ j < a + 1 + n
    · rw [if_pos h1, if_pos (by omega)]
      have e : j - a = (j - (a + 1)) + 1 := by omega
      rw [e]
      simp only [byteOf]
      congr 1
      rw [Nat.shiftRight_eq_div_pow, Nat.shiftRight_eq_div_pow, Nat.div_div_eq_div_mul]
      congr 1
      rw [Nat.mul_add, Nat.pow_add, Nat.mul_comm]
    · rw [if_neg h1]
      by_cases h2 : j = a
      · subst h2
        rw [if_pos rfl, if_pos (by omega)]
        simp [byteOf]
      · rw [if_neg h2, if_neg (by omega)]

theorem getD_setBytes (m : List Host.Cell) (a v n j : Nat) :
    Table.get? (setBytes m a v n) j = if a ≤ j ∧ j < a + n then some (byteOf v (j - a)) else Table.get? m j := by
  induction n generalizing m a v with
  | zero => rw [if_neg (by omega)]; rfl
  | succ n ih =>
    simp only [setBytes, ih, Table.get?_set]
    by_cases h1 : a + 1 ≤ j ∧ j < a + 1 + n
    · rw [if_pos h1, if_pos (by omega)]
      have e : j - a = (j - (a + 1)) + 1 := by omega
      rw [e]
      simp only [byteOf]
      congr 2
      rw [Nat.shiftRight_eq_div_pow, Nat.shiftRight_eq_div_pow, Nat.div_div_eq_div_mul]
      congr 1
      rw [Nat.mul_add, Nat.pow_add, Nat.mul_comm]
    · rw [if_neg h1]
      by_cases h2 : j = a
      · subst h2
        rw [if_pos rfl, if_pos (by omega)]
        simp [byteOf]
      · rw [if_neg h2, if_neg (by omega)]

theorem memByte_memWrite (s : State) (pa n v a : Nat) :
    memByte (memWrite s pa n v) a = if pa ≤ a ∧ a < pa + n then byteOf v (a - pa) else memByte s a := by
  simp only [memByte, memWrite, clearPoison_mem, getD_putBytes]

theorem memByte_congr (s t : State) (h : t.mem = s.mem) (a : Nat) : memByte t a = memByte s a := by
  simp only [memByte, h]

/-- A store that covers no poisoned granule whole goes to the core's own cells (10 R265). -/
theorem coreStore_plain (s : State) (core pa n v : Nat) (h : ∀ g ∈ wholeGranules pa n, g ∉ s.poison) :
    coreStore s core pa n v = { s with dirty := setBytes s.dirty (core * corePitch + pa) v n } := by
  unfold coreStore
  rw [if_neg]
  simpa using h

/-- A store that covers a poisoned granule whole is a write that every agent sees (18 R402). -/
theorem coreStore_whole (s : State) (core pa n v : Nat) (h : ∃ g ∈ wholeGranules pa n, g ∈ s.poison) :
    coreStore s core pa n v = partWrite s core pa n v := by
  unfold coreStore
  rw [if_pos]
  simpa using h

theorem coreByte_eq (s : State) (u pa : Nat) :
    coreByte s u pa =
      (((levelPath u).findSome? fun v => Table.get? s.dirty (v * corePitch + pa)).getD (memByte s pa)) := by
  unfold coreByte
  cases s.dirty with
  | nil => simp [Table.get?, List.findSome?_eq_none_iff.2]
  | cons a t => cases (levelPath u).findSome? _ <;> rfl

/-- The innermost level of a core comes first. -/
theorem levelPath_core (core : Nat) (h : core < 1152) :
    levelPath core = [core, quadLevel (core / 4), dieLevel (core / 48)] := by simp [levelPath, h]

theorem quadLevel_gt (core : Nat) (hc : core < 1152) : quadLevel (core / 4) ≥ core + 1 := by unfold quadLevel; omega

theorem dieLevel_gt (core : Nat) (hc : core < 1152) : dieLevel (core / 48) ≥ core + 1 := by unfold dieLevel; omega

/-- The cells of different levels do not meet. -/
theorem other_level (p core u pa n a : Nat) (hu : u ≥ core + 1) (hp : pa + n ≤ p) :
    ¬ (core * p + pa ≤ u * p + a ∧ u * p + a < core * p + pa + n) := by
  intro hx
  have h := Nat.mul_le_mul_right p hu
  rw [Nat.add_mul, Nat.one_mul] at h
  omega

/-- What three levels hold of an address after a store at the innermost one. -/
theorem findSome_setBytes (m : List Host.Cell) (p core q d pa n v a : Nat) (hq : q ≥ core + 1) (hd : d ≥ core + 1)
    (hp : pa + n ≤ p) :
    ([core, q, d].findSome? fun u => Table.get? (setBytes m (core * p + pa) v n) (u * p + a)) =
      if pa ≤ a ∧ a < pa + n then some (byteOf v (a - pa)) else [core, q, d].findSome? fun u => Table.get? m (u * p + a) := by
  simp only [List.findSome?_cons, List.findSome?_nil, getD_setBytes, if_neg (other_level p core q pa n a hq hp),
    if_neg (other_level p core d pa n a hd hp)]
  by_cases hin : pa ≤ a ∧ a < pa + n
  · rw [if_pos (by omega), if_pos hin, Nat.add_sub_add_left]
  · rw [if_neg (by omega), if_neg hin]

/-- A core sees its own store at once (10 R265). -/
theorem coreByte_coreStore (s : State) (core pa n v a : Nat) (hc : core < 1152) (hp : pa + n ≤ corePitch)
    (h : ∀ g ∈ wholeGranules pa n, g ∉ s.poison) :
    coreByte (coreStore s core pa n v) core a =
      if pa ≤ a ∧ a < pa + n then byteOf v (a - pa) else coreByte s core a := by
  rw [coreStore_plain s core pa n v h, coreByte_eq, coreByte_eq, levelPath_core core hc,
    findSome_setBytes _ _ _ _ _ _ _ _ _ (quadLevel_gt core hc) (dieLevel_gt core hc) hp]
  by_cases hin : pa ≤ a ∧ a < pa + n
  · rw [if_pos hin, if_pos hin]
    rfl
  · rw [if_neg hin, if_neg hin]
    rfl

end Sys2Proof.Machine
end

