-- ==== Sys2Proof/Laws/Settle.lean ====
section
/-! SUPPORT. What settling a wave after a word leaves as it was: registers, memory, and every lane's own state but its
meetings, waits and barrier arrivals (03 R62, R78, R87). -/
namespace Sys2Proof.Machine

theorem LaneKept.refl (a : Lane) : LaneKept a a :=
  ⟨rfl, rfl, rfl, rfl, rfl, rfl, rfl, rfl, rfl, rfl, fun h => ⟨rfl, h⟩⟩

theorem LaneKept.trans {a b c : Lane} (h : LaneKept a b) (k : LaneKept b c) : LaneKept a c :=
  ⟨k.life.trans h.life, k.flags.trans h.flags, k.rng.trans h.rng, k.item.trans h.item, k.batch.trans h.batch,
    k.failed.trans h.failed, k.handler.trans h.handler, k.timer.trans h.timer, k.stopped.trans h.stopped,
    k.tret.trans h.tret,
    fun w => ⟨(k.place (h.place w).2).1.trans (h.place w).1, (k.place (h.place w).2).2⟩⟩

theorem WaveKept.refl (a : Wave) : WaveKept a a := ⟨rfl, fun _ => LaneKept.refl _⟩

theorem WaveKept.trans {a b c : Wave} (h : WaveKept a b) (k : WaveKept b c) : WaveKept a c :=
  ⟨by rw [k.rest, h.rest], fun i => (h.lanes i).trans (k.lanes i)⟩

theorem EntryKept.refl {α : Type} {r : α → α → Prop} (h : ∀ a, r a a) (x : Option α) : EntryKept r x x := by
  cases x with
  | none => exact True.intro
  | some a => exact h a

theorem EntryKept.trans {α : Type} {r : α → α → Prop} (h : ∀ a b c, r a b → r b c → r a c) {x y z : Option α}
    (p : EntryKept r x y) (q : EntryKept r y z) : EntryKept r x z := by
  cases x <;> cases y <;> cases z <;> simp_all [EntryKept]
  exact h _ _ _ p q

theorem GroupKept.refl (a : Group) : GroupKept a a := rfl

theorem CtxKept.refl (a : Context) : CtxKept a a := rfl

theorem GroupKept.trans (a b c : Group) (h : GroupKept a b) (k : GroupKept b c) : GroupKept a c := by
  unfold GroupKept at *; rw [k, h]

theorem CtxKept.trans (a b c : Context) (h : CtxKept a b) (k : CtxKept b c) : CtxKept a c := by
  unfold CtxKept at *; rw [k, h]

/-- What settling keeps of the machine. -/
structure Settled (s t : State) : Prop where
  rest : t = { s with me := t.me, waves := t.waves, groups := t.groups, ctxs := t.ctxs }
  me : WaveKept s.me t.me
  waves : ∀ k, EntryKept WaveKept (Table.get? s.waves k) (Table.get? t.waves k)
  groups : ∀ k, EntryKept GroupKept (Table.get? s.groups k) (Table.get? t.groups k)
  ctxs : ∀ k, EntryKept CtxKept (Table.get? s.ctxs k) (Table.get? t.ctxs k)

theorem Settled.refl (s : State) : Settled s s :=
  ⟨rfl, WaveKept.refl _, fun _ => EntryKept.refl WaveKept.refl _, fun _ => EntryKept.refl GroupKept.refl _,
    fun _ => EntryKept.refl CtxKept.refl _⟩

theorem Settled.trans {s t u : State} (h : Settled s t) (k : Settled t u) : Settled s u :=
  ⟨by rw [k.rest, h.rest], h.me.trans k.me,
    fun n => EntryKept.trans (r := WaveKept) (fun _ _ _ p q => WaveKept.trans p q) (h.waves n) (k.waves n),
    fun n => EntryKept.trans GroupKept.trans (h.groups n) (k.groups n),
    fun n => EntryKept.trans CtxKept.trans (h.ctxs n) (k.ctxs n)⟩

theorem Settled.foldl {β : Type} (f : State → β → State) (hf : ∀ s b, Settled s (f s b)) (l : List β) (s : State) :
    Settled s (l.foldl f s) := by
  induction l generalizing s with
  | nil => exact Settled.refl s
  | cons b t ih => exact (hf s b).trans (ih _)

/-! ### The pieces -/

@[simp] theorem lanesOf_get {α : Type} (f : Fin 32 → α) (i : Fin 32) : (lanesOf f : Vector α 32)[i] = f i := by
  simp [lanesOf]

theorem waveKept_map (w : Wave) (f : Fin 32 → Lane) (h : ∀ i, LaneKept w.lanes[i] (f i)) :
    WaveKept w { w with lanes := lanesOf f } := ⟨rfl, fun i => by
      show LaneKept w.lanes[i] (lanesOf f : Vector Lane 32)[i]
      rw [lanesOf_get]
      exact h i⟩

theorem settleMeetings_kept (w : Wave) : WaveKept w (settleMeetings w) := by
  unfold settleMeetings
  split
  · refine waveKept_map _ _ fun i => ?_
    dsimp only
    split
    · exact ⟨rfl, rfl, rfl, rfl, rfl, rfl, rfl, rfl, rfl, rfl, fun _ => ⟨rfl, by intros; simp⟩⟩
    · exact LaneKept.refl _
  · exact WaveKept.refl w

theorem arrive_wait (k : Kernel) (l : Lane) (a : Word64) : ∀ sc n p w t, (arrive k l a).wait ≠ .barHeld sc n p w t := by
  intro sc n p w t
  simp only [arrive]
  split <;> simp

theorem nextWord_wait (k : Kernel) (l : Lane) : ∀ sc n p w t, (nextWord k l).wait ≠ .barHeld sc n p w t := by
  intro sc n p w t
  simp only [nextWord]
  split
  · simp
  · exact arrive_wait _ _ _ _ _ _ _ _

theorem nextWord_pc (k : Kernel) (l : Lane) : (nextWord k l).pc = l.pc + 8 := by
  simp only [nextWord]
  split <;> rfl

theorem settleTramps_kept (k : Kernel) (w : Wave) : WaveKept w (settleTramps k w) := by
  unfold settleTramps
  simp only
  split
  · refine waveKept_map _ _ fun i => ?_
    split
    · split
      · split
        · exact ⟨rfl, rfl, rfl, rfl, rfl, rfl, rfl, rfl, rfl, rfl, fun _ => ⟨rfl, arrive_wait _ _ _⟩⟩
        · exact ⟨rfl, rfl, rfl, rfl, rfl, rfl, rfl, rfl, rfl, rfl, fun _ => ⟨rfl, by intros; simp⟩⟩
      · exact LaneKept.refl _
    · exact LaneKept.refl _
  · exact WaveKept.refl w

theorem nextWord_kept (k : Kernel) (l : Lane) :
    (nextWord k l).life = l.life ∧ (nextWord k l).flags = l.flags ∧ (nextWord k l).rng = l.rng ∧
      (nextWord k l).item = l.item ∧ (nextWord k l).batch = l.batch ∧ (nextWord k l).failed = l.failed ∧
      (nextWord k l).handler = l.handler ∧ (nextWord k l).timerDue = l.timerDue ∧
      (nextWord k l).stopped = l.stopped ∧ (nextWord k l).tret = l.tret := by
  simp only [nextWord]
  split <;> simp [arrive]

theorem carryLane_kept (k : Kernel) (key old : Nat) (counted : Bool) (now : Nat) (l : Lane) :
    LaneKept l (carryLane k key old counted now l) := by
  unfold carryLane
  split
  · exact LaneKept.refl l
  · split
    · next sc num ph wt sn hw =>
      split
      · simp only
        split
        · exact ⟨rfl, rfl, rfl, rfl, rfl, rfl, rfl, rfl, rfl, rfl, fun h => absurd hw (h _ _ _ _ _)⟩
        · split
          · exact ⟨rfl, rfl, rfl, rfl, rfl, rfl, rfl, rfl, rfl, rfl, fun h => absurd hw (h _ _ _ _ _)⟩
          · obtain ⟨h1, h2, h3, h4, h5, h6, h7, h8, h9, h10⟩ :=
              nextWord_kept k { l with arr := Table.set l.arr key (old + 1) }
            exact ⟨h1, h2, h3, h4, h5, h6, h7, h8, h9, h10, fun h => absurd hw (h _ _ _ _ _)⟩
      · exact LaneKept.refl l
    · split
      · exact ⟨rfl, rfl, rfl, rfl, rfl, rfl, rfl, rfl, rfl, rfl, fun _ => ⟨rfl, by intros; simp⟩⟩
      · exact LaneKept.refl l
    · split
      · exact ⟨rfl, rfl, rfl, rfl, rfl, rfl, rfl, rfl, rfl, rfl, fun h => ⟨rfl, h⟩⟩
      · exact LaneKept.refl l

theorem modWave_settled (s : State) (k : Nat) (f : Wave → Wave) (h : ∀ w, WaveKept w (f w)) :
    Settled s (modWave s k f) := by
  unfold modWave
  split
  · exact ⟨rfl, h _, fun _ => EntryKept.refl WaveKept.refl _, fun _ => EntryKept.refl GroupKept.refl _,
      fun _ => EntryKept.refl CtxKept.refl _⟩
  · refine ⟨rfl, WaveKept.refl _, fun n => ?_, fun _ => EntryKept.refl GroupKept.refl _,
      fun _ => EntryKept.refl CtxKept.refl _⟩
    rw [Table.get?_modify]
    split
    · next hn => subst hn; cases Table.get? s.waves n with
      | none => exact True.intro
      | some a => exact h a
    · exact EntryKept.refl WaveKept.refl _

theorem modGroup_settled (s : State) (k : Nat) (f : Group → Group) (h : ∀ g, GroupKept g (f g)) :
    Settled s (modGroup s k f) := by
  refine ⟨rfl, WaveKept.refl _, fun _ => EntryKept.refl WaveKept.refl _, fun n => ?_,
    fun _ => EntryKept.refl CtxKept.refl _⟩
  simp only [modGroup]
  rw [Table.get?_modify]
  split
  · next hn => subst hn; cases Table.get? s.groups n with
    | none => exact True.intro
    | some a => exact h a
  · exact EntryKept.refl GroupKept.refl _

theorem setCtx_settled (s : State) (k : Nat) (f : Context → Context) (h : ∀ g, CtxKept g (f g)) :
    Settled s (setCtx s k f) := by
  refine ⟨rfl, WaveKept.refl _, fun _ => EntryKept.refl WaveKept.refl _, fun _ => EntryKept.refl GroupKept.refl _,
    fun n => ?_⟩
  simp only [setCtx]
  rw [Table.get?_modify]
  split
  · next hn => subst hn; cases Table.get? s.ctxs n with
    | none => exact True.intro
    | some a => exact h a
  · exact EntryKept.refl CtxKept.refl _

theorem setBarrier_settled (s : State) (gk : Nat) (sc : Scope) (key : Nat) (b : Barrier) :
    Settled s (setBarrier s gk sc key b) := by
  cases sc
  case core => exact modGroup_settled _ _ _ fun _ => rfl
  all_goals exact setCtx_settled _ _ _ fun _ => rfl

theorem carryWaves_settled (s : State) (ks : List Nat) (k : Kernel) (key old : Nat) (counted : Bool) :
    Settled s (ks.foldl (fun s n => modWave s n fun w =>
      settleMeetings { w with lanes := lanesOf fun i => carryLane k key old counted s.wall w.lanes[i] }) s) :=
  Settled.foldl _ (fun s n => modWave_settled s n _ fun w =>
    (waveKept_map w _ fun _ => carryLane_kept ..).trans (settleMeetings_kept _)) _ _

theorem arriveGroup_settled (s : State) (gk : Nat) (sc : Scope) (key : Nat) : Settled s (arriveGroup s gk sc key) := by
  unfold arriveGroup
  simp only
  split
  · exact setBarrier_settled ..
  · exact Settled.refl s

theorem endWide_settled (s : State) (ctx : Nat) (sc : Scope) (key : Nat) (b : Barrier) :
    Settled s (endWide s ctx sc key b) := by
  unfold endWide
  refine (setCtx_settled _ _ _ ?_).trans (Settled.foldl _ (fun s e => ?_) _ _)
  · intro c; rfl
  · refine (modGroup_settled _ _ _ ?_).trans (carryWaves_settled ..)
    intro g; rfl

theorem settleBarrier_settled (gk : Nat) (sc : Scope) (key fuel : Nat) (s : State) :
    Settled s (settleBarrier s gk sc key fuel) := by
  induction fuel generalizing s gk with
  | zero => exact Settled.refl s
  | succ fuel ih =>
    have wide : ∀ sc', Settled s (if wideFull (arriveGroup s gk sc' key) (groupOf s gk).ctx key then
        (membersOf (arriveGroup s gk sc' key) (groupOf s gk).ctx sc' key).foldl
          (fun s e => settleBarrier s e.1 sc key fuel)
          (endWide (arriveGroup s gk sc' key) (groupOf s gk).ctx sc' key (barrierOf (arriveGroup s gk sc' key) gk sc' key))
        else arriveGroup s gk sc' key) := fun sc' => by
      split
      · exact ((arriveGroup_settled ..).trans (endWide_settled ..)).trans (Settled.foldl _ (fun s (e : Nat × Group) => ih e.1 s) _ _)
      · exact arriveGroup_settled ..
    cases sc with
    | core =>
      simp only [settleBarrier]
      split
      · exact ((setBarrier_settled ..).trans (carryWaves_settled ..)).trans (ih gk _)
      · exact Settled.refl s
    | quad => exact wide .quad
    | die => exact wide .die
    | pkg => exact wide .pkg
    | pod => exact wide .pod
    | sys => exact wide .sys

theorem settleBarriers_settled (s : State) (gk : Nat) : Settled s (settleBarriers s gk) :=
  Settled.foldl _ (fun _ _ => settleBarrier_settled ..) _ _

/-- A wave with a living thread, or one that holds a fragment, keeps its slot. -/
theorem freeWave_live (s : State) (k : Nat) (i : Fin 32) (h : (waveOf s k).lanes[i].life ≠ .exited) :
    freeWave s k = s := by
  unfold freeWave
  simp only
  rw [if_neg]
  simp only [Bool.and_eq_true, not_and, Bool.not_eq_true]
  intro h1
  exfalso
  simp only [List.all_eq_true, beq_iff_eq] at h1
  exact absurd (h1.1.2 i (List.mem_finRange i)) h

theorem waveOf_me (s : State) (h : s.me.present = true) (ha : s.me.ap = none) : waveOf s s.me.key = s.me := by
  simp [waveOf, h, ha]

/-- What follows a word of the issuing wave keeps what `Settled` says, while a lane of it lives (03 R60). -/
theorem settleMe_settled (s : State) (i : Fin 32) (hp : s.me.present = true) (h : s.me.lanes[i].life ≠ .exited) :
    Settled s (settleMe s) := by
  unfold settleMe
  split
  · exact Settled.refl s
  · next ha =>
    have ha : s.me.ap = none := by simpa using ha
    unfold settleWave
    simp only
    have h1 : Settled s (modWave s s.me.key fun w =>
        settleMeetings (settleTramps (groupOf s (waveOf s s.me.key).group).kern w)) :=
      modWave_settled _ _ _ fun w => (settleTramps_kept _ w).trans (settleMeetings_kept _)
    have h2 := h1.trans (settleBarriers_settled _ (waveOf s s.me.key).group)
    generalize settleBarriers (modWave s s.me.key fun w =>
        settleMeetings (settleTramps (groupOf s (waveOf s s.me.key).group).kern w)) (waveOf s s.me.key).group = u at h2 ⊢
    have hm := h2.me
    have e : s.me.key = u.me.key := by rw [hm.rest]
    rw [freeWave_live _ _ i]
    · exact h2
    · rw [e, waveOf_me]
      · rw [(hm.lanes i).life]; exact h
      · rw [hm.rest]; exact hp
      · rw [hm.rest]; exact ha

end Sys2Proof.Machine
end

