-- ==== Sys2Proof/Laws/Operands.lean ====
section
/-! SUPPORT. What the shape shared by register instructions does: taking queue words, freeing an access processor context,
and the whole of `regInstr` where nothing faults (02 R35, R41, 04 R97, R103). -/
namespace Sys2Proof.Machine

theorem WaveFramed.refl (a : Wave) : WaveFramed a a := ⟨rfl, fun _ => LaneKept.refl _⟩

theorem WaveKept.framed {a b : Wave} (h : WaveKept a b) : WaveFramed a b :=
  ⟨by rw [h.rest], h.lanes⟩

theorem WaveFramed.trans {a b c : Wave} (h : WaveFramed a b) (k : WaveFramed b c) : WaveFramed a c :=
  ⟨by rw [k.rest, h.rest], fun i => (h.lanes i).trans (k.lanes i)⟩

theorem EntryKept.mono {α : Type} {r q : α → α → Prop} (h : ∀ a b, r a b → q a b) {x y : Option α}
    (p : EntryKept r x y) : EntryKept q x y := by
  cases x <;> cases y <;> simp_all [EntryKept]

theorem Framed.refl (s : State) : Framed s s :=
  ⟨rfl, fun _ => EntryKept.refl WaveFramed.refl _, fun _ => Or.inl rfl, fun _ => EntryKept.refl GroupKept.refl _,
    fun _ => EntryKept.refl CtxKept.refl _⟩

theorem Framed.trans {s t u : State} (h : Framed s t) (k : Framed t u) : Framed s u :=
  ⟨by rw [k.rest, h.rest],
    fun n => EntryKept.trans (r := WaveFramed) (fun _ _ _ p q => WaveFramed.trans p q) (h.waves n) (k.waves n),
    fun n => by
      rcases k.aps n with e | e
      · rcases h.aps n with f | f
        · exact Or.inl (e.trans f)
        · exact Or.inr (e.trans f)
      · exact Or.inr e,
    fun n => EntryKept.trans GroupKept.trans (h.groups n) (k.groups n),
    fun n => EntryKept.trans CtxKept.trans (h.ctxs n) (k.ctxs n)⟩

theorem Settled.framed {s t : State} (h : Settled s t) : Framed s t :=
  ⟨by
      have e := h.rest
      have a : t.aps = s.aps := by rw [e]
      rw [a]; exact e,
    fun n => EntryKept.mono (fun _ _ => WaveKept.framed) (h.waves n), fun n => Or.inl (by rw [h.rest]), h.groups, h.ctxs⟩

/-- Changing the issuing wave leaves the rest. -/
theorem modMe_framed (s : State) (f : Wave → Wave) : Framed s (modMe s f) :=
  ⟨rfl, fun _ => EntryKept.refl WaveFramed.refl _, fun _ => Or.inl rfl, fun _ => EntryKept.refl GroupKept.refl _,
    fun _ => EntryKept.refl CtxKept.refl _⟩

/-! ### Taking queue words -/

/-- What taking queue words changes: the words held by the lanes of the issuing wave, and the queues. -/
structure Popped (s p : State) : Prop where
  rest : p = { s with me := p.me, aps := p.aps }
  me : p.me = { s.me with lanes := p.me.lanes }
  lanes : ∀ l : Fin 32, p.me.lanes[l] = { s.me.lanes[l] with kept := p.me.lanes[l].kept }

theorem Popped.refl (s : State) : Popped s s := ⟨rfl, rfl, fun _ => rfl⟩

theorem Popped.trans {s t u : State} (h : Popped s t) (k : Popped t u) : Popped s u :=
  ⟨by rw [k.rest, h.rest], by rw [k.me, h.me], fun l => by rw [k.lanes l, h.lanes l]⟩

/-- What giving lanes a queue word changes of a wave. -/
structure PoppedWave (a b : Wave) : Prop where
  rest : b = { a with lanes := b.lanes }
  lanes : ∀ l : Fin 32, b.lanes[l] = { a.lanes[l] with kept := b.lanes[l].kept }

theorem mapLanes_get (w : Wave) (m : LaneMask) (f : Fin 32 → Lane → Lane) (i : Fin 32) :
    (mapLanes w m f).lanes[i] = if m.getLsbD i then f i w.lanes[i] else w.lanes[i] := by
  show (lanesOf _ : Vector Lane 32)[i] = _
  rw [lanesOf_get]

theorem PoppedWave.trans {a b c : Wave} (h : PoppedWave a b) (k : PoppedWave b c) : PoppedWave a c :=
  ⟨by rw [k.rest, h.rest], fun l => by rw [k.lanes l, h.lanes l]⟩

/-- Give one lane a queue word, if the word is present. -/
def popWord (q : Nat) (w : Wave) (p : Fin 32 × QWord) : Wave :=
  match p.2 with
  | .word x bad => mapLanes w (laneBit p.1) fun _ l => { l with kept := l.kept ++ [{ q := q, w := x, poison := bad }] }
  | _ => w

theorem popWord_popped (q : Nat) (w : Wave) (p : Fin 32 × QWord) : PoppedWave w (popWord q w p) := by
  obtain ⟨i, x⟩ := p
  cases x with
  | reserved a b => exact ⟨rfl, fun _ => rfl⟩
  | word x bad =>
    refine ⟨rfl, fun l => ?_⟩
    simp only [popWord]
    rw [mapLanes_get]
    split <;> rfl

theorem popWords_popped (q : Nat) (ps : List (Fin 32 × QWord)) (w : Wave) : PoppedWave w (ps.foldl (popWord q) w) := by
  induction ps generalizing w with
  | nil => exact ⟨rfl, fun _ => rfl⟩
  | cons p t ih => exact (popWord_popped q w p).trans (ih _)

theorem modAp_none (s : State) (k : Nat) (f : Wave → Wave) (h : s.me.ap = none) :
    modAp s k f = { s with aps := Table.modify s.aps k f } := by
  simp [modAp, h]

theorem popQueue_popped (s : State) (m : LaneMask) (q : Nat) (h : s.me.ap = none) : Popped s (popQueue s m q) := by
  unfold popQueue
  extract_lets ls words t
  have ht : Popped s t := by
    show Popped s (match s.me.bound with | some a => _ | none => s)
    split
    · rw [modAp_none _ _ _ h]; exact ⟨rfl, rfl, fun _ => rfl⟩
    · exact Popped.refl s
  refine ht.trans ?_
  obtain ⟨r, l⟩ := popWords_popped q (ls.zip words) t.me
  exact ⟨rfl, r, l⟩

theorem popAll_popped (m : LaneMask) (qs : List Nat) (s : State) (h : s.me.ap = none) :
    Popped s (qs.foldl (fun s q => popQueue s m q) s) := by
  induction qs generalizing s with
  | nil => exact Popped.refl s
  | cons q t ih =>
    have h1 := popQueue_popped s m q h
    exact h1.trans (ih _ (by rw [h1.me]; exact h))

theorem taken_popped (s : State) (h : Head) (srcs : List (Operand × Nat)) (hq : queuesIn srcs = [] ∨ s.me.ap = none) :
    Popped s (taken s h srcs) := by
  unfold taken
  rcases hq with hq | hq
  · rw [hq]; exact Popped.refl s
  · exact popAll_popped (active s h) (queuesIn srcs) s hq

theorem modWave_framed (s : State) (k : Nat) (f : Wave → Wave) (h : ∀ w, WaveFramed w (f w)) :
    Framed s (modWave s k f) ∧ WaveFramed s.me (modWave s k f).me := by
  unfold modWave
  split
  · exact ⟨⟨rfl, fun _ => EntryKept.refl WaveFramed.refl _, fun _ => Or.inl rfl, fun _ => EntryKept.refl GroupKept.refl _,
      fun _ => EntryKept.refl CtxKept.refl _⟩, h _⟩
  · refine ⟨⟨rfl, fun n => ?_, fun _ => Or.inl rfl, fun _ => EntryKept.refl GroupKept.refl _,
      fun _ => EntryKept.refl CtxKept.refl _⟩, WaveFramed.refl _⟩
    rw [Table.get?_modify]
    split
    · next hn =>
      subst hn
      cases Table.get? s.waves n with
      | none => exact True.intro
      | some a => exact h a
    · exact EntryKept.refl WaveFramed.refl _

/-- Freeing an access processor context leaves the rest (04 R97). -/
theorem freeAp_framed (s : State) (a : Nat) (h : s.me.ap = none) :
    Framed s (freeAp s a) ∧ WaveFramed s.me (freeAp s a).me := by
  unfold freeAp
  split
  · split
    · next p hp hc =>
      simp only [h, Option.isSome_none, Bool.and_false, Bool.false_and, Bool.false_eq_true, if_false]
      have h1 : Framed s { s with aps := Table.erase s.aps a } :=
        ⟨rfl, fun _ => EntryKept.refl WaveFramed.refl _, fun n => by
            rw [Table.get?_erase]; split
            · exact Or.inr rfl
            · exact Or.inl rfl,
          fun _ => EntryKept.refl GroupKept.refl _, fun _ => EntryKept.refl CtxKept.refl _⟩
      obtain ⟨h2, h3⟩ := modWave_framed { s with aps := Table.erase s.aps a } p.owner
        (fun w => { w with bound := none, ended := some p.code })
        fun w => ⟨rfl, fun _ => LaneKept.refl _⟩
      exact ⟨h1.trans h2, h3⟩
    · exact ⟨Framed.refl s, WaveFramed.refl _⟩
  · exact ⟨Framed.refl s, WaveFramed.refl _⟩

/-! ### The whole instruction -/

theorem and_not_zero (m : LaneMask) : (m &&& ~~~(0 : LaneMask)) = m := by
  rw [show (~~~(0 : LaneMask)) = BitVec.allOnes 32 from rfl, BitVec.and_allOnes]

theorem lowest_mem (m : LaneMask) (h : m ≠ 0) : m.getLsbD (lowest m) = true := by
  unfold lowest lanesIn
  cases hl : (List.finRange 32).filter fun (i : Fin 32) => m.getLsbD i.val with
  | nil =>
    exfalso
    apply h
    apply BitVec.eq_of_getLsbD_eq
    intro i hi
    rw [List.filter_eq_nil_iff] at hl
    have := hl ⟨i, hi⟩ (List.mem_finRange _)
    simpa using this
  | cons x t =>
    have : x ∈ (List.finRange 32).filter fun (i : Fin 32) => m.getLsbD i.val := by rw [hl]; exact List.mem_cons_self
    simpa using (List.mem_filter.1 this).2

theorem advanceMe_lane (s : State) (m : LaneMask) (l : Fin 32) :
    (advanceMe s m).me.lanes[l] = if m.getLsbD l then nextWord (kernOf s) s.me.lanes[l] else s.me.lanes[l] :=
  mapLanes_get _ _ _ _

/-- What stands around an instruction whose queue words are there: it runs from the state with the words taken, and the
access processor context may be freed after it (04 R97, R103). -/
theorem withPops_ready (s : State) (h : Head) (srcs : List (Operand × Nat)) (run : State → State)
    (hs : Sourced s h srcs) (hf : (run (taken s h srcs)).me.full = 0) :
    withPops s srcs (active s h) run = run (taken s h srcs) ∨
      ∃ a, s.me.ap = none ∧ withPops s srcs (active s h) run = freeAp (run (taken s h srcs)) a := by
  unfold withPops
  split
  · next hq =>
    left
    simp [taken, hq]
  · next hne =>
    have hnone : s.me.ap = none := by
      rcases hs.agent with e | e
      · exact absurd e hne
      · exact e
    have hready : ((queuesIn srcs).all fun q =>
        decide ((needers s.me (active s h) q).length ≤ readyWords (boundQueue s q))) = true := by
      rw [List.all_eq_true]
      intro q hmem
      exact decide_eq_true (hs.queues q hmem)
    rw [if_pos hready]
    have e : (queuesIn srcs).foldl (fun s_1 q => popQueue s_1 (active s h) q) s = taken s h srcs := rfl
    rw [e]
    simp only [hf, bne_self_eq_false, Bool.false_eq_true, if_false]
    split
    · next a _ => exact Or.inr ⟨a, hnone, rfl⟩
    · exact Or.inl rfl

/-- An instruction none of whose lanes faults commits for all of them. -/
theorem commitWith_clean (s : State) (commit : State → State) : commitWith s [] commit = settleMe (commit s) := rfl

theorem faultLanes_zero (c : Cause) (a : Word64) (d : Word32) : faultLanes 0 c a d = [] := by
  simp [faultLanes, lanesIn]

theorem advanceMe_me (q : State) (m : LaneMask) :
    (advanceMe q m).me = { q.me with lanes := (advanceMe q m).me.lanes } := rfl

theorem advanceMe_framed (q : State) (m : LaneMask) : Framed q (advanceMe q m) :=
  modMe_framed q fun w => mapLanes w m fun _ l => nextWord (kernOf q) l

theorem WaveKept.after {a b c : Wave} (h : b = { a with lanes := b.lanes }) (k : WaveKept b c) :
    c = { a with lanes := c.lanes } := by rw [k.rest, h]

/-- Settling after lanes moved on: the frame, and the wave. -/
theorem settle_after (q u : State) (m : LaneMask) (i : Fin 32) (hp : q.me.present = true)
    (hl : q.me.lanes[i].life ≠ .exited) (hu : settleMe (advanceMe q m) = u) :
    Framed q u ∧ u.me = { q.me with lanes := u.me.lanes } ∧
      ∃ k, ∀ l : Fin 32, LaneKept (if m.getLsbD l then nextWord k q.me.lanes[l] else q.me.lanes[l]) u.me.lanes[l] := by
  have hlive : (advanceMe q m).me.lanes[i].life ≠ .exited := by
    rw [advanceMe_lane]
    split
    · rw [(nextWord_kept _ _).1]; exact hl
    · exact hl
  have hp' : (advanceMe q m).me.present = true := (congrArg Wave.present (advanceMe_me q m)).trans hp
  have st := settleMe_settled (advanceMe q m) i hp' hlive
  rw [hu] at st
  have h1 := (advanceMe_framed q m).trans st.framed
  have h2 := WaveKept.after (advanceMe_me q m) st.me
  have h3 : ∀ l : Fin 32,
      LaneKept (if m.getLsbD l then nextWord (kernOf q) q.me.lanes[l] else q.me.lanes[l]) u.me.lanes[l] := by
    intro l
    have := st.me.lanes l
    rw [advanceMe_lane] at this
    exact this
  exact ⟨h1, h2, _, h3⟩

/-- The body of a register instruction none of whose sources is poisoned. -/
theorem regBody (p : State) (m : LaneMask) (scalar : Bool) (srcs : List (Operand × Nat))
    (act : LaneMask → State → State) (clean : poisonLanes p srcs m = 0) :
    (let bad := poisonLanes p srcs m
      let bad := if scalar && bad != 0 then m else bad
      commitWith p (faultLanes bad .poison) fun s_1 => advanceMe (act (m &&& ~~~bad) s_1) (s_1.iss &&& ~~~bad)) =
      settleMe (advanceMe (act m p) p.iss) := by
  simp only [clean, bne_self_eq_false, Bool.and_false, Bool.false_eq_true, if_false]
  rw [faultLanes_zero, commitWith_clean, and_not_zero, and_not_zero]

/-- A register instruction whose sources can be read, and whose act is a change `f` of the issuing wave that ends no
thread: the state it leaves, by the wave that act leaves (02 R35, R41, 03 R60). -/
theorem regInstr_modMe (h : Head) (scalar : Bool) (srcs : List (Operand × Nat)) (s p : State)
    (f : LaneMask → State → Wave → Wave) (hi : Issuing s) (hs : Sourced s h srcs) (hpe : taken s h srcs = p)
    (w' : Wave) (hf : f (active s h) p p.me = w')
    (hpres : w'.present = true) (hfull : w'.full = 0) (hap : w'.ap = s.me.ap)
    (hl : ∀ l : Fin 32, w'.lanes[l].life = p.me.lanes[l].life)
    (t : State) (ht : regInstr h scalar srcs s (fun m s => modMe s (f m s)) = t) :
    Framed p t ∧ t.me = { w' with lanes := t.me.lanes, bound := t.me.bound, ended := t.me.ended } ∧
      ∃ k, ∀ l : Fin 32, LaneKept (if s.iss.getLsbD l then nextWord k w'.lanes[l] else w'.lanes[l]) t.me.lanes[l] := by
  have hp : Popped s p := hpe ▸ taken_popped s h srcs hs.agent
  have iss : p.iss = s.iss := by rw [hp.rest]
  have clean : poisonLanes p srcs (active s h) = 0 := hpe ▸ hs.clean
  have body := regBody p (active s h) scalar srcs (fun m s => modMe s (f m s)) clean
  have hlive : w'.lanes[lowest s.iss].life ≠ .exited := by
    have h1 := hi.live _ (lowest_mem _ hi.group)
    have h2 : p.me.lanes[lowest s.iss].life = s.me.lanes[lowest s.iss].life := by
      have := hp.lanes (lowest s.iss)
      rw [this]
    rw [hl, h2, h1]
    simp
  obtain ⟨q, hq⟩ : ∃ q, modMe p (f (active s h) p) = q := ⟨_, rfl⟩
  have hqm : q.me = w' := by rw [← hq, ← hf]; rfl
  have hqf : Framed p q := hq ▸ modMe_framed p _
  obtain ⟨u, hu⟩ : ∃ u, settleMe (advanceMe q p.iss) = u := ⟨_, rfl⟩
  obtain ⟨fr, hume, k, hul⟩ := settle_after q u p.iss (lowest s.iss) (by rw [hqm]; exact hpres) (by rw [hqm]; exact hlive) hu
  rw [hqm] at hume hul
  have fr := hqf.trans fr
  rw [iss] at hul
  have hbody : settleMe (advanceMe (modMe p (f (active s h) p)) p.iss) = u := by rw [hq, hu]
  rw [hbody] at body
  have huf : u.me.full = 0 := by rw [hume]; exact hfull
  have out := withPops_ready s h srcs (fun p => let bad := poisonLanes p srcs (active s h)
      let bad := if scalar && bad != 0 then active s h else bad
      commitWith p (faultLanes bad .poison) fun s_1 =>
        advanceMe (modMe s_1 (f (active s h &&& ~~~bad) s_1)) (s_1.iss &&& ~~~bad)) hs
      (by rw [hpe]; exact (congrArg (fun x : State => x.me.full) body).trans huf)
  rw [hpe] at out
  have ht' : withPops s srcs (active s h) (fun p => let bad := poisonLanes p srcs (active s h)
      let bad := if scalar && bad != 0 then active s h else bad
      commitWith p (faultLanes bad .poison) fun s_1 =>
        advanceMe (modMe s_1 (f (active s h &&& ~~~bad) s_1)) (s_1.iss &&& ~~~bad)) = t := ht
  rw [ht'] at out
  rcases out with e | ⟨a, hn, e⟩
  · have e : t = u := e.trans body
    rw [e]
    exact ⟨fr, by rw [hume], k, hul⟩
  · have e : t = freeAp u a := e.trans (congrArg (fun x => freeAp x a) body)
    obtain ⟨f1, f2⟩ := freeAp_framed u a (by rw [hume]; exact hap.trans hn)
    rw [e]
    refine ⟨fr.trans f1, ?_, k, fun l => (hul l).trans (f2.lanes l)⟩
    rw [f2.rest, hume]

end Sys2Proof.Machine
end

