-- ==== Sys2Proof/Laws/PerInstr.lean ====
section
/-! SUPPORT. No instruction's word carries the header tag, one lemma per instruction (02 R30, R45). -/
namespace Sys2Proof

/-- The word of an instruction is no header. -/
def Laws.NotHeader.Statement (i : Instr) : Prop := isHeader i.encode = false

/-- A word whose opcode bits 9:6 are not 0110 is no header: with bits 63:62 they are the tag. -/
theorem notHeader_of_opcode (w : Word64) (op : BitVec 10) (h : opcodeOf w = op) (n : op.extractLsb' 6 4 ≠ 6#4) :
    isHeader w = false := by
  subst h
  refine Bool.eq_false_iff.2 fun e => n ?_
  have t : w.extractLsb' 58 6 = 0b110110#6 := by simpa [isHeader] using e
  apply BitVec.eq_of_getLsbD_eq
  intro i hi
  have u := congrArg (fun x => BitVec.getLsbD x i) t
  simp only [opcodeOf, BitVec.getLsbD_extractLsb'] at u ⊢
  have : i = 0 ∨ i = 1 ∨ i = 2 ∨ i = 3 := by omega
  rcases this with rfl | rfl | rfl | rfl <;> simpa using u

theorem Laws.NotHeader.nop (h : Head) : Laws.NotHeader.Statement (.nop h) :=
  notHeader_of_opcode _ 0x000 (opcodeOf_packA ..) (by decide)
theorem Laws.NotHeader.bra (h : Head) (off : BitVec 32) : Laws.NotHeader.Statement (.bra h off) :=
  notHeader_of_opcode _ 0x001 (opcodeOf_packB ..) (by decide)
theorem Laws.NotHeader.brc (h : Head) (kind : BrcKind) (k : BitVec 4) (off : BitVec 32) : Laws.NotHeader.Statement (.brc h kind k off) :=
  notHeader_of_opcode _ 0x002 (opcodeOf_packB ..) (by decide)
theorem Laws.NotHeader.brx (h : Head) (kind : BrxKind) (r : Operand) (off : BitVec 32) : Laws.NotHeader.Statement (.brx h kind r off) :=
  notHeader_of_opcode _ 0x003 (opcodeOf_packB ..) (by decide)
theorem Laws.NotHeader.call (h : Head) (link : Operand) (off : BitVec 32) : Laws.NotHeader.Statement (.call h link off) :=
  notHeader_of_opcode _ 0x004 (opcodeOf_packB ..) (by decide)
theorem Laws.NotHeader.ret (h : Head) (link : Operand) : Laws.NotHeader.Statement (.ret h link) :=
  notHeader_of_opcode _ 0x005 (opcodeOf_packA ..) (by decide)
theorem Laws.NotHeader.meetDrop (h : Head) : Laws.NotHeader.Statement (.meetDrop h) :=
  notHeader_of_opcode _ 0x006 (opcodeOf_packA ..) (by decide)
theorem Laws.NotHeader.meetPush (h : Head) : Laws.NotHeader.Statement (.meetPush h) :=
  notHeader_of_opcode _ 0x006 (opcodeOf_packA ..) (by decide)
theorem Laws.NotHeader.exit (h : Head) : Laws.NotHeader.Statement (.exit h) :=
  notHeader_of_opcode _ 0x007 (opcodeOf_packA ..) (by decide)
theorem Laws.NotHeader.refill (h : Head) (off : BitVec 32) : Laws.NotHeader.Statement (.refill h off) :=
  notHeader_of_opcode _ 0x008 (opcodeOf_packB ..) (by decide)
theorem Laws.NotHeader.yield (h : Head) : Laws.NotHeader.Statement (.yield h) :=
  notHeader_of_opcode _ 0x009 (opcodeOf_packA ..) (by decide)
theorem Laws.NotHeader.sleep (h : Head) (n : BitVec 24) : Laws.NotHeader.Statement (.sleep h n) :=
  notHeader_of_opcode _ 0x00A (opcodeOf_packI ..) (by decide)
theorem Laws.NotHeader.bar (h : Head) (sc : Scope) (num : BitVec 4) (cnt : Option Operand) : Laws.NotHeader.Statement (.bar h sc num cnt) :=
  notHeader_of_opcode _ 0x00B (opcodeOf_packA ..) (by decide)
theorem Laws.NotHeader.barv (h : Head) (sc : Scope) (num : BitVec 4) (cnt : Option Operand) : Laws.NotHeader.Statement (.barv h sc num cnt) :=
  notHeader_of_opcode _ 0x00C (opcodeOf_packA ..) (by decide)
theorem Laws.NotHeader.barw (h : Head) (sc : Scope) (num : BitVec 4) : Laws.NotHeader.Statement (.barw h sc num) :=
  notHeader_of_opcode _ 0x00D (opcodeOf_packA ..) (by decide)
theorem Laws.NotHeader.wprio (h : Head) (p : BitVec 2) : Laws.NotHeader.Statement (.wprio h p) :=
  notHeader_of_opcode _ 0x00E (opcodeOf_packI ..) (by decide)
theorem Laws.NotHeader.tramp (h : Head) (off : BitVec 32) : Laws.NotHeader.Statement (.tramp h off) :=
  notHeader_of_opcode _ 0x3F0 (opcodeOf_packB ..) (by decide)
theorem Laws.NotHeader.tret (h : Head) : Laws.NotHeader.Statement (.tret h) :=
  notHeader_of_opcode _ 0x3F1 (opcodeOf_packA ..) (by decide)
theorem Laws.NotHeader.iadd (h : Head) (ty : IntTy) (sat : Bool) (d a b : Operand) : Laws.NotHeader.Statement (.iadd h ty sat d a b) :=
  notHeader_of_opcode _ 0x040 (opcodeOf_packA ..) (by decide)
theorem Laws.NotHeader.iaddImm (h : Head) (ty : IntTy) (sat : Bool) (d a : Operand) (imm : BitVec 24) : Laws.NotHeader.Statement (.iaddImm h ty sat d a imm) :=
  notHeader_of_opcode _ 0x060 (opcodeOf_packI ..) (by decide)
theorem Laws.NotHeader.isub (h : Head) (ty : IntTy) (sat : Bool) (d a b : Operand) : Laws.NotHeader.Statement (.isub h ty sat d a b) :=
  notHeader_of_opcode _ 0x041 (opcodeOf_packA ..) (by decide)
theorem Laws.NotHeader.isubImm (h : Head) (ty : IntTy) (sat : Bool) (d a : Operand) (imm : BitVec 24) : Laws.NotHeader.Statement (.isubImm h ty sat d a imm) :=
  notHeader_of_opcode _ 0x061 (opcodeOf_packI ..) (by decide)
theorem Laws.NotHeader.imul (h : Head) (ty : IntTy) (sat : Bool) (d a b : Operand) : Laws.NotHeader.Statement (.imul h ty sat d a b) :=
  notHeader_of_opcode _ 0x042 (opcodeOf_packA ..) (by decide)
theorem Laws.NotHeader.imulImm (h : Head) (ty : IntTy) (sat : Bool) (d a : Operand) (imm : BitVec 24) : Laws.NotHeader.Statement (.imulImm h ty sat d a imm) :=
  notHeader_of_opcode _ 0x062 (opcodeOf_packI ..) (by decide)
theorem Laws.NotHeader.imulh (h : Head) (ty : IntTy) (d a b : Operand) : Laws.NotHeader.Statement (.imulh h ty d a b) :=
  notHeader_of_opcode _ 0x043 (opcodeOf_packA ..) (by decide)
theorem Laws.NotHeader.imad (h : Head) (ty : IntTy) (sat : Bool) (d a b c : Operand) : Laws.NotHeader.Statement (.imad h ty sat d a b c) :=
  notHeader_of_opcode _ 0x044 (opcodeOf_packA ..) (by decide)
theorem Laws.NotHeader.imin (h : Head) (ty : IntTy) (d a b : Operand) : Laws.NotHeader.Statement (.imin h ty d a b) :=
  notHeader_of_opcode _ 0x045 (opcodeOf_packA ..) (by decide)
theorem Laws.NotHeader.iminImm (h : Head) (ty : IntTy) (d a : Operand) (imm : BitVec 24) : Laws.NotHeader.Statement (.iminImm h ty d a imm) :=
  notHeader_of_opcode _ 0x065 (opcodeOf_packI ..) (by decide)
theorem Laws.NotHeader.imax (h : Head) (ty : IntTy) (d a b : Operand) : Laws.NotHeader.Statement (.imax h ty d a b) :=
  notHeader_of_opcode _ 0x046 (opcodeOf_packA ..) (by decide)
theorem Laws.NotHeader.imaxImm (h : Head) (ty : IntTy) (d a : Operand) (imm : BitVec 24) : Laws.NotHeader.Statement (.imaxImm h ty d a imm) :=
  notHeader_of_opcode _ 0x066 (opcodeOf_packI ..) (by decide)
theorem Laws.NotHeader.iabs (h : Head) (w : Width) (sat : Bool) (d a : Operand) : Laws.NotHeader.Statement (.iabs h w sat d a) :=
  notHeader_of_opcode _ 0x047 (opcodeOf_packA ..) (by decide)
theorem Laws.NotHeader.ineg (h : Head) (w : Width) (sat : Bool) (d a : Operand) : Laws.NotHeader.Statement (.ineg h w sat d a) :=
  notHeader_of_opcode _ 0x048 (opcodeOf_packA ..) (by decide)
theorem Laws.NotHeader.idot4 (h : Head) (za zb sat : Bool) (d a b c : Operand) : Laws.NotHeader.Statement (.idot4 h za zb sat d a b c) :=
  notHeader_of_opcode _ 0x049 (opcodeOf_packA ..) (by decide)
theorem Laws.NotHeader.and (h : Head) (w : Width) (d a b : Operand) : Laws.NotHeader.Statement (.and h w d a b) :=
  notHeader_of_opcode _ 0x04A (opcodeOf_packA ..) (by decide)
theorem Laws.NotHeader.andImm (h : Head) (w : Width) (d a : Operand) (imm : BitVec 24) : Laws.NotHeader.Statement (.andImm h w d a imm) :=
  notHeader_of_opcode _ 0x06A (opcodeOf_packI ..) (by decide)
theorem Laws.NotHeader.or (h : Head) (w : Width) (d a b : Operand) : Laws.NotHeader.Statement (.or h w d a b) :=
  notHeader_of_opcode _ 0x04B (opcodeOf_packA ..) (by decide)
theorem Laws.NotHeader.orImm (h : Head) (w : Width) (d a : Operand) (imm : BitVec 24) : Laws.NotHeader.Statement (.orImm h w d a imm) :=
  notHeader_of_opcode _ 0x06B (opcodeOf_packI ..) (by decide)
theorem Laws.NotHeader.xor (h : Head) (w : Width) (d a b : Operand) : Laws.NotHeader.Statement (.xor h w d a b) :=
  notHeader_of_opcode _ 0x04C (opcodeOf_packA ..) (by decide)
theorem Laws.NotHeader.xorImm (h : Head) (w : Width) (d a : Operand) (imm : BitVec 24) : Laws.NotHeader.Statement (.xorImm h w d a imm) :=
  notHeader_of_opcode _ 0x06C (opcodeOf_packI ..) (by decide)
theorem Laws.NotHeader.not (h : Head) (w : Width) (d a : Operand) : Laws.NotHeader.Statement (.not h w d a) :=
  notHeader_of_opcode _ 0x04D (opcodeOf_packA ..) (by decide)
theorem Laws.NotHeader.bool3 (h : Head) (w : Width) (table : BitVec 8) (d a b c : Operand) : Laws.NotHeader.Statement (.bool3 h w table d a b c) :=
  notHeader_of_opcode _ 0x04E (opcodeOf_packA ..) (by decide)
theorem Laws.NotHeader.shl (h : Head) (w : Width) (d a b : Operand) : Laws.NotHeader.Statement (.shl h w d a b) :=
  notHeader_of_opcode _ 0x04F (opcodeOf_packA ..) (by decide)
theorem Laws.NotHeader.shlImm (h : Head) (w : Width) (d a : Operand) (imm : BitVec 24) : Laws.NotHeader.Statement (.shlImm h w d a imm) :=
  notHeader_of_opcode _ 0x06F (opcodeOf_packI ..) (by decide)
theorem Laws.NotHeader.shr (h : Head) (w : Width) (d a b : Operand) : Laws.NotHeader.Statement (.shr h w d a b) :=
  notHeader_of_opcode _ 0x050 (opcodeOf_packA ..) (by decide)
theorem Laws.NotHeader.shrImm (h : Head) (w : Width) (d a : Operand) (imm : BitVec 24) : Laws.NotHeader.Statement (.shrImm h w d a imm) :=
  notHeader_of_opcode _ 0x070 (opcodeOf_packI ..) (by decide)
theorem Laws.NotHeader.sar (h : Head) (w : Width) (d a b : Operand) : Laws.NotHeader.Statement (.sar h w d a b) :=
  notHeader_of_opcode _ 0x051 (opcodeOf_packA ..) (by decide)
theorem Laws.NotHeader.sarImm (h : Head) (w : Width) (d a : Operand) (imm : BitVec 24) : Laws.NotHeader.Statement (.sarImm h w d a imm) :=
  notHeader_of_opcode _ 0x071 (opcodeOf_packI ..) (by decide)
theorem Laws.NotHeader.rot (h : Head) (w : Width) (d a b : Operand) : Laws.NotHeader.Statement (.rot h w d a b) :=
  notHeader_of_opcode _ 0x052 (opcodeOf_packA ..) (by decide)
theorem Laws.NotHeader.rotImm (h : Head) (w : Width) (d a : Operand) (imm : BitVec 24) : Laws.NotHeader.Statement (.rotImm h w d a imm) :=
  notHeader_of_opcode _ 0x072 (opcodeOf_packI ..) (by decide)
theorem Laws.NotHeader.bfx (h : Head) (ty : IntTy) (d a b : Operand) : Laws.NotHeader.Statement (.bfx h ty d a b) :=
  notHeader_of_opcode _ 0x053 (opcodeOf_packA ..) (by decide)
theorem Laws.NotHeader.bfxImm (h : Head) (ty : IntTy) (d a : Operand) (imm : BitVec 24) : Laws.NotHeader.Statement (.bfxImm h ty d a imm) :=
  notHeader_of_opcode _ 0x073 (opcodeOf_packI ..) (by decide)
theorem Laws.NotHeader.bfi (h : Head) (w : Width) (d a b c : Operand) : Laws.NotHeader.Statement (.bfi h w d a b c) :=
  notHeader_of_opcode _ 0x054 (opcodeOf_packA ..) (by decide)
theorem Laws.NotHeader.popc (h : Head) (w : Width) (d a : Operand) : Laws.NotHeader.Statement (.popc h w d a) :=
  notHeader_of_opcode _ 0x055 (opcodeOf_packA ..) (by decide)
theorem Laws.NotHeader.clz (h : Head) (w : Width) (d a : Operand) : Laws.NotHeader.Statement (.clz h w d a) :=
  notHeader_of_opcode _ 0x056 (opcodeOf_packA ..) (by decide)
theorem Laws.NotHeader.brev (h : Head) (w : Width) (d a : Operand) : Laws.NotHeader.Statement (.brev h w d a) :=
  notHeader_of_opcode _ 0x057 (opcodeOf_packA ..) (by decide)
theorem Laws.NotHeader.icmp (h : Head) (ty : IntTy) (cond : ICond) (k : BitVec 4) (a b : Operand) : Laws.NotHeader.Statement (.icmp h ty cond k a b) :=
  notHeader_of_opcode _ 0x058 (opcodeOf_packA ..) (by decide)
theorem Laws.NotHeader.icmpImm (h : Head) (ty : IntTy) (cond : ICond) (k : BitVec 4) (a : Operand) (imm : BitVec 24) : Laws.NotHeader.Statement (.icmpImm h ty cond k a imm) :=
  notHeader_of_opcode _ 0x078 (opcodeOf_packI ..) (by decide)
theorem Laws.NotHeader.lea (h : Head) (sh : BitVec 3) (sx : Bool) (d a b : Operand) : Laws.NotHeader.Statement (.lea h sh sx d a b) :=
  notHeader_of_opcode _ 0x080 (opcodeOf_packA ..) (by decide)
theorem Laws.NotHeader.leaImm (h : Head) (sh : BitVec 3) (d a : Operand) (imm : BitVec 24) : Laws.NotHeader.Statement (.leaImm h sh d a imm) :=
  notHeader_of_opcode _ 0x0A0 (opcodeOf_packI ..) (by decide)
theorem Laws.NotHeader.mov (h : Head) (w : Width) (d a : Operand) : Laws.NotHeader.Statement (.mov h w d a) :=
  notHeader_of_opcode _ 0x081 (opcodeOf_packA ..) (by decide)
theorem Laws.NotHeader.movi (h : Head) (w : Width) (d : Operand) (imm : BitVec 24) : Laws.NotHeader.Statement (.movi h w d imm) :=
  notHeader_of_opcode _ 0x082 (opcodeOf_packI ..) (by decide)
theorem Laws.NotHeader.movw (h : Head) (d : Operand) (imm : BitVec 32) : Laws.NotHeader.Statement (.movw h d imm) :=
  notHeader_of_opcode _ 0x083 (opcodeOf_packW ..) (by decide)
theorem Laws.NotHeader.sel (h : Head) (w : Width) (d a b : Operand) (k : BitVec 4) : Laws.NotHeader.Statement (.sel h w d a b k) :=
  notHeader_of_opcode _ 0x084 (opcodeOf_packA ..) (by decide)
theorem Laws.NotHeader.mad64 (h : Head) (n32 : Bool) (d a b c : Operand) : Laws.NotHeader.Statement (.mad64 h n32 d a b c) :=
  notHeader_of_opcode _ 0x085 (opcodeOf_packA ..) (by decide)
theorem Laws.NotHeader.fadd (h : Head) (r : Rnd) (d : Operand) (a b : FSrc) : Laws.NotHeader.Statement (.fadd h r d a b) :=
  notHeader_of_opcode _ 0x0C0 (opcodeOf_packA ..) (by decide)
theorem Laws.NotHeader.fsub (h : Head) (r : Rnd) (d : Operand) (a b : FSrc) : Laws.NotHeader.Statement (.fsub h r d a b) :=
  notHeader_of_opcode _ 0x0C1 (opcodeOf_packA ..) (by decide)
theorem Laws.NotHeader.fmul (h : Head) (r : Rnd) (d : Operand) (a b : FSrc) : Laws.NotHeader.Statement (.fmul h r d a b) :=
  notHeader_of_opcode _ 0x0C2 (opcodeOf_packA ..) (by decide)
theorem Laws.NotHeader.ffma (h : Head) (r : Rnd) (d : Operand) (a b c : FSrc) : Laws.NotHeader.Statement (.ffma h r d a b c) :=
  notHeader_of_opcode _ 0x0C3 (opcodeOf_packA ..) (by decide)
theorem Laws.NotHeader.fmin (h : Head) (d : Operand) (a b : FSrc) : Laws.NotHeader.Statement (.fmin h d a b) :=
  notHeader_of_opcode _ 0x0C4 (opcodeOf_packA ..) (by decide)
theorem Laws.NotHeader.fmax (h : Head) (d : Operand) (a b : FSrc) : Laws.NotHeader.Statement (.fmax h d a b) :=
  notHeader_of_opcode _ 0x0C5 (opcodeOf_packA ..) (by decide)
theorem Laws.NotHeader.fcmp (h : Head) (cond : FCond) (k : BitVec 4) (a b : FSrc) : Laws.NotHeader.Statement (.fcmp h cond k a b) :=
  notHeader_of_opcode _ 0x0C6 (opcodeOf_packA ..) (by decide)
theorem Laws.NotHeader.fclass (h : Head) (d : Operand) (a : FSrc) : Laws.NotHeader.Statement (.fclass h d a) :=
  notHeader_of_opcode _ 0x0C7 (opcodeOf_packA ..) (by decide)
theorem Laws.NotHeader.frcp (h : Head) (r : Rnd) (d : Operand) (a : FSrc) : Laws.NotHeader.Statement (.frcp h r d a) :=
  notHeader_of_opcode _ 0x0C8 (opcodeOf_packA ..) (by decide)
theorem Laws.NotHeader.frsq (h : Head) (d : Operand) (a : FSrc) : Laws.NotHeader.Statement (.frsq h d a) :=
  notHeader_of_opcode _ 0x0C9 (opcodeOf_packA ..) (by decide)
theorem Laws.NotHeader.fsqrt (h : Head) (r : Rnd) (d : Operand) (a : FSrc) : Laws.NotHeader.Statement (.fsqrt h r d a) :=
  notHeader_of_opcode _ 0x0CA (opcodeOf_packA ..) (by decide)
theorem Laws.NotHeader.fex2 (h : Head) (d : Operand) (a : FSrc) : Laws.NotHeader.Statement (.fex2 h d a) :=
  notHeader_of_opcode _ 0x0CB (opcodeOf_packA ..) (by decide)
theorem Laws.NotHeader.flg2 (h : Head) (d : Operand) (a : FSrc) : Laws.NotHeader.Statement (.flg2 h d a) :=
  notHeader_of_opcode _ 0x0CC (opcodeOf_packA ..) (by decide)
theorem Laws.NotHeader.fsin (h : Head) (d : Operand) (a : FSrc) : Laws.NotHeader.Statement (.fsin h d a) :=
  notHeader_of_opcode _ 0x0CD (opcodeOf_packA ..) (by decide)
theorem Laws.NotHeader.fcos (h : Head) (d : Operand) (a : FSrc) : Laws.NotHeader.Statement (.fcos h d a) :=
  notHeader_of_opcode _ 0x0CE (opcodeOf_packA ..) (by decide)
theorem Laws.NotHeader.ftanh (h : Head) (d : Operand) (a : FSrc) : Laws.NotHeader.Statement (.ftanh h d a) :=
  notHeader_of_opcode _ 0x0CF (opcodeOf_packA ..) (by decide)
theorem Laws.NotHeader.fdot2 (h : Head) (bf : Bool) (r : Rnd) (d : Operand) (a b c : FSrc) : Laws.NotHeader.Statement (.fdot2 h bf r d a b c) :=
  notHeader_of_opcode _ 0x0D0 (opcodeOf_packA ..) (by decide)
theorem Laws.NotHeader.cvt (h : Head) (kind : CvtKind) (d a : Operand) : Laws.NotHeader.Statement (.cvt h kind d a) :=
  notHeader_of_opcode _ 0x100 (opcodeOf_packA ..) (by decide)
theorem Laws.NotHeader.fcvt (h : Head) (df sf : FFmt) (r : Rnd) (d a : Operand) : Laws.NotHeader.Statement (.fcvt h df sf r d a) :=
  notHeader_of_opcode _ 0x101 (opcodeOf_packA ..) (by decide)
theorem Laws.NotHeader.fpack (h : Head) (df : FFmt) (j : BitVec 3) (r : Rnd) (d a b c : Operand) : Laws.NotHeader.Statement (.fpack h df j r d a b c) :=
  notHeader_of_opcode _ 0x102 (opcodeOf_packA ..) (by decide)
theorem Laws.NotHeader.funpk (h : Head) (sf : FFmt) (i : BitVec 3) (d a : Operand) : Laws.NotHeader.Statement (.funpk h sf i d a) :=
  notHeader_of_opcode _ 0x103 (opcodeOf_packA ..) (by decide)
theorem Laws.NotHeader.lgcvt (h : Head) (toF32 : Bool) (r : Rnd) (d a : Operand) : Laws.NotHeader.Statement (.lgcvt h toF32 r d a) :=
  notHeader_of_opcode _ 0x104 (opcodeOf_packA ..) (by decide)
theorem Laws.NotHeader.srnd (h : Head) (a : Operand) : Laws.NotHeader.Statement (.srnd h a) :=
  notHeader_of_opcode _ 0x105 (opcodeOf_packA ..) (by decide)
theorem Laws.NotHeader.qe8 (h : Head) (p : BitVec 3) (d a b : Operand) : Laws.NotHeader.Statement (.qe8 h p d a b) :=
  notHeader_of_opcode _ 0x110 (opcodeOf_packA ..) (by decide)
theorem Laws.NotHeader.qe8m (h : Head) (p : BitVec 3) (d a b c : Operand) : Laws.NotHeader.Statement (.qe8m h p d a b c) :=
  notHeader_of_opcode _ 0x111 (opcodeOf_packA ..) (by decide)
theorem Laws.NotHeader.de8 (h : Head) (p : BitVec 3) (d a b : Operand) : Laws.NotHeader.Statement (.de8 h p d a b) :=
  notHeader_of_opcode _ 0x112 (opcodeOf_packA ..) (by decide)
theorem Laws.NotHeader.e8scl (h : Head) (d a : Operand) : Laws.NotHeader.Statement (.e8scl h d a) :=
  notHeader_of_opcode _ 0x113 (opcodeOf_packA ..) (by decide)
theorem Laws.NotHeader.shfl (h : Head) (mode : ShflMode) (wide : Bool) (d a b : Operand) : Laws.NotHeader.Statement (.shfl h mode wide d a b) :=
  notHeader_of_opcode _ 0x140 (opcodeOf_packA ..) (by decide)
theorem Laws.NotHeader.matchLanes (h : Head) (w : Width) (d a : Operand) : Laws.NotHeader.Statement (.matchLanes h w d a) :=
  notHeader_of_opcode _ 0x141 (opcodeOf_packA ..) (by decide)
theorem Laws.NotHeader.vote (h : Head) (test : VoteTest) (inv : Bool) (d : Operand) (k : BitVec 4) : Laws.NotHeader.Statement (.vote h test inv d k) :=
  notHeader_of_opcode _ 0x142 (opcodeOf_packA ..) (by decide)
theorem Laws.NotHeader.wred (h : Head) (op : WOp) (uns : Bool) (d a : Operand) : Laws.NotHeader.Statement (.wred h op uns d a) :=
  notHeader_of_opcode _ 0x143 (opcodeOf_packA ..) (by decide)
theorem Laws.NotHeader.wpfx (h : Head) (op : WOp) (uns excl : Bool) (d a : Operand) : Laws.NotHeader.Statement (.wpfx h op uns excl d a) :=
  notHeader_of_opcode _ 0x144 (opcodeOf_packA ..) (by decide)
theorem Laws.NotHeader.elect (h : Head) (k : BitVec 4) : Laws.NotHeader.Statement (.elect h k) :=
  notHeader_of_opcode _ 0x145 (opcodeOf_packA ..) (by decide)
theorem Laws.NotHeader.kand (h : Head) (d a b : BitVec 4) : Laws.NotHeader.Statement (.kand h d a b) :=
  notHeader_of_opcode _ 0x147 (opcodeOf_packA ..) (by decide)
theorem Laws.NotHeader.kor (h : Head) (d a b : BitVec 4) : Laws.NotHeader.Statement (.kor h d a b) :=
  notHeader_of_opcode _ 0x148 (opcodeOf_packA ..) (by decide)
theorem Laws.NotHeader.kxor (h : Head) (d a b : BitVec 4) : Laws.NotHeader.Statement (.kxor h d a b) :=
  notHeader_of_opcode _ 0x149 (opcodeOf_packA ..) (by decide)
theorem Laws.NotHeader.knot (h : Head) (d a : BitVec 4) : Laws.NotHeader.Statement (.knot h d a) :=
  notHeader_of_opcode _ 0x14A (opcodeOf_packA ..) (by decide)
theorem Laws.NotHeader.kpop (h : Head) (d : Operand) (k : BitVec 4) : Laws.NotHeader.Statement (.kpop h d k) :=
  notHeader_of_opcode _ 0x14B (opcodeOf_packA ..) (by decide)
theorem Laws.NotHeader.kfirst (h : Head) (d : Operand) (k : BitVec 4) : Laws.NotHeader.Statement (.kfirst h d k) :=
  notHeader_of_opcode _ 0x14C (opcodeOf_packA ..) (by decide)
theorem Laws.NotHeader.ld (h : Head) (sz : Size) (acq : Bool) (sc : Scope) (nt : Bool) (d : Operand) (m : MemOp) : Laws.NotHeader.Statement (.ld h sz acq sc nt d m) :=
  notHeader_of_opcode _ 0x1C0 (opcodeOf_packM ..) (by decide)
theorem Laws.NotHeader.st (h : Head) (sz : Size) (rel : Bool) (sc : Scope) (nt : Bool) (x : Operand) (m : MemOp) : Laws.NotHeader.Statement (.st h sz rel sc nt x m) :=
  notHeader_of_opcode _ 0x1C1 (opcodeOf_packM ..) (by decide)
theorem Laws.NotHeader.ldsp (h : Head) (sz : Size) (acq : Bool) (d : Operand) (m : MemOp) : Laws.NotHeader.Statement (.ldsp h sz acq d m) :=
  notHeader_of_opcode _ 0x1C2 (opcodeOf_packM ..) (by decide)
theorem Laws.NotHeader.stsp (h : Head) (sz : Size) (rel : Bool) (x : Operand) (m : MemOp) : Laws.NotHeader.Statement (.stsp h sz rel x m) :=
  notHeader_of_opcode _ 0x1C3 (opcodeOf_packM ..) (by decide)
theorem Laws.NotHeader.ldc (h : Head) (sz : Size) (d base : Operand) (off : BitVec 12) : Laws.NotHeader.Statement (.ldc h sz d base off) :=
  notHeader_of_opcode _ 0x1C4 (opcodeOf_packM ..) (by decide)
theorem Laws.NotHeader.zfill (h : Head) (m : MemOp) : Laws.NotHeader.Statement (.zfill h m) :=
  notHeader_of_opcode _ 0x1C5 (opcodeOf_packM ..) (by decide)
theorem Laws.NotHeader.pref (h : Head) (lvl : PLevel) (m : MemOp) : Laws.NotHeader.Statement (.pref h lvl m) :=
  notHeader_of_opcode _ 0x1C6 (opcodeOf_packM ..) (by decide)
theorem Laws.NotHeader.atom (h : Head) (op : AtomOp) (uns wide : Bool) (ord : Order) (sc : Scope) (d base x : Operand) : Laws.NotHeader.Statement (.atom h op uns wide ord sc d base x) :=
  notHeader_of_opcode _ 0x200 (opcodeOf_packM ..) (by decide)
theorem Laws.NotHeader.atomsp (h : Head) (op : AtomOp) (uns wide : Bool) (ord : Order) (d base x : Operand) : Laws.NotHeader.Statement (.atomsp h op uns wide ord d base x) :=
  notHeader_of_opcode _ 0x201 (opcodeOf_packM ..) (by decide)
theorem Laws.NotHeader.atomf (h : Head) (base x : Operand) : Laws.NotHeader.Statement (.atomf h base x) :=
  notHeader_of_opcode _ 0x202 (opcodeOf_packM ..) (by decide)
theorem Laws.NotHeader.red (h : Head) (op : AtomOp) (uns wide rel : Bool) (sc : Scope) (x base : Operand) : Laws.NotHeader.Statement (.red h op uns wide rel sc x base) :=
  notHeader_of_opcode _ 0x203 (opcodeOf_packM ..) (by decide)
theorem Laws.NotHeader.fence (h : Head) (sc : Scope) : Laws.NotHeader.Statement (.fence h sc) :=
  notHeader_of_opcode _ 0x204 (opcodeOf_packA ..) (by decide)
theorem Laws.NotHeader.icinv (h : Head) (sc : Scope) : Laws.NotHeader.Statement (.icinv h sc) :=
  notHeader_of_opcode _ 0x205 (opcodeOf_packA ..) (by decide)
theorem Laws.NotHeader.cpy (h : Head) (dir : CpyDir) (guard : Option (BitVec 3)) (nt : Bool) (mc : BitVec 4) (d a b c : Operand) : Laws.NotHeader.Statement (.cpy h dir guard nt mc d a b c) :=
  notHeader_of_opcode _ 0x240 (opcodeOf_packA ..) (by decide)
theorem Laws.NotHeader.cseal (h : Head) (d : Operand) : Laws.NotHeader.Statement (.cseal h d) :=
  notHeader_of_opcode _ 0x241 (opcodeOf_packA ..) (by decide)
theorem Laws.NotHeader.cwait (h : Head) (b : Operand) : Laws.NotHeader.Statement (.cwait h b) :=
  notHeader_of_opcode _ 0x242 (opcodeOf_packA ..) (by decide)
theorem Laws.NotHeader.bxpAdd (h : Head) (b n : Operand) : Laws.NotHeader.Statement (.bxpAdd h b n) :=
  notHeader_of_opcode _ 0x243 (opcodeOf_packA ..) (by decide)
theorem Laws.NotHeader.bxpSet (h : Head) (b n : Operand) : Laws.NotHeader.Statement (.bxpSet h b n) :=
  notHeader_of_opcode _ 0x243 (opcodeOf_packA ..) (by decide)
theorem Laws.NotHeader.bwait (h : Head) (b : Operand) : Laws.NotHeader.Statement (.bwait h b) :=
  notHeader_of_opcode _ 0x244 (opcodeOf_packA ..) (by decide)
theorem Laws.NotHeader.tsub (h : Head) (sp : Bool) (m : MemOp) : Laws.NotHeader.Statement (.tsub h sp m) :=
  notHeader_of_opcode _ 0x248 (opcodeOf_packM ..) (by decide)
theorem Laws.NotHeader.twait (h : Head) (t : Operand) (m : MemOp) : Laws.NotHeader.Statement (.twait h t m) :=
  notHeader_of_opcode _ 0x249 (opcodeOf_packM ..) (by decide)
theorem Laws.NotHeader.tdesc (h : Head) (d a b : Operand) : Laws.NotHeader.Statement (.tdesc h d a b) :=
  notHeader_of_opcode _ 0x24A (opcodeOf_packA ..) (by decide)
theorem Laws.NotHeader.tdget (h : Head) (d a b : Operand) : Laws.NotHeader.Statement (.tdget h d a b) :=
  notHeader_of_opcode _ 0x24B (opcodeOf_packA ..) (by decide)
theorem Laws.NotHeader.hsget (h : Head) (d a b : Operand) : Laws.NotHeader.Statement (.hsget h d a b) :=
  notHeader_of_opcode _ 0x24C (opcodeOf_packA ..) (by decide)
theorem Laws.NotHeader.hsclr (h : Head) (d a b : Operand) : Laws.NotHeader.Statement (.hsclr h d a b) :=
  notHeader_of_opcode _ 0x24D (opcodeOf_packA ..) (by decide)
theorem Laws.NotHeader.weir (h : Head) (d a : Operand) : Laws.NotHeader.Statement (.weir h d a) :=
  notHeader_of_opcode _ 0x250 (opcodeOf_packA ..) (by decide)
theorem Laws.NotHeader.pin (h : Head) (d base len : Operand) (fade : BitVec 8) : Laws.NotHeader.Statement (.pin h d base len fade) :=
  notHeader_of_opcode _ 0x251 (opcodeOf_packM ..) (by decide)
theorem Laws.NotHeader.unpin (h : Head) (d base : Operand) : Laws.NotHeader.Statement (.unpin h d base) :=
  notHeader_of_opcode _ 0x252 (opcodeOf_packM ..) (by decide)
theorem Laws.NotHeader.vdef (h : Head) (d a b : Operand) : Laws.NotHeader.Statement (.vdef h d a b) :=
  notHeader_of_opcode _ 0x280 (opcodeOf_packA ..) (by decide)
theorem Laws.NotHeader.vdefVoc (h : Head) (d a b : Operand) : Laws.NotHeader.Statement (.vdefVoc h d a b) :=
  notHeader_of_opcode _ 0x280 (opcodeOf_packA ..) (by decide)
theorem Laws.NotHeader.vld (h : Head) (sz : VSize) (d : Operand) (m : MemOp) : Laws.NotHeader.Statement (.vld h sz d m) :=
  notHeader_of_opcode _ 0x281 (opcodeOf_packM ..) (by decide)
theorem Laws.NotHeader.vmap (h : Head) (d a b : Operand) : Laws.NotHeader.Statement (.vmap h d a b) :=
  notHeader_of_opcode _ 0x282 (opcodeOf_packA ..) (by decide)
theorem Laws.NotHeader.vfind (h : Head) (d a b : Operand) (k : BitVec 4) : Laws.NotHeader.Statement (.vfind h d a b k) :=
  notHeader_of_opcode _ 0x283 (opcodeOf_packA ..) (by decide)
theorem Laws.NotHeader.vtouch (h : Head) (a b : Operand) : Laws.NotHeader.Statement (.vtouch h a b) :=
  notHeader_of_opcode _ 0x284 (opcodeOf_packM ..) (by decide)
theorem Laws.NotHeader.vpin (h : Head) (d a b : Operand) : Laws.NotHeader.Statement (.vpin h d a b) :=
  notHeader_of_opcode _ 0x285 (opcodeOf_packA ..) (by decide)
theorem Laws.NotHeader.vunpin (h : Head) (d a b : Operand) : Laws.NotHeader.Statement (.vunpin h d a b) :=
  notHeader_of_opcode _ 0x286 (opcodeOf_packA ..) (by decide)
theorem Laws.NotHeader.vstat (h : Head) (op : VStatOp) (d a b : Operand) : Laws.NotHeader.Statement (.vstat h op d a b) :=
  notHeader_of_opcode _ 0x287 (opcodeOf_packA ..) (by decide)
theorem Laws.NotHeader.ssealAdv (h : Head) (d a b : Operand) : Laws.NotHeader.Statement (.ssealAdv h d a b) :=
  notHeader_of_opcode _ 0x288 (opcodeOf_packA ..) (by decide)
theorem Laws.NotHeader.ssealNew (h : Head) (d a b : Operand) : Laws.NotHeader.Statement (.ssealNew h d a b) :=
  notHeader_of_opcode _ 0x288 (opcodeOf_packA ..) (by decide)
theorem Laws.NotHeader.ssealDrop (h : Head) (d a b : Operand) : Laws.NotHeader.Statement (.ssealDrop h d a b) :=
  notHeader_of_opcode _ 0x288 (opcodeOf_packA ..) (by decide)
theorem Laws.NotHeader.detok (h : Head) (fin : Bool) (d a : Operand) : Laws.NotHeader.Statement (.detok h fin d a) :=
  notHeader_of_opcode _ 0x289 (opcodeOf_packA ..) (by decide)
theorem Laws.NotHeader.fork (h : Head) (off : BitVec 32) : Laws.NotHeader.Statement (.fork h off) :=
  notHeader_of_opcode _ 0x2C0 (opcodeOf_packB ..) (by decide)
theorem Laws.NotHeader.rdv (h : Head) : Laws.NotHeader.Statement (.rdv h) :=
  notHeader_of_opcode _ 0x2C1 (opcodeOf_packA ..) (by decide)
theorem Laws.NotHeader.gset (h : Head) (cond : GCond) (g : BitVec 3) (k : BitVec 4) : Laws.NotHeader.Statement (.gset h cond g k) :=
  notHeader_of_opcode _ 0x2C2 (opcodeOf_packA ..) (by decide)
theorem Laws.NotHeader.dlv (h : Head) (q : BitVec 2) (cnt : DlvCount) (sp : Bool) (m : MemOp) : Laws.NotHeader.Statement (.dlv h q cnt sp m) :=
  notHeader_of_opcode _ 0x2C3 (opcodeOf_packM ..) (by decide)
theorem Laws.NotHeader.qstat (h : Head) (d : Operand) (q : Fin 4) : Laws.NotHeader.Statement (.qstat h d q) :=
  notHeader_of_opcode _ 0x2C4 (opcodeOf_packA ..) (by decide)
theorem Laws.NotHeader.slcfg (h : Head) (d a b : Operand) : Laws.NotHeader.Statement (.slcfg h d a b) :=
  notHeader_of_opcode _ 0x2C8 (opcodeOf_packA ..) (by decide)
theorem Laws.NotHeader.slpush (h : Head) (sz : RecSize) (guard : Option (BitVec 3)) (a b : Operand) : Laws.NotHeader.Statement (.slpush h sz guard a b) :=
  notHeader_of_opcode _ 0x2C9 (opcodeOf_packA ..) (by decide)
theorem Laws.NotHeader.slinfo (h : Head) (handle : Bool) (d : Operand) : Laws.NotHeader.Statement (.slinfo h handle d) :=
  notHeader_of_opcode _ 0x2CA (opcodeOf_packA ..) (by decide)
theorem Laws.NotHeader.slcomb (h : Head) (d base : Operand) : Laws.NotHeader.Statement (.slcomb h d base) :=
  notHeader_of_opcode _ 0x2CB (opcodeOf_packM ..) (by decide)
theorem Laws.NotHeader.pxpush (h : Head) (sz : RecSize) (guard : Option (BitVec 3)) (a b : Operand) : Laws.NotHeader.Statement (.pxpush h sz guard a b) :=
  notHeader_of_opcode _ 0x2CC (opcodeOf_packA ..) (by decide)
theorem Laws.NotHeader.pxflush (h : Head) (wait : Bool) : Laws.NotHeader.Statement (.pxflush h wait) :=
  notHeader_of_opcode _ 0x2CD (opcodeOf_packA ..) (by decide)
theorem Laws.NotHeader.tfence (h : Head) : Laws.NotHeader.Statement (.tfence h) :=
  notHeader_of_opcode _ 0x300 (opcodeOf_packA ..) (by decide)
theorem Laws.NotHeader.trap (h : Head) (n : BitVec 24) : Laws.NotHeader.Statement (.trap h n) :=
  notHeader_of_opcode _ 0x301 (opcodeOf_packI ..) (by decide)
theorem Laws.NotHeader.bkpt (h : Head) (n : BitVec 24) : Laws.NotHeader.Statement (.bkpt h n) :=
  notHeader_of_opcode _ 0x302 (opcodeOf_packI ..) (by decide)
theorem Laws.NotHeader.ccause (h : Head) (d a : Operand) : Laws.NotHeader.Statement (.ccause h d a) :=
  notHeader_of_opcode _ 0x303 (opcodeOf_packA ..) (by decide)
theorem Laws.NotHeader.hret (h : Head) (kill : Bool) : Laws.NotHeader.Statement (.hret h kill) :=
  notHeader_of_opcode _ 0x304 (opcodeOf_packA ..) (by decide)
theorem Laws.NotHeader.rdsr (h : Head) (d : Operand) (sr : SysReg) : Laws.NotHeader.Statement (.rdsr h d sr) :=
  notHeader_of_opcode _ 0x305 (opcodeOf_packS ..) (by decide)
theorem Laws.NotHeader.wrsr (h : Head) (sr : SysReg) (a : Operand) : Laws.NotHeader.Statement (.wrsr h sr a) :=
  notHeader_of_opcode _ 0x306 (opcodeOf_packS ..) (by decide)
theorem Laws.NotHeader.rdclk (h : Head) (mode : ClkMode) (d : Operand) : Laws.NotHeader.Statement (.rdclk h mode d) :=
  notHeader_of_opcode _ 0x307 (opcodeOf_packA ..) (by decide)
theorem Laws.NotHeader.wtimer (h : Head) (a : Operand) : Laws.NotHeader.Statement (.wtimer h a) :=
  notHeader_of_opcode _ 0x308 (opcodeOf_packA ..) (by decide)
theorem Laws.NotHeader.fragMask (h : Head) (d a : Operand) : Laws.NotHeader.Statement (.fragMask h d a) :=
  notHeader_of_opcode _ 0x309 (opcodeOf_packA ..) (by decide)
theorem Laws.NotHeader.fragState (h : Head) (d a : Operand) : Laws.NotHeader.Statement (.fragState h d a) :=
  notHeader_of_opcode _ 0x309 (opcodeOf_packA ..) (by decide)
theorem Laws.NotHeader.fragKill (h : Head) (d a : Operand) : Laws.NotHeader.Statement (.fragKill h d a) :=
  notHeader_of_opcode _ 0x309 (opcodeOf_packA ..) (by decide)
theorem Laws.NotHeader.fragResume (h : Head) (d a : Operand) : Laws.NotHeader.Statement (.fragResume h d a) :=
  notHeader_of_opcode _ 0x309 (opcodeOf_packA ..) (by decide)
theorem Laws.NotHeader.mboxLd (h : Head) (d a : Operand) : Laws.NotHeader.Statement (.mboxLd h d a) :=
  notHeader_of_opcode _ 0x30A (opcodeOf_packA ..) (by decide)
theorem Laws.NotHeader.mboxSt (h : Head) (a b : Operand) : Laws.NotHeader.Statement (.mboxSt h a b) :=
  notHeader_of_opcode _ 0x30A (opcodeOf_packA ..) (by decide)
theorem Laws.NotHeader.mboxRing (h : Head) : Laws.NotHeader.Statement (.mboxRing h) :=
  notHeader_of_opcode _ 0x30A (opcodeOf_packA ..) (by decide)
theorem Laws.NotHeader.smark (h : Head) (n : BitVec 24) : Laws.NotHeader.Statement (.smark h n) :=
  notHeader_of_opcode _ 0x30B (opcodeOf_packI ..) (by decide)
theorem Laws.NotHeader.haltStop (h : Head) (d a : Operand) : Laws.NotHeader.Statement (.haltStop h d a) :=
  notHeader_of_opcode _ 0x30C (opcodeOf_packA ..) (by decide)
theorem Laws.NotHeader.haltGo (h : Head) (d a : Operand) : Laws.NotHeader.Statement (.haltGo h d a) :=
  notHeader_of_opcode _ 0x30C (opcodeOf_packA ..) (by decide)
theorem Laws.NotHeader.haltStep (h : Head) (d a : Operand) : Laws.NotHeader.Statement (.haltStep h d a) :=
  notHeader_of_opcode _ 0x30C (opcodeOf_packA ..) (by decide)
theorem Laws.NotHeader.kmov (h : Head) (m : KMov) : Laws.NotHeader.Statement (.kmov h m) := by
  cases m <;> exact notHeader_of_opcode _ 0x146 (opcodeOf_packA ..) (by decide)
theorem Laws.NotHeader.tlbinv (h : Head) (sc : Scope) (range : Option (Operand × Operand)) :
    Laws.NotHeader.Statement (.tlbinv h sc range) := by
  rcases range with _ | ⟨a, b⟩ <;> exact notHeader_of_opcode _ 0x206 (opcodeOf_packA ..) (by decide)

theorem opcodeOf_packHead (h : Head) (op : BitVec 10) (x : BitVec 47) : opcodeOf (packHead h op ++ x) = op := by
  apply BitVec.eq_of_getLsbD_eq
  intro i hi
  simp only [opcodeOf, packHead, bit, BitVec.getLsbD_extractLsb', BitVec.getLsbD_append]
  grind

theorem Laws.NotHeader.toolop (h : Head) (n : Fin 6) (payload : BitVec 47) :
    Laws.NotHeader.Statement (.toolop h n payload) :=
  notHeader_of_opcode _ _ (opcodeOf_packHead ..) (by revert n; decide)

theorem opcodeOf_inop (stop sw : Bool) (c : BitVec 3) (payload : BitVec 52) :
    opcodeOf (bit stop ++ bit sw ++ 0x7F#7 ++ c ++ payload) = 0x7F#7 ++ c := by
  apply BitVec.eq_of_getLsbD_eq
  intro i hi
  simp only [opcodeOf, bit, BitVec.getLsbD_extractLsb', BitVec.getLsbD_append]
  grind

theorem Laws.NotHeader.inop (stop sw : Bool) (c : BitVec 3) (payload : BitVec 52) :
    Laws.NotHeader.Statement (.inop stop sw c payload) :=
  notHeader_of_opcode _ _ (opcodeOf_inop ..) (by revert c; decide)

theorem notHeader_zero : isHeader 0 = false := rfl
theorem Laws.NotHeader.dike (c : AdminCmd) : Laws.NotHeader.Statement (.dike c) := notHeader_zero
theorem Laws.NotHeader.create (c : AdminCmd) : Laws.NotHeader.Statement (.create c) := notHeader_zero
theorem Laws.NotHeader.destroy (c : AdminCmd) : Laws.NotHeader.Statement (.destroy c) := notHeader_zero
theorem Laws.NotHeader.update (c : AdminCmd) : Laws.NotHeader.Statement (.update c) := notHeader_zero
theorem Laws.NotHeader.mapq (c : AdminCmd) : Laws.NotHeader.Statement (.mapq c) := notHeader_zero
theorem Laws.NotHeader.zeroRange (c : AdminCmd) : Laws.NotHeader.Statement (.zeroRange c) := notHeader_zero
theorem Laws.NotHeader.zone (c : AdminCmd) : Laws.NotHeader.Statement (.zone c) := notHeader_zero
theorem Laws.NotHeader.cold (c : AdminCmd) : Laws.NotHeader.Statement (.cold c) := notHeader_zero
theorem Laws.NotHeader.disturb (c : AdminCmd) : Laws.NotHeader.Statement (.disturb c) := notHeader_zero
theorem Laws.NotHeader.podclr (c : AdminCmd) : Laws.NotHeader.Statement (.podclr c) := notHeader_zero
theorem Laws.NotHeader.debugHaltStop (c : AdminCmd) : Laws.NotHeader.Statement (.debugHaltStop c) := notHeader_zero
theorem Laws.NotHeader.debugHaltGo (c : AdminCmd) : Laws.NotHeader.Statement (.debugHaltGo c) := notHeader_zero
theorem Laws.NotHeader.debugHaltStep (c : AdminCmd) : Laws.NotHeader.Statement (.debugHaltStep c) := notHeader_zero
theorem Laws.NotHeader.debugFragMask (c : AdminCmd) : Laws.NotHeader.Statement (.debugFragMask c) := notHeader_zero
theorem Laws.NotHeader.debugFragState (c : AdminCmd) : Laws.NotHeader.Statement (.debugFragState c) := notHeader_zero
theorem Laws.NotHeader.debugFragKill (c : AdminCmd) : Laws.NotHeader.Statement (.debugFragKill c) := notHeader_zero
theorem Laws.NotHeader.debugFragResume (c : AdminCmd) : Laws.NotHeader.Statement (.debugFragResume c) := notHeader_zero
theorem Laws.NotHeader.traceBuf (c : AdminCmd) : Laws.NotHeader.Statement (.traceBuf c) := notHeader_zero
theorem Laws.NotHeader.spare (c : AdminCmd) : Laws.NotHeader.Statement (.spare c) := notHeader_zero
theorem Laws.NotHeader.power (c : AdminCmd) : Laws.NotHeader.Statement (.power c) := notHeader_zero
theorem Laws.NotHeader.mgmtSsealNew (ctx : Nat) (h : BitVec 32) (a : Word64) : Laws.NotHeader.Statement (.mgmtSsealNew ctx h a) := notHeader_zero
theorem Laws.NotHeader.mgmtSsealDrop (ctx : Nat) (h : BitVec 32) (a : Word64) : Laws.NotHeader.Statement (.mgmtSsealDrop ctx h a) := notHeader_zero
theorem Laws.NotHeader.mgmtSsealAdv (ctx : Nat) (h : BitVec 32) (a : Word64) : Laws.NotHeader.Statement (.mgmtSsealAdv ctx h a) := notHeader_zero
theorem Laws.NotHeader.mgmtVdefVoc (ctx : Nat) (h : BitVec 32) (a : Word64) : Laws.NotHeader.Statement (.mgmtVdefVoc ctx h a) := notHeader_zero
theorem Laws.NotHeader.launchRecord (q : Nat) : Laws.NotHeader.Statement (.launchRecord q) := notHeader_zero
theorem Laws.NotHeader.distributorTurn (dike : Nat) : Laws.NotHeader.Statement (.distributorTurn dike) := notHeader_zero
theorem Laws.NotHeader.nodeGroupStart (g : Nat) : Laws.NotHeader.Statement (.nodeGroupStart g) := notHeader_zero
theorem Laws.NotHeader.itemQueueRefill (core launch : Nat) : Laws.NotHeader.Statement (.itemQueueRefill core launch) := notHeader_zero
theorem Laws.NotHeader.groupRetire (g : Nat) : Laws.NotHeader.Statement (.groupRetire g) := notHeader_zero
theorem Laws.NotHeader.reductionLogApply (launch : Nat) : Laws.NotHeader.Statement (.reductionLogApply launch) := notHeader_zero
theorem Laws.NotHeader.waveSwap (core : Nat) : Laws.NotHeader.Statement (.waveSwap core) := notHeader_zero
theorem Laws.NotHeader.forcedSwap (core : Nat) : Laws.NotHeader.Statement (.forcedSwap core) := notHeader_zero
theorem Laws.NotHeader.loadResultReturn (wave reg : Nat) : Laws.NotHeader.Statement (.loadResultReturn wave reg) := notHeader_zero
theorem Laws.NotHeader.sleepExpiry (wave : Nat) : Laws.NotHeader.Statement (.sleepExpiry wave) := notHeader_zero
theorem Laws.NotHeader.waveTimerExpiry (wave : Nat) : Laws.NotHeader.Statement (.waveTimerExpiry wave) := notHeader_zero
theorem Laws.NotHeader.dlvReadReturn (ap : Nat) (q : Fin 4) (i : Nat) : Laws.NotHeader.Statement (.dlvReadReturn ap q i) := notHeader_zero
theorem Laws.NotHeader.guardResolve (wave : Nat) (g : BitVec 3) : Laws.NotHeader.Statement (.guardResolve wave g) := notHeader_zero
theorem Laws.NotHeader.redApply (i : Nat) : Laws.NotHeader.Statement (.redApply i) := notHeader_zero
theorem Laws.NotHeader.haltComplete (g : Nat) : Laws.NotHeader.Statement (.haltComplete g) := notHeader_zero
theorem Laws.NotHeader.copyLand (copy unit : Nat) : Laws.NotHeader.Statement (.copyLand copy unit) := notHeader_zero
theorem Laws.NotHeader.copyFail (copy : Nat) (why : CopyFailure) : Laws.NotHeader.Statement (.copyFail copy why) := notHeader_zero
theorem Laws.NotHeader.tileTaskStart (quad : Nat) : Laws.NotHeader.Statement (.tileTaskStart quad) := notHeader_zero
theorem Laws.NotHeader.tileTaskEnd (task : Nat) : Laws.NotHeader.Statement (.tileTaskEnd task) := notHeader_zero
theorem Laws.NotHeader.tileTaskFail (task done : Nat) : Laws.NotHeader.Statement (.tileTaskFail task done) := notHeader_zero
theorem Laws.NotHeader.extentBuildEnd (ctx view ext : Nat) : Laws.NotHeader.Statement (.extentBuildEnd ctx view ext) := notHeader_zero
theorem Laws.NotHeader.extentEvictionEnd (ctx view ext : Nat) : Laws.NotHeader.Statement (.extentEvictionEnd ctx view ext) := notHeader_zero
theorem Laws.NotHeader.passEnd (ctx view ext : Nat) : Laws.NotHeader.Statement (.passEnd ctx view ext) := notHeader_zero
theorem Laws.NotHeader.evictionRescan (ctx : Nat) : Laws.NotHeader.Statement (.evictionRescan ctx) := notHeader_zero
theorem Laws.NotHeader.viewSweep (ctx view ext : Nat) : Laws.NotHeader.Statement (.viewSweep ctx view ext) := notHeader_zero
theorem Laws.NotHeader.detokProcess (die : Nat) : Laws.NotHeader.Statement (.detokProcess die) := notHeader_zero
theorem Laws.NotHeader.weirScanDone (scan : Nat) : Laws.NotHeader.Statement (.weirScanDone scan) := notHeader_zero
theorem Laws.NotHeader.polderFadeTick (ctx : Nat) : Laws.NotHeader.Statement (.polderFadeTick ctx) := notHeader_zero
theorem Laws.NotHeader.sluiceAgeReady (bin : Nat) : Laws.NotHeader.Statement (.sluiceAgeReady bin) := notHeader_zero
theorem Laws.NotHeader.spillTimeout (frag : Nat) : Laws.NotHeader.Statement (.spillTimeout frag) := notHeader_zero
theorem Laws.NotHeader.shadowQueueAge (ctx die bin : Nat) : Laws.NotHeader.Statement (.shadowQueueAge ctx die bin) := notHeader_zero
theorem Laws.NotHeader.expansionDone (ctx page : Nat) : Laws.NotHeader.Statement (.expansionDone ctx page) := notHeader_zero
theorem Laws.NotHeader.timeSliceEnd (dike : Nat) : Laws.NotHeader.Statement (.timeSliceEnd dike) := notHeader_zero
theorem Laws.NotHeader.contextSwitch (dike : Nat) : Laws.NotHeader.Statement (.contextSwitch dike) := notHeader_zero
theorem Laws.NotHeader.bankSpillDone (dike : Nat) : Laws.NotHeader.Statement (.bankSpillDone dike) := notHeader_zero
theorem Laws.NotHeader.bankFillDone (dike : Nat) : Laws.NotHeader.Statement (.bankFillDone dike) := notHeader_zero
theorem Laws.NotHeader.adminCommandComplete  : Laws.NotHeader.Statement .adminCommandComplete := notHeader_zero
theorem Laws.NotHeader.remoteTimeout (req : Nat) : Laws.NotHeader.Statement (.remoteTimeout req) := notHeader_zero
theorem Laws.NotHeader.podDegradedTimeout (ctx : Nat) : Laws.NotHeader.Statement (.podDegradedTimeout ctx) := notHeader_zero
theorem Laws.NotHeader.adminDoorbell (v : BitVec 32) : Laws.NotHeader.Statement (.adminDoorbell v) := notHeader_zero
theorem Laws.NotHeader.admctl (v : BitVec 32) : Laws.NotHeader.Statement (.admctl v) := notHeader_zero
theorem Laws.NotHeader.doorbell (fn q : Nat) (v : BitVec 32) : Laws.NotHeader.Statement (.doorbell fn q v) := notHeader_zero
theorem Laws.NotHeader.mgmtDoorbell (fn ctx : Nat) (v : BitVec 32) : Laws.NotHeader.Statement (.mgmtDoorbell fn ctx v) := notHeader_zero
theorem Laws.NotHeader.faultPendingClear (fn word : Nat) (v : BitVec 32) : Laws.NotHeader.Statement (.faultPendingClear fn word v) := notHeader_zero
theorem Laws.NotHeader.mailboxPendingClear (fn word : Nat) (v : BitVec 32) : Laws.NotHeader.Statement (.mailboxPendingClear fn word v) := notHeader_zero
theorem Laws.NotHeader.prien (fn : Nat) (v : BitVec 32) : Laws.NotHeader.Statement (.prien fn v) := notHeader_zero
theorem Laws.NotHeader.registerWrite (fn off : Nat) (wide : Bool) (v : Word64) : Laws.NotHeader.Statement (.registerWrite fn off wide v) := notHeader_zero
theorem Laws.NotHeader.hostBar2 (fn off : Nat) (bytes : Nat) (wr : Option Word64) : Laws.NotHeader.Statement (.hostBar2 fn off bytes wr) := notHeader_zero
theorem Laws.NotHeader.remoteBatchEntry (batch : Nat) (accepted : Bool) : Laws.NotHeader.Statement (.remoteBatchEntry batch accepted) := notHeader_zero
theorem Laws.NotHeader.priSuccess (ctx page : Nat) : Laws.NotHeader.Statement (.priSuccess ctx page) := notHeader_zero
theorem Laws.NotHeader.priInvalidRequest (ctx page : Nat) : Laws.NotHeader.Statement (.priInvalidRequest ctx page) := notHeader_zero
theorem Laws.NotHeader.priResponseFailure (ctx page : Nat) : Laws.NotHeader.Statement (.priResponseFailure ctx page) := notHeader_zero
theorem Laws.NotHeader.atsInvalidation (ctx page bytes : Nat) : Laws.NotHeader.Statement (.atsInvalidation ctx page bytes) := notHeader_zero
theorem Laws.NotHeader.atsCompletion (ctx page : Nat) (ans : Option AtsAnswer) : Laws.NotHeader.Statement (.atsCompletion ctx page ans) := notHeader_zero
theorem Laws.NotHeader.remoteResponse (req : Nat) (ans : RemoteAnswer) : Laws.NotHeader.Statement (.remoteResponse req ans) := notHeader_zero
theorem Laws.NotHeader.inbound (ctx : Nat) (va : Word64) (pkg : Nat) (wr : Option Word64) : Laws.NotHeader.Statement (.inbound ctx va pkg wr) := notHeader_zero
theorem Laws.NotHeader.portFailure (port : Nat) : Laws.NotHeader.Statement (.portFailure port) := notHeader_zero
theorem Laws.NotHeader.supplySag (die : Nat) (deep : Bool) : Laws.NotHeader.Statement (.supplySag die deep) := notHeader_zero
theorem Laws.NotHeader.stretchRelease (die : Nat) : Laws.NotHeader.Statement (.stretchRelease die) := notHeader_zero
theorem Laws.NotHeader.powerSample (watts : Nat) : Laws.NotHeader.Statement (.powerSample watts) := notHeader_zero
theorem Laws.NotHeader.thermalStep (die : Nat) (temp : BitVec 16) : Laws.NotHeader.Statement (.thermalStep die temp) := notHeader_zero
theorem Laws.NotHeader.thermalTrip (temp : BitVec 16) : Laws.NotHeader.Statement (.thermalTrip temp) := notHeader_zero
theorem Laws.NotHeader.patrolScrub (pa : Nat) (f : ScrubFinding) : Laws.NotHeader.Statement (.patrolScrub pa f) := notHeader_zero
theorem Laws.NotHeader.rowSpareSwitch (pa : Nat) : Laws.NotHeader.Statement (.rowSpareSwitch pa) := notHeader_zero
theorem Laws.NotHeader.traceSampleReturn (ctx i : Nat) (waits : BitVec 128) (served : BitVec 8) (latency : BitVec 32) : Laws.NotHeader.Statement (.traceSampleReturn ctx i waits served latency) := notHeader_zero
theorem Laws.NotHeader.stackAlert (stack : Nat) : Laws.NotHeader.Statement (.stackAlert stack) := notHeader_zero
theorem Laws.NotHeader.refreshCommand (stack bank : Nat) : Laws.NotHeader.Statement (.refreshCommand stack bank) := notHeader_zero
theorem Laws.NotHeader.coldReset  : Laws.NotHeader.Statement .coldReset := notHeader_zero
theorem Laws.NotHeader.flrVf (fn : Nat) : Laws.NotHeader.Statement (.flrVf fn) := notHeader_zero
theorem Laws.NotHeader.flrPf  : Laws.NotHeader.Statement .flrPf := notHeader_zero

end Sys2Proof
end

