-- ==== Sys2Proof/Laws/Registers.lean ====
section
/-! SUPPORT. What register writes leave in the registers, and the register instructions as a whole (01 R19, 02 R35, R40,
R41, 05 R143, 07 R175). -/
namespace Sys2Proof.Machine

/-! ### Reads after writes -/

theorem lanesGet {α : Type} (f : Fin 32 → α) (v : Lanes α) (h : v = lanesOf f) (i : Fin 32) : v[i] = f i := by
  subst h
  simp [lanesOf]

theorem readV_writeV (w : Wave) (n j : Nat) (m : LaneMask) (f : Fin 32 → Word32) (l : Fin 32) :
    readV (writeV w n m f) j l = if j = n ∧ m.getLsbD l = true then f l else readV w j l := by
  unfold readV
  by_cases h : j = n
  · have e : Table.getD (writeV w n m f).v j zeroRow =
        lanesOf fun i => if m.getLsbD i then f i else (Table.getD w.v n zeroRow)[i] := by
      simp only [writeV, Table.getD_put, h, if_true]
    rw [lanesGet _ _ e l]
    by_cases hm : m.getLsbD l = true
    · rw [if_pos hm, if_pos ⟨h, hm⟩]
    · rw [if_neg hm, if_neg (fun c => hm c.2), h]
  · have e : Table.getD (writeV w n m f).v j zeroRow = Table.getD w.v j zeroRow := by
      simp only [writeV, Table.getD_put, h, if_false]
    rw [e, if_neg (fun c => h c.1)]

@[simp] theorem readS_writeV (w : Wave) (n j : Nat) (m : LaneMask) (f : Fin 32 → Word32) :
    readS (writeV w n m f) j = readS w j := by simp only [readS, writeV]

@[simp] theorem readK_writeV (w : Wave) (n : Nat) (j : BitVec 4) (m : LaneMask) (f : Fin 32 → Word32) :
    readK (writeV w n m f) j = readK w j := by simp only [readK, writeV]

theorem readS_writeS (w : Wave) (n j : Nat) (x : Word32) :
    readS (writeS w n x) j = if j = n then x else readS w j := by
  simp only [readS, writeS, Table.getD_put]

@[simp] theorem readV_writeS (w : Wave) (n j : Nat) (x : Word32) (l : Fin 32) :
    readV (writeS w n x) j l = readV w j l := by simp only [readV, writeS]

@[simp] theorem readK_writeS (w : Wave) (n : Nat) (j : BitVec 4) (x : Word32) :
    readK (writeS w n x) j = readK w j := by simp only [readK, writeS]

@[simp] theorem readV_writeK (w : Wave) (k : BitVec 4) (x : LaneMask) (n : Nat) (l : Fin 32) :
    readV (writeK w k x) n l = readV w n l := by simp only [readV, writeK]

@[simp] theorem readS_writeK (w : Wave) (k : BitVec 4) (x : LaneMask) (n : Nat) :
    readS (writeK w k x) n = readS w n := by simp only [readS, writeK]

theorem readK_writeK (w : Wave) (k j : BitVec 4) (x : LaneMask) :
    readK (writeK w k x) j = if j = k then x else readK w j := by
  simp only [readK, writeK, Table.getD_put]
  by_cases h : j = k
  · subst h; simp
  · rw [if_neg h, if_neg]
    intro e
    exact h (BitVec.eq_of_toNat_eq e)

theorem vecBad_writeV (w : Wave) (n j : Nat) (m : LaneMask) (f : Fin 32 → Word32) (l : Fin 32) :
    vecBad (writeV w n m f) j l = (vecBad w j l && !(m.getLsbD l && j == n)) := by
  simp only [vecBad, writeV]
  cases hp : w.vpoison with
  | nil => simp [Table.getD, Table.get?]
  | cons p ps =>
    simp only [Table.getD_put]
    by_cases h : j = n
    · subst h; simp
    · simp [h]

@[simp] theorem scaBad_writeV (w : Wave) (n j : Nat) (m : LaneMask) (f : Fin 32 → Word32) :
    scaBad (writeV w n m f) j = scaBad w j := by simp only [scaBad, writeV]

@[simp] theorem names_w32 (i n : Nat) : names .w32 i n = (n == i) := by simp [names, show (Width.w32 == Width.w64) = false from rfl]

@[simp] theorem names_w64 (i n : Nat) : names .w64 i n = (n == i || n == i + 1) := by
  simp [names]

theorem clean_twice (x m p q : Bool) : (x && !(m && p) && !(m && q)) = (x && !(m && (p || q))) := by
  cases x <;> cases m <;> cases p <;> cases q <;> rfl

theorem scaBad_writeS (w : Wave) (n j : Nat) (x : Word32) : scaBad (writeS w n x) j = (scaBad w j && !(true && j == n)) := by
  simp only [scaBad, writeS]
  by_cases h : j = n
  · subst h; simp
  · by_cases hm : j ∈ w.spoison <;> simp [h, hm]

@[simp] theorem vecBad_writeS (w : Wave) (n j : Nat) (x : Word32) (l : Fin 32) :
    vecBad (writeS w n x) j l = vecBad w j l := by simp only [vecBad, writeS]

theorem PoisonKept.of_eq {a b : Wave} (hv : b.vpoison = a.vpoison) (hs : b.spoison = a.spoison) : PoisonKept a b :=
  ⟨fun _ _ => by simp only [vecBad, hv], fun _ => by simp only [scaBad, hs]⟩

theorem writeKBits_wrote (w : Wave) (k : BitVec 4) (m bits : LaneMask) :
    WroteMask w (writeKBits w k m bits) k m bits :=
  ⟨fun _ _ => readV_writeK .., fun _ => readS_writeK .., .of_eq rfl rfl, fun _ => readK_writeK ..⟩

theorem wroteNone_refl (w : Wave) (wd : Width) (d : Operand) (m : LaneMask) (f : Fin 32 → Word64)
    (hv : ∀ i, d ≠ .v i) (hs : ∀ i, d ≠ .s i) : Wrote w w wd d m f := by
  refine ⟨fun n l => ?_, fun n => ?_, fun k => rfl, fun n l => ?_, fun n => ?_⟩ <;> cases d
  case refine_1.v i => exact absurd rfl (hv i)
  case refine_2.s i => exact absurd rfl (hs i)
  case refine_3.v i => exact absurd rfl (hv i)
  case refine_4.s i => exact absurd rfl (hs i)
  all_goals simp [vecAfter, scaAfter, vecTakes, scaTakes]

theorem wrote_v32 (w : Wave) (i : Fin 320) (m : LaneMask) (f : Fin 32 → Word64) :
    Wrote w (writeV w i.val m fun l => (f l).setWidth 32) .w32 (.v i) m f := by
  refine ⟨fun n l => ?_, fun n => readS_writeV .., fun k => readK_writeV .., fun n l => ?_, fun n => ?_⟩
  · rw [readV_writeV]
    simp only [vecAfter, halfOf]
    by_cases h : n = i.val <;> by_cases hm : m.getLsbD l = true <;> simp [h, hm]
  · rw [vecBad_writeV, vecTakes, names_w32]
  · simp [scaTakes]

theorem wrote_v64 (w : Wave) (i : Fin 320) (m : LaneMask) (f : Fin 32 → Word64) :
    Wrote w (writeV (writeV w i.val m fun l => (f l).setWidth 32) (i.val + 1) m fun l => (f l >>> 32).setWidth 32)
      .w64 (.v i) m f := by
  refine ⟨fun n l => ?_, fun n => ?_, fun k => ?_, fun n l => ?_, fun n => ?_⟩
  · rw [readV_writeV, readV_writeV]
    simp only [vecAfter, halfOf]
    by_cases h1 : n = i.val
    · by_cases hm : m.getLsbD l = true <;> simp [h1, hm]
    · by_cases h2 : n = i.val + 1 <;> by_cases hm : m.getLsbD l = true <;> simp [h1, h2, hm]
  · rw [readS_writeV, readS_writeV]; rfl
  · rw [readK_writeV, readK_writeV]
  · rw [vecBad_writeV, vecBad_writeV, vecTakes, names_w64, clean_twice]
  · rw [scaBad_writeV, scaBad_writeV]; simp [scaTakes]

theorem wrote_s32 (w : Wave) (i : Fin 128) (m : LaneMask) (f : Fin 32 → Word64) (hm : m ≠ 0) :
    Wrote w (writeS w i.val ((f (lowest m)).setWidth 32)) .w32 (.s i) m f := by
  refine ⟨fun n l => readV_writeS .., fun n => ?_, fun k => readK_writeS .., fun n l => ?_, fun n => ?_⟩
  · simp only [hm, ne_eq, not_false_iff, if_true, readS_writeS, scaAfter, halfOf]
    by_cases h : n = i.val <;> simp [h]
  · simp [vecTakes]
  · rw [scaBad_writeS, scaTakes, names_w32, show (m != 0) = true by simpa using hm]

theorem wrote_s64 (w : Wave) (i : Fin 128) (m : LaneMask) (f : Fin 32 → Word64) (hm : m ≠ 0) :
    Wrote w (writeS (writeS w i.val ((f (lowest m)).setWidth 32)) (i.val + 1) ((f (lowest m) >>> 32).setWidth 32))
      .w64 (.s i) m f := by
  refine ⟨fun n l => ?_, fun n => ?_, fun k => ?_, fun n l => ?_, fun n => ?_⟩
  · rw [readV_writeS, readV_writeS]; rfl
  · simp only [hm, ne_eq, not_false_iff, if_true, readS_writeS, scaAfter, halfOf]
    by_cases h1 : n = i.val
    · simp [h1]
    · by_cases h2 : n = i.val + 1 <;> simp [h1, h2]
  · rw [readK_writeS, readK_writeS]
  · rw [vecBad_writeS, vecBad_writeS]; simp [vecTakes]
  · rw [scaBad_writeS, scaBad_writeS, scaTakes, names_w64, show (m != 0) = true by simpa using hm, clean_twice]

theorem wrote_s_none (w : Wave) (wd : Width) (i : Fin 128) (f : Fin 32 → Word64) : Wrote w w wd (.s i) 0 f :=
  ⟨fun _ _ => rfl, fun _ => by simp [scaAfter], fun _ => rfl, fun _ _ => by simp [vecTakes], fun _ => by simp [scaTakes]⟩

/-- A write at a width leaves what `Wrote` says. -/
theorem writeW_wrote (w : Wave) (wd : Width) (d : Operand) (m : LaneMask) (f : Fin 32 → Word64) :
    Wrote w (writeW w wd d m f) wd d m f := by
  cases wd <;> cases d <;> simp only [writeW, writeDst, writePair]
  case w32.v i => exact wrote_v32 ..
  case w64.v i => exact wrote_v64 ..
  case w32.s i =>
    by_cases hm : m = 0
    · subst hm; exact wrote_s_none ..
    · rw [if_neg (by simpa using hm)]; exact wrote_s32 _ _ _ _ hm
  case w64.s i =>
    by_cases hm : m = 0
    · subst hm; exact wrote_s_none ..
    · rw [if_neg (by simpa using hm)]; exact wrote_s64 _ _ _ _ hm
  all_goals exact wroteNone_refl _ _ _ _ _ (by simp) (by simp)

/-- The parts of a wave that no register write touches. -/
def regsApart (a b : Wave) : Prop :=
  b = { a with v := b.v, vpoison := b.vpoison, s := b.s, spoison := b.spoison, k := b.k }

theorem regsApart.refl (a : Wave) : regsApart a a := rfl

theorem regsApart.trans {a b c : Wave} (h : regsApart a b) (k : regsApart b c) : regsApart a c := by
  unfold regsApart at *
  rw [k, h]

theorem writeV_apart (w : Wave) (n : Nat) (m : LaneMask) (f : Fin 32 → Word32) : regsApart w (writeV w n m f) := by
  simp only [regsApart, writeV]

theorem writeS_apart (w : Wave) (n : Nat) (x : Word32) : regsApart w (writeS w n x) := by
  simp only [regsApart, writeS]

theorem writeK_apart (w : Wave) (k : BitVec 4) (x : LaneMask) : regsApart w (writeK w k x) := by
  simp only [regsApart, writeK]

theorem writeW_apart (w : Wave) (wd : Width) (d : Operand) (m : LaneMask) (f : Fin 32 → Word64) :
    regsApart w (writeW w wd d m f) := by
  cases wd <;> cases d <;> simp only [writeW, writeDst, writePair]
  case w32.v => exact writeV_apart ..
  case w64.v => exact (writeV_apart ..).trans (writeV_apart ..)
  case w32.s =>
    split
    · exact regsApart.refl _
    · exact writeS_apart ..
  case w64.s =>
    split
    · exact regsApart.refl _
    · exact (writeS_apart ..).trans (writeS_apart ..)
  all_goals exact regsApart.refl _

theorem writeKBits_apart (w : Wave) (k : BitVec 4) (m bits : LaneMask) : regsApart w (writeKBits w k m bits) :=
  writeK_apart ..

/-! ### Flags -/

theorem foldl_or_zero (ls : List (Fin 32)) (x : BitVec 5) (f : Fin 32 → BitVec 5) (h : ls.foldl (fun x l => x ||| f l) x = 0) :
    x = 0 ∧ ∀ l ∈ ls, f l = 0 := by
  induction ls generalizing x with
  | nil => exact ⟨h, by simp⟩
  | cons a t ih =>
    obtain ⟨h1, h2⟩ := ih _ h
    have := BitVec.or_eq_zero_iff.1 h1
    refine ⟨this.1, fun l hl => ?_⟩
    rcases List.mem_cons.1 hl with rfl | hl
    · exact this.2
    · exact h2 l hl

theorem mem_lanesIn (m : LaneMask) (l : Fin 32) : l ∈ lanesIn m ↔ m.getLsbD l = true := by
  simp [lanesIn]

/-- What raising flags leaves of a wave. -/
structure Raised (w r : Wave) (m : LaneMask) (f : Fin 32 → BitVec 5) : Prop where
  rest : r = { w with lanes := r.lanes, causes := r.causes }
  causes : r.causes = w.causes ||| (((lanesIn m).foldl (fun (x : BitVec 5) l => x ||| f l) 0#5).setWidth 64)
  lanes : ∀ l : Fin 32, r.lanes[l] =
    { w.lanes[l] with flags := w.lanes[l].flags ||| (if m.getLsbD l then f l else 0) }

theorem raiseFlags_spec (w : Wave) (m : LaneMask) (f : Fin 32 → BitVec 5) : Raised w (raiseFlags w m f) m f := by
  unfold raiseFlags
  simp only
  by_cases h : (lanesIn m).foldl (fun (x : BitVec 5) l => x ||| f l) 0#5 = 0
  · rw [if_pos (by simpa using h)]
    refine ⟨rfl, by rw [h]; simp, fun l => ?_⟩
    have hz := (foldl_or_zero _ _ _ h).2
    by_cases hm : m.getLsbD l = true
    · rw [if_pos hm, hz l ((mem_lanesIn m l).2 hm)]; simp
    · rw [if_neg hm]; simp
  · rw [if_neg (by simpa using h)]
    have e := mapLanes_get w m fun i l => { l with flags := l.flags ||| f i }
    have ap : mapLanes w m (fun i l => { l with flags := l.flags ||| f i }) =
        { w with lanes := (mapLanes w m fun i l => { l with flags := l.flags ||| f i }).lanes } := by
      simp only [mapLanes]
    obtain ⟨u, hu⟩ : ∃ u, mapLanes w m (fun i l => { l with flags := l.flags ||| f i }) = u := ⟨_, rfl⟩
    rw [hu] at e ap ⊢
    refine ⟨?_, ?_, fun l => ?_⟩
    · rw [ap]
    · rw [ap]
    show u.lanes[l] = _
    rw [e l]
    by_cases hm : m.getLsbD l = true
    · rw [if_pos hm, if_pos hm]
    · rw [if_neg hm, if_neg hm]; simp

/-! ### Register instructions -/

theorem laneKept_of_next {k : Kernel} {c : Bool} {a b : Lane} (h : LaneKept (if c then nextWord k a else a) b) :
    b.life = a.life ∧ b.flags = a.flags ∧ b.rng = a.rng ∧ b.item = a.item ∧ b.batch = a.batch ∧ b.failed = a.failed ∧
      b.handler = a.handler ∧ b.tret = a.tret ∧ (c = true → b.pc = a.pc + 8) := by
  obtain ⟨n1, n2, n3, n4, n5, n6, n7, n8, n9, n10⟩ := nextWord_kept k a
  cases c
  · exact ⟨h.life, h.flags, h.rng, h.item, h.batch, h.failed, h.handler, h.tret, by simp⟩
  · refine ⟨h.life.trans n1, h.flags.trans n2, h.rng.trans n3, h.item.trans n4, h.batch.trans n5, h.failed.trans n6,
      h.handler.trans n7, h.tret.trans n10, fun _ => ?_⟩
    exact ((h.place (nextWord_wait k a)).1).trans (nextWord_pc k a)

/-- The wave an act leaves: registers, flags, generators. -/
structure Acted (a b : Wave) (m : LaneMask) (fl : Fin 32 → BitVec 5) (g : Fin 32 → Word32 → Word32) :
    Prop where
  rest : b = { a with v := b.v, vpoison := b.vpoison, s := b.s, spoison := b.spoison, k := b.k, lanes := b.lanes,
                      causes := b.causes }
  causes : b.causes = a.causes ||| (((lanesIn m).foldl (fun (x : BitVec 5) l => x ||| fl l) 0#5).setWidth 64)
  lanes : ∀ l : Fin 32, b.lanes[l] =
    { a.lanes[l] with flags := a.lanes[l].flags ||| (if m.getLsbD l then fl l else 0),
                      rng := if m.getLsbD l then g l a.lanes[l].rng else a.lanes[l].rng }

theorem foldl_noFlags (ls : List (Fin 32)) (x : BitVec 5) : ls.foldl (fun (x : BitVec 5) l => x ||| noFlags l) x = x := by
  induction ls generalizing x with
  | nil => rfl
  | cons a t ih => rw [List.foldl_cons, ih]; simp [noFlags]

theorem regsApart.acted {a b : Wave} (h : regsApart a b) (m : LaneMask) : Acted a b m noFlags keepRng := by
  have hl : b.lanes = a.lanes := by rw [h]
  have hc : b.causes = a.causes := by rw [h]
  refine ⟨?_, ?_, fun l => ?_⟩
  · rw [hl, hc]; exact h
  · rw [hc, foldl_noFlags]; simp
  · rw [hl]
    have e0 : (if m.getLsbD l then noFlags l else 0) = (0 : BitVec 5) := by simp [noFlags]
    have e1 : (if m.getLsbD l then keepRng l a.lanes[l].rng else a.lanes[l].rng) =
        a.lanes[l].rng := by simp [keepRng]
    rw [e0, e1]
    simp

/-- A register instruction completes as `Completed` says, for the registers that its act leaves. -/
theorem regInstr_completed (h : Head) (scalar : Bool) (srcs : List (Operand × Nat)) (s : State)
    (f : LaneMask → State → Wave → Wave) (fl : Fin 32 → BitVec 5)
    (g : Fin 32 → Word32 → Word32) (regs : Wave → Wave → Prop)
    (hi : Issuing s) (hs : Sourced s h srcs)
    (ha : Acted (taken s h srcs).me (f (active s h) (taken s h srcs) (taken s h srcs).me) (active s h) fl g)
    (hr : ∀ b : Wave, b.v = (f (active s h) (taken s h srcs) (taken s h srcs).me).v →
      b.s = (f (active s h) (taken s h srcs) (taken s h srcs).me).s →
      b.k = (f (active s h) (taken s h srcs) (taken s h srcs).me).k →
      b.vpoison = (f (active s h) (taken s h srcs) (taken s h srcs).me).vpoison →
      b.spoison = (f (active s h) (taken s h srcs) (taken s h srcs).me).spoison → regs (taken s h srcs).me b) :
    Completed (taken s h srcs) (regInstr h scalar srcs s fun m s => modMe s (f m s)) (active s h) regs fl g := by
  have hp := taken_popped s h srcs hs.agent
  obtain ⟨p, hpe⟩ : ∃ p, taken s h srcs = p := ⟨_, rfl⟩
  obtain ⟨t, ht⟩ : ∃ t, regInstr h scalar srcs s (fun m s => modMe s (f m s)) = t := ⟨_, rfl⟩
  rw [hpe] at ha hr hp ⊢
  rw [ht]
  obtain ⟨w', hf⟩ : ∃ w', f (active s h) p p.me = w' := ⟨_, rfl⟩
  rw [hf] at ha hr
  have iss : p.iss = s.iss := by rw [hp.rest]
  have hpres : w'.present = true := by rw [ha.rest]; show p.me.present = true; rw [hp.me]; exact hi.present
  have hfull : w'.full = 0 := by rw [ha.rest]; show p.me.full = 0; rw [hp.me]; exact hi.notFull
  have hap : w'.ap = s.me.ap := by rw [ha.rest]; show p.me.ap = _; rw [hp.me]
  have hl : ∀ l : Fin 32, w'.lanes[l].life = p.me.lanes[l].life := fun l => by rw [ha.lanes l]
  obtain ⟨fr, hme, k, hk⟩ := regInstr_modMe h scalar srcs s p f hi hs hpe w' hf hpres hfull hap hl t ht
  have hk' := fun l => laneKept_of_next (hk l)
  refine ⟨hr t.me ?_ ?_ ?_ ?_ ?_, fun l => ?_, ?_, fun l => ?_, fun l hl => ?_, fun l => ?_, ?_, fr⟩
  · rw [hme]
  · rw [hme]
  · rw [hme]
  · rw [hme]
  · rw [hme]
  · rw [(hk' l).2.1, ha.lanes l]
  · rw [hme]; exact ha.causes
  · rw [(hk' l).2.2.1, ha.lanes l]
  · rw [iss] at hl
    rw [(hk' l).2.2.2.2.2.2.2.2 hl, ha.lanes l]
  · obtain ⟨h1, -, -, h4, h5, h6, h7, h8, -⟩ := hk' l
    rw [h1, h4, h5, h6, h7, h8, ha.lanes l]
    exact ⟨rfl, rfl, rfl, rfl, rfl, rfl⟩
  · have e1 : t.me.v = w'.v := by rw [hme]
    have e2 : t.me.vpoison = w'.vpoison := by rw [hme]
    have e3 : t.me.s = w'.s := by rw [hme]
    have e4 : t.me.spoison = w'.spoison := by rw [hme]
    have e5 : t.me.k = w'.k := by rw [hme]
    have e6 : t.me.causes = w'.causes := by rw [hme]
    rw [e1, e2, e3, e4, e5, e6]
    rw [hme]
    rw [ha.rest]

theorem Wrote.congr {a b c : Wave} {w : Width} {d : Operand} {m : LaneMask} {f : Fin 32 → Word64} (h : Wrote a b w d m f)
    (hv : c.v = b.v) (hs : c.s = b.s) (hk : c.k = b.k) (hvp : c.vpoison = b.vpoison) (hsp : c.spoison = b.spoison) :
    Wrote a c w d m f := by
  refine ⟨fun n l => ?_, fun n => ?_, fun k => ?_, fun n l => ?_, fun n => ?_⟩
  · exact (show readV c n l = readV b n l by simp only [readV, hv]).trans (h.vec n l)
  · exact (show readS c n = readS b n by simp only [readS, hs]).trans (h.sca n)
  · exact (show readK c k = readK b k by simp only [readK, hk]).trans (h.mask k)
  · exact (show vecBad c n l = vecBad b n l by simp only [vecBad, hvp]).trans (h.vecClean n l)
  · exact (show scaBad c n = scaBad b n by simp only [scaBad, hsp]).trans (h.scaClean n)

/-- An instruction that writes one value per lane and raises nothing (02 R35, R41). -/
theorem aluInstr_completed (h : Head) (w : Width) (d : Operand) (srcs : List (Operand × Nat)) (s : State)
    (val : State → Fin 32 → Word64) (hi : Issuing s) (hs : Sourced s h srcs) :
    Completed (taken s h srcs) (aluInstr h w d srcs s val) (active s h)
      (fun a b => Wrote a b w d (active s h) (val (taken s h srcs))) noFlags keepRng :=
  regInstr_completed h d.isScalar srcs s (fun m s me => writeW me w d m (val s)) noFlags keepRng _ hi hs
    ((writeW_apart ..).acted _) fun _ hv hs hk hvp hsp => (writeW_wrote ..).congr hv hs hk hvp hsp

/-- An instruction that writes one value per lane and raises flags (05 R143). -/
theorem fltInstr_completed (h : Head) (w : Width) (d : Operand) (srcs : List (Operand × Nat)) (s : State)
    (val : State → Fin 32 → Word64 × BitVec 5) (hi : Issuing s) (hs : Sourced s h srcs) :
    Completed (taken s h srcs) (fltInstr h w d srcs s val) (active s h)
      (fun a b => Wrote a b w d (active s h) fun l => (val (taken s h srcs) l).1)
      (fun l => (val (taken s h srcs) (if d.isScalar then lowest (active s h) else l)).2) keepRng := by
  refine regInstr_completed h d.isScalar srcs s (fun m s me =>
    raiseFlags (writeW me w d m fun l => (val s l).1) m fun l => (val s (if d.isScalar then lowest m else l)).2) _ keepRng _
    hi hs ?_ ?_
  · obtain ⟨p, hp⟩ : ∃ p, taken s h srcs = p := ⟨_, rfl⟩
    rw [hp]
    have ap := writeW_apart p.me w d (active s h) fun l => (val p l).1
    obtain ⟨r1, r2, r3⟩ := raiseFlags_spec (writeW p.me w d (active s h) fun l => (val p l).1) (active s h)
      fun l => (val p (if d.isScalar then lowest (active s h) else l)).2
    have hl : (writeW p.me w d (active s h) fun l => (val p l).1).lanes = p.me.lanes := by rw [ap]
    have hc : (writeW p.me w d (active s h) fun l => (val p l).1).causes = p.me.causes := by rw [ap]
    refine ⟨?_, ?_, fun l => ?_⟩
    · rw [r1, ap]
    · rw [r2, hc]
    · rw [r3 l, hl]
      simp [keepRng]
  · intro b hv hs' hk hvp hsp
    refine Wrote.congr (writeW_wrote ..) (hv.trans ?_) (hs'.trans ?_) (hk.trans ?_) (hvp.trans ?_) (hsp.trans ?_) <;>
      rw [(raiseFlags_spec ..).rest]

/-- A compare into a mask register (07 R175). -/
theorem cmpInstr_completed (h : Head) (k : BitVec 4) (srcs : List (Operand × Nat)) (s : State)
    (test : State → Fin 32 → Bool) (hi : Issuing s) (hs : Sourced s h srcs) :
    Completed (taken s h srcs) (cmpInstr h k srcs s test) (active s h)
      (fun a b => WroteMask a b k (active s h) (maskOf ((lanesIn (active s h)).filter (test (taken s h srcs))))) noFlags keepRng :=
  regInstr_completed h false srcs s (fun m s me => writeKBits me k m (maskOf ((lanesIn m).filter (test s)))) noFlags keepRng _
    hi hs ((writeKBits_apart ..).acted _) fun b hv hs' hk hvp hsp => by
      refine ⟨fun n l => ?_, fun n => ?_, .of_eq hvp hsp, fun j => ?_⟩
      · simp only [readV, hv]; rfl
      · simp only [readS, hs']; rfl
      · rw [← (writeKBits_wrote _ k _ _).mask j]; simp only [readK, hk]

end Sys2Proof.Machine
end

