-- ==== Sys2Proof/Laws/State.lean ====
section
/-! SUPPORT. What each update of one table of the state leaves in every field, so that no proof unfolds a record update. -/
namespace Sys2Proof.Machine

/-! ### `modMe` -/

@[simp] theorem modMe_me (s : State) (f : Wave → Wave) : (modMe s f).me = f s.me := rfl
@[simp] theorem modMe_iss (s : State) (f : Wave → Wave) : (modMe s f).iss = s.iss := rfl
@[simp] theorem modMe_word (s : State) (f : Wave → Wave) : (modMe s f).word = s.word := rfl
@[simp] theorem modMe_waves (s : State) (f : Wave → Wave) : (modMe s f).waves = s.waves := rfl
@[simp] theorem modMe_aps (s : State) (f : Wave → Wave) : (modMe s f).aps = s.aps := rfl
@[simp] theorem modMe_frags (s : State) (f : Wave → Wave) : (modMe s f).frags = s.frags := rfl
@[simp] theorem modMe_groups (s : State) (f : Wave → Wave) : (modMe s f).groups = s.groups := rfl
@[simp] theorem modMe_launches (s : State) (f : Wave → Wave) : (modMe s f).launches = s.launches := rfl
@[simp] theorem modMe_queues (s : State) (f : Wave → Wave) : (modMe s f).queues = s.queues := rfl
@[simp] theorem modMe_ctxs (s : State) (f : Wave → Wave) : (modMe s f).ctxs = s.ctxs := rfl
@[simp] theorem modMe_dikes (s : State) (f : Wave → Wave) : (modMe s f).dikes = s.dikes := rfl
@[simp] theorem modMe_copies (s : State) (f : Wave → Wave) : (modMe s f).copies = s.copies := rfl
@[simp] theorem modMe_tasks (s : State) (f : Wave → Wave) : (modMe s f).tasks = s.tasks := rfl
@[simp] theorem modMe_tileRot (s : State) (f : Wave → Wave) : (modMe s f).tileRot = s.tileRot := rfl
@[simp] theorem modMe_acc (s : State) (f : Wave → Wave) : (modMe s f).acc = s.acc := rfl
@[simp] theorem modMe_bins (s : State) (f : Wave → Wave) : (modMe s f).bins = s.bins := rfl
@[simp] theorem modMe_pushes (s : State) (f : Wave → Wave) : (modMe s f).pushes = s.pushes := rfl
@[simp] theorem modMe_scans (s : State) (f : Wave → Wave) : (modMe s f).scans = s.scans := rfl
@[simp] theorem modMe_detoks (s : State) (f : Wave → Wave) : (modMe s f).detoks = s.detoks := rfl
@[simp] theorem modMe_reds (s : State) (f : Wave → Wave) : (modMe s f).reds = s.reds := rfl
@[simp] theorem modMe_remotes (s : State) (f : Wave → Wave) : (modMe s f).remotes = s.remotes := rfl
@[simp] theorem modMe_batches (s : State) (f : Wave → Wave) : (modMe s f).batches = s.batches := rfl
@[simp] theorem modMe_fns (s : State) (f : Wave → Wave) : (modMe s f).fns = s.fns := rfl
@[simp] theorem modMe_adm (s : State) (f : Wave → Wave) : (modMe s f).adm = s.adm := rfl
@[simp] theorem modMe_dies (s : State) (f : Wave → Wave) : (modMe s f).dies = s.dies := rfl
@[simp] theorem modMe_hbmStacks (s : State) (f : Wave → Wave) : (modMe s f).hbmStacks = s.hbmStacks := rfl
@[simp] theorem modMe_mem (s : State) (f : Wave → Wave) : (modMe s f).mem = s.mem := rfl
@[simp] theorem modMe_dirty (s : State) (f : Wave → Wave) : (modMe s f).dirty = s.dirty := rfl
@[simp] theorem modMe_poison (s : State) (f : Wave → Wave) : (modMe s f).poison = s.poison := rfl
@[simp] theorem modMe_zoneData (s : State) (f : Wave → Wave) : (modMe s f).zoneData = s.zoneData := rfl
@[simp] theorem modMe_zoneSlots (s : State) (f : Wave → Wave) : (modMe s f).zoneSlots = s.zoneSlots := rfl
@[simp] theorem modMe_zonePoison (s : State) (f : Wave → Wave) : (modMe s f).zonePoison = s.zonePoison := rfl
@[simp] theorem modMe_zoneStart (s : State) (f : Wave → Wave) : (modMe s f).zoneStart = s.zoneStart := rfl
@[simp] theorem modMe_zoneBytes (s : State) (f : Wave → Wave) : (modMe s f).zoneBytes = s.zoneBytes := rfl
@[simp] theorem modMe_rowCopies (s : State) (f : Wave → Wave) : (modMe s f).rowCopies = s.rowCopies := rfl
@[simp] theorem modMe_sparesBy (s : State) (f : Wave → Wave) : (modMe s f).sparesBy = s.sparesBy := rfl
@[simp] theorem modMe_rowErrors (s : State) (f : Wave → Wave) : (modMe s f).rowErrors = s.rowErrors := rfl
@[simp] theorem modMe_wall (s : State) (f : Wave → Wave) : (modMe s f).wall = s.wall := rfl
@[simp] theorem modMe_cycles (s : State) (f : Wave → Wave) : (modMe s f).cycles = s.cycles := rfl
@[simp] theorem modMe_paired (s : State) (f : Wave → Wave) : (modMe s f).paired = s.paired := rfl
@[simp] theorem modMe_apTurn (s : State) (f : Wave → Wave) : (modMe s f).apTurn = s.apTurn := rfl
@[simp] theorem modMe_xlepoch (s : State) (f : Wave → Wave) : (modMe s f).xlepoch = s.xlepoch := rfl
@[simp] theorem modMe_xlquiet (s : State) (f : Wave → Wave) : (modMe s f).xlquiet = s.xlquiet := rfl
@[simp] theorem modMe_quarantine (s : State) (f : Wave → Wave) : (modMe s f).quarantine = s.quarantine := rfl
@[simp] theorem modMe_fused (s : State) (f : Wave → Wave) : (modMe s f).fused = s.fused := rfl
@[simp] theorem modMe_powerLimit (s : State) (f : Wave → Wave) : (modMe s f).powerLimit = s.powerLimit := rfl
@[simp] theorem modMe_pkg (s : State) (f : Wave → Wave) : (modMe s f).pkg = s.pkg := rfl
@[simp] theorem modMe_packages (s : State) (f : Wave → Wave) : (modMe s f).packages = s.packages := rfl
@[simp] theorem modMe_portsDown (s : State) (f : Wave → Wave) : (modMe s f).portsDown = s.portsDown := rfl
@[simp] theorem modMe_lost (s : State) (f : Wave → Wave) : (modMe s f).lost = s.lost := rfl
@[simp] theorem modMe_degraded (s : State) (f : Wave → Wave) : (modMe s f).degraded = s.degraded := rfl
@[simp] theorem modMe_degradedAt (s : State) (f : Wave → Wave) : (modMe s f).degradedAt = s.degradedAt := rfl
@[simp] theorem modMe_ageCount (s : State) (f : Wave → Wave) : (modMe s f).ageCount = s.ageCount := rfl
@[simp] theorem modMe_search (s : State) (f : Wave → Wave) : (modMe s f).search = s.search := rfl
@[simp] theorem modMe_fresh (s : State) (f : Wave → Wave) : (modMe s f).fresh = s.fresh := rfl
@[simp] theorem modMe_agenda (s : State) (f : Wave → Wave) : (modMe s f).agenda = s.agenda := rfl
@[simp] theorem modMe_tick (s : State) (f : Wave → Wave) : (modMe s f).tick = s.tick := rfl
@[simp] theorem modMe_hostRead (s : State) (f : Wave → Wave) : (modMe s f).hostRead = s.hostRead := rfl
@[simp] theorem modMe_hostPoison (s : State) (f : Wave → Wave) : (modMe s f).hostPoison = s.hostPoison := rfl
@[simp] theorem modMe_stuck (s : State) (f : Wave → Wave) : (modMe s f).stuck = s.stuck := rfl

/-! ### `modGroup` -/

@[simp] theorem modGroup_me (s : State) (k : Nat) (f : Group → Group) : (modGroup s k f).me = s.me := rfl
@[simp] theorem modGroup_iss (s : State) (k : Nat) (f : Group → Group) : (modGroup s k f).iss = s.iss := rfl
@[simp] theorem modGroup_word (s : State) (k : Nat) (f : Group → Group) : (modGroup s k f).word = s.word := rfl
@[simp] theorem modGroup_waves (s : State) (k : Nat) (f : Group → Group) : (modGroup s k f).waves = s.waves := rfl
@[simp] theorem modGroup_aps (s : State) (k : Nat) (f : Group → Group) : (modGroup s k f).aps = s.aps := rfl
@[simp] theorem modGroup_frags (s : State) (k : Nat) (f : Group → Group) : (modGroup s k f).frags = s.frags := rfl
@[simp] theorem modGroup_groups (s : State) (k : Nat) (f : Group → Group) : (modGroup s k f).groups = Table.modify s.groups k f := rfl
@[simp] theorem modGroup_launches (s : State) (k : Nat) (f : Group → Group) : (modGroup s k f).launches = s.launches := rfl
@[simp] theorem modGroup_queues (s : State) (k : Nat) (f : Group → Group) : (modGroup s k f).queues = s.queues := rfl
@[simp] theorem modGroup_ctxs (s : State) (k : Nat) (f : Group → Group) : (modGroup s k f).ctxs = s.ctxs := rfl
@[simp] theorem modGroup_dikes (s : State) (k : Nat) (f : Group → Group) : (modGroup s k f).dikes = s.dikes := rfl
@[simp] theorem modGroup_copies (s : State) (k : Nat) (f : Group → Group) : (modGroup s k f).copies = s.copies := rfl
@[simp] theorem modGroup_tasks (s : State) (k : Nat) (f : Group → Group) : (modGroup s k f).tasks = s.tasks := rfl
@[simp] theorem modGroup_tileRot (s : State) (k : Nat) (f : Group → Group) : (modGroup s k f).tileRot = s.tileRot := rfl
@[simp] theorem modGroup_acc (s : State) (k : Nat) (f : Group → Group) : (modGroup s k f).acc = s.acc := rfl
@[simp] theorem modGroup_bins (s : State) (k : Nat) (f : Group → Group) : (modGroup s k f).bins = s.bins := rfl
@[simp] theorem modGroup_pushes (s : State) (k : Nat) (f : Group → Group) : (modGroup s k f).pushes = s.pushes := rfl
@[simp] theorem modGroup_scans (s : State) (k : Nat) (f : Group → Group) : (modGroup s k f).scans = s.scans := rfl
@[simp] theorem modGroup_detoks (s : State) (k : Nat) (f : Group → Group) : (modGroup s k f).detoks = s.detoks := rfl
@[simp] theorem modGroup_reds (s : State) (k : Nat) (f : Group → Group) : (modGroup s k f).reds = s.reds := rfl
@[simp] theorem modGroup_remotes (s : State) (k : Nat) (f : Group → Group) : (modGroup s k f).remotes = s.remotes := rfl
@[simp] theorem modGroup_batches (s : State) (k : Nat) (f : Group → Group) : (modGroup s k f).batches = s.batches := rfl
@[simp] theorem modGroup_fns (s : State) (k : Nat) (f : Group → Group) : (modGroup s k f).fns = s.fns := rfl
@[simp] theorem modGroup_adm (s : State) (k : Nat) (f : Group → Group) : (modGroup s k f).adm = s.adm := rfl
@[simp] theorem modGroup_dies (s : State) (k : Nat) (f : Group → Group) : (modGroup s k f).dies = s.dies := rfl
@[simp] theorem modGroup_hbmStacks (s : State) (k : Nat) (f : Group → Group) : (modGroup s k f).hbmStacks = s.hbmStacks := rfl
@[simp] theorem modGroup_mem (s : State) (k : Nat) (f : Group → Group) : (modGroup s k f).mem = s.mem := rfl
@[simp] theorem modGroup_dirty (s : State) (k : Nat) (f : Group → Group) : (modGroup s k f).dirty = s.dirty := rfl
@[simp] theorem modGroup_poison (s : State) (k : Nat) (f : Group → Group) : (modGroup s k f).poison = s.poison := rfl
@[simp] theorem modGroup_zoneData (s : State) (k : Nat) (f : Group → Group) : (modGroup s k f).zoneData = s.zoneData := rfl
@[simp] theorem modGroup_zoneSlots (s : State) (k : Nat) (f : Group → Group) : (modGroup s k f).zoneSlots = s.zoneSlots := rfl
@[simp] theorem modGroup_zonePoison (s : State) (k : Nat) (f : Group → Group) : (modGroup s k f).zonePoison = s.zonePoison := rfl
@[simp] theorem modGroup_zoneStart (s : State) (k : Nat) (f : Group → Group) : (modGroup s k f).zoneStart = s.zoneStart := rfl
@[simp] theorem modGroup_zoneBytes (s : State) (k : Nat) (f : Group → Group) : (modGroup s k f).zoneBytes = s.zoneBytes := rfl
@[simp] theorem modGroup_rowCopies (s : State) (k : Nat) (f : Group → Group) : (modGroup s k f).rowCopies = s.rowCopies := rfl
@[simp] theorem modGroup_sparesBy (s : State) (k : Nat) (f : Group → Group) : (modGroup s k f).sparesBy = s.sparesBy := rfl
@[simp] theorem modGroup_rowErrors (s : State) (k : Nat) (f : Group → Group) : (modGroup s k f).rowErrors = s.rowErrors := rfl
@[simp] theorem modGroup_wall (s : State) (k : Nat) (f : Group → Group) : (modGroup s k f).wall = s.wall := rfl
@[simp] theorem modGroup_cycles (s : State) (k : Nat) (f : Group → Group) : (modGroup s k f).cycles = s.cycles := rfl
@[simp] theorem modGroup_paired (s : State) (k : Nat) (f : Group → Group) : (modGroup s k f).paired = s.paired := rfl
@[simp] theorem modGroup_apTurn (s : State) (k : Nat) (f : Group → Group) : (modGroup s k f).apTurn = s.apTurn := rfl
@[simp] theorem modGroup_xlepoch (s : State) (k : Nat) (f : Group → Group) : (modGroup s k f).xlepoch = s.xlepoch := rfl
@[simp] theorem modGroup_xlquiet (s : State) (k : Nat) (f : Group → Group) : (modGroup s k f).xlquiet = s.xlquiet := rfl
@[simp] theorem modGroup_quarantine (s : State) (k : Nat) (f : Group → Group) : (modGroup s k f).quarantine = s.quarantine := rfl
@[simp] theorem modGroup_fused (s : State) (k : Nat) (f : Group → Group) : (modGroup s k f).fused = s.fused := rfl
@[simp] theorem modGroup_powerLimit (s : State) (k : Nat) (f : Group → Group) : (modGroup s k f).powerLimit = s.powerLimit := rfl
@[simp] theorem modGroup_pkg (s : State) (k : Nat) (f : Group → Group) : (modGroup s k f).pkg = s.pkg := rfl
@[simp] theorem modGroup_packages (s : State) (k : Nat) (f : Group → Group) : (modGroup s k f).packages = s.packages := rfl
@[simp] theorem modGroup_portsDown (s : State) (k : Nat) (f : Group → Group) : (modGroup s k f).portsDown = s.portsDown := rfl
@[simp] theorem modGroup_lost (s : State) (k : Nat) (f : Group → Group) : (modGroup s k f).lost = s.lost := rfl
@[simp] theorem modGroup_degraded (s : State) (k : Nat) (f : Group → Group) : (modGroup s k f).degraded = s.degraded := rfl
@[simp] theorem modGroup_degradedAt (s : State) (k : Nat) (f : Group → Group) : (modGroup s k f).degradedAt = s.degradedAt := rfl
@[simp] theorem modGroup_ageCount (s : State) (k : Nat) (f : Group → Group) : (modGroup s k f).ageCount = s.ageCount := rfl
@[simp] theorem modGroup_search (s : State) (k : Nat) (f : Group → Group) : (modGroup s k f).search = s.search := rfl
@[simp] theorem modGroup_fresh (s : State) (k : Nat) (f : Group → Group) : (modGroup s k f).fresh = s.fresh := rfl
@[simp] theorem modGroup_agenda (s : State) (k : Nat) (f : Group → Group) : (modGroup s k f).agenda = s.agenda := rfl
@[simp] theorem modGroup_tick (s : State) (k : Nat) (f : Group → Group) : (modGroup s k f).tick = s.tick := rfl
@[simp] theorem modGroup_hostRead (s : State) (k : Nat) (f : Group → Group) : (modGroup s k f).hostRead = s.hostRead := rfl
@[simp] theorem modGroup_hostPoison (s : State) (k : Nat) (f : Group → Group) : (modGroup s k f).hostPoison = s.hostPoison := rfl
@[simp] theorem modGroup_stuck (s : State) (k : Nat) (f : Group → Group) : (modGroup s k f).stuck = s.stuck := rfl

/-! ### `setCtx` -/

@[simp] theorem setCtx_me (s : State) (k : Nat) (f : Context → Context) : (setCtx s k f).me = s.me := rfl
@[simp] theorem setCtx_iss (s : State) (k : Nat) (f : Context → Context) : (setCtx s k f).iss = s.iss := rfl
@[simp] theorem setCtx_word (s : State) (k : Nat) (f : Context → Context) : (setCtx s k f).word = s.word := rfl
@[simp] theorem setCtx_waves (s : State) (k : Nat) (f : Context → Context) : (setCtx s k f).waves = s.waves := rfl
@[simp] theorem setCtx_aps (s : State) (k : Nat) (f : Context → Context) : (setCtx s k f).aps = s.aps := rfl
@[simp] theorem setCtx_frags (s : State) (k : Nat) (f : Context → Context) : (setCtx s k f).frags = s.frags := rfl
@[simp] theorem setCtx_groups (s : State) (k : Nat) (f : Context → Context) : (setCtx s k f).groups = s.groups := rfl
@[simp] theorem setCtx_launches (s : State) (k : Nat) (f : Context → Context) : (setCtx s k f).launches = s.launches := rfl
@[simp] theorem setCtx_queues (s : State) (k : Nat) (f : Context → Context) : (setCtx s k f).queues = s.queues := rfl
@[simp] theorem setCtx_ctxs (s : State) (k : Nat) (f : Context → Context) : (setCtx s k f).ctxs = Table.modify s.ctxs k f := rfl
@[simp] theorem setCtx_dikes (s : State) (k : Nat) (f : Context → Context) : (setCtx s k f).dikes = s.dikes := rfl
@[simp] theorem setCtx_copies (s : State) (k : Nat) (f : Context → Context) : (setCtx s k f).copies = s.copies := rfl
@[simp] theorem setCtx_tasks (s : State) (k : Nat) (f : Context → Context) : (setCtx s k f).tasks = s.tasks := rfl
@[simp] theorem setCtx_tileRot (s : State) (k : Nat) (f : Context → Context) : (setCtx s k f).tileRot = s.tileRot := rfl
@[simp] theorem setCtx_acc (s : State) (k : Nat) (f : Context → Context) : (setCtx s k f).acc = s.acc := rfl
@[simp] theorem setCtx_bins (s : State) (k : Nat) (f : Context → Context) : (setCtx s k f).bins = s.bins := rfl
@[simp] theorem setCtx_pushes (s : State) (k : Nat) (f : Context → Context) : (setCtx s k f).pushes = s.pushes := rfl
@[simp] theorem setCtx_scans (s : State) (k : Nat) (f : Context → Context) : (setCtx s k f).scans = s.scans := rfl
@[simp] theorem setCtx_detoks (s : State) (k : Nat) (f : Context → Context) : (setCtx s k f).detoks = s.detoks := rfl
@[simp] theorem setCtx_reds (s : State) (k : Nat) (f : Context → Context) : (setCtx s k f).reds = s.reds := rfl
@[simp] theorem setCtx_remotes (s : State) (k : Nat) (f : Context → Context) : (setCtx s k f).remotes = s.remotes := rfl
@[simp] theorem setCtx_batches (s : State) (k : Nat) (f : Context → Context) : (setCtx s k f).batches = s.batches := rfl
@[simp] theorem setCtx_fns (s : State) (k : Nat) (f : Context → Context) : (setCtx s k f).fns = s.fns := rfl
@[simp] theorem setCtx_adm (s : State) (k : Nat) (f : Context → Context) : (setCtx s k f).adm = s.adm := rfl
@[simp] theorem setCtx_dies (s : State) (k : Nat) (f : Context → Context) : (setCtx s k f).dies = s.dies := rfl
@[simp] theorem setCtx_hbmStacks (s : State) (k : Nat) (f : Context → Context) : (setCtx s k f).hbmStacks = s.hbmStacks := rfl
@[simp] theorem setCtx_mem (s : State) (k : Nat) (f : Context → Context) : (setCtx s k f).mem = s.mem := rfl
@[simp] theorem setCtx_dirty (s : State) (k : Nat) (f : Context → Context) : (setCtx s k f).dirty = s.dirty := rfl
@[simp] theorem setCtx_poison (s : State) (k : Nat) (f : Context → Context) : (setCtx s k f).poison = s.poison := rfl
@[simp] theorem setCtx_zoneData (s : State) (k : Nat) (f : Context → Context) : (setCtx s k f).zoneData = s.zoneData := rfl
@[simp] theorem setCtx_zoneSlots (s : State) (k : Nat) (f : Context → Context) : (setCtx s k f).zoneSlots = s.zoneSlots := rfl
@[simp] theorem setCtx_zonePoison (s : State) (k : Nat) (f : Context → Context) : (setCtx s k f).zonePoison = s.zonePoison := rfl
@[simp] theorem setCtx_zoneStart (s : State) (k : Nat) (f : Context → Context) : (setCtx s k f).zoneStart = s.zoneStart := rfl
@[simp] theorem setCtx_zoneBytes (s : State) (k : Nat) (f : Context → Context) : (setCtx s k f).zoneBytes = s.zoneBytes := rfl
@[simp] theorem setCtx_rowCopies (s : State) (k : Nat) (f : Context → Context) : (setCtx s k f).rowCopies = s.rowCopies := rfl
@[simp] theorem setCtx_sparesBy (s : State) (k : Nat) (f : Context → Context) : (setCtx s k f).sparesBy = s.sparesBy := rfl
@[simp] theorem setCtx_rowErrors (s : State) (k : Nat) (f : Context → Context) : (setCtx s k f).rowErrors = s.rowErrors := rfl
@[simp] theorem setCtx_wall (s : State) (k : Nat) (f : Context → Context) : (setCtx s k f).wall = s.wall := rfl
@[simp] theorem setCtx_cycles (s : State) (k : Nat) (f : Context → Context) : (setCtx s k f).cycles = s.cycles := rfl
@[simp] theorem setCtx_paired (s : State) (k : Nat) (f : Context → Context) : (setCtx s k f).paired = s.paired := rfl
@[simp] theorem setCtx_apTurn (s : State) (k : Nat) (f : Context → Context) : (setCtx s k f).apTurn = s.apTurn := rfl
@[simp] theorem setCtx_xlepoch (s : State) (k : Nat) (f : Context → Context) : (setCtx s k f).xlepoch = s.xlepoch := rfl
@[simp] theorem setCtx_xlquiet (s : State) (k : Nat) (f : Context → Context) : (setCtx s k f).xlquiet = s.xlquiet := rfl
@[simp] theorem setCtx_quarantine (s : State) (k : Nat) (f : Context → Context) : (setCtx s k f).quarantine = s.quarantine := rfl
@[simp] theorem setCtx_fused (s : State) (k : Nat) (f : Context → Context) : (setCtx s k f).fused = s.fused := rfl
@[simp] theorem setCtx_powerLimit (s : State) (k : Nat) (f : Context → Context) : (setCtx s k f).powerLimit = s.powerLimit := rfl
@[simp] theorem setCtx_pkg (s : State) (k : Nat) (f : Context → Context) : (setCtx s k f).pkg = s.pkg := rfl
@[simp] theorem setCtx_packages (s : State) (k : Nat) (f : Context → Context) : (setCtx s k f).packages = s.packages := rfl
@[simp] theorem setCtx_portsDown (s : State) (k : Nat) (f : Context → Context) : (setCtx s k f).portsDown = s.portsDown := rfl
@[simp] theorem setCtx_lost (s : State) (k : Nat) (f : Context → Context) : (setCtx s k f).lost = s.lost := rfl
@[simp] theorem setCtx_degraded (s : State) (k : Nat) (f : Context → Context) : (setCtx s k f).degraded = s.degraded := rfl
@[simp] theorem setCtx_degradedAt (s : State) (k : Nat) (f : Context → Context) : (setCtx s k f).degradedAt = s.degradedAt := rfl
@[simp] theorem setCtx_ageCount (s : State) (k : Nat) (f : Context → Context) : (setCtx s k f).ageCount = s.ageCount := rfl
@[simp] theorem setCtx_search (s : State) (k : Nat) (f : Context → Context) : (setCtx s k f).search = s.search := rfl
@[simp] theorem setCtx_fresh (s : State) (k : Nat) (f : Context → Context) : (setCtx s k f).fresh = s.fresh := rfl
@[simp] theorem setCtx_agenda (s : State) (k : Nat) (f : Context → Context) : (setCtx s k f).agenda = s.agenda := rfl
@[simp] theorem setCtx_tick (s : State) (k : Nat) (f : Context → Context) : (setCtx s k f).tick = s.tick := rfl
@[simp] theorem setCtx_hostRead (s : State) (k : Nat) (f : Context → Context) : (setCtx s k f).hostRead = s.hostRead := rfl
@[simp] theorem setCtx_hostPoison (s : State) (k : Nat) (f : Context → Context) : (setCtx s k f).hostPoison = s.hostPoison := rfl
@[simp] theorem setCtx_stuck (s : State) (k : Nat) (f : Context → Context) : (setCtx s k f).stuck = s.stuck := rfl

/-! ### `setFn` -/

@[simp] theorem setFn_me (s : State) (k : Nat) (f : Fn → Fn) : (setFn s k f).me = s.me := rfl
@[simp] theorem setFn_iss (s : State) (k : Nat) (f : Fn → Fn) : (setFn s k f).iss = s.iss := rfl
@[simp] theorem setFn_word (s : State) (k : Nat) (f : Fn → Fn) : (setFn s k f).word = s.word := rfl
@[simp] theorem setFn_waves (s : State) (k : Nat) (f : Fn → Fn) : (setFn s k f).waves = s.waves := rfl
@[simp] theorem setFn_aps (s : State) (k : Nat) (f : Fn → Fn) : (setFn s k f).aps = s.aps := rfl
@[simp] theorem setFn_frags (s : State) (k : Nat) (f : Fn → Fn) : (setFn s k f).frags = s.frags := rfl
@[simp] theorem setFn_groups (s : State) (k : Nat) (f : Fn → Fn) : (setFn s k f).groups = s.groups := rfl
@[simp] theorem setFn_launches (s : State) (k : Nat) (f : Fn → Fn) : (setFn s k f).launches = s.launches := rfl
@[simp] theorem setFn_queues (s : State) (k : Nat) (f : Fn → Fn) : (setFn s k f).queues = s.queues := rfl
@[simp] theorem setFn_ctxs (s : State) (k : Nat) (f : Fn → Fn) : (setFn s k f).ctxs = s.ctxs := rfl
@[simp] theorem setFn_dikes (s : State) (k : Nat) (f : Fn → Fn) : (setFn s k f).dikes = s.dikes := rfl
@[simp] theorem setFn_copies (s : State) (k : Nat) (f : Fn → Fn) : (setFn s k f).copies = s.copies := rfl
@[simp] theorem setFn_tasks (s : State) (k : Nat) (f : Fn → Fn) : (setFn s k f).tasks = s.tasks := rfl
@[simp] theorem setFn_tileRot (s : State) (k : Nat) (f : Fn → Fn) : (setFn s k f).tileRot = s.tileRot := rfl
@[simp] theorem setFn_acc (s : State) (k : Nat) (f : Fn → Fn) : (setFn s k f).acc = s.acc := rfl
@[simp] theorem setFn_bins (s : State) (k : Nat) (f : Fn → Fn) : (setFn s k f).bins = s.bins := rfl
@[simp] theorem setFn_pushes (s : State) (k : Nat) (f : Fn → Fn) : (setFn s k f).pushes = s.pushes := rfl
@[simp] theorem setFn_scans (s : State) (k : Nat) (f : Fn → Fn) : (setFn s k f).scans = s.scans := rfl
@[simp] theorem setFn_detoks (s : State) (k : Nat) (f : Fn → Fn) : (setFn s k f).detoks = s.detoks := rfl
@[simp] theorem setFn_reds (s : State) (k : Nat) (f : Fn → Fn) : (setFn s k f).reds = s.reds := rfl
@[simp] theorem setFn_remotes (s : State) (k : Nat) (f : Fn → Fn) : (setFn s k f).remotes = s.remotes := rfl
@[simp] theorem setFn_batches (s : State) (k : Nat) (f : Fn → Fn) : (setFn s k f).batches = s.batches := rfl
@[simp] theorem setFn_fns (s : State) (k : Nat) (f : Fn → Fn) : (setFn s k f).fns = Table.put s.fns k {} (f (fnOf s k)) := rfl
@[simp] theorem setFn_adm (s : State) (k : Nat) (f : Fn → Fn) : (setFn s k f).adm = s.adm := rfl
@[simp] theorem setFn_dies (s : State) (k : Nat) (f : Fn → Fn) : (setFn s k f).dies = s.dies := rfl
@[simp] theorem setFn_hbmStacks (s : State) (k : Nat) (f : Fn → Fn) : (setFn s k f).hbmStacks = s.hbmStacks := rfl
@[simp] theorem setFn_mem (s : State) (k : Nat) (f : Fn → Fn) : (setFn s k f).mem = s.mem := rfl
@[simp] theorem setFn_dirty (s : State) (k : Nat) (f : Fn → Fn) : (setFn s k f).dirty = s.dirty := rfl
@[simp] theorem setFn_poison (s : State) (k : Nat) (f : Fn → Fn) : (setFn s k f).poison = s.poison := rfl
@[simp] theorem setFn_zoneData (s : State) (k : Nat) (f : Fn → Fn) : (setFn s k f).zoneData = s.zoneData := rfl
@[simp] theorem setFn_zoneSlots (s : State) (k : Nat) (f : Fn → Fn) : (setFn s k f).zoneSlots = s.zoneSlots := rfl
@[simp] theorem setFn_zonePoison (s : State) (k : Nat) (f : Fn → Fn) : (setFn s k f).zonePoison = s.zonePoison := rfl
@[simp] theorem setFn_zoneStart (s : State) (k : Nat) (f : Fn → Fn) : (setFn s k f).zoneStart = s.zoneStart := rfl
@[simp] theorem setFn_zoneBytes (s : State) (k : Nat) (f : Fn → Fn) : (setFn s k f).zoneBytes = s.zoneBytes := rfl
@[simp] theorem setFn_rowCopies (s : State) (k : Nat) (f : Fn → Fn) : (setFn s k f).rowCopies = s.rowCopies := rfl
@[simp] theorem setFn_sparesBy (s : State) (k : Nat) (f : Fn → Fn) : (setFn s k f).sparesBy = s.sparesBy := rfl
@[simp] theorem setFn_rowErrors (s : State) (k : Nat) (f : Fn → Fn) : (setFn s k f).rowErrors = s.rowErrors := rfl
@[simp] theorem setFn_wall (s : State) (k : Nat) (f : Fn → Fn) : (setFn s k f).wall = s.wall := rfl
@[simp] theorem setFn_cycles (s : State) (k : Nat) (f : Fn → Fn) : (setFn s k f).cycles = s.cycles := rfl
@[simp] theorem setFn_paired (s : State) (k : Nat) (f : Fn → Fn) : (setFn s k f).paired = s.paired := rfl
@[simp] theorem setFn_apTurn (s : State) (k : Nat) (f : Fn → Fn) : (setFn s k f).apTurn = s.apTurn := rfl
@[simp] theorem setFn_xlepoch (s : State) (k : Nat) (f : Fn → Fn) : (setFn s k f).xlepoch = s.xlepoch := rfl
@[simp] theorem setFn_xlquiet (s : State) (k : Nat) (f : Fn → Fn) : (setFn s k f).xlquiet = s.xlquiet := rfl
@[simp] theorem setFn_quarantine (s : State) (k : Nat) (f : Fn → Fn) : (setFn s k f).quarantine = s.quarantine := rfl
@[simp] theorem setFn_fused (s : State) (k : Nat) (f : Fn → Fn) : (setFn s k f).fused = s.fused := rfl
@[simp] theorem setFn_powerLimit (s : State) (k : Nat) (f : Fn → Fn) : (setFn s k f).powerLimit = s.powerLimit := rfl
@[simp] theorem setFn_pkg (s : State) (k : Nat) (f : Fn → Fn) : (setFn s k f).pkg = s.pkg := rfl
@[simp] theorem setFn_packages (s : State) (k : Nat) (f : Fn → Fn) : (setFn s k f).packages = s.packages := rfl
@[simp] theorem setFn_portsDown (s : State) (k : Nat) (f : Fn → Fn) : (setFn s k f).portsDown = s.portsDown := rfl
@[simp] theorem setFn_lost (s : State) (k : Nat) (f : Fn → Fn) : (setFn s k f).lost = s.lost := rfl
@[simp] theorem setFn_degraded (s : State) (k : Nat) (f : Fn → Fn) : (setFn s k f).degraded = s.degraded := rfl
@[simp] theorem setFn_degradedAt (s : State) (k : Nat) (f : Fn → Fn) : (setFn s k f).degradedAt = s.degradedAt := rfl
@[simp] theorem setFn_ageCount (s : State) (k : Nat) (f : Fn → Fn) : (setFn s k f).ageCount = s.ageCount := rfl
@[simp] theorem setFn_search (s : State) (k : Nat) (f : Fn → Fn) : (setFn s k f).search = s.search := rfl
@[simp] theorem setFn_fresh (s : State) (k : Nat) (f : Fn → Fn) : (setFn s k f).fresh = s.fresh := rfl
@[simp] theorem setFn_agenda (s : State) (k : Nat) (f : Fn → Fn) : (setFn s k f).agenda = s.agenda := rfl
@[simp] theorem setFn_tick (s : State) (k : Nat) (f : Fn → Fn) : (setFn s k f).tick = s.tick := rfl
@[simp] theorem setFn_hostRead (s : State) (k : Nat) (f : Fn → Fn) : (setFn s k f).hostRead = s.hostRead := rfl
@[simp] theorem setFn_hostPoison (s : State) (k : Nat) (f : Fn → Fn) : (setFn s k f).hostPoison = s.hostPoison := rfl
@[simp] theorem setFn_stuck (s : State) (k : Nat) (f : Fn → Fn) : (setFn s k f).stuck = s.stuck := rfl

/-! ### `setFrag` -/

@[simp] theorem setFrag_me (s : State) (k : Nat) (f : Frag) : (setFrag s k f).me = s.me := rfl
@[simp] theorem setFrag_iss (s : State) (k : Nat) (f : Frag) : (setFrag s k f).iss = s.iss := rfl
@[simp] theorem setFrag_word (s : State) (k : Nat) (f : Frag) : (setFrag s k f).word = s.word := rfl
@[simp] theorem setFrag_waves (s : State) (k : Nat) (f : Frag) : (setFrag s k f).waves = s.waves := rfl
@[simp] theorem setFrag_aps (s : State) (k : Nat) (f : Frag) : (setFrag s k f).aps = s.aps := rfl
@[simp] theorem setFrag_frags (s : State) (k : Nat) (f : Frag) : (setFrag s k f).frags = Table.set s.frags k f := rfl
@[simp] theorem setFrag_groups (s : State) (k : Nat) (f : Frag) : (setFrag s k f).groups = s.groups := rfl
@[simp] theorem setFrag_launches (s : State) (k : Nat) (f : Frag) : (setFrag s k f).launches = s.launches := rfl
@[simp] theorem setFrag_queues (s : State) (k : Nat) (f : Frag) : (setFrag s k f).queues = s.queues := rfl
@[simp] theorem setFrag_ctxs (s : State) (k : Nat) (f : Frag) : (setFrag s k f).ctxs = s.ctxs := rfl
@[simp] theorem setFrag_dikes (s : State) (k : Nat) (f : Frag) : (setFrag s k f).dikes = s.dikes := rfl
@[simp] theorem setFrag_copies (s : State) (k : Nat) (f : Frag) : (setFrag s k f).copies = s.copies := rfl
@[simp] theorem setFrag_tasks (s : State) (k : Nat) (f : Frag) : (setFrag s k f).tasks = s.tasks := rfl
@[simp] theorem setFrag_tileRot (s : State) (k : Nat) (f : Frag) : (setFrag s k f).tileRot = s.tileRot := rfl
@[simp] theorem setFrag_acc (s : State) (k : Nat) (f : Frag) : (setFrag s k f).acc = s.acc := rfl
@[simp] theorem setFrag_bins (s : State) (k : Nat) (f : Frag) : (setFrag s k f).bins = s.bins := rfl
@[simp] theorem setFrag_pushes (s : State) (k : Nat) (f : Frag) : (setFrag s k f).pushes = s.pushes := rfl
@[simp] theorem setFrag_scans (s : State) (k : Nat) (f : Frag) : (setFrag s k f).scans = s.scans := rfl
@[simp] theorem setFrag_detoks (s : State) (k : Nat) (f : Frag) : (setFrag s k f).detoks = s.detoks := rfl
@[simp] theorem setFrag_reds (s : State) (k : Nat) (f : Frag) : (setFrag s k f).reds = s.reds := rfl
@[simp] theorem setFrag_remotes (s : State) (k : Nat) (f : Frag) : (setFrag s k f).remotes = s.remotes := rfl
@[simp] theorem setFrag_batches (s : State) (k : Nat) (f : Frag) : (setFrag s k f).batches = s.batches := rfl
@[simp] theorem setFrag_fns (s : State) (k : Nat) (f : Frag) : (setFrag s k f).fns = s.fns := rfl
@[simp] theorem setFrag_adm (s : State) (k : Nat) (f : Frag) : (setFrag s k f).adm = s.adm := rfl
@[simp] theorem setFrag_dies (s : State) (k : Nat) (f : Frag) : (setFrag s k f).dies = s.dies := rfl
@[simp] theorem setFrag_hbmStacks (s : State) (k : Nat) (f : Frag) : (setFrag s k f).hbmStacks = s.hbmStacks := rfl
@[simp] theorem setFrag_mem (s : State) (k : Nat) (f : Frag) : (setFrag s k f).mem = s.mem := rfl
@[simp] theorem setFrag_dirty (s : State) (k : Nat) (f : Frag) : (setFrag s k f).dirty = s.dirty := rfl
@[simp] theorem setFrag_poison (s : State) (k : Nat) (f : Frag) : (setFrag s k f).poison = s.poison := rfl
@[simp] theorem setFrag_zoneData (s : State) (k : Nat) (f : Frag) : (setFrag s k f).zoneData = s.zoneData := rfl
@[simp] theorem setFrag_zoneSlots (s : State) (k : Nat) (f : Frag) : (setFrag s k f).zoneSlots = s.zoneSlots := rfl
@[simp] theorem setFrag_zonePoison (s : State) (k : Nat) (f : Frag) : (setFrag s k f).zonePoison = s.zonePoison := rfl
@[simp] theorem setFrag_zoneStart (s : State) (k : Nat) (f : Frag) : (setFrag s k f).zoneStart = s.zoneStart := rfl
@[simp] theorem setFrag_zoneBytes (s : State) (k : Nat) (f : Frag) : (setFrag s k f).zoneBytes = s.zoneBytes := rfl
@[simp] theorem setFrag_rowCopies (s : State) (k : Nat) (f : Frag) : (setFrag s k f).rowCopies = s.rowCopies := rfl
@[simp] theorem setFrag_sparesBy (s : State) (k : Nat) (f : Frag) : (setFrag s k f).sparesBy = s.sparesBy := rfl
@[simp] theorem setFrag_rowErrors (s : State) (k : Nat) (f : Frag) : (setFrag s k f).rowErrors = s.rowErrors := rfl
@[simp] theorem setFrag_wall (s : State) (k : Nat) (f : Frag) : (setFrag s k f).wall = s.wall := rfl
@[simp] theorem setFrag_cycles (s : State) (k : Nat) (f : Frag) : (setFrag s k f).cycles = s.cycles := rfl
@[simp] theorem setFrag_paired (s : State) (k : Nat) (f : Frag) : (setFrag s k f).paired = s.paired := rfl
@[simp] theorem setFrag_apTurn (s : State) (k : Nat) (f : Frag) : (setFrag s k f).apTurn = s.apTurn := rfl
@[simp] theorem setFrag_xlepoch (s : State) (k : Nat) (f : Frag) : (setFrag s k f).xlepoch = s.xlepoch := rfl
@[simp] theorem setFrag_xlquiet (s : State) (k : Nat) (f : Frag) : (setFrag s k f).xlquiet = s.xlquiet := rfl
@[simp] theorem setFrag_quarantine (s : State) (k : Nat) (f : Frag) : (setFrag s k f).quarantine = s.quarantine := rfl
@[simp] theorem setFrag_fused (s : State) (k : Nat) (f : Frag) : (setFrag s k f).fused = s.fused := rfl
@[simp] theorem setFrag_powerLimit (s : State) (k : Nat) (f : Frag) : (setFrag s k f).powerLimit = s.powerLimit := rfl
@[simp] theorem setFrag_pkg (s : State) (k : Nat) (f : Frag) : (setFrag s k f).pkg = s.pkg := rfl
@[simp] theorem setFrag_packages (s : State) (k : Nat) (f : Frag) : (setFrag s k f).packages = s.packages := rfl
@[simp] theorem setFrag_portsDown (s : State) (k : Nat) (f : Frag) : (setFrag s k f).portsDown = s.portsDown := rfl
@[simp] theorem setFrag_lost (s : State) (k : Nat) (f : Frag) : (setFrag s k f).lost = s.lost := rfl
@[simp] theorem setFrag_degraded (s : State) (k : Nat) (f : Frag) : (setFrag s k f).degraded = s.degraded := rfl
@[simp] theorem setFrag_degradedAt (s : State) (k : Nat) (f : Frag) : (setFrag s k f).degradedAt = s.degradedAt := rfl
@[simp] theorem setFrag_ageCount (s : State) (k : Nat) (f : Frag) : (setFrag s k f).ageCount = s.ageCount := rfl
@[simp] theorem setFrag_search (s : State) (k : Nat) (f : Frag) : (setFrag s k f).search = s.search := rfl
@[simp] theorem setFrag_fresh (s : State) (k : Nat) (f : Frag) : (setFrag s k f).fresh = s.fresh := rfl
@[simp] theorem setFrag_agenda (s : State) (k : Nat) (f : Frag) : (setFrag s k f).agenda = s.agenda := rfl
@[simp] theorem setFrag_tick (s : State) (k : Nat) (f : Frag) : (setFrag s k f).tick = s.tick := rfl
@[simp] theorem setFrag_hostRead (s : State) (k : Nat) (f : Frag) : (setFrag s k f).hostRead = s.hostRead := rfl
@[simp] theorem setFrag_hostPoison (s : State) (k : Nat) (f : Frag) : (setFrag s k f).hostPoison = s.hostPoison := rfl
@[simp] theorem setFrag_stuck (s : State) (k : Nat) (f : Frag) : (setFrag s k f).stuck = s.stuck := rfl

/-! ### `setDike` -/

@[simp] theorem setDike_me (s : State) (k : Nat) (f : Dike → Dike) : (setDike s k f).me = s.me := rfl
@[simp] theorem setDike_iss (s : State) (k : Nat) (f : Dike → Dike) : (setDike s k f).iss = s.iss := rfl
@[simp] theorem setDike_word (s : State) (k : Nat) (f : Dike → Dike) : (setDike s k f).word = s.word := rfl
@[simp] theorem setDike_waves (s : State) (k : Nat) (f : Dike → Dike) : (setDike s k f).waves = s.waves := rfl
@[simp] theorem setDike_aps (s : State) (k : Nat) (f : Dike → Dike) : (setDike s k f).aps = s.aps := rfl
@[simp] theorem setDike_frags (s : State) (k : Nat) (f : Dike → Dike) : (setDike s k f).frags = s.frags := rfl
@[simp] theorem setDike_groups (s : State) (k : Nat) (f : Dike → Dike) : (setDike s k f).groups = s.groups := rfl
@[simp] theorem setDike_launches (s : State) (k : Nat) (f : Dike → Dike) : (setDike s k f).launches = s.launches := rfl
@[simp] theorem setDike_queues (s : State) (k : Nat) (f : Dike → Dike) : (setDike s k f).queues = s.queues := rfl
@[simp] theorem setDike_ctxs (s : State) (k : Nat) (f : Dike → Dike) : (setDike s k f).ctxs = s.ctxs := rfl
@[simp] theorem setDike_dikes (s : State) (k : Nat) (f : Dike → Dike) : (setDike s k f).dikes = Table.modify s.dikes k f := rfl
@[simp] theorem setDike_copies (s : State) (k : Nat) (f : Dike → Dike) : (setDike s k f).copies = s.copies := rfl
@[simp] theorem setDike_tasks (s : State) (k : Nat) (f : Dike → Dike) : (setDike s k f).tasks = s.tasks := rfl
@[simp] theorem setDike_tileRot (s : State) (k : Nat) (f : Dike → Dike) : (setDike s k f).tileRot = s.tileRot := rfl
@[simp] theorem setDike_acc (s : State) (k : Nat) (f : Dike → Dike) : (setDike s k f).acc = s.acc := rfl
@[simp] theorem setDike_bins (s : State) (k : Nat) (f : Dike → Dike) : (setDike s k f).bins = s.bins := rfl
@[simp] theorem setDike_pushes (s : State) (k : Nat) (f : Dike → Dike) : (setDike s k f).pushes = s.pushes := rfl
@[simp] theorem setDike_scans (s : State) (k : Nat) (f : Dike → Dike) : (setDike s k f).scans = s.scans := rfl
@[simp] theorem setDike_detoks (s : State) (k : Nat) (f : Dike → Dike) : (setDike s k f).detoks = s.detoks := rfl
@[simp] theorem setDike_reds (s : State) (k : Nat) (f : Dike → Dike) : (setDike s k f).reds = s.reds := rfl
@[simp] theorem setDike_remotes (s : State) (k : Nat) (f : Dike → Dike) : (setDike s k f).remotes = s.remotes := rfl
@[simp] theorem setDike_batches (s : State) (k : Nat) (f : Dike → Dike) : (setDike s k f).batches = s.batches := rfl
@[simp] theorem setDike_fns (s : State) (k : Nat) (f : Dike → Dike) : (setDike s k f).fns = s.fns := rfl
@[simp] theorem setDike_adm (s : State) (k : Nat) (f : Dike → Dike) : (setDike s k f).adm = s.adm := rfl
@[simp] theorem setDike_dies (s : State) (k : Nat) (f : Dike → Dike) : (setDike s k f).dies = s.dies := rfl
@[simp] theorem setDike_hbmStacks (s : State) (k : Nat) (f : Dike → Dike) : (setDike s k f).hbmStacks = s.hbmStacks := rfl
@[simp] theorem setDike_mem (s : State) (k : Nat) (f : Dike → Dike) : (setDike s k f).mem = s.mem := rfl
@[simp] theorem setDike_dirty (s : State) (k : Nat) (f : Dike → Dike) : (setDike s k f).dirty = s.dirty := rfl
@[simp] theorem setDike_poison (s : State) (k : Nat) (f : Dike → Dike) : (setDike s k f).poison = s.poison := rfl
@[simp] theorem setDike_zoneData (s : State) (k : Nat) (f : Dike → Dike) : (setDike s k f).zoneData = s.zoneData := rfl
@[simp] theorem setDike_zoneSlots (s : State) (k : Nat) (f : Dike → Dike) : (setDike s k f).zoneSlots = s.zoneSlots := rfl
@[simp] theorem setDike_zonePoison (s : State) (k : Nat) (f : Dike → Dike) : (setDike s k f).zonePoison = s.zonePoison := rfl
@[simp] theorem setDike_zoneStart (s : State) (k : Nat) (f : Dike → Dike) : (setDike s k f).zoneStart = s.zoneStart := rfl
@[simp] theorem setDike_zoneBytes (s : State) (k : Nat) (f : Dike → Dike) : (setDike s k f).zoneBytes = s.zoneBytes := rfl
@[simp] theorem setDike_rowCopies (s : State) (k : Nat) (f : Dike → Dike) : (setDike s k f).rowCopies = s.rowCopies := rfl
@[simp] theorem setDike_sparesBy (s : State) (k : Nat) (f : Dike → Dike) : (setDike s k f).sparesBy = s.sparesBy := rfl
@[simp] theorem setDike_rowErrors (s : State) (k : Nat) (f : Dike → Dike) : (setDike s k f).rowErrors = s.rowErrors := rfl
@[simp] theorem setDike_wall (s : State) (k : Nat) (f : Dike → Dike) : (setDike s k f).wall = s.wall := rfl
@[simp] theorem setDike_cycles (s : State) (k : Nat) (f : Dike → Dike) : (setDike s k f).cycles = s.cycles := rfl
@[simp] theorem setDike_paired (s : State) (k : Nat) (f : Dike → Dike) : (setDike s k f).paired = s.paired := rfl
@[simp] theorem setDike_apTurn (s : State) (k : Nat) (f : Dike → Dike) : (setDike s k f).apTurn = s.apTurn := rfl
@[simp] theorem setDike_xlepoch (s : State) (k : Nat) (f : Dike → Dike) : (setDike s k f).xlepoch = s.xlepoch := rfl
@[simp] theorem setDike_xlquiet (s : State) (k : Nat) (f : Dike → Dike) : (setDike s k f).xlquiet = s.xlquiet := rfl
@[simp] theorem setDike_quarantine (s : State) (k : Nat) (f : Dike → Dike) : (setDike s k f).quarantine = s.quarantine := rfl
@[simp] theorem setDike_fused (s : State) (k : Nat) (f : Dike → Dike) : (setDike s k f).fused = s.fused := rfl
@[simp] theorem setDike_powerLimit (s : State) (k : Nat) (f : Dike → Dike) : (setDike s k f).powerLimit = s.powerLimit := rfl
@[simp] theorem setDike_pkg (s : State) (k : Nat) (f : Dike → Dike) : (setDike s k f).pkg = s.pkg := rfl
@[simp] theorem setDike_packages (s : State) (k : Nat) (f : Dike → Dike) : (setDike s k f).packages = s.packages := rfl
@[simp] theorem setDike_portsDown (s : State) (k : Nat) (f : Dike → Dike) : (setDike s k f).portsDown = s.portsDown := rfl
@[simp] theorem setDike_lost (s : State) (k : Nat) (f : Dike → Dike) : (setDike s k f).lost = s.lost := rfl
@[simp] theorem setDike_degraded (s : State) (k : Nat) (f : Dike → Dike) : (setDike s k f).degraded = s.degraded := rfl
@[simp] theorem setDike_degradedAt (s : State) (k : Nat) (f : Dike → Dike) : (setDike s k f).degradedAt = s.degradedAt := rfl
@[simp] theorem setDike_ageCount (s : State) (k : Nat) (f : Dike → Dike) : (setDike s k f).ageCount = s.ageCount := rfl
@[simp] theorem setDike_search (s : State) (k : Nat) (f : Dike → Dike) : (setDike s k f).search = s.search := rfl
@[simp] theorem setDike_fresh (s : State) (k : Nat) (f : Dike → Dike) : (setDike s k f).fresh = s.fresh := rfl
@[simp] theorem setDike_agenda (s : State) (k : Nat) (f : Dike → Dike) : (setDike s k f).agenda = s.agenda := rfl
@[simp] theorem setDike_tick (s : State) (k : Nat) (f : Dike → Dike) : (setDike s k f).tick = s.tick := rfl
@[simp] theorem setDike_hostRead (s : State) (k : Nat) (f : Dike → Dike) : (setDike s k f).hostRead = s.hostRead := rfl
@[simp] theorem setDike_hostPoison (s : State) (k : Nat) (f : Dike → Dike) : (setDike s k f).hostPoison = s.hostPoison := rfl
@[simp] theorem setDike_stuck (s : State) (k : Nat) (f : Dike → Dike) : (setDike s k f).stuck = s.stuck := rfl

/-! ### `setQueueOf` -/

@[simp] theorem setQueueOf_me (s : State) (k : Nat) (f : Queue → Queue) : (setQueueOf s k f).me = s.me := rfl
@[simp] theorem setQueueOf_iss (s : State) (k : Nat) (f : Queue → Queue) : (setQueueOf s k f).iss = s.iss := rfl
@[simp] theorem setQueueOf_word (s : State) (k : Nat) (f : Queue → Queue) : (setQueueOf s k f).word = s.word := rfl
@[simp] theorem setQueueOf_waves (s : State) (k : Nat) (f : Queue → Queue) : (setQueueOf s k f).waves = s.waves := rfl
@[simp] theorem setQueueOf_aps (s : State) (k : Nat) (f : Queue → Queue) : (setQueueOf s k f).aps = s.aps := rfl
@[simp] theorem setQueueOf_frags (s : State) (k : Nat) (f : Queue → Queue) : (setQueueOf s k f).frags = s.frags := rfl
@[simp] theorem setQueueOf_groups (s : State) (k : Nat) (f : Queue → Queue) : (setQueueOf s k f).groups = s.groups := rfl
@[simp] theorem setQueueOf_launches (s : State) (k : Nat) (f : Queue → Queue) : (setQueueOf s k f).launches = s.launches := rfl
@[simp] theorem setQueueOf_queues (s : State) (k : Nat) (f : Queue → Queue) : (setQueueOf s k f).queues = Table.modify s.queues k f := rfl
@[simp] theorem setQueueOf_ctxs (s : State) (k : Nat) (f : Queue → Queue) : (setQueueOf s k f).ctxs = s.ctxs := rfl
@[simp] theorem setQueueOf_dikes (s : State) (k : Nat) (f : Queue → Queue) : (setQueueOf s k f).dikes = s.dikes := rfl
@[simp] theorem setQueueOf_copies (s : State) (k : Nat) (f : Queue → Queue) : (setQueueOf s k f).copies = s.copies := rfl
@[simp] theorem setQueueOf_tasks (s : State) (k : Nat) (f : Queue → Queue) : (setQueueOf s k f).tasks = s.tasks := rfl
@[simp] theorem setQueueOf_tileRot (s : State) (k : Nat) (f : Queue → Queue) : (setQueueOf s k f).tileRot = s.tileRot := rfl
@[simp] theorem setQueueOf_acc (s : State) (k : Nat) (f : Queue → Queue) : (setQueueOf s k f).acc = s.acc := rfl
@[simp] theorem setQueueOf_bins (s : State) (k : Nat) (f : Queue → Queue) : (setQueueOf s k f).bins = s.bins := rfl
@[simp] theorem setQueueOf_pushes (s : State) (k : Nat) (f : Queue → Queue) : (setQueueOf s k f).pushes = s.pushes := rfl
@[simp] theorem setQueueOf_scans (s : State) (k : Nat) (f : Queue → Queue) : (setQueueOf s k f).scans = s.scans := rfl
@[simp] theorem setQueueOf_detoks (s : State) (k : Nat) (f : Queue → Queue) : (setQueueOf s k f).detoks = s.detoks := rfl
@[simp] theorem setQueueOf_reds (s : State) (k : Nat) (f : Queue → Queue) : (setQueueOf s k f).reds = s.reds := rfl
@[simp] theorem setQueueOf_remotes (s : State) (k : Nat) (f : Queue → Queue) : (setQueueOf s k f).remotes = s.remotes := rfl
@[simp] theorem setQueueOf_batches (s : State) (k : Nat) (f : Queue → Queue) : (setQueueOf s k f).batches = s.batches := rfl
@[simp] theorem setQueueOf_fns (s : State) (k : Nat) (f : Queue → Queue) : (setQueueOf s k f).fns = s.fns := rfl
@[simp] theorem setQueueOf_adm (s : State) (k : Nat) (f : Queue → Queue) : (setQueueOf s k f).adm = s.adm := rfl
@[simp] theorem setQueueOf_dies (s : State) (k : Nat) (f : Queue → Queue) : (setQueueOf s k f).dies = s.dies := rfl
@[simp] theorem setQueueOf_hbmStacks (s : State) (k : Nat) (f : Queue → Queue) : (setQueueOf s k f).hbmStacks = s.hbmStacks := rfl
@[simp] theorem setQueueOf_mem (s : State) (k : Nat) (f : Queue → Queue) : (setQueueOf s k f).mem = s.mem := rfl
@[simp] theorem setQueueOf_dirty (s : State) (k : Nat) (f : Queue → Queue) : (setQueueOf s k f).dirty = s.dirty := rfl
@[simp] theorem setQueueOf_poison (s : State) (k : Nat) (f : Queue → Queue) : (setQueueOf s k f).poison = s.poison := rfl
@[simp] theorem setQueueOf_zoneData (s : State) (k : Nat) (f : Queue → Queue) : (setQueueOf s k f).zoneData = s.zoneData := rfl
@[simp] theorem setQueueOf_zoneSlots (s : State) (k : Nat) (f : Queue → Queue) : (setQueueOf s k f).zoneSlots = s.zoneSlots := rfl
@[simp] theorem setQueueOf_zonePoison (s : State) (k : Nat) (f : Queue → Queue) : (setQueueOf s k f).zonePoison = s.zonePoison := rfl
@[simp] theorem setQueueOf_zoneStart (s : State) (k : Nat) (f : Queue → Queue) : (setQueueOf s k f).zoneStart = s.zoneStart := rfl
@[simp] theorem setQueueOf_zoneBytes (s : State) (k : Nat) (f : Queue → Queue) : (setQueueOf s k f).zoneBytes = s.zoneBytes := rfl
@[simp] theorem setQueueOf_rowCopies (s : State) (k : Nat) (f : Queue → Queue) : (setQueueOf s k f).rowCopies = s.rowCopies := rfl
@[simp] theorem setQueueOf_sparesBy (s : State) (k : Nat) (f : Queue → Queue) : (setQueueOf s k f).sparesBy = s.sparesBy := rfl
@[simp] theorem setQueueOf_rowErrors (s : State) (k : Nat) (f : Queue → Queue) : (setQueueOf s k f).rowErrors = s.rowErrors := rfl
@[simp] theorem setQueueOf_wall (s : State) (k : Nat) (f : Queue → Queue) : (setQueueOf s k f).wall = s.wall := rfl
@[simp] theorem setQueueOf_cycles (s : State) (k : Nat) (f : Queue → Queue) : (setQueueOf s k f).cycles = s.cycles := rfl
@[simp] theorem setQueueOf_paired (s : State) (k : Nat) (f : Queue → Queue) : (setQueueOf s k f).paired = s.paired := rfl
@[simp] theorem setQueueOf_apTurn (s : State) (k : Nat) (f : Queue → Queue) : (setQueueOf s k f).apTurn = s.apTurn := rfl
@[simp] theorem setQueueOf_xlepoch (s : State) (k : Nat) (f : Queue → Queue) : (setQueueOf s k f).xlepoch = s.xlepoch := rfl
@[simp] theorem setQueueOf_xlquiet (s : State) (k : Nat) (f : Queue → Queue) : (setQueueOf s k f).xlquiet = s.xlquiet := rfl
@[simp] theorem setQueueOf_quarantine (s : State) (k : Nat) (f : Queue → Queue) : (setQueueOf s k f).quarantine = s.quarantine := rfl
@[simp] theorem setQueueOf_fused (s : State) (k : Nat) (f : Queue → Queue) : (setQueueOf s k f).fused = s.fused := rfl
@[simp] theorem setQueueOf_powerLimit (s : State) (k : Nat) (f : Queue → Queue) : (setQueueOf s k f).powerLimit = s.powerLimit := rfl
@[simp] theorem setQueueOf_pkg (s : State) (k : Nat) (f : Queue → Queue) : (setQueueOf s k f).pkg = s.pkg := rfl
@[simp] theorem setQueueOf_packages (s : State) (k : Nat) (f : Queue → Queue) : (setQueueOf s k f).packages = s.packages := rfl
@[simp] theorem setQueueOf_portsDown (s : State) (k : Nat) (f : Queue → Queue) : (setQueueOf s k f).portsDown = s.portsDown := rfl
@[simp] theorem setQueueOf_lost (s : State) (k : Nat) (f : Queue → Queue) : (setQueueOf s k f).lost = s.lost := rfl
@[simp] theorem setQueueOf_degraded (s : State) (k : Nat) (f : Queue → Queue) : (setQueueOf s k f).degraded = s.degraded := rfl
@[simp] theorem setQueueOf_degradedAt (s : State) (k : Nat) (f : Queue → Queue) : (setQueueOf s k f).degradedAt = s.degradedAt := rfl
@[simp] theorem setQueueOf_ageCount (s : State) (k : Nat) (f : Queue → Queue) : (setQueueOf s k f).ageCount = s.ageCount := rfl
@[simp] theorem setQueueOf_search (s : State) (k : Nat) (f : Queue → Queue) : (setQueueOf s k f).search = s.search := rfl
@[simp] theorem setQueueOf_fresh (s : State) (k : Nat) (f : Queue → Queue) : (setQueueOf s k f).fresh = s.fresh := rfl
@[simp] theorem setQueueOf_agenda (s : State) (k : Nat) (f : Queue → Queue) : (setQueueOf s k f).agenda = s.agenda := rfl
@[simp] theorem setQueueOf_tick (s : State) (k : Nat) (f : Queue → Queue) : (setQueueOf s k f).tick = s.tick := rfl
@[simp] theorem setQueueOf_hostRead (s : State) (k : Nat) (f : Queue → Queue) : (setQueueOf s k f).hostRead = s.hostRead := rfl
@[simp] theorem setQueueOf_hostPoison (s : State) (k : Nat) (f : Queue → Queue) : (setQueueOf s k f).hostPoison = s.hostPoison := rfl
@[simp] theorem setQueueOf_stuck (s : State) (k : Nat) (f : Queue → Queue) : (setQueueOf s k f).stuck = s.stuck := rfl

/-! ### `mapLanes` -/

@[simp] theorem mapLanes_present (w : Wave) (m : LaneMask) (f : Fin 32 → Lane → Lane) : (mapLanes w m f).present = w.present := by unfold mapLanes; rfl
@[simp] theorem mapLanes_key (w : Wave) (m : LaneMask) (f : Fin 32 → Lane → Lane) : (mapLanes w m f).key = w.key := by unfold mapLanes; rfl
@[simp] theorem mapLanes_ctx (w : Wave) (m : LaneMask) (f : Fin 32 → Lane → Lane) : (mapLanes w m f).ctx = w.ctx := by unfold mapLanes; rfl
@[simp] theorem mapLanes_core (w : Wave) (m : LaneMask) (f : Fin 32 → Lane → Lane) : (mapLanes w m f).core = w.core := by unfold mapLanes; rfl
@[simp] theorem mapLanes_slot (w : Wave) (m : LaneMask) (f : Fin 32 → Lane → Lane) : (mapLanes w m f).slot = w.slot := by unfold mapLanes; rfl
@[simp] theorem mapLanes_group (w : Wave) (m : LaneMask) (f : Fin 32 → Lane → Lane) : (mapLanes w m f).group = w.group := by unfold mapLanes; rfl
@[simp] theorem mapLanes_index (w : Wave) (m : LaneMask) (f : Fin 32 → Lane → Lane) : (mapLanes w m f).index = w.index := by unfold mapLanes; rfl
@[simp] theorem mapLanes_ap (w : Wave) (m : LaneMask) (f : Fin 32 → Lane → Lane) : (mapLanes w m f).ap = w.ap := by unfold mapLanes; rfl
@[simp] theorem mapLanes_v (w : Wave) (m : LaneMask) (f : Fin 32 → Lane → Lane) : (mapLanes w m f).v = w.v := by unfold mapLanes; rfl
@[simp] theorem mapLanes_vpoison (w : Wave) (m : LaneMask) (f : Fin 32 → Lane → Lane) : (mapLanes w m f).vpoison = w.vpoison := by unfold mapLanes; rfl
@[simp] theorem mapLanes_s (w : Wave) (m : LaneMask) (f : Fin 32 → Lane → Lane) : (mapLanes w m f).s = w.s := by unfold mapLanes; rfl
@[simp] theorem mapLanes_spoison (w : Wave) (m : LaneMask) (f : Fin 32 → Lane → Lane) : (mapLanes w m f).spoison = w.spoison := by unfold mapLanes; rfl
@[simp] theorem mapLanes_k (w : Wave) (m : LaneMask) (f : Fin 32 → Lane → Lane) : (mapLanes w m f).k = w.k := by unfold mapLanes; rfl
@[simp] theorem mapLanes_guards (w : Wave) (m : LaneMask) (f : Fin 32 → Lane → Lane) : (mapLanes w m f).guards = w.guards := by unfold mapLanes; rfl
@[simp] theorem mapLanes_causes (w : Wave) (m : LaneMask) (f : Fin 32 → Lane → Lane) : (mapLanes w m f).causes = w.causes := by unfold mapLanes; rfl
@[simp] theorem mapLanes_fpen (w : Wave) (m : LaneMask) (f : Fin 32 → Lane → Lane) : (mapLanes w m f).fpen = w.fpen := by unfold mapLanes; rfl
@[simp] theorem mapLanes_timer (w : Wave) (m : LaneMask) (f : Fin 32 → Lane → Lane) : (mapLanes w m f).timer = w.timer := by unfold mapLanes; rfl
@[simp] theorem mapLanes_run (w : Wave) (m : LaneMask) (f : Fin 32 → Lane → Lane) : (mapLanes w m f).run = w.run := by unfold mapLanes; rfl
@[simp] theorem mapLanes_prio (w : Wave) (m : LaneMask) (f : Fin 32 → Lane → Lane) : (mapLanes w m f).prio = w.prio := by unfold mapLanes; rfl
@[simp] theorem mapLanes_age (w : Wave) (m : LaneMask) (f : Fin 32 → Lane → Lane) : (mapLanes w m f).age = w.age := by unfold mapLanes; rfl
@[simp] theorem mapLanes_active (w : Wave) (m : LaneMask) (f : Fin 32 → Lane → Lane) : (mapLanes w m f).active = w.active := by unfold mapLanes; rfl
@[simp] theorem mapLanes_swappable (w : Wave) (m : LaneMask) (f : Fin 32 → Lane → Lane) : (mapLanes w m f).swappable = w.swappable := by unfold mapLanes; rfl
@[simp] theorem mapLanes_parked (w : Wave) (m : LaneMask) (f : Fin 32 → Lane → Lane) : (mapLanes w m f).parked = w.parked := by unfold mapLanes; rfl
@[simp] theorem mapLanes_readySince (w : Wave) (m : LaneMask) (f : Fin 32 → Lane → Lane) : (mapLanes w m f).readySince = w.readySince := by unfold mapLanes; rfl
@[simp] theorem mapLanes_lastIssue (w : Wave) (m : LaneMask) (f : Fin 32 → Lane → Lane) : (mapLanes w m f).lastIssue = w.lastIssue := by unfold mapLanes; rfl
@[simp] theorem mapLanes_turnLow (w : Wave) (m : LaneMask) (f : Fin 32 → Lane → Lane) : (mapLanes w m f).turnLow = w.turnLow := by unfold mapLanes; rfl
@[simp] theorem mapLanes_inBlock (w : Wave) (m : LaneMask) (f : Fin 32 → Lane → Lane) : (mapLanes w m f).inBlock = w.inBlock := by unfold mapLanes; rfl
@[simp] theorem mapLanes_away (w : Wave) (m : LaneMask) (f : Fin 32 → Lane → Lane) : (mapLanes w m f).away = w.away := by unfold mapLanes; rfl
@[simp] theorem mapLanes_full (w : Wave) (m : LaneMask) (f : Fin 32 → Lane → Lane) : (mapLanes w m f).full = w.full := by unfold mapLanes; rfl
@[simp] theorem mapLanes_bound (w : Wave) (m : LaneMask) (f : Fin 32 → Lane → Lane) : (mapLanes w m f).bound = w.bound := by unfold mapLanes; rfl
@[simp] theorem mapLanes_ended (w : Wave) (m : LaneMask) (f : Fin 32 → Lane → Lane) : (mapLanes w m f).ended = w.ended := by unfold mapLanes; rfl
@[simp] theorem mapLanes_rdvs (w : Wave) (m : LaneMask) (f : Fin 32 → Lane → Lane) : (mapLanes w m f).rdvs = w.rdvs := by unfold mapLanes; rfl
@[simp] theorem mapLanes_vfly (w : Wave) (m : LaneMask) (f : Fin 32 → Lane → Lane) : (mapLanes w m f).vfly = w.vfly := by unfold mapLanes; rfl
@[simp] theorem mapLanes_kfly (w : Wave) (m : LaneMask) (f : Fin 32 → Lane → Lane) : (mapLanes w m f).kfly = w.kfly := by unfold mapLanes; rfl

end Sys2Proof.Machine
end

