-- ==== Sys2Proof/Tests/Slice0.lean ====
section
/-! SUPPORT. Tests of the decoder by words written out from the spec's encodings, terms that the checks refuse, small tests of
single instructions with results from the spec, and a witness for the hypotheses of every statement. -/
set_option Elab.async false
open Sys2Proof Sys2Proof.Machine Sys2Proof.Claims
namespace Sys2Proof.Tests

/-! ### Small states -/

/-- A header of one word with its meeting two words on, a divergent one, and one with the refill bit (02 R30). -/
def hdr1 : Word64 := 0xD810000000000020
def hdrDiv : Word64 := 0xD810000000000021
def hdrRefill : Word64 := 0xD810000000000022

/-- A thread at the word behind the header at 0x100. -/
def lane1 : Lane := { life := .live, pc := 0x108, hdr := 0x100, hword := hdr1, code := [0] }

/-- A wave of 32 such threads. -/
def wave1 : Wave := { present := true, active := true, lanes := Vector.replicate 32 lane1 }

def kern1 : Kernel := { refill := true, usesAtomf := true, spBytes := 0x1000, items := 64, descReq := 64, viewReq := 64,
                        redBytes := 4096 }

def cfg1 : CtxRec := { heapLimit := 0x40000000, fqBase := 0x10000, saveBase := 0x1000000, saveBytes := 6553600,
                       poolBase := 0x2000000, poolQuota := 1048576, polderQuota := 65536, proxyBase := 0x3000000,
                       proxyBytes := 25165824, binCount := 16, timeoutUs := 64 }

/-- The wave issues for all its threads; headers stand at 0x100 and 0x110, and one with the refill bit at 0x120. -/
def s1 : State :=
  { me := wave1, iss := 0xFFFFFFFF,
    groups := [(0, { launch := some 0, kern := kern1, waves := [0] })],
    launches := [(0, { kern := kern1, placed := 1, items := 64, nextItem := 64, itemq := [(0, (List.range 32).map (32 + ·))] })],
    ctxs := [(0, { cfg := cfg1 })],
    mem := putBytes (putBytes (putBytes [] 0x100 hdr1.toNat 8) 0x110 hdr1.toNat 8) 0x120 hdrRefill.toNat 8 }

/-- The same with other threads in the wave, or with another context record. -/
def withLanes (f : Lane → Lane) : State := { s1 with me := { wave1 with lanes := Vector.replicate 32 (f lane1) } }
def withCtx (f : Context → Context) : State := { s1 with ctxs := [(0, f { cfg := cfg1 })] }

/-- An access processor context runs an address program. -/
def sAp : State :=
  { s1 with iss := 1, me := { present := true, ap := some {}, lanes := (Vector.replicate 32 {}).set 0 lane1 } }

theorem issuing1 : Issuing s1 := ⟨rfl, by decide, by decide +kernel, rfl, rfl⟩
theorem issuingAp : Issuing sAp := ⟨rfl, by decide, by decide +kernel, rfl, rfl⟩
theorem group1 : OneGroup s1 := by unfold OneGroup; decide +kernel

/-- Sources without a delivery queue and without poison can be read. -/
theorem sourced_of (s : State) (h : Head) (srcs : List (Operand × Nat)) (q : queuesIn srcs = [])
    (c : poisonLanes s srcs (active s h) = 0) : Sourced s h srcs := by
  refine ⟨?_, Or.inl q, ?_⟩
  · intro x hx; rw [q] at hx; cases hx
  · unfold taken; rw [q]; exact c


/-! ### Decoding: words written out from the encodings of the spec

The formats are those of 02 R37; the fields are written as the numbers of R40: v0 to v319 are 0 to 319, q0 to q3 are 320 to 323, %lane to
%frame are 324 to 335, %zero is 336, s0 to s127 are 384 to 511. -/

def fmtA (op D A B C m : Nat) : Word64 := BitVec.ofNat 64 (op * 2 ^ 52 + D * 2 ^ 38 + A * 2 ^ 29 + B * 2 ^ 20 + C * 2 ^ 11 + m)
def fmtI (op D A imm m : Nat) : Word64 := BitVec.ofNat 64 (op * 2 ^ 52 + D * 2 ^ 38 + A * 2 ^ 29 + imm * 2 ^ 5 + m)
def fmtW (op D imm : Nat) : Word64 := BitVec.ofNat 64 (op * 2 ^ 52 + D * 2 ^ 38 + imm * 2 ^ 6)
def fmtM (op D base index off m : Nat) : Word64 :=
  BitVec.ofNat 64 (op * 2 ^ 52 + D * 2 ^ 38 + base * 2 ^ 29 + index * 2 ^ 20 + off * 2 ^ 8 + m)
def fmtB (op kind cond off : Nat) : Word64 := BitVec.ofNat 64 (op * 2 ^ 52 + kind * 2 ^ 44 + cond * 2 ^ 32 + off)
def fmtS (op D A sr : Nat) : Word64 := BitVec.ofNat 64 (op * 2 ^ 52 + D * 2 ^ 38 + A * 2 ^ 29 + sr * 2 ^ 13)
/-- With the stop bit, the switch marker, and a guard by the clear bits of k5 (02 R34). -/
def withHead (w : Word64) : Word64 := w + BitVec.ofNat 64 (2 ^ 63 + 2 ^ 62 + 5 * 2 ^ 48 + 2 ^ 47)
def headed : Head := { stop := true, sw := true, k := 5, inv := true }

/-- 03 R66. -/
theorem test_words_control :
    decode 0 = some (.nop plain) ∧ decode (withHead 0) = some (.nop headed) ∧
    decode (fmtB 0x001 0 0 0xFFFFFFFE) = some (.bra plain 0xFFFFFFFE) ∧
    decode 0b0000000000100000001000000000001100000000000000000000000000000100 = some (.brc plain .any 3 4) ∧
    decode (withHead (fmtB 0x002 0 15 1)) = some (.brc headed .set 15 1) ∧
    decode (fmtB 0x002 1 0 1) = some (.brc plain .clear 0 1) ∧ decode (fmtB 0x002 3 7 1) = some (.brc plain .all 7 1) ∧
    decode (fmtB 0x003 0 318 0) = some (.brx plain .vec (.v 318) 0) ∧
    decode (fmtB 0x003 1 510 0) = some (.brx plain .scalar (.s 126) 0) ∧
    decode (fmtB 0x003 2 9 8) = some (.brx plain .rel (.v 9) 8) ∧ decode (fmtB 0x004 0 20 6) = some (.call plain (.v 20) 6) ∧
    decode (fmtA 0x005 0 20 0 0 0) = some (.ret plain (.v 20)) ∧ decode (fmtA 0x006 0 0 0 0 0) = some (.meetDrop plain) ∧
    decode (fmtA 0x006 0 0 0 0 1) = some (.meetPush plain) ∧ decode (fmtA 0x007 0 0 0 0 0) = some (.exit plain) ∧
    decode 0x00800000FFFFFFFA = some (.refill plain 0xFFFFFFFA) ∧ decode (fmtA 0x009 0 0 0 0 0) = some (.yield plain) ∧
    decode (fmtI 0x00A 0 0 0xFFFFFF 0) = some (.sleep plain 0xFFFFFF) ∧
    decode (fmtA 0x00B 0 0 0 0 (15 * 2 ^ 3)) = some (.bar plain .core 15 none) ∧
    decode (fmtA 0x00B 0 384 0 0 (2 * 2 ^ 3 + 1)) = some (.bar plain .quad 2 (some (.s 0))) ∧
    decode (fmtA 0x00C 0 511 0 0 (1 * 2 ^ 3 + 4)) = some (.barv plain .pod 1 (some (.s 127))) ∧
    decode (fmtA 0x00D 0 0 0 0 (9 * 2 ^ 3 + 3)) = some (.barw plain .pkg 9) ∧
    decode (fmtI 0x00E 0 0 3 0) = some (.wprio plain 3) ∧ decode (fmtB 0x3F0 0 0 12) = some (.tramp plain 12) ∧
    decode (fmtA 0x3F1 0 0 0 0 0) = some (.tret plain) := by decide +kernel
/-- 02 R49 to R51. -/
theorem test_words_tool :
    decode (0x3F7 * 2 ^ 52 + 0x7FFFFFFFFFFE) = some (.toolop plain 5 0x7FFFFFFFFFFE) ∧
    decode (0x3FF * 2 ^ 52 + 0xFFFFFFFFFFFFE) = some (.inop false false 7 0xFFFFFFFFFFFFE) ∧
    decode (2 ^ 63 + 0x3F8 * 2 ^ 52 + 1) = some (.inop true false 0 1) := by decide +kernel
/-- 07 R170 to R177. -/
theorem test_words_int :
    decode 0b0000010000000000000000100100000100011000010000000000000000000100 = some (.iadd plain .z32 true (.v 9) (.v 8) (.s 4)) ∧
    decode (withHead (fmtA 0x041 2 4 6 0 3)) = some (.isub headed .n64 false (.v 2) (.v 4) (.v 6)) ∧
    decode (fmtA 0x042 1 2 3 0 1) = some (.imul plain .n32 false (.v 1) (.v 2) (.v 3)) ∧
    decode (fmtA 0x043 2 4 6 0 2) = some (.imulh plain .z64 (.v 2) (.v 4) (.v 6)) ∧
    decode (fmtA 0x044 1 2 3 4 5) = some (.imad plain .n32 true (.v 1) (.v 2) (.v 3) (.v 4)) ∧
    decode (fmtA 0x045 1 2 324 0 0) = some (.imin plain .z32 (.v 1) (.v 2) (.special .lane)) ∧
    decode (fmtA 0x046 1 320 335 0 1) = some (.imax plain .n32 (.v 1) (.q 0) (.special .frame)) ∧
    decode (fmtA 0x047 1 2 0 0 4) = some (.iabs plain .w32 true (.v 1) (.v 2)) ∧
    decode (fmtA 0x048 2 4 0 0 2) = some (.ineg plain .w64 false (.v 2) (.v 4)) ∧
    decode (fmtA 0x049 1 2 3 4 6) = some (.idot4 plain false true true (.v 1) (.v 2) (.v 3) (.v 4)) ∧
    decode (fmtA 0x04A 1 2 3 0 0) = some (.and plain .w32 (.v 1) (.v 2) (.v 3)) ∧
    decode (fmtA 0x04B 2 4 6 0 2) = some (.or plain .w64 (.v 2) (.v 4) (.v 6)) ∧
    decode (fmtA 0x04C 1 2 3 0 0) = some (.xor plain .w32 (.v 1) (.v 2) (.v 3)) ∧
    decode (fmtA 0x04D 1 2 0 0 0) = some (.not plain .w32 (.v 1) (.v 2)) ∧
    decode (fmtA 0x04E 1 2 3 4 (0x96 * 2 ^ 3)) = some (.bool3 plain .w32 0x96 (.v 1) (.v 2) (.v 3) (.v 4)) ∧
    decode (fmtA 0x04F 2 4 7 0 2) = some (.shl plain .w64 (.v 2) (.v 4) (.v 7)) ∧
    decode (fmtA 0x050 1 2 3 0 0) = some (.shr plain .w32 (.v 1) (.v 2) (.v 3)) ∧
    decode (fmtA 0x051 1 2 3 0 0) = some (.sar plain .w32 (.v 1) (.v 2) (.v 3)) ∧
    decode (fmtA 0x052 1 2 3 0 0) = some (.rot plain .w32 (.v 1) (.v 2) (.v 3)) ∧
    decode (fmtA 0x053 2 4 7 0 3) = some (.bfx plain .n64 (.v 2) (.v 4) (.v 7)) ∧
    decode (fmtA 0x054 1 2 3 4 0) = some (.bfi plain .w32 (.v 1) (.v 2) (.v 3) (.v 4)) ∧
    decode (fmtA 0x055 1 2 0 0 2) = some (.popc plain .w64 (.v 1) (.v 2)) ∧
    decode (fmtA 0x056 1 2 0 0 0) = some (.clz plain .w32 (.v 1) (.v 2)) ∧
    decode (fmtA 0x057 1 2 0 0 0) = some (.brev plain .w32 (.v 1) (.v 2)) ∧
    decode (fmtA 0x058 15 2 3 0 (5 * 2 ^ 2 + 1)) = some (.icmp plain .n32 .ge 15 (.v 2) (.v 3)) := by decide +kernel
/-- 02 R46, 07 R177: the immediate forms. -/
theorem test_words_imm :
    decode (fmtI 0x060 9 8 0xFFFFFF 4) = some (.iaddImm plain .z32 true (.v 9) (.v 8) 0xFFFFFF) ∧
    decode (fmtI 0x061 386 388 5 1) = some (.isubImm plain .n32 false (.s 2) (.s 4) 5) ∧
    decode (fmtI 0x062 2 4 5 2) = some (.imulImm plain .z64 false (.v 2) (.v 4) 5) ∧
    decode (fmtI 0x065 1 2 5 0) = some (.iminImm plain .z32 (.v 1) (.v 2) 5) ∧
    decode (fmtI 0x066 1 2 5 1) = some (.imaxImm plain .n32 (.v 1) (.v 2) 5) ∧
    decode (fmtI 0x06A 1 2 0x800000 0) = some (.andImm plain .w32 (.v 1) (.v 2) 0x800000) ∧
    decode (fmtI 0x06B 1 2 5 0) = some (.orImm plain .w32 (.v 1) (.v 2) 5) ∧
    decode (fmtI 0x06C 2 4 5 2) = some (.xorImm plain .w64 (.v 2) (.v 4) 5) ∧
    decode (fmtI 0x06F 1 2 31 0) = some (.shlImm plain .w32 (.v 1) (.v 2) 31) ∧
    decode (fmtI 0x070 1 2 31 0) = some (.shrImm plain .w32 (.v 1) (.v 2) 31) ∧
    decode (fmtI 0x071 1 2 31 0) = some (.sarImm plain .w32 (.v 1) (.v 2) 31) ∧
    decode (fmtI 0x072 1 2 31 0) = some (.rotImm plain .w32 (.v 1) (.v 2) 31) ∧
    decode (fmtI 0x073 1 2 0x0804 0) = some (.bfxImm plain .z32 (.v 1) (.v 2) 0x0804) ∧
    decode (fmtI 0x078 3 2 7 (2 * 2 ^ 2)) = some (.icmpImm plain .z32 .lt 3 (.v 2) 7) ∧
    decode (fmtI 0x0A0 2 4 9 7) = some (.leaImm plain 7 (.v 2) (.v 4) 9) := by decide +kernel
/-- 07 R176, R178. -/
theorem test_words_move :
    decode (fmtA 0x080 12 384 4 0 0b1011) = some (.lea plain 3 true (.v 12) (.s 0) (.v 4)) ∧
    decode 0b0000100000010000000000000110100110100000000000000000000000000000 = some (.mov plain .w32 (.v 1) (.special .item)) ∧
    decode (fmtI 0x082 1 0 0x800000 0) = some (.movi plain .w32 (.v 1) 0x800000) ∧
    decode (fmtW 0x083 511 0xFFFFFFFF) = some (.movw plain (.s 127) 0xFFFFFFFF) ∧
    decode (fmtA 0x084 2 4 6 15 2) = some (.sel plain .w64 (.v 2) (.v 4) (.v 6) 15) ∧
    decode (fmtA 0x085 2 1 3 4 1) = some (.mad64 plain true (.v 2) (.v 1) (.v 3) (.v 4)) := by decide +kernel
def fsrc (neg abs : Bool) (n : Fin 320) : FSrc := { neg := neg, abs := abs, o := .v n }
/-- 07 R179 to R184. -/
theorem test_words_float :
    decode 0b0000110000000000000000000100000001000000001100000000000100100011 =
      some (.fadd plain .rm (.v 1) (fsrc true true 2) (fsrc false false 3)) ∧
    decode (fmtA 0x0C1 1 2 3 0 (2 ^ 6 + 1)) = some (.fsub plain .rz (.v 1) (fsrc false false 2) (fsrc true false 3)) ∧
    decode (fmtA 0x0C2 1 2 3 0 (2 ^ 9 + 2)) = some (.fmul plain .rp (.v 1) (fsrc false false 2) (fsrc false true 3)) ∧
    decode (fmtA 0x0C3 1 2 3 4 (2 ^ 10 + 2 ^ 7)) =
      some (.ffma plain .rn (.v 1) (fsrc false false 2) (fsrc false false 3) (fsrc true true 4)) ∧
    decode (fmtA 0x0C4 1 2 3 0 0) = some (.fmin plain (.v 1) (fsrc false false 2) (fsrc false false 3)) ∧
    decode (fmtA 0x0C5 1 2 3 0 (2 ^ 5)) = some (.fmax plain (.v 1) (fsrc true false 2) (fsrc false false 3)) ∧
    decode (fmtA 0x0C6 15 2 3 0 6) = some (.fcmp plain .un 15 (fsrc false false 2) (fsrc false false 3)) ∧
    decode (fmtA 0x0C7 1 2 0 0 0) = some (.fclass plain (.v 1) (fsrc false false 2)) ∧
    decode (fmtA 0x0C8 1 2 0 0 3) = some (.frcp plain .rm (.v 1) (fsrc false false 2)) ∧
    decode (fmtA 0x0C9 1 2 0 0 (2 ^ 8)) = some (.frsq plain (.v 1) (fsrc false true 2)) ∧
    decode (fmtA 0x0CA 1 2 0 0 1) = some (.fsqrt plain .rz (.v 1) (fsrc false false 2)) ∧
    decode (fmtA 0x0CB 1 2 0 0 0) = some (.fex2 plain (.v 1) (fsrc false false 2)) ∧
    decode (fmtA 0x0CC 1 2 0 0 0) = some (.flg2 plain (.v 1) (fsrc false false 2)) ∧
    decode (fmtA 0x0CD 1 2 0 0 0) = some (.fsin plain (.v 1) (fsrc false false 2)) ∧
    decode (fmtA 0x0CE 1 2 0 0 0) = some (.fcos plain (.v 1) (fsrc false false 2)) ∧
    decode (fmtA 0x0CF 1 2 0 0 0) = some (.ftanh plain (.v 1) (fsrc false false 2)) ∧
    decode (fmtA 0x0D0 1 2 3 4 (2 * 2 ^ 3 + 1)) =
      some (.fdot2 plain true .rz (.v 1) (fsrc false false 2) (fsrc false false 3) (fsrc false false 4)) := by decide +kernel
/-- 07 R185 to R188, 06 R161. -/
theorem test_words_convert :
    decode (fmtA 0x100 1 2 0 0 (0 * 2 ^ 7 + 0xA * 2 ^ 3 + 1)) = some (.cvt plain (.intToFloat .f32 .z32 .rz) (.v 1) (.v 2)) ∧
    decode (fmtA 0x100 2 1 0 0 (0xF * 2 ^ 7 + 1 * 2 ^ 3 + 3)) = some (.cvt plain (.floatToInt .n64 .f16 .rm) (.v 2) (.v 1)) ∧
    decode (fmtA 0x100 1 2 0 0 (0x8 * 2 ^ 7 + 0xE * 2 ^ 3 + 1)) = some (.cvt plain (.intToInt .z8 .n32 true) (.v 1) (.v 2)) ∧
    decode 0b0001000000010000000000100100000100000000000000000000000110000100 = some (.fcvt plain .e4m3 .f32 .rs (.v 9) (.v 8)) ∧
    decode (fmtA 0x102 1 2 3 4 (5 * 2 ^ 7 + 3 * 2 ^ 4 + 2)) = some (.fpack plain .e2m1 3 .rp (.v 1) (.v 2) (.v 3) (.v 4)) ∧
    decode (fmtA 0x103 9 8 0 0 (3 * 2 ^ 7 + 2 * 2 ^ 4)) = some (.funpk plain .e4m3 2 (.v 9) (.v 8)) ∧
    decode (fmtA 0x104 1 2 0 0 4) = some (.lgcvt plain false .rs (.v 1) (.v 2)) ∧
    decode (fmtA 0x104 1 2 0 0 8) = some (.lgcvt plain true .rn (.v 1) (.v 2)) ∧
    decode (fmtA 0x105 0 388 0 0 0) = some (.srnd plain (.s 4)) ∧
    decode (fmtA 0x110 40 8 404 0 7) = some (.qe8 plain 7 (.v 40) (.v 8) (.s 20)) ∧
    decode (fmtA 0x111 40 312 404 41 1) = some (.qe8m plain 1 (.v 40) (.v 312) (.s 20) (.v 41)) ∧
    decode (fmtA 0x112 8 40 404 0 2) = some (.de8 plain 2 (.v 8) (.v 40) (.s 20)) ∧
    decode (fmtA 0x113 1 8 0 0 0) = some (.e8scl plain (.v 1) (.v 8)) := by decide +kernel
/-- 07 R190. -/
theorem test_words_lane :
    decode 0b0001010000000000000000001000000010000000011100000000000000000111 =
      some (.shfl plain .xor true (.v 2) (.v 4) (.v 7)) ∧
    decode (fmtA 0x141 1 2 0 0 2) = some (.matchLanes plain .w64 (.v 1) (.v 2)) ∧
    decode (fmtA 0x142 388 3 0 0 6) = some (.vote plain .every true (.s 4) 3) ∧
    decode (fmtA 0x143 6 5 0 0 8) = some (.wred plain .fadd false (.v 6) (.v 5)) ∧
    decode (fmtA 0x144 6 5 0 0 (2 ^ 5 + 2 ^ 4 + 1)) = some (.wpfx plain .min true true (.v 6) (.v 5)) ∧
    decode (fmtA 0x145 9 0 0 0 0) = some (.elect plain 9) ∧ decode (fmtA 0x146 1 15 0 0 0) = some (.kmov plain (.kk 1 15)) ∧
    decode (fmtA 0x146 2 336 0 0 1) = some (.kmov plain (.kr 2 .zero)) ∧
    decode (fmtA 0x146 388 2 0 0 2) = some (.kmov plain (.rk (.s 4) 2)) ∧
    decode (fmtA 0x147 1 2 3 0 0) = some (.kand plain 1 2 3) ∧ decode (fmtA 0x148 1 2 3 0 0) = some (.kor plain 1 2 3) ∧
    decode (fmtA 0x149 1 2 3 0 0) = some (.kxor plain 1 2 3) ∧ decode (fmtA 0x14A 1 2 0 0 0) = some (.knot plain 1 2) ∧
    decode (fmtA 0x14B 1 2 0 0 0) = some (.kpop plain (.v 1) 2) ∧
    decode (fmtA 0x14C 385 2 0 0 0) = some (.kfirst plain (.s 1) 2) := by decide +kernel
/-- 11 R287 to R305. -/
theorem test_words_memory :
    decode 0b0001110000000000000000100000000010011000011000000000010000000100 =
      some (.ld plain .b32 false .core false (.v 8) ⟨.v 4, .s 6, 4⟩) ∧
    decode (fmtM 0x1C0 336 392 336 0xFFF (2 ^ 7 + 5 * 2 ^ 4 + 8 + 1)) = some (.ld plain .z8 true .sys true .zero ⟨.s 8, .zero, 0xFFF⟩) ∧
    decode 0x1C1001711500003C = some (.st plain .b32 true .pkg false (.v 5) ⟨.s 8, .zero, 0⟩) ∧
    decode (fmtM 0x1C2 4 1 336 1 6) = some (.ldsp plain .b128 false (.v 4) ⟨.v 1, .zero, 1⟩) ∧
    decode (fmtM 0x1C3 4 1 2 0 (8 + 5)) = some (.stsp plain .b64 true (.v 4) ⟨.v 1, .v 2, 0⟩) ∧
    decode (fmtM 0x1C4 1 388 0 2 3) = some (.ldc plain .z16 (.v 1) (.s 4) 2) ∧
    decode (fmtM 0x1C5 0 4 336 1 0) = some (.zfill plain ⟨.v 4, .zero, 1⟩) ∧
    decode (fmtM 0x1C6 0 4 336 1 2) = some (.pref plain .l3 ⟨.v 4, .zero, 1⟩) ∧
    decode 0x200001B100760020 = some (.atom plain .add false false .acq .pkg (.v 6) (.s 8) (.v 7)) ∧
    decode (withHead (fmtM 0x200 6 4 8 (5 * 2 ^ 9) (3 * 2 ^ 5 + 2 ^ 4 + 2 ^ 3 + 2))) =
      some (.atom headed .max true true .ar .sys (.v 6) (.v 4) (.v 8)) ∧
    decode (fmtM 0x201 6 1 8 0 (2 * 2 ^ 5 + 7)) = some (.atomsp plain .cas false false .rel (.v 6) (.v 1) (.v 8)) ∧
    decode (fmtM 0x202 0 4 8 0 0) = some (.atomf plain (.v 4) (.v 8)) ∧
    decode (fmtM 0x203 7 4 0 (4 * 2 ^ 9) (2 ^ 5 + 2 ^ 3 + 1)) = some (.red plain .min true false true .pod (.v 7) (.v 4)) ∧
    decode 0x2040000000000003 = some (.fence plain .pkg) ∧ decode (fmtA 0x205 0 0 0 0 4) = some (.icinv plain .pod) ∧
    decode (fmtA 0x206 0 388 390 0 2) = some (.tlbinv plain .die (some (.s 4, .s 6))) ∧
    decode (fmtA 0x206 0 0 0 0 8) = some (.tlbinv plain .core none) := by decide +kernel
/-- 11 R306 to R316, 08 R212. -/
theorem test_words_async :
    decode 0b0010010000000000011000101011000010011000110011000111000000000001 =
      some (.cpy plain .sg none false 0 (.s 10) (.s 4) (.s 12) (.s 14)) ∧
    decode (fmtA 0x240 1 4 3 336 (9 * 2 ^ 7 + 2 ^ 6 + 7 * 2 ^ 3 + 2 ^ 2 + 1)) =
      some (.cpy plain .sg (some 7) true 9 (.v 1) (.v 4) (.v 3) .zero) ∧
    decode (fmtA 0x241 5 0 0 0 0) = some (.cseal plain (.v 5)) ∧ decode (fmtA 0x242 0 5 0 0 0) = some (.cwait plain (.v 5)) ∧
    decode (fmtA 0x243 0 388 389 0 0) = some (.bxpAdd plain (.s 4) (.s 5)) ∧
    decode (fmtA 0x243 0 388 389 0 1) = some (.bxpSet plain (.s 4) (.s 5)) ∧
    decode (fmtA 0x244 0 388 0 0 0) = some (.bwait plain (.s 4)) ∧
    decode 0x2480003098600100 = some (.tsub plain false ⟨.s 4, .s 6, 1⟩) ∧
    decode 0x249062B115000000 = some (.twait plain (.s 10) ⟨.s 8, .zero, 0⟩) ∧
    decode (fmtA 0x24A 386 388 390 0 0) = some (.tdesc plain (.s 2) (.s 4) (.s 6)) ∧
    decode (fmtA 0x24B 386 388 390 0 0) = some (.tdget plain (.s 2) (.s 4) (.s 6)) ∧
    decode (fmtA 0x24C 386 388 390 0 0) = some (.hsget plain (.s 2) (.s 4) (.s 6)) ∧
    decode (fmtA 0x24D 386 336 390 0 0) = some (.hsclr plain (.s 2) .zero (.s 6)) ∧
    decode (fmtA 0x250 386 388 0 0 0) = some (.weir plain (.s 2) (.s 4)) ∧
    decode (fmtM 0x251 386 388 391 0 255) = some (.pin plain (.s 2) (.s 4) (.s 7) 255) ∧
    decode (fmtM 0x252 386 388 0 0 0) = some (.unpin plain (.s 2) (.s 4)) := by decide +kernel
/-- 09 R219, R243, R248. -/
theorem test_words_views :
    decode (fmtA 0x280 386 388 390 0 0) = some (.vdef plain (.s 2) (.s 4) (.s 6)) ∧
    decode (fmtA 0x280 386 388 390 0 1) = some (.vdefVoc plain (.s 2) (.s 4) (.s 6)) ∧
    decode 0b0010100000010000000000100011000010000000101000000000000000000010 = some (.vld plain .b32 (.v 8) ⟨.s 4, .v 10, 0⟩) ∧
    decode (fmtA 0x282 8 388 10 0 0) = some (.vmap plain (.v 8) (.s 4) (.v 10)) ∧
    decode (fmtA 0x283 8 388 11 15 0) = some (.vfind plain (.v 8) (.s 4) (.v 11) 15) ∧
    decode (fmtM 0x284 0 388 10 0 0) = some (.vtouch plain (.s 4) (.v 10)) ∧
    decode (fmtA 0x285 336 388 10 0 0) = some (.vpin plain .zero (.s 4) (.v 10)) ∧
    decode (fmtA 0x286 8 388 10 0 0) = some (.vunpin plain (.v 8) (.s 4) (.v 10)) ∧
    decode (fmtA 0x287 8 388 10 0 3) = some (.vstat plain .anch (.v 8) (.s 4) (.v 10)) ∧
    decode (fmtA 0x288 386 391 390 0 0) = some (.ssealAdv plain (.s 2) (.s 7) (.s 6)) ∧
    decode (fmtA 0x288 386 391 390 0 1) = some (.ssealNew plain (.s 2) (.s 7) (.s 6)) ∧
    decode (fmtA 0x288 386 391 336 0 2) = some (.ssealDrop plain (.s 2) (.s 7) .zero) ∧
    decode (fmtA 0x289 386 388 0 0 1) = some (.detok plain true (.s 2) (.s 4)) := by decide +kernel
/-- 04 R92. -/
theorem test_words_engines :
    decode 0x2C0000000000000C = some (.fork plain 12) ∧ decode (fmtA 0x2C1 0 0 0 0 0) = some (.rdv plain) ∧
    decode (fmtA 0x2C2 7 15 0 0 2) = some (.gset plain .lane0 7 15) ∧
    decode 0b0010110000110000000000000011000010010101000000000000001000001001 = some (.dlv plain 1 .x4 false ⟨.s 4, .zero, 2⟩) ∧
    decode (fmtA 0x2C4 1 323 0 0 0) = some (.qstat plain (.v 1) 3) ∧
    decode (fmtA 0x2C8 386 388 390 0 0) = some (.slcfg plain (.s 2) (.s 4) (.s 6)) ∧
    decode (fmtA 0x2C9 0 8 390 0 (3 * 2 ^ 4 + 2 ^ 3 + 5)) = some (.slpush plain .r128 (some 5) (.v 8) (.s 6)) ∧
    decode (fmtA 0x2CA 1 0 0 0 1) = some (.slinfo plain true (.v 1)) ∧
    decode (fmtM 0x2CB 1 390 0 0 0) = some (.slcomb plain (.v 1) (.s 6)) ∧
    decode (fmtA 0x2CC 0 8 390 0 (1 * 2 ^ 4)) = some (.pxpush plain .r32 none (.v 8) (.s 6)) ∧
    decode (fmtA 0x2CD 0 0 0 0 1) = some (.pxflush plain true) := by decide +kernel
/-- 17 R399, R400. -/
theorem test_words_system :
    decode 0x3000000000000000 = some (.tfence plain) ∧
    decode 0b0011000000010000000000000000000000000000000000000000000010100000 = some (.trap plain 5) ∧
    decode 0xB020000000000020 = some (.bkpt { plain with stop := true } 1) ∧
    decode 0x3030543280000000 = some (.ccause plain .zero (.s 20)) ∧ decode 0x3040000000000001 = some (.hret plain true) ∧
    decode (fmtS 0x305 404 0 0x0040) = some (.rdsr plain (.s 20) .cause) ∧
    decode 0x30600030C00A2000 = some (.wrsr plain (.wpctl 0) (.s 6)) ∧ decode 0x3070628000000000 = some (.rdclk plain .wall (.s 10)) ∧
    decode 0x3080003180000000 = some (.wtimer plain (.s 12)) ∧ decode 0x3090623120000000 = some (.fragMask plain (.s 8) (.s 9)) ∧
    decode (fmtA 0x309 392 393 0 0 1) = some (.fragState plain (.s 8) (.s 9)) ∧
    decode (fmtA 0x309 392 393 0 0 2) = some (.fragKill plain (.s 8) (.s 9)) ∧
    decode (fmtA 0x309 392 393 0 0 3) = some (.fragResume plain (.s 8) (.s 9)) ∧
    decode (fmtA 0x30A 386 387 0 0 0) = some (.mboxLd plain (.s 2) (.s 3)) ∧
    decode 0x30A0003058300001 = some (.mboxSt plain (.s 2) (.s 3)) ∧ decode (fmtA 0x30A 0 0 0 0 2) = some (.mboxRing plain) ∧
    decode 0x30B00000000000E0 = some (.smark plain 7) ∧ decode 0x30C06130A0000000 = some (.haltStop plain (.s 4) (.s 5)) ∧
    decode (fmtA 0x30C 388 389 0 0 1) = some (.haltGo plain (.s 4) (.s 5)) ∧
    decode (fmtA 0x30C 388 389 0 0 2) = some (.haltStep plain (.s 4) (.s 5)) := by decide +kernel

/-- Bytes 0 to 31 of an admin command, the other 32 zero (16 R337). -/
def cmdBytes (op tag n a b c : Nat) : BitVec 512 :=
  BitVec.ofNat 512 (op + tag * 2 ^ 16 + n * 2 ^ 32 + a * 2 ^ 64 + b * 2 ^ 128 + c * 2 ^ 192)
def opsOf (tag : BitVec 16) (n : BitVec 32) (a b c : Word64) : AdminCmd := { tag := tag, n := n, a := a, b := b, c := c, resv := false }
/-- 16 R335, R337. -/
theorem test_words_admin :
    decodeAdmin (cmdBytes 1 0xABCD 287 0x1000 0 0) = some (.dike (opsOf 0xABCD 287 0x1000 0 0)) ∧
    decodeAdmin (cmdBytes 2 1 7 0x2000 0 0) = some (.create (opsOf 1 7 0x2000 0 0)) ∧
    decodeAdmin (cmdBytes 3 1 7 0 0 0) = some (.destroy (opsOf 1 7 0 0 0)) ∧
    decodeAdmin (cmdBytes 4 1 7 0x2000 0 0) = some (.update (opsOf 1 7 0x2000 0 0)) ∧
    decodeAdmin (cmdBytes 5 1 7 64 (16 * 2 ^ 32 + 131071) 8) = some (.mapq (opsOf 1 7 64 (16 * 2 ^ 32 + 131071) 8)) ∧
    decodeAdmin (cmdBytes 6 1 0 65536 131072 0) = some (.zeroRange (opsOf 1 0 65536 131072 0)) ∧
    decodeAdmin (cmdBytes 7 1 0 65536 131072 0) = some (.zone (opsOf 1 0 65536 131072 0)) ∧
    decodeAdmin (cmdBytes 8 1 7 65536 3 0) = some (.cold (opsOf 1 7 65536 3 0)) ∧
    decodeAdmin (cmdBytes 9 1 11 0 500 1) = some (.disturb (opsOf 1 11 0 500 1)) ∧
    decodeAdmin (cmdBytes 10 1 0 0 0 0) = some (.podclr (opsOf 1 0 0 0 0)) ∧
    decodeAdmin (cmdBytes 11 1 7 0 9 0) = some (.debugHaltStop (opsOf 1 7 0 9 0)) ∧
    decodeAdmin (cmdBytes 11 1 7 1 9 0) = some (.debugHaltGo (opsOf 1 7 1 9 0)) ∧
    decodeAdmin (cmdBytes 11 1 7 2 9 0) = some (.debugHaltStep (opsOf 1 7 2 9 0)) ∧
    decodeAdmin (cmdBytes 11 1 7 3 9 0) = none ∧
    decodeAdmin (cmdBytes 11 1 7 4 9 0) = some (.debugFragMask (opsOf 1 7 4 9 0)) ∧
    decodeAdmin (cmdBytes 11 1 7 5 9 0) = some (.debugFragState (opsOf 1 7 5 9 0)) ∧
    decodeAdmin (cmdBytes 11 1 7 6 9 0) = some (.debugFragKill (opsOf 1 7 6 9 0)) ∧
    decodeAdmin (cmdBytes 11 1 7 7 9 0) = some (.debugFragResume (opsOf 1 7 7 9 0)) ∧
    decodeAdmin (cmdBytes 12 1 7 4096 (2 ^ 63 + 4 * 2 ^ 32 + 64) 0) = some (.traceBuf (opsOf 1 7 4096 (2 ^ 63 + 4 * 2 ^ 32 + 64) 0)) ∧
    decodeAdmin (cmdBytes 13 1 0 4096 0 0) = some (.spare (opsOf 1 0 4096 0 0)) ∧
    decodeAdmin (cmdBytes 14 1 0 0 0 3600) = some (.power (opsOf 1 0 0 0 3600)) ∧ decodeAdmin (cmdBytes 15 1 0 0 0 0) = none ∧
    (decodeAdmin (cmdBytes 10 1 0 0 0 0 + 1 <<< 8)).map encodeAdmin = some (cmdBytes 10 1 0 0 0 0 + 1 <<< 8) := by decide +kernel
/-- A management ring entry at the start of the ring: operation, source handle or vocabulary, image (16 R339). -/
def sMgmt (op h a : Nat) : State :=
  { State.reset with ctxs := [(7, { cfg := { cfg1 with mgmtRing := 0x3FFFF000 }, mgmtProd := 1 })],
                     mem := putBytes [] 0x3FFFF000 (op + 0xFF * 256 + h * 2 ^ 32 + a * 2 ^ 64) 64 }
theorem test_words_mgmt :
    mgmtTake (sMgmt 1 0xFFFFFFFF 0x100) 7 = some (some (.mgmtSsealNew 7 0xFFFFFFFF 0x100)) ∧
    mgmtTake (sMgmt 2 3 0) 7 = some (some (.mgmtSsealDrop 7 3 0)) ∧ mgmtTake (sMgmt 3 3 9) 7 = some (some (.mgmtSsealAdv 7 3 9)) ∧
    mgmtTake (sMgmt 4 3 9) 7 = some (some (.mgmtVdefVoc 7 3 9)) ∧ mgmtTake (sMgmt 5 3 9) 7 = some none ∧
    mgmtTake (sMgmt 0 3 9) 7 = some none := by decide +kernel

/-! ### Terms that the checks refuse (02 R35, R39 to R43, R47) -/

/-- 02 R35: k0 with sense 1; on any instruction word, and a guard that is allowed. -/
theorem test_wf_guard : Head.wf { plain with k := 0, inv := true } = false ∧ Instr.wf (.nop { plain with k := 0, inv := true }) = false ∧
    Instr.wf (.exit { plain with k := 0, inv := true }) = false ∧ Instr.wf (.exit { plain with k := 15, inv := true }) = true := by decide
/-- 02 R40, R43: odd pairs, a pair beyond the file, a queue or a special as a destination, and no pair for a 64-bit operand. -/
theorem test_wf_pairs :
    Instr.wf (.iadd plain .z64 false (.v 3) (.v 4) (.v 6)) = false ∧ Instr.wf (.iadd plain .z64 false (.v 2) (.v 5) (.v 6)) = false ∧
    Instr.wf (.iadd plain .z64 false (.s 127) (.s 4) (.s 6)) = false ∧ Instr.wf (.iadd plain .z32 false (.q 0) (.v 4) (.v 6)) = false ∧
    Instr.wf (.iadd plain .z32 false (.special .lane) (.v 4) (.v 6)) = false ∧
    Instr.wf (.iadd plain .z64 false (.v 2) (.q 1) (.v 6)) = false ∧ Instr.wf (.movi plain .w64 (.v 319) 0) = false ∧
    Instr.wf (.popc plain .w64 (.v 0) (.v 1)) = false ∧ Instr.wf (.popc plain .w32 (.q 0) (.v 1)) = false ∧
    Instr.wf (.icmp plain .z64 .eq 1 (.v 1) (.v 2)) = false ∧ Instr.wf (.icmpImm plain .z64 .eq 1 (.v 1) 0) = false ∧
    Instr.wf (.lea plain 0 false (.v 1) (.v 2) (.v 4)) = false ∧ Instr.wf (.leaImm plain 0 (.v 2) (.v 1) 0) = false ∧
    Instr.wf (.mad64 plain false (.v 2) (.v 4) (.v 5) (.v 7)) = false ∧ Instr.wf (.rdclk plain .wall (.s 3)) = false := by decide
/-- 02 R41: a scalar destination with a source that is not uniform. -/
theorem test_wf_scalar :
    Instr.wf (.iadd plain .z32 false (.s 0) (.v 0) (.s 1)) = false ∧ Instr.wf (.shl plain .w32 (.s 0) (.s 1) (.v 0)) = false ∧
    Instr.wf (.imad plain .z32 false (.s 0) (.s 1) (.s 2) (.special .lane)) = false ∧
    Instr.wf (.bfi plain .w32 (.s 0) (.s 1) (.v 0) (.s 2)) = false ∧ Instr.wf (.mov plain .w32 (.s 0) (.special .item)) = false ∧
    Instr.wf (.ld plain .b32 false .core false (.s 0) ⟨.v 2, .zero, 0⟩) = false ∧
    Instr.wf (.fcvt plain .f16 .f32 .rs (.s 0) (.s 1)) = false := by decide
/-- 07 R185: `.rs` where it is not assigned, a conversion to the same type, and elements that no word has. -/
theorem test_wf_rounding :
    Instr.wf (.fadd plain .rs (.v 0) ⟨false, false, .v 1⟩ ⟨false, false, .v 2⟩) = false ∧
    Instr.wf (.frcp plain .rs (.v 0) ⟨false, false, .v 1⟩) = false ∧ Instr.wf (.fcvt plain .f32 .f32 .rn (.v 0) (.v 1)) = false ∧
    Instr.wf (.fcvt plain .f32 .f16 .rs (.v 0) (.v 1)) = false ∧ Instr.wf (.cvt plain (.intToInt .z32 .z32 false) (.v 0) (.v 1)) = false ∧
    Instr.wf (.cvt plain (.intToFloat .f32 .z32 .rs) (.v 0) (.v 1)) = false ∧
    Instr.wf (.fpack plain .f32 0 .rn (.v 0) (.v 1) (.v 2) (.v 3)) = false ∧
    Instr.wf (.fpack plain .f16 1 .rn (.v 0) (.v 1) (.v 2) (.v 3)) = false ∧ Instr.wf (.funpk plain .f16 2 (.v 0) (.v 1)) = false ∧
    Instr.wf (.lgcvt plain true .rz (.v 0) (.v 1)) = false ∧ Instr.wf (.srnd plain (.v 0)) = false := by decide
/-- 06 R161, 07 R191 to R194: lattice groups beyond the file, destinations without a scalar form, unsigned bits. -/
theorem test_wf_lanes :
    Instr.wf (.qe8 plain 0 (.v 0) (.v 313) (.s 0)) = false ∧ Instr.wf (.qe8m plain 0 (.s 0) (.v 8) (.s 0) (.s 1)) = false ∧
    Instr.wf (.de8 plain 0 (.s 0) (.v 0) (.s 0)) = false ∧ Instr.wf (.e8scl plain (.v 0) (.s 0)) = false ∧
    Instr.wf (.matchLanes plain .w32 (.s 0) (.v 0)) = false ∧ Instr.wf (.wred plain .add true (.v 0) (.v 1)) = false ∧
    Instr.wf (.wpfx plain .fmin false false (.v 0) (.v 1)) = false ∧ Instr.wf (.kmov plain (.kr 1 (.v 0))) = false ∧
    Instr.wf (.kmov plain (.rk (.q 0) 1)) = false ∧ Instr.wf (.kpop plain (.q 0) 1) = false ∧
    Instr.wf (.kfirst plain (.special .lane) 1) = false := by decide
/-- 03 R66, R69, R86: link registers, targets, scopes and counts. -/
theorem test_wf_control :
    Instr.wf (.brx plain .vec (.v 1) 0) = false ∧ Instr.wf (.brx plain .vec (.v 2) 1) = false ∧
    Instr.wf (.brx plain .scalar (.v 2) 0) = false ∧ Instr.wf (.brx plain .rel (.s 2) 0) = false ∧
    Instr.wf (.call plain (.v 21) 0) = false ∧ Instr.wf (.call plain (.s 20) 0) = false ∧ Instr.wf (.ret plain (.v 21)) = false ∧
    Instr.wf (.bar plain .sys 0 (some (.s 0))) = false ∧ Instr.wf (.bar plain .core 0 (some (.s 0))) = false ∧
    Instr.wf (.bar plain .quad 0 none) = false ∧ Instr.wf (.barv plain .quad 0 (some (.v 0))) = false ∧
    Instr.wf (.barw plain .sys 0) = false := by decide
/-- 11 R288, R299, R301, R303, R306: sizes, scopes of plain accesses, quads, operands of `.cas`, `red`, ranges, copies. -/
theorem test_wf_memory :
    Instr.wf (.ld plain .b32 false .pkg false (.v 0) ⟨.s 2, .zero, 0⟩) = false ∧
    Instr.wf (.ld plain .b128 false .core false (.v 2) ⟨.s 2, .zero, 0⟩) = false ∧
    Instr.wf (.ld plain .b32 false .core false (.v 0) ⟨.s 3, .zero, 0⟩) = false ∧
    Instr.wf (.ld plain .b32 false .core false (.v 0) ⟨.s 2, .q 0, 0⟩) = false ∧
    Instr.wf (.st plain .z8 false .core false (.v 0) ⟨.s 2, .zero, 0⟩) = false ∧
    Instr.wf (.stsp plain .z16 false (.v 0) ⟨.s 2, .zero, 0⟩) = false ∧
    Instr.wf (.ldsp plain .b32 false (.v 0) ⟨.q 0, .zero, 0⟩) = false ∧ Instr.wf (.ldc plain .b64 (.v 1) (.s 0) 0) = false ∧
    Instr.wf (.zfill plain ⟨.s 3, .zero, 0⟩) = false ∧
    Instr.wf (.atom plain .cas false false .acq .pkg (.v 0) (.s 2) (.v 1)) = false ∧
    Instr.wf (.atom plain .add true false .acq .pkg (.v 0) (.s 2) (.v 1)) = false ∧
    Instr.wf (.atomsp plain .cas false true .acq (.v 0) (.s 2) (.v 2)) = false ∧ Instr.wf (.atomf plain (.s 3) (.v 0)) = false ∧
    Instr.wf (.red plain .exch false false false .pkg (.v 0) (.s 2)) = false ∧
    Instr.wf (.red plain .cas false false false .pkg (.v 0) (.s 2)) = false ∧ Instr.wf (.icinv plain .sys) = false ∧
    Instr.wf (.tlbinv plain .pkg (some (.v 2, .s 4))) = false ∧
    Instr.wf (.cpy plain .gs none false 3 (.v 2) (.v 4) (.v 6) (.zero)) = false ∧
    Instr.wf (.cpy plain .gg none false 0 (.v 3) (.v 4) (.v 6) (.zero)) = false ∧ Instr.wf (.cseal plain (.s 0)) = false ∧
    Instr.wf (.cwait plain (.special .lane)) = false := by decide
/-- 08 R212, 09 R243, R219, 11 R312: statuses that are not scalars, images that are not scalar pairs, handles. -/
theorem test_wf_engines :
    Instr.wf (.tsub plain false ⟨.s 3, .zero, 0⟩) = false ∧ Instr.wf (.twait plain (.v 2) ⟨.s 4, .zero, 0⟩) = false ∧
    Instr.wf (.tdesc plain (.v 0) (.s 4) (.s 6)) = false ∧ Instr.wf (.hsget plain (.s 0) (.s 5) (.s 6)) = false ∧
    Instr.wf (.weir plain (.s 0) (.v 4)) = false ∧ Instr.wf (.pin plain (.s 0) (.s 2) (.s 4) 0) = false ∧
    Instr.wf (.unpin plain (.v 0) (.s 2)) = false ∧ Instr.wf (.vdef plain (.v 0) (.s 4) (.s 6)) = false ∧
    Instr.wf (.vld plain .b32 (.v 0) ⟨.q 0, .v 2, 0⟩) = false ∧ Instr.wf (.vld plain .b64 (.v 1) ⟨.s 0, .v 2, 0⟩) = false ∧
    Instr.wf (.vmap plain (.v 1) (.s 0) (.v 2)) = false ∧ Instr.wf (.vfind plain (.v 2) (.q 0) (.v 4) 1) = false ∧
    Instr.wf (.vtouch plain (.special .lane) (.v 2)) = false ∧ Instr.wf (.vpin plain (.q 0) (.s 0) (.v 2)) = false ∧
    Instr.wf (.vstat plain .dense (.v 1) (.s 0) (.v 2)) = false ∧ Instr.wf (.ssealNew plain (.s 0) (.v 1) (.s 2)) = false ∧
    Instr.wf (.ssealDrop plain (.s 0) (.s 1) (.s 2)) = false ∧ Instr.wf (.detok plain false (.v 0) (.s 2)) = false ∧
    Instr.wf (.dlv plain 0 .x1 false ⟨.v 2, .zero, 0⟩) = false ∧ Instr.wf (.slcfg plain (.s 0) (.s 3) (.s 4)) = false ∧
    Instr.wf (.slpush plain .r64 none (.v 305) (.s 0)) = false ∧ Instr.wf (.slpush plain .r16 none (.s 0) (.s 4)) = false ∧
    Instr.wf (.slcomb plain (.s 0) (.s 1)) = false ∧ Instr.wf (.pxpush plain .r16 none (.v 0) (.v 8)) = false ∧
    Instr.wf (.qstat plain (.q 0) 1) = false := by decide
/-- 17 R399, R400: registers that are not writable, per-lane operands of uniform forms. -/
theorem test_wf_system :
    Instr.wf (.wrsr plain .devid (.s 0)) = false ∧ Instr.wf (.wrsr plain .fpen (.v 0)) = false ∧
    Instr.wf (.wrsr plain .fqcons (.s 1)) = false ∧ Instr.wf (.rdsr plain (.s 1) .cause) = false ∧
    Instr.wf (.ccause plain (.s 0) (.v 2)) = false ∧ Instr.wf (.wtimer plain (.v 0)) = false ∧
    Instr.wf (.fragKill plain (.v 0) (.s 0)) = false ∧ Instr.wf (.haltGo plain (.s 0) (.v 0)) = false ∧
    Instr.wf (.mboxLd plain (.s 0) (.v 0)) = false ∧ Instr.wf (.mboxSt plain (.v 0) (.s 0)) = false ∧
    Instr.wf (.debugHaltStop { tag := 0, n := 0, a := 1, b := 0, c := 0, resv := false }) = false ∧ Instr.wf (.debugFragResume { tag := 0, n := 0, a := 6, b := 0, c := 0, resv := false }) = false := by decide

/-! ### Small tests of single instructions, with results from the rules and worked examples of the spec -/

/-- The instruction answers a next state of which a test holds. -/
def ran (i : Instr) (s : State) (f : State → Bool) : Bool :=
  match exec i s with
  | .next t => f t
  | _ => false

/-- v4, v5, v6 and s4 hold these values in every lane. -/
def sv (a b c x : Word32) : State :=
  { s1 with me := { wave1 with v := [(4, Vector.replicate 32 a), (5, Vector.replicate 32 b), (6, Vector.replicate 32 c)],
                               s := [(4, x)] } }
/-- v4 holds l in lane l, or four given values in the lanes 0 to 3. -/
def sLanes : State := { s1 with me := { wave1 with v := [(4, lanesOf fun l => BitVec.ofNat 32 l.val)] } }
def sFirst (xs : List Word32) : State :=
  { s1 with me := { wave1 with v := [(5, lanesOf fun l => xs.getD l.val 0)] }, iss := BitVec.ofNat 32 (2 ^ xs.length - 1) }
def vOf (t : State) (r : Nat) (l : Fin 32) : Nat := (readV t.me r l).toNat
def flagsAt (t : State) (l : Fin 32) : Nat := (t.me.lanes[l].flags).toNat
/-- All lanes of v7 hold one value. -/
def v7Is (x : Nat) (t : State) : Bool := (List.finRange 32).all fun l => vOf t 7 l == x

/-- 07 R171: wrap and saturate. -/
theorem test_iadd_wraps : ran (.iadd plain .z32 false (.v 7) (.v 4) (.v 5)) (sv 0xFFFFFFFF 2 0 0) (v7Is 1) = true := by decide +kernel
theorem test_iadd_saturates : ran (.iadd plain .z32 true (.v 7) (.v 4) (.v 5)) (sv 0x7FFFFFFF 1 0 0) (v7Is 0x7FFFFFFF) = true := by
  decide +kernel
theorem test_isub_saturates : ran (.isub plain .n32 true (.v 7) (.v 4) (.v 5)) (sv 3 5 0 0) (v7Is 0) = true := by decide +kernel
theorem test_iaddImm_signed : ran (.iaddImm plain .n32 false (.v 7) (.v 4) 0xFFFFFF) (sv 5 0 0 0) (v7Is 4) = true := by decide +kernel
/-- 07 R171: the high half of 2^32 − 1 squared, unsigned and signed. -/
theorem test_imulh_unsigned : ran (.imulh plain .n32 (.v 7) (.v 4) (.v 5)) (sv 0xFFFFFFFF 0xFFFFFFFF 0 0) (v7Is 0xFFFFFFFE) = true := by
  decide +kernel
theorem test_imulh_signed : ran (.imulh plain .z32 (.v 7) (.v 4) (.v 5)) (sv 0xFFFFFFFF 0xFFFFFFFF 0 0) (v7Is 0) = true := by decide +kernel
theorem test_imin_signed : ran (.imin plain .z32 (.v 7) (.v 4) (.v 5)) (sv 0xFFFFFFFF 1 0 0) (v7Is 0xFFFFFFFF) = true := by decide +kernel
theorem test_imax_unsigned : ran (.imax plain .n32 (.v 7) (.v 4) (.v 5)) (sv 0xFFFFFFFF 1 0 0) (v7Is 0xFFFFFFFF) = true := by
  decide +kernel
theorem test_iabs_saturates : ran (.iabs plain .w32 true (.v 7) (.v 4)) (sv 0x80000000 0 0 0) (v7Is 0x7FFFFFFF) = true := by decide +kernel
theorem test_ineg_wraps : ran (.ineg plain .w32 false (.v 7) (.v 4)) (sv 0x80000000 0 0 0) (v7Is 0x80000000) = true := by decide +kernel
/-- 07 R172: shifts by the width and more, and a rotate by 36. -/
theorem test_shl_width : ran (.shl plain .w32 (.v 7) (.v 4) (.v 5)) (sv 0xFFFFFFFF 32 0 0) (v7Is 0) = true := by decide +kernel
theorem test_sar_beyond : ran (.sar plain .w32 (.v 7) (.v 4) (.v 5)) (sv 0x80000000 0x100 0 0) (v7Is 0xFFFFFFFF) = true := by decide +kernel
theorem test_rot_mod : ran (.rot plain .w32 (.v 7) (.v 4) (.v 5)) (sv 0x80000001 36 0 0) (v7Is 0x18) = true := by decide +kernel
/-- 07 R173: a signed field, an inserted field that runs over the top, and the tables of the rule. -/
theorem test_bfx_signed : ran (.bfx plain .z32 (.v 7) (.v 4) (.v 5)) (sv 0x00000F00 0x0408 0 0) (v7Is 0xFFFFFFFF) = true := by decide +kernel
theorem test_bfi_top : ran (.bfi plain .w32 (.v 7) (.v 4) (.v 5) (.v 6)) (sv 0xFF 0x081C 0x1 0) (v7Is 0xF0000001) = true := by decide +kernel
theorem test_bool3_majority : ran (.bool3 plain .w32 0xE8 (.v 7) (.v 4) (.v 5) (.v 6)) (sv 0b1100 0b1010 0b0110 0) (v7Is 0b1110) = true := by
  decide +kernel
theorem test_clz_zero : ran (.clz plain .w32 (.v 7) (.v 4)) (sv 0 0 0 0) (v7Is 32) = true := by decide +kernel
theorem test_brev : ran (.brev plain .w32 (.v 7) (.v 4)) (sv 0x80000002 0 0 0) (v7Is 0x40000001) = true := by decide +kernel
/-- 07 R174: (−1)(255) + 2·3 with a signed and b unsigned, and its saturation. -/
theorem test_idot4_mixed : ran (.idot4 plain true false false (.v 7) (.v 4) (.v 5) (.v 6)) (sv 0x000002FF 0x000003FF 10 0) (v7Is 0xFFFFFF11) = true := by
  decide +kernel
/-- 07 R175: bits of lanes that are not active keep their values. -/
theorem test_icmp_own_lanes : ran (.icmp plain .z32 .ge 2 (.v 4) (.s 4)) { sLanes with
      me := { sLanes.me with s := [(4, 16#32)], k := [(2, 1#32)] }, iss := 0xFFFFFFFE }
    (fun t => Table.getD t.me.k 2 0 == 0xFFFF0001#32) = true := by decide +kernel
/-- 07 R176: base plus a signed index times 8. -/
theorem test_lea_signed : ran (.lea plain 3 true (.v 8) (.v 4) (.v 6)) (sv 0x1000 0 0xFFFFFFFE 0)
    (fun t => vOf t 8 31 == 0xFF0 && vOf t 9 31 == 0) = true := by decide +kernel
/-- 07 R178: the product is exact before the addition. -/
theorem test_mad64_signed : ran (.mad64 plain false (.v 8) (.v 4) (.v 5) (.zero)) (sv 0xFFFFFFFF 2 0 0)
    (fun t => vOf t 8 0 == 0xFFFFFFFE && vOf t 9 0 == 0xFFFFFFFF) = true := by decide +kernel

/-- 02 R35: a lane that the guard leaves inactive keeps its register. -/
theorem test_guard_keeps : ran (.mov { plain with k := 3, inv := true } .w32 (.v 4) (.v 5)) { (sv 7 9 0 0) with
      me := { (sv 7 9 0 0).me with k := [(3, 0xFFFF0000#32)] } } (fun t => vOf t 4 15 == 9 && vOf t 4 16 == 7) = true := by decide +kernel

def one (r : Fin 320) : FSrc := ⟨false, false, .v r⟩
/-- 07 R179, 05 R134 to R144: a tie to even, with NX; an overflow, with OF and NX. -/
theorem test_fadd_tie : ran (.fadd plain .rn (.v 7) (one 4) (one 5)) (sv 0x4B800000 0x3F800000 0 0)
    (fun t => v7Is 0x4B800000 t && flagsAt t 0 == 1) = true := by decide +kernel
theorem test_fmul_overflow : ran (.fmul plain .rn (.v 7) (one 4) (one 5)) (sv 0x7F000000 0x40800000 0 0)
    (fun t => v7Is 0x7F800000 t && (flagsAt t 9).testBit 0) = true := by decide +kernel
theorem test_fsub_zero_rm : ran (.fsub plain .rm (.v 7) (one 4) (one 5)) (sv 0x3F800000 0x3F800000 0 0) (v7Is 0x80000000) = true := by
  decide +kernel
/-- 07 R180, R182: zeros in order, and the class of a signalling NaN, which raises nothing. -/
theorem test_fmin_zeros : ran (.fmin plain (.v 7) (one 4) (one 5)) (sv 0 0x80000000 0 0) (v7Is 0x80000000) = true := by decide +kernel
theorem test_fclass_snan : ran (.fclass plain (.v 7) (one 4)) (sv 0x7F800001 0 0 0)
    (fun t => v7Is 0x100 t && flagsAt t 0 == 0) = true := by decide +kernel
/-- 07 R181: an unordered compare is not less. -/
theorem test_fcmp_unordered : ran (.fcmp plain .lt 2 (one 4) (one 5)) (sv 0x7FC00000 0 0 0)
    (fun t => Table.getD t.me.k 2 0 == 0#32 && (flagsAt t 0) != 0) = true := by decide +kernel
theorem test_frcp : ran (.frcp plain .rn (.v 7) (one 4)) (sv 0x40400000 0 0 0) (v7Is 0x3EAAAAAB) = true := by decide +kernel
theorem test_fsqrt : ran (.fsqrt plain .rn (.v 7) (one 4)) (sv 0x40000000 0 0 0) (v7Is 0x3FB504F3) = true := by decide +kernel

/-- 06 R155: the worked codes, a canonical and a non-canonical one. -/
theorem test_de8_worked : ran (.de8 plain 0 (.v 8) (.v 4) (.v 5)) (sv 0x8432 127 0 0) (fun t =>
    ((List.range 8).map fun i => vOf t (8 + i) 5) ==
      [0x3F000000, 0xBF000000, 0x3F000000, 0x3FC00000, 0xBF000000, 0xBF000000, 0x3F000000, 0x3F000000]) = true := by decide +kernel
theorem test_de8_counts : ran (.de8 plain 0 (.v 8) (.v 4) (.v 5)) (sv 0x0001 127 0 0) (fun t =>
    ((List.range 8).all fun i => vOf t (8 + i) 0 == 0) && (ctxOf t 0).e8n == 32#32) = true := by decide +kernel
/-- 06 R159: the worked point, with NX. -/
theorem test_qe8_worked : ran (.qe8 plain 0 (.v 7) (.v 8) (.s 4)) { s1 with
      me := { wave1 with s := [(4, 127#32)],
                         v := ([0x3F600000, 0xBE400000, 0x3F200000, 0x3FA80000, 0, 0xBF500000, 0x3F100000, 0x3E000000] : List Word32).zipIdx.map
                           fun x => (8 + x.2, Vector.replicate 32 x.1) }, iss := 1 }
    (fun t => vOf t 7 0 == 0x2D20 && flagsAt t 0 == 1) = true := by decide +kernel

/-- 07 R193, the worked reduction: the tree and the fold over four lanes. -/
def sFour : State := sFirst [0x4B800000, 0x3F800000, 0x3F800000, 0x3F800000]
theorem test_wred_tree : ran (.wred plain .fadd false (.v 6) (.v 5)) sFour (fun t =>
    (List.finRange 32).all fun l => vOf t 6 l == (if l.val < 4 then 0x4B800001 else 0) && flagsAt t l == (if l.val < 4 then 1 else 0)) = true := by
  decide +kernel
theorem test_wpfx_fold : ran (.wpfx plain .fadd false false (.v 7) (.v 5)) sFour (fun t =>
    (List.finRange 32).all fun l => vOf t 7 l == (if l.val < 4 then 0x4B800000 else 0)) = true := by decide +kernel
/-- 07 R194: a mask register is written whole. -/
theorem test_kmov_whole : ran (.kmov plain (.kr 2 .zero)) { s1 with
      me := { wave1 with k := [(2, 0xFFFFFFFF#32)] }, iss := 0xFFFF0000 } (fun t => Table.getD t.me.k 2 0 == 0#32) = true := by decide +kernel

/-- 11 R288, 10 R262: the first byte is the lowest; s4 holds the address 0x140. -/
def sBytes : State := { sv 0xAABBCCDD 0 0 0x140 with mem := putBytes s1.mem 0x140 0x84030201 4 }
theorem test_ld_order : ran (.ld plain .b32 false .core false (.v 7) ⟨.s 4, .zero, 0⟩) sBytes (v7Is 0x84030201) = true := by decide +kernel
theorem test_ld_sign : ran (.ld plain .z8 false .core false (.v 7) ⟨.s 4, .zero, 3⟩) sBytes (v7Is 0xFFFFFF84) = true := by decide +kernel
theorem test_st_byte : ran (.st plain .n8 false .core false (.v 4) ⟨.s 4, .zero, 2⟩) { sBytes with iss := 1 }
    (fun t => number (coreByte t 0) 0x140 4 == 0x84DD0201) = true := by decide +kernel
theorem test_ld_misaligned : ran (.ld plain .b32 false .core false (.v 7) ⟨.s 4, .zero, 0⟩) { sv 0 0 0 0x142 with iss := 1 }
    (fun t => t.me.lanes[(0 : Fin 32)].life == .frag 0 && vOf t 7 0 == 0) = true := by decide +kernel
/-- 11 R299: an atomic answers the old value. -/
theorem test_atom_old : ran (.atom plain .add false false .acq .pkg (.v 7) (.s 4) (.v 4)) { sBytes with iss := 1 }
    (fun t => vOf t 7 0 == 0x84030201 && number (memByte t) 0x140 4 == 0x2EBECEDE) = true := by decide +kernel
/-- 03 R66, R68: a branch by two words back from the word at 0x108; the other lanes fall through. -/
theorem test_bra_target : ran (.bra { plain with k := 3 } 1) { s1 with me := { wave1 with k := [(3, 1#32)] } }
    (fun t => t.me.lanes[(0 : Fin 32)].pc == 0x110 && t.me.lanes[(1 : Fin 32)].pc == 0x110) = true := by decide +kernel
/-- 03 R72: the lanes that pass the guard end. -/
theorem test_exit_lanes : ran (.exit { plain with k := 3 }) { s1 with me := { wave1 with k := [(3, 1#32)] } }
    (fun t => t.me.lanes[(0 : Fin 32)].life == .exited && t.me.lanes[(1 : Fin 32)].life == .live) = true := by decide +kernel
/-- 17 R395, R396: the timer and its armed value. -/
theorem test_wtimer_sets : ran (.wtimer plain (.s 4)) (sv 0 0 0 77) (fun t => t.me.timer == 77) = true := by decide +kernel
/-- 07 R195: the lowest active lane. -/
theorem test_elect_lowest : ran (.elect plain 2) { s1 with iss := 0xFFFFFFF0 } (fun t => Table.getD t.me.k 2 0 == 0x10#32) = true := by
  decide +kernel
/-- 03 R77. -/
theorem test_wprio_sets : ran (.wprio plain 3) s1 (fun t => t.me.prio == 3) = true := by decide +kernel

/-! ### Witnesses: decoding, and bytes in their form -/

/-- A program word and an admin command that the checks accept. -/
theorem witness_WordsReadBack : Instr.isWord (.iadd headed .n64 true (.v 318) (.s 126) .zero) = true ∧
    Instr.wf (.iadd headed .n64 true (.v 318) (.s 126) .zero) = true ∧
    (decode 0x0400010080500000).isSome = true ∧
    Instr.isCommand (.create { tag := 0xFFFF, n := 4095, a := 0xFFFFFFFFFFFFFFFF, b := 0, c := 1, resv := true }) = true ∧
    Instr.wf (.create { tag := 0xFFFF, n := 4095, a := 0xFFFFFFFFFFFFFFFF, b := 0, c := 1, resv := true }) = true := by decide
/-- The machine right after reset, and its first step. -/
theorem witness_BytesStayFormed : BytesFormed State.reset ∧ ∃ t, step State.reset = .next t :=
  ⟨⟨by decide, by decide, by decide⟩, by
    have h : (match step State.reset with
      | .next _ => true
      | _ => false) = true := by decide +kernel
    revert h
    cases step State.reset with
    | next t => exact fun _ => ⟨t, rfl⟩
    | fault f => intro h; cases h
    | refused r => intro h; cases h⟩
/-! ### Witnesses: register instructions -/

theorem witness_IntegerResults : ∃ f, integerForm (.iadd plain .z64 true (.v 318) (.v 2) (.s 126)) = some f ∧ Issuing s1 ∧
    Sourced s1 f.h f.srcs :=
  ⟨_, rfl, issuing1, sourced_of _ _ _ rfl (by decide +kernel)⟩
theorem witness_IntegerResults_moves : ∃ f, moveForm (.mad64 plain true (.v 0) (.v 319) (.s 127) (.v 4)) = some f ∧
    Issuing s1 ∧ Sourced s1 f.h f.srcs :=
  ⟨_, rfl, issuing1, sourced_of _ _ _ rfl (by decide +kernel)⟩
theorem witness_BitResults : ∃ f, logicForm (.bool3 plain .w32 0x96 (.v 319) (.v 2) (.v 3) .zero) = some f ∧ Issuing s1 ∧
    Sourced s1 f.h f.srcs :=
  ⟨_, rfl, issuing1, sourced_of _ _ _ rfl (by decide +kernel)⟩
theorem witness_BitResults_shifts : ∃ f, shiftForm (.sarImm plain .w64 (.v 0) (.v 318) 0xFFFFFF) = some f ∧ Issuing s1 ∧
    Sourced s1 f.h f.srcs :=
  ⟨_, rfl, issuing1, sourced_of _ _ _ rfl (by decide +kernel)⟩
theorem witness_FloatResults : ∃ e, floatEffect (.fdot2 plain true .rm (.v 319) ⟨true, true, .v 1⟩ ⟨false, true, .v 2⟩
    ⟨true, false, .s 127⟩) = some e ∧ Issuing s1 ∧ Sourced s1 e.h e.srcs :=
  ⟨_, rfl, issuing1, sourced_of _ _ _ rfl (by decide +kernel)⟩
theorem witness_FloatResults_convert : ∃ e, convertEffect (.fpack plain .e2m1 3 .rs (.v 319) (.v 0) (.v 1) (.v 2)) = some e ∧
    Issuing s1 ∧ Sourced s1 e.h e.srcs :=
  ⟨_, rfl, issuing1, sourced_of _ _ _ rfl (by decide +kernel)⟩
theorem witness_LaneResults : ∃ e, latticeEffect (.qe8 plain 7 (.v 319) (.v 8) (.s 0)) = some e ∧ Issuing s1 ∧
    Sourced s1 e.h e.srcs :=
  ⟨_, rfl, issuing1, sourced_of _ _ _ rfl (by decide +kernel)⟩
theorem witness_LaneResults_counting : ∃ c e, countingEffect (.de8 plain 0 (.v 312) (.v 8) (.s 0)) = some (c, e) ∧
    Issuing s1 ∧ Sourced s1 e.h e.srcs :=
  ⟨_, _, rfl, issuing1, sourced_of _ _ _ rfl (by decide +kernel)⟩
theorem witness_LaneResults_lanes : ∃ e, laneEffect (.wpfx plain .min true true (.v 319) (.v 0)) = some e ∧ Issuing s1 ∧
    Sourced s1 e.h e.srcs :=
  ⟨_, rfl, issuing1, sourced_of _ _ _ rfl (by decide +kernel)⟩
theorem witness_MaskResults : ∃ e, compareEffect (.fcmp plain .ord 15 ⟨false, false, .v 319⟩ ⟨true, true, .s 0⟩) = some e ∧
    Issuing s1 ∧ Sourced s1 e.h e.srcs :=
  ⟨_, rfl, issuing1, sourced_of _ _ _ rfl (by decide +kernel)⟩
theorem witness_MaskResults_masks : ∃ e, maskEffect (.kmov plain (.kr 15 (.s 127))) = some e ∧ Issuing s1 ∧
    Sourced s1 e.h e.srcs :=
  ⟨_, rfl, issuing1, sourced_of _ _ _ rfl (by decide +kernel)⟩

/-! ### Witnesses: control -/

/-- The threads are in a `sleep` that ends when the wave has run 7 cycles. -/
def sSleep : State := withLanes fun l => { l with wait := .sleep 7 }
theorem issuingSleep : Issuing sSleep := ⟨rfl, by decide, by decide +kernel, rfl, rfl⟩
/-- A pending wave of the core that is ready. -/
def sYield : State := { s1 with waves := [(1, { wave1 with key := 1, slot := 1, active := false })],
                                dikes := [(0, { quads := 1, running := some 0 })] }
theorem issuingYield : Issuing sYield := ⟨rfl, by decide, by decide +kernel, rfl, rfl⟩
/-- Guarded by k1: only lane 31 passes. -/
def hk1 : Head := { stop := true, sw := true, k := 1, inv := false }
def sK1 : State := { s1 with me := { wave1 with k := [(1, 0x80000000#32)] } }
theorem issuingK1 : Issuing sK1 := ⟨rfl, by decide, by decide +kernel, rfl, rfl⟩

theorem witness_PlainWordsGoOn : Issuing s1 ∧ active s1 plain ≠ 0 ∧ yieldsTo s1 = none ∧
    ∀ x, s1.me.lanes[lowest s1.iss].wait ≠ .sleep x :=
  ⟨issuing1, by decide +kernel, by decide +kernel, fun x => by
    have : s1.me.lanes[lowest s1.iss].wait = .none := by decide +kernel
    rw [this]; exact Wait.noConfusion⟩
theorem witness_PlainWordsGoOn_yield : Issuing sYield ∧ active sYield plain ≠ 0 ∧ (yieldsTo sYield).isSome = true :=
  ⟨issuingYield, by decide +kernel, by decide +kernel⟩
theorem witness_PlainWordsGoOn_sleep : Issuing sSleep ∧ sSleep.me.lanes[lowest sSleep.iss].wait = .sleep 7 :=
  ⟨issuingSleep, by decide +kernel⟩
theorem witness_PlainWordsGoOn_exit : Issuing sK1 ∧ sK1.me.ap = none ∧
    ∃ l : Fin 32, sK1.me.lanes[l].life ≠ .exited ∧ (active sK1 hk1).getLsbD l = false :=
  ⟨issuingK1, rfl, 30, by decide +kernel⟩
theorem witness_PlainWordsGoOn_last : Issuing s1 ∧ s1.me.ap = none ∧
    (∀ l : Fin 32, s1.me.lanes[l].life = .exited ∨ (active s1 plain).getLsbD l = true) ∧
    (∀ f ∈ s1.frags, f.2.wave ≠ s1.me.key) ∧ ∀ r ∈ s1.remotes, owesAnswer r.2 s1.me.key = false :=
  ⟨issuing1, rfl, by decide +kernel, by decide, by decide⟩
theorem witness_PlainWordsGoOn_program : Issuing sAp ∧ sAp.me.ap = some {} ∧ active sAp plain ≠ 0 :=
  ⟨issuingAp, rfl, by decide +kernel⟩

/-- Thread 30 stands held at 0x110; thread 31, its last partner, is about to exit by k1. -/
def sMeet1 : State :=
  let gone : Lane := { lane1 with life := .exited }
  let held : Lane := { lane1 with pc := 0x110, hdr := 0x110, meets := [0x22], wait := .held }
  let last : Lane := { lane1 with meets := [0x22] }
  { sK1 with me := { sK1.me with lanes := ((Vector.replicate 32 gone).set 30 held).set 31 last }, iss := 0x80000000 }

/-- Threads in a divergent block. -/
def sDiv : State := { sK1 with me := { sK1.me with lanes := Vector.replicate 32 { lane1 with hword := hdrDiv } } }
theorem issuingDiv : Issuing sDiv := ⟨rfl, by decide, by decide +kernel, rfl, rfl⟩

theorem witness_BranchesTransfer : ∃ m target, transfer s1 (.bra plain 0xFFFFFFFF) = some (m, target) ∧ Issuing s1 ∧
    OneGroup s1 ∧ transferClean s1 (.bra plain 0xFFFFFFFF) ∧ CanTransfer s1 (nextOf s1 m target) m noTag :=
  ⟨_, _, rfl, issuing1, group1, trivial, by decide +kernel, fun h => absurd h (by decide +kernel),
    fun h => absurd h.1 (by decide +kernel)⟩
/-- A split: lane 31 goes to 0x100, the others to 0x110. -/
theorem witness_BranchesTransfer_split : ∃ m target, transfer sDiv (.brc plain .set 1 0xFFFFFFFF) = some (m, target) ∧
    Issuing sDiv ∧ OneGroup sDiv ∧ CanTransfer sDiv (nextOf sDiv m target) m noTag ∧ Splits sDiv (nextOf sDiv m target) :=
  ⟨_, _, rfl, issuingDiv, by unfold OneGroup; decide +kernel,
    ⟨by decide +kernel, fun _ _ => ⟨by decide +kernel, fun x => by
        have : checkTarget sDiv (meetingHere sDiv) (fun _ => true) = .ok := by decide +kernel
        rw [this]; exact ⟨Target.noConfusion, Target.noConfusion⟩⟩, fun _ => by decide +kernel⟩,
    by decide +kernel, 30, 31, by decide +kernel⟩
/-- Meetings alone can move threads: of a branch to the header that every stack names, and of an exit of all but one thread. -/
def notTramp : Wait → Bool
  | .tramp _ => false
  | _ => true
theorem onlyMeetings (s : State) (h : (groupOf s s.me.group).bars = []) (w : ∀ l : Fin 32, notTramp s.me.lanes[l].wait = true) :
    OnlyMeetings s :=
  ⟨fun e he => by rw [h] at he; simp at he, fun l id he => by have := w l; rw [he] at this; simp [notTramp] at this⟩
def sMet : State := withLanes fun l => { l with meets := [0x22, 7] }
theorem witness_BranchesTransfer_meeting : ∃ m target, transfer sMet (.bra plain 1) = some (m, target) ∧ Issuing sMet ∧
    OneGroup sMet ∧ CanTransfer sMet (nextOf sMet m target) m noTag ∧ OnlyMeetings sMet ∧
    Met (fun l => goneTo (kernOf sMet) sMet.me.lanes[l] (nextOf sMet m target l) [0x22, 7]) 5 :=
  ⟨_, _, rfl, ⟨rfl, by decide, by decide +kernel, rfl, rfl⟩, by unfold OneGroup; decide +kernel,
    ⟨by decide +kernel, fun h => absurd h (by decide +kernel), fun h => absurd h.1 (by decide +kernel)⟩,
    onlyMeetings _ rfl (by decide +kernel), by unfold Arrived; decide +kernel, by unfold Partner Arrived; decide +kernel⟩
theorem test_last_arrival_pops : ran (.bra plain 1) sMet (fun t => (List.finRange 32).all fun l =>
    t.me.lanes[l].meets == [7] && t.me.lanes[l].wait == .none) = true := by decide +kernel
theorem witness_BranchesTransfer_exit : Issuing sMeet1 ∧ sMeet1.me.ap = none ∧ OnlyMeetings sMeet1 ∧
    ∃ l : Fin 32, sMeet1.me.lanes[l].life ≠ .exited ∧ (active sMeet1 hk1).getLsbD l = false :=
  ⟨⟨rfl, by decide, by decide +kernel, rfl, rfl⟩, rfl, onlyMeetings _ rfl (by decide +kernel), 30, by decide +kernel⟩
theorem witness_CallsAndRefills_call : Issuing s1 ∧ OneGroup s1 ∧
    CanTransfer s1 (nextOf s1 (active s1 plain) fun l => s1.me.lanes[l].pc + BitVec.ofInt 64 (8 * (-1))) (active s1 plain)
      noTag :=
  ⟨issuing1, group1, by decide +kernel, fun h => absurd h (by decide +kernel), fun h => absurd h.1 (by decide +kernel)⟩
theorem witness_CallsAndRefills_refill : ∃ la, (groupOf s1 s1.me.group).launch = some 0 ∧ Table.get? s1.launches 0 = some la ∧
    (kernOf s1).refill = true ∧ (lanesIn (active s1 plain)).length ≤ (Table.getD la.itemq s1.me.core []).length ∧
    let draws := (lanesIn (active s1 plain)).zip (Table.getD la.itemq s1.me.core [])
    CanTransfer s1 (nextOf s1 (maskOf (draws.map Prod.fst)) fun l => s1.me.lanes[l].pc + BitVec.ofInt 64 (8 * 3))
      (maskOf (draws.map Prod.fst)) headerRefill :=
  ⟨_, rfl, rfl, rfl, by decide +kernel, by decide +kernel, fun h => absurd h (by decide +kernel),
    fun h => absurd h.1 (by decide +kernel)⟩

/-- Threads with one meeting on their stack, and with a full stack. -/
def sMeet : State := withLanes fun l => { l with meets := [0x22] }
theorem issuingMeet : Issuing sMeet := ⟨rfl, by decide, by decide +kernel, rfl, rfl⟩
/-- Threads in a trampoline. -/
def sTramp : State := withLanes fun l => { l with tret := some { ret := 0x108, hdr := 0x100, hword := hdr1, code := [0] } }
theorem issuingTramp : Issuing sTramp := ⟨rfl, by decide, by decide +kernel, rfl, rfl⟩

theorem witness_MeetingsChange_drop : Issuing sMeet ∧ OneGroup sMeet ∧
    ∀ l : Fin 32, (active sMeet plain).getLsbD l = true → sMeet.me.lanes[l].meets ≠ [] :=
  ⟨issuingMeet, by unfold OneGroup; decide +kernel, by decide +kernel⟩
theorem witness_MeetingsChange_push : headerMeet s1.me.lanes[lowest s1.iss].hword ≠ 0 ∧
    checkTarget s1 (meetingHere s1) noTag = .ok ∧
    ∀ l : Fin 32, (active s1 plain).getLsbD l = true → s1.me.lanes[l].meets.head? ≠ some (meetingEntry s1) →
      s1.me.lanes[l].meets.length < (kernOf s1).depth :=
  ⟨by decide +kernel, by decide +kernel, by decide +kernel⟩
theorem witness_MeetingsChange_tramp : active s1 plain ≠ 0 ∧
    (∀ l : Fin 32, (active s1 plain).getLsbD l = true → s1.me.lanes[l].tret = none) ∧
    checkTarget s1 (s1.me.lanes[lowest s1.iss].pc + BitVec.ofInt 64 (8 * (-1))) noTag = .ok :=
  ⟨by decide +kernel, by decide +kernel, by decide +kernel⟩
theorem witness_MeetingsChange_inactive : Issuing s1 ∧ OneGroup s1 ∧ active s1 hk1 = 0 :=
  ⟨issuing1, group1, by decide +kernel⟩
theorem witness_MeetingsChange_tret : Issuing sTramp ∧ OneGroup sTramp ∧
    ∀ l : Fin 32, (active sTramp plain).getLsbD l = true →
      ∃ x, sTramp.me.lanes[l].tret = some x ∧ x.depth = sTramp.me.lanes[l].meets.length :=
  ⟨issuingTramp, by unfold OneGroup; decide +kernel, fun l _ =>
    ⟨{ ret := 0x108, hdr := 0x100, hword := hdr1, code := [0] }, by revert l; decide +kernel⟩⟩

/-- The same where the context holds a resource share. -/
def sBr : State := { s1 with dikes := [(0, { quads := 1, running := some 0 })], me := { wave1 with k := [(1, 0x80000000#32)] } }
theorem issuingBr : Issuing sBr := ⟨rfl, by decide, by decide +kernel, rfl, rfl⟩
theorem canArriveBar (h : Head) (sc : Scope) (a : active sBr h ≠ 0) : CanArrive sBr h sc 15 none :=
  ⟨a, by decide, by decide, fun _ h => (nomatch h), fun l _ => by
    have none_ : ∀ (l : Fin 32) k, arrivedIn sBr.me.lanes[l] k = none := fun l k => by
      show arrivedIn (Vector.replicate 32 lane1)[l] k = none
      simp [arrivedIn, lane1, Table.get?]
    rw [none_]; exact Option.some_ne_none _ |>.symm⟩
theorem onlyBar (sc : Scope) : OnlyBarrier sBr sc 15 :=
  ⟨fun e he => (nomatch he), by cases sc <;> decide +kernel, ⟨_, rfl, _, rfl⟩, by decide⟩
theorem witness_BarriersWait : Issuing sBr ∧ sBr.me.ap = none ∧ FirstTry sBr ∧ CanArrive sBr plain .core 15 none ∧
    OnlyBarrier sBr .core 15 ∧ LastArrival sBr plain .core 15 ∧
    residentCtx sBr (groupOf sBr sBr.me.group).ctx = true :=
  ⟨issuingBr, rfl, Or.inl (by decide +kernel), canArriveBar _ _ (by decide +kernel), onlyBar _,
    by unfold LastArrival ArrivesNow; decide +kernel, by decide +kernel⟩
theorem witness_BarriersWait_early : CanArrive sBr hk1 .core 15 none ∧ ¬ LastArrival sBr hk1 .core 15 ∧
    (barrierOf sBr sBr.me.group .core (barKey sBr .core 15)).groups = [] ∧
    (barrierOf sBr sBr.me.group .core (barKey sBr .core 15)).others = 0 :=
  ⟨canArriveBar _ _ (by decide +kernel), by unfold LastArrival ArrivesNow; decide +kernel, rfl, rfl⟩
theorem witness_BarriersWait_wider : CanArrive sBr plain .die 15 none ∧ OnlyBarrier sBr .die 15 ∧
    LastArrival sBr plain .die 15 ∧ sBr.me.group ∉ (barrierOf sBr sBr.me.group .die (barKey sBr .die 15)).groups ∧
    barCount sBr none ≤ (barrierOf sBr sBr.me.group .die (barKey sBr .die 15)).groups.length +
      (barrierOf sBr sBr.me.group .die (barKey sBr .die 15)).others + 1 :=
  ⟨canArriveBar _ _ (by decide +kernel), onlyBar _, by unfold LastArrival ArrivesNow; decide +kernel, by decide +kernel,
    by decide +kernel⟩
/-- Thread 31 has arrived already in the open phase, the others have not. -/
def sBrTwice : State :=
  { sBr with me := { sBr.me with lanes := sBr.me.lanes.set 31 { lane1 with arr := [(barrierKey .core 0 15, 0)] } } }
theorem witness_BarriersWait_twice : Issuing sBrTwice ∧ active sBrTwice hk1 ≠ 0 ∧ OnlyBarrier sBrTwice .core 15 ∧
    groupArrived sBrTwice sBrTwice.me.group (barKey sBrTwice .core 15) (openPhase sBrTwice .core 15) = false ∧
    ∀ l : Fin 32, (active sBrTwice hk1).getLsbD l = true →
      arrivedIn sBrTwice.me.lanes[l] (barKey sBrTwice .core 15) = some (openPhase sBrTwice .core 15) :=
  ⟨⟨rfl, by decide, by decide +kernel, rfl, rfl⟩, by decide +kernel,
    ⟨fun e he => (nomatch he), by decide +kernel, ⟨_, rfl, _, rfl⟩, by decide⟩, by decide +kernel, by decide +kernel⟩
theorem witness_BarriersWait_waited : (∃ l : Fin 32, s1.iss.getLsbD l = true ∧ arrivedIn s1.me.lanes[l] 3 = none) ∧
    ∃ l : Fin 32, sBrTwice.iss.getLsbD l = true ∧ (active sBrTwice hk1).getLsbD l = true ∧
      openPhase sBrTwice .core 15 ≤ 0 :=
  ⟨⟨0, by decide +kernel⟩, 31, by decide +kernel⟩
/-- The widest count of a wider barrier. -/
theorem witness_BarriersWait_count : let s := { s1 with me := { wave1 with s := [(4, 16777216#32)] } }
    barCount s (some (.s 4)) = 16777216 ∧ poisonLanes s [(.s 4, 1)] (active s plain) = 0 := by decide +kernel
theorem witness_BarriersWait_ended : let s := { s1 with groups := [(0, { kern := kern1, waves := [0], bars :=
      [(barrierKey .core 0 3, { phase := 1 })] })] }
    Issuing s ∧ FirstTry s ∧ 0 < (barrierOf s s.me.group .core (barrierKey .core s.me.core 3)).phase :=
  ⟨⟨rfl, by decide, by decide +kernel, rfl, rfl⟩, Or.inl (by decide +kernel), by decide +kernel⟩

/-! ### Witnesses: memory -/

theorem allFound_of (ls : List (Fin 32)) (found : Fin 32 → Chk) (pa : Nat) (h : ∀ l ∈ ls, found l = .ok pa) :
    AllFound ls found := fun l m => Or.inl ⟨pa, h l m⟩

/-- The pair s4 holds the last 16 bytes of the heap, s6 the last 16 of the scratchpad, s7 the last 16 of the data section. -/
def sMem : State :=
  { s1 with me := { wave1 with s := [(4, 0x3FFFFFF0#32), (6, 0xFF0#32), (7, 0x30#32)] },
            groups := [(0, { launch := some 0, kern := { kern1 with dataOff := 0x200, dataSize := 64 }, waves := [0] })] }
theorem issuingMem : Issuing sMem := ⟨rfl, by decide, by decide +kernel, rfl, rfl⟩
theorem quietMem : Quiet sMem := ⟨rfl, rfl, by decide⟩

theorem witness_LoadsReadMemory_ld : let srcs := [((.s 4 : Operand), 2), (.zero, 1)]
    Issuing sMem ∧ Sourced sMem plain srcs ∧ Quiet sMem ∧
    AllFound (accessors true (active sMem plain)) (loadPlace (taken sMem plain srcs) ⟨.s 4, .zero, 0⟩ 16) :=
  ⟨issuingMem, sourced_of _ _ _ rfl (by decide +kernel), quietMem, allFound_of _ _ 0x3FFFFFF0 (by decide +kernel)⟩
theorem witness_LoadsReadMemory_ldsp : let srcs := [((.s 6 : Operand), 1), (.zero, 1)]
    Issuing sMem ∧ Sourced sMem plain srcs ∧
    ∀ l ∈ accessors false (active sMem plain),
      ∃ o, spPlace (taken sMem plain srcs) ⟨.s 6, .zero, 0⟩ 16 { load := true, watchLoad := true } l = .ok o :=
  ⟨issuingMem, sourced_of _ _ _ rfl (by decide +kernel), fun l h => ⟨0xFF0, by revert l h; decide +kernel⟩⟩
theorem witness_LoadsReadMemory_ldc : let srcs := [((.s 7 : Operand), 1)]
    Issuing sMem ∧ Sourced sMem plain srcs ∧ Quiet sMem ∧ AllFound (accessors false (active sMem plain)) fun l =>
      dataChk (taken sMem plain srcs) l
        (BitVec.ofInt 32 ((src32 (taken sMem plain srcs) (.s 7) l).toNat + BitVec.toInt (0 : BitVec 12) * (16 : Nat))) 16 :=
  ⟨issuingMem, sourced_of _ _ _ rfl (by decide +kernel), quietMem, allFound_of _ _ 0x230 (by decide +kernel)⟩
theorem witness_StoresWriteMemory_st : let srcs := [((.v 0 : Operand), 4), (.s 4, 2), (.zero, 1)]
    Issuing sMem ∧ Sourced sMem plain srcs ∧ Quiet sMem ∧
    AllFound (accessors false (active sMem plain)) (storePlace (taken sMem plain srcs) ⟨.s 4, .zero, 0⟩ 16) :=
  ⟨issuingMem, sourced_of _ _ _ rfl (by decide +kernel), quietMem, allFound_of _ _ 0x3FFFFFF0 (by decide +kernel)⟩
theorem witness_StoresWriteMemory_zfill : let srcs := [((.zero : Operand), 2), (.zero, 1)]
    Issuing sMem ∧ Sourced sMem plain srcs ∧ Quiet sMem ∧
    AllFound (lanesIn (active sMem plain)) (storePlace (taken sMem plain srcs) ⟨.zero, .zero, 1⟩ 256) :=
  ⟨issuingMem, sourced_of _ _ _ rfl (by decide +kernel), quietMem, allFound_of _ _ 0x100 (by decide +kernel)⟩
theorem witness_StoresWriteMemory_stsp : let srcs := [((.v 0 : Operand), 4), (.s 6, 1), (.zero, 1)]
    (Table.get? sMem.groups sMem.me.group).isSome = true ∧ Issuing sMem ∧ Sourced sMem plain srcs ∧
    ∀ l ∈ accessors false (active sMem plain),
      ∃ o, spPlace (taken sMem plain srcs) ⟨.s 6, .zero, 0⟩ 16 { store := true, watchStore := true } l = .ok o :=
  ⟨rfl, issuingMem, sourced_of _ _ _ rfl (by decide +kernel), fun l h => ⟨0xFF0, by revert l h; decide +kernel⟩⟩
theorem witness_AtomicsUpdate_atom : let srcs := [((.s 4 : Operand), 2), (.v 0, 4)]
    Issuing sMem ∧ Sourced sMem plain srcs ∧ Quiet sMem ∧ AllFound (accessors false (active sMem plain))
      (fun l => globalChk (taken sMem plain srcs) l (src64 (taken sMem plain srcs) (.s 4) l) 8
        { load := true, store := true, watchLoad := true, watchStore := true }) :=
  ⟨issuingMem, sourced_of _ _ _ rfl (by decide +kernel), quietMem, allFound_of _ _ 0x3FFFFFF0 (by decide +kernel)⟩
theorem witness_AtomicsUpdate_atomsp : let srcs := [((.s 6 : Operand), 1), (.v 0, 1)]
    Issuing sMem ∧ Sourced sMem plain srcs ∧ ∀ l ∈ accessors false (active sMem plain),
      ∃ o, spChk (taken sMem plain srcs) l (src32 (taken sMem plain srcs) (.s 6) l) 4
        { load := true, store := true, watchLoad := true, watchStore := true } = .ok o :=
  ⟨issuingMem, sourced_of _ _ _ rfl (by decide +kernel), fun l h => ⟨0xFF0, by revert l h; decide +kernel⟩⟩
theorem witness_AtomicsUpdate_red : let srcs := [((.v 0 : Operand), 1), (.s 4, 2)]
    Issuing sMem ∧ Sourced sMem plain srcs ∧ Quiet sMem ∧ AllFound (accessors false (active sMem plain))
      (fun l => globalChk (taken sMem plain srcs) l (src64 (taken sMem plain srcs) (.s 4) l) 4
        { store := true, watchStore := true }) :=
  ⟨issuingMem, sourced_of _ _ _ rfl (by decide +kernel), quietMem, allFound_of _ _ 0x3FFFFFF0 (by decide +kernel)⟩
/-- The log has room for exactly one record of every lane. -/
theorem witness_AtomicsUpdate_atomf : let srcs := [((.s 4 : Operand), 2), (.v 0, 1)]
    let s := { sMem with groups := [(0, { launch := some 0, kern := { kern1 with redBytes := 512 }, waves := [0] })] }
    Issuing s ∧ Sourced s plain srcs ∧ (groupOf s s.me.group).launch = some 0 ∧ (kernOf s).usesAtomf = true ∧
    ∃ la, Table.get? s.launches 0 = some la ∧
      (la.log.length + (lanesIn (active s plain)).length) * 16 ≤ (kernOf s).redBytes ∧
      ∀ l ∈ lanesIn (active s plain), globalChk (taken s plain srcs) l (src64 (taken s plain srcs) (.s 4) l) 4
        { store := true, watchStore := true } = .ok 0x3FFFFFF0 :=
  ⟨⟨rfl, by decide, by decide +kernel, rfl, rfl⟩, sourced_of _ _ _ rfl (by decide +kernel), rfl, rfl, _, rfl,
    by decide +kernel, by decide +kernel⟩
theorem witness_AtomicsUpdate_one : Table.rising sMem.dirty = true ∧ (2 ^ 39 - 8) % 8 = 0 ∧ 2 ^ 39 - 8 + 8 ≤ corePitch := by
  decide +kernel
/-- A page freed while a store through it is pending: it stays in quarantine until memory holds the store. -/
theorem witness_FencesRelease_quarantine :
    let d := { page := 0x10000, epoch := 7, no := 3, stores := [5] : Freed }
    let s := { s1 with quarantine := [d], dirty := [(5, 0xAA)] }
    s.quarantine = [d] ∧ quietSince s d = false ∧ quietSince { s with dirty := [] } d = true := by decide +kernel
/-- An access of the context awaits another package. -/
theorem witness_FencesRelease_awaited : let r : RemoteReq := { addr := 0x10000, bytes := 8, wr := some 0 }
    AwaitedBy { s1 with remotes := [(0, r)] } .sys true (fun _ _ => True) r ∧ Table.rising s1.dirty = true :=
  ⟨⟨rfl, Or.inl rfl, by decide +kernel⟩, by decide⟩
theorem witness_FencesRelease : Scope.sys ≠ Scope.core ∧ Table.rising sMem.dirty = true ∧ ∀ r ∈ sMem.reds, r.core ≠ 1151 := by
  decide +kernel
/-- The last page and the largest count. -/
theorem witness_FencesRelease_range :
    let s := { s1 with me := { wave1 with s := [(4, 0xFFFF0000#32), (5, 0xFFFFFFFF#32), (6, 0xFFFFFFFF#32)] } }
    Issuing s ∧ Sourced s plain [(.s 4, 2), (.s 6, 1)] ∧ (src64 s (.s 4) 0).toNat % 65536 = 0 ∧ src32 s (.s 6) 0 ≠ 0 :=
  ⟨⟨rfl, by decide, by decide +kernel, rfl, rfl⟩, sourced_of _ _ _ rfl (by decide +kernel), by decide +kernel,
    by decide +kernel⟩

/-! ### Witnesses: exceptions -/

/-- The context has a handler table at 0x8000 whose entry for TRAP is 0x110; only lane 31 passes k1. -/
def sTrap : State :=
  { sK1 with ctxs := [(0, { cfg := { cfg1 with hdlTab := 0x8000 } })],
             mem := putBytes s1.mem (0x8040 + 8 * Cause.bitNo .trap) 0x110 8 }
theorem issuingTrap : Issuing sTrap := ⟨rfl, by decide, by decide +kernel, rfl, rfl⟩
theorem groupTrap : OneGroup sTrap := by unfold OneGroup; decide +kernel
theorem canFaultTrap : CanFault sTrap 0x80000000 0 := ⟨rfl, by decide, by decide +kernel, by decide +kernel, by decide +kernel⟩

theorem tableTrap : handlerTable sTrap 0 = some (0x110 * 256 ^ (0x40 + 8 * Cause.bitNo .trap)) := by decide +kernel

/-- The frame of lane 31 stands at 0xCE00. -/
theorem framePlace (i : Nat) (h : i < 256) : translate sTrap sTrap.me.ctx ((ctxOf sTrap sTrap.me.ctx).cfg.hdlTab +
    BitVec.ofNat 64 (frameOffset sTrap sTrap.me (31 : Fin 32).val + i)) true = .ok (0xCE00 + i) := by
  revert h; revert i; decide +kernel
theorem only31 (l : Fin 32) (h : (0x80000000#32).getLsbD l = true) : l = 31 := by revert l; decide +kernel

theorem canEnterTrap : CanEnter sTrap 0x80000000 .trap 0x110 where
  table := ⟨_, tableTrap, by decide +kernel, by decide⟩
  entry := ⟨by decide, by decide, Or.inl ⟨hdr1, by decide +kernel, by decide +kernel⟩⟩
  frames := fun l h i hi => by cases only31 l h; exact ⟨_, framePlace i hi⟩
  expansions := rfl
  apart := fun l j hl hj i hi k hk n => by
    cases only31 l hl; cases only31 j hj
    unfold vaToPa
    rw [framePlace i hi, framePlace k hk]
    intro e
    exact n (by simp at e; simp [e])
  runs := rfl
  none := by decide +kernel

theorem witness_ExceptionsEnterHandlers : ∃ detail, raises sTrap (.trap hk1 0xFFFFFF) = some (0x80000000, .trap, detail, true) ∧
    Issuing sTrap ∧ OneGroup sTrap ∧ CanFault sTrap 0x80000000 0 ∧ CanEnter sTrap 0x80000000 .trap 0x110 := by
  refine ⟨fun _ => 0xFFFFFF, ?_, issuingTrap, groupTrap, canFaultTrap, canEnterTrap⟩
  have h : active sTrap hk1 = 0x80000000#32 := by decide +kernel
  simp [raises, h]
/-- No lane has a cause. -/
theorem witness_ExceptionsPark_none : ∃ detail, raises s1 (.trap hk1 0) = some (0, .trap, detail, true) ∧ Issuing s1 := by
  refine ⟨fun _ => 0, ?_, issuing1⟩
  have h : active s1 hk1 = 0 := by decide +kernel
  simp [raises, h]
/-- The table has no entry for BKPT, and no debugger is attached. -/
theorem witness_ExceptionsPark : ∃ m c detail, raises sTrap (.bkpt hk1 1) = some (m, c, detail, false) ∧
    Issuing sTrap ∧ OneGroup sTrap ∧ CanFault sTrap m 0 ∧ handlerEntry (handlerTable sTrap sTrap.me.ctx) c = 0 ∧
    attached (handlerTable sTrap sTrap.me.ctx) = false := by
  refine ⟨0x80000000, .bkpt, fun _ => 1, ?_, issuingTrap, groupTrap, canFaultTrap, ?_, ?_⟩
  rotate_left
  · show handlerEntry (handlerTable sTrap 0) _ = 0
    rw [tableTrap]; decide +kernel
  · show attached (handlerTable sTrap 0) = false
    rw [tableTrap]; decide +kernel
  have h : active sTrap hk1 = 0x80000000#32 := by decide +kernel
  simp [raises, h]
/-- The lanes are in a handler. -/
theorem witness_ExceptionsPark_nested : let s := withLanes fun l => { l with handler := some 0 }
    Issuing s ∧ OneGroup s ∧ CanFault s 0xFFFFFFFF 0 ∧ s.me.lanes[lowest 0xFFFFFFFF].handler.isSome = true :=
  ⟨⟨rfl, by decide, by decide +kernel, rfl, rfl⟩, by unfold OneGroup; decide +kernel,
    ⟨rfl, by decide, by decide +kernel, by decide +kernel, by decide +kernel⟩, by decide +kernel⟩

/-- Lane 31 runs the handler of entry 0; its frame holds the resume point p, in the block at 0x100. -/
def sFrame (p : Nat) : State :=
  { sTrap with me := { sTrap.me with lanes := Vector.replicate 32 { lane1 with handler := some 0 } },
               mem := putBytes (putBytes sTrap.mem 0xCE08 p 8) 0xCE90 0x100 8,
               frags := [(0, { lanes := 0x80000000, st := .inHandler, cause := .trap })] }
theorem issuingFrame (p : Nat) : Issuing (sFrame p) := ⟨rfl, by show (0xFFFFFFFF#32) ≠ 0; decide, by
  show ∀ l : Fin 32, (0xFFFFFFFF#32).getLsbD l = true →
    (Vector.replicate 32 { lane1 with handler := some 0 } : Lanes Lane)[l].life = .live
  decide +kernel, rfl, rfl⟩

/-- The frame of lane 31 says where it returns to. -/
theorem frameSays (p : Nat) (d : globalChk (sFrame p) 31 (frameAddr (sFrame p) 31 + 0x28) 1 { load := true } = .ok 0xCE28 ∧
      number (seenByte (settleReds (sFrame p) 0 0xCE28 1) 0) 0xCE28 1 = 0)
    (e : globalChk (sFrame p) 31 (frameAddr (sFrame p) 31 + 8) 8 { load := true } = .ok 0xCE08 ∧
      number (seenByte (settleReds (sFrame p) 0 0xCE08 8) 0) 0xCE08 8 = p % 2 ^ 64)
    (g : globalChk (sFrame p) 31 (frameAddr (sFrame p) 31 + 0x90) 8 { load := true } = .ok 0xCE90 ∧
      number (seenByte (settleReds (sFrame p) 0 0xCE90 8) 0) 0xCE90 8 = 0x100) :
    FrameSays (sFrame p) 31 (BitVec.ofNat 64 p) 0x100 :=
  ⟨Or.inl ⟨_, d.1, d.2⟩, Or.inl ⟨_, e.1, e.2⟩, Or.inl ⟨_, g.1, g.2⟩⟩
theorem witness_HandlersReturn : Issuing (sFrame 0x108) ∧ (sFrame 0x108).me.ap = none ∧ active (sFrame 0x108) hk1 ≠ 0 ∧
    (∀ l : Fin 32, (active (sFrame 0x108) hk1).getLsbD l = true → (sFrame 0x108).me.lanes[l].handler = some 0) ∧
    (∀ l : Fin 32, (active (sFrame 0x108) hk1).getLsbD l = true → FrameSays (sFrame 0x108) l 0x108 0x100) ∧
    (∃ l : Fin 32, (sFrame 0x108).me.lanes[l].life ≠ .exited ∧ (active (sFrame 0x108) hk1).getLsbD l = false) ∧
    ∃ f, Table.get? (sFrame 0x108).frags 0 = some f ∧ f.st = .inHandler ∧ f.wave = (sFrame 0x108).me.key :=
  ⟨issuingFrame _, rfl, by decide +kernel, by decide +kernel, fun l h => by
      have e : active (sFrame 0x108) hk1 = 0x80000000#32 := by decide +kernel
      rw [e] at h
      cases only31 l h
      exact frameSays _ (by decide +kernel) (by decide +kernel) (by decide +kernel),
    ⟨0, by decide +kernel⟩, _, rfl, rfl, rfl⟩
theorem witness_HandlersReturn_parks : Issuing sTrap ∧ OneGroup sTrap ∧ CanFault sTrap (active sTrap hk1) 0 ∧
    ∀ l : Fin 32, (active sTrap hk1).getLsbD l = true → sTrap.me.lanes[l].handler = none := by
  have h : active sTrap hk1 = 0x80000000#32 := by decide +kernel
  rw [h]
  exact ⟨issuingTrap, groupTrap, canFaultTrap, by decide +kernel⟩
/-- A queue of two records with room for one, and a full one. -/
def sLog (used : Nat) : State :=
  withCtx fun c => { c with cfg := { cfg1 with fqEntries := 2 }, fqprod := BitVec.ofNat 64 used }
theorem witness_ExceptionsPark_logged : LogRoom (sLog 1) 0 0x10040 := by
  refine ⟨_, rfl, by decide +kernel, rfl, by decide +kernel, ?_⟩
  intro i h; revert h; revert i; decide +kernel
theorem witness_ExceptionsPark_lost : ∃ c, Table.get? (sLog 2).ctxs 0 = some c ∧
    (c.fqprod - c.fqcons).toNat = c.cfg.fqEntries := ⟨_, rfl, by decide +kernel⟩
/-- v4 is poisoned in lane 31. -/
def sPoison : State := { s1 with me := { wave1 with vpoison := [(4, 0x80000000#32)] } }
theorem witness_ExceptionsPark_poison : ∃ f, integerForm (.iadd plain .z32 false (.v 7) (.v 4) (.v 5)) = some f ∧
    Issuing sPoison ∧ OneGroup sPoison ∧ queuesIn f.srcs = [] ∧ CanFault sPoison 0x80000000 0 ∧
    (∀ l : Fin 32, (0x80000000#32).getLsbD l = true ↔ (active sPoison f.h).getLsbD l = true ∧ ReadsPoison sPoison f.srcs l) ∧
    handlerEntry (handlerTable sPoison sPoison.me.ctx) .poison = 0 :=
  ⟨_, rfl, ⟨rfl, by decide, by decide +kernel, rfl, rfl⟩, by unfold OneGroup; decide +kernel, rfl,
    ⟨rfl, by decide, by decide +kernel, by decide +kernel, by decide +kernel⟩, by
      intro l
      have e : ReadsPoison sPoison [(.v 4, 1), (.v 5, 1)] l ↔ vecBad sPoison.me 4 l = true ∨ vecBad sPoison.me 5 l = true := by
        simp [ReadsPoison] <;> rfl
      show _ ↔ _ ∧ ReadsPoison sPoison [(.v 4, 1), (.v 5, 1)] l
      rw [e]; clear e; revert l; decide +kernel,
    by decide +kernel⟩

/-! ### Witnesses: system instructions -/

theorem witness_SystemRegisters : Issuing s1 ∧ Sourced s1 plain [(.v 0, widthWords Width.w32)] ∧
    Sourced s1 plain [(.zero, 2)] :=
  ⟨issuing1, sourced_of _ _ _ rfl (by decide +kernel), sourced_of _ _ _ rfl (by decide +kernel)⟩
/-- The last mailbox word. -/
theorem witness_SystemRegisters_mailbox : let s := { s1 with me := { wave1 with s := [(4, 63#32)] } }
    Issuing s ∧ Sourced s plain [(.s 4, 1), (.v 0, 1)] ∧ queuesIn [((.s 4 : Operand), 1), (.v 0, 1)] = [] ∧
    active s plain ≠ 0 ∧ (src32 s (.s 4) 0).toNat = 63 :=
  ⟨⟨rfl, by decide, by decide +kernel, rfl, rfl⟩, sourced_of _ _ _ rfl (by decide +kernel), rfl, by decide +kernel,
    by decide +kernel⟩

/-- Entry 63 of the core holds the parked lane 31 of wave 1; s4 holds its identity, and s5 the identity of no entry. -/
def sNamed : State :=
  { s1 with me := { wave1 with s := [(4, 191#32), (5, 64#32)] },
            waves := [(1, { wave1 with key := 1, slot := 1, active := false,
                                       lanes := wave1.lanes.set 31 { lane1 with life := .frag 63 } })],
            frags := [(63, { wave := 1, lanes := 0x80000000, pc := 0x108, hdr := 0x100, st := .parked, cause := .trap })] }
theorem issuingNamed : Issuing sNamed := ⟨rfl, by decide, by decide +kernel, rfl, rfl⟩
theorem witness_FragmentsByIdentity : Issuing sNamed ∧ Sourced sNamed plain [(.s 5, 1)] ∧
    queuesIn [((.s 5 : Operand), 1)] = [] ∧ active sNamed plain ≠ 0 ∧
    (fragNamed sNamed sNamed.me.ctx (src32 sNamed (.s 5) 0)).bind (Table.get? sNamed.frags) = none :=
  ⟨issuingNamed, sourced_of _ _ _ rfl (by decide +kernel), rfl, by decide +kernel, by decide +kernel⟩
theorem witness_FragmentsByIdentity_parked : ∃ f, Sourced sNamed plain [(.s 4, 1)] ∧
    fragNamed sNamed sNamed.me.ctx (src32 sNamed (.s 4) 0) = some 63 ∧ Table.get? sNamed.frags 63 = some f ∧ f.st = .parked ∧
    (∀ l : Fin 32, f.lanes.getLsbD l = true → (waveOf sNamed f.wave).lanes[l].handler = none) ∧
    (∃ l : Fin 32, (waveOf sNamed f.wave).lanes[l].life ≠ .exited ∧ f.lanes.getLsbD l = false) ∧
    ∀ l : Fin 32, f.lanes.getLsbD l = true → Elsewhere sNamed f.wave l :=
  ⟨_, sourced_of _ _ _ rfl (by decide +kernel), by decide +kernel, rfl, rfl, by decide +kernel, ⟨0, by decide +kernel⟩,
    fun _ _ h => absurd h (by decide)⟩
/-- Entry 63 holds lanes 30 and 31 of wave 1; lane 30 has left its handler. -/
theorem witness_FragmentsByIdentity_live : let s := { sNamed with
      waves := [(1, { wave1 with key := 1, slot := 1, active := false,
                                 lanes := wave1.lanes.set 31 { lane1 with handler := some 63 } })],
      frags := [(63, { wave := 1, lanes := 0xC0000000, st := .inHandler, cause := .trap })] }
    ∃ f, fragNamed s s.me.ctx (src32 s (.s 4) 0) = some 63 ∧ Table.get? s.frags 63 = some f ∧ LanesOf s 63 f 0x80000000 := by
  refine ⟨{ wave := 1, lanes := 0xC0000000, st := .inHandler, cause := .trap }, ?_, rfl, ?_⟩
  · decide +kernel
  · show ∀ l : Fin 32, _
    decide +kernel

/-- The wave's group in a halt state; s4 holds its handle, 0. -/
def sHalt (x : Halt) : State := { s1 with groups := [(0, { kern := kern1, waves := [0], halt := x })] }
theorem issuingHalt (x : Halt) : Issuing (sHalt x) :=
  ⟨rfl, by show (0xFFFFFFFF#32) ≠ 0; decide, issuing1.3, rfl, rfl⟩
theorem witness_GroupsHalt : Issuing (sHalt .running) ∧ Sourced (sHalt .running) plain [(.s 4, 1)] ∧
    queuesIn [((.s 4 : Operand), 1)] = [] ∧ active (sHalt .running) plain ≠ 0 ∧
    groupNamed (sHalt .running) 0 (src32 (sHalt .running) (.s 4) 0).toNat = some 0 ∧
    (groupOf (sHalt .running) 0).halt = .running :=
  ⟨issuingHalt _, sourced_of _ _ _ rfl (by decide +kernel), rfl, by decide +kernel, by decide +kernel, rfl⟩
theorem witness_GroupsHalt_none : Sourced (sHalt .running) plain [(.zero, 1)] ∧
    groupNamed { sHalt .running with me := { wave1 with ctx := 1 } } 1 0 = none :=
  ⟨sourced_of _ _ _ rfl (by decide +kernel), by decide +kernel⟩
theorem witness_GroupsHalt_stopped : groupNamed (sHalt .stopped) 0 (src32 (sHalt .stopped) (.s 4) 0).toNat = some 0 ∧
    (groupOf (sHalt .stopped) 0).halt = .stopped ∧ ∀ f ∈ (sHalt .stopped).frags, f.2.st ≠ .waiting := by decide +kernel
theorem witness_GroupsHalt_member : MemberOf (sHalt .stopped) 0 0 ∧ (waveOf (sHalt .stopped) 0).lanes[31].life = .live ∧
    (waveOf (sHalt .stopped) 0).lanes[31].handler = none ∧
    (waveOf (sHalt .stopped) 0).lanes[31].pc ≠ (waveOf (sHalt .stopped) 0).lanes[31].hdr ∧
    Elsewhere { sHalt .stopped with iss := 1 } 0 31 :=
  ⟨⟨by decide, by decide +kernel, by decide +kernel⟩, by decide +kernel, by decide +kernel, by decide +kernel,
    fun _ _ => by decide +kernel⟩
theorem witness_GroupsHalt_complete : let s := { sHalt (.stopping 1) with
      me := { wave1 with lanes := Vector.replicate 32 { lane1 with stopped := true } } }
    (groupOf s 0).halt = .stopping 1 ∧ threadsOf s 0 = 32 ∧
    ∀ k, MemberOf s 0 k → (waveOf s k).key = k ∧
      ∀ l : Fin 32, (waveOf s k).lanes[l].life = .exited ∨ (waveOf s k).lanes[l].stopped = true := by
  refine ⟨rfl, by decide +kernel, fun k h => ?_⟩
  have : k ∈ [0] := h.1
  cases List.mem_singleton.mp this
  decide +kernel
/-- A stopping group whose threads stand before a safe-point word: one that a step let go issues it, the others stop. -/
def sSafe (step : Bool) : State :=
  let l : Lane := { lane1 with code := [0x8000000000000000] }
  { s1 with me := { wave1 with lanes := (Vector.replicate 32 l).set 31 { l with stepFirst := step } },
            groups := [(0, { kern := { kern1 with obj := 0x100, safe := [8] }, waves := [0], halt := .stopping 1 })] }
theorem witness_GroupsHalt_stops : let s := sSafe true
    Issuing s ∧ OneGroup s ∧ (∃ kind, (groupOf s s.me.group).halt = .stopping kind) ∧
    s.me.lanes[lowest s.iss].code ≠ [] ∧ vaPoisoned s s.me.ctx s.me.lanes[lowest s.iss].pc 8 = false ∧
    (∃ i, wordInstr { s with word := 0x8000000000000000 } 0x8000000000000000 = some i) ∧
    (s.me.lanes[lowest s.iss].pc - (kernOf s).obj).toNat ∈ (kernOf s).safe ∧ s.me.lanes[lowest s.iss].wait = .none ∧
    lanesMask (fun l => s.iss.getLsbD l && s.me.lanes[l].stepFirst) ≠ s.iss :=
  ⟨⟨rfl, by decide, by decide +kernel, rfl, rfl⟩, by unfold OneGroup; decide +kernel, ⟨1, rfl⟩, by decide +kernel,
    by decide +kernel, Option.isSome_iff_exists.mp (by decide +kernel), by decide +kernel, by decide +kernel, by decide +kernel⟩
theorem witness_GroupsHalt_steps : let s := { sSafe true with iss := 0x80000000 }
    Issuing s ∧ lanesMask (fun l => s.iss.getLsbD l && s.me.lanes[l].stepFirst) = s.iss ∧
    (∀ l : Fin 32, s.iss.getLsbD l = true → s.me.lanes[l].timerDue = false) ∧ s.me.vfly = [] :=
  ⟨⟨rfl, by decide, by decide +kernel, rfl, rfl⟩, by decide +kernel, by decide +kernel, rfl⟩

/-! ### Witnesses: access processors, guards, sluices -/

theorem witness_AddressPrograms_fork : Issuing s1 ∧ active s1 plain ≠ 0 ∧ ((boundAp s1).map Ap.ended).getD true = true ∧
    freeApKey s1 s1.me.ctx s1.me.core = some 0 ∧
    checkTarget s1 (s1.me.lanes[lowest s1.iss].pc + BitVec.ofInt 64 (8 * (-1))) noTag = .ok :=
  ⟨issuing1, by decide +kernel, rfl, by decide +kernel, by decide +kernel⟩
/-- Wave 0 has bound context 0, whose program runs and has reached no `rdv`, or has ended. -/
def sBound (ended : Bool) : State :=
  { s1 with me := { wave1 with bound := some 0 },
            aps := [(0, { present := true, ap := some { ended := ended }, lanes := sAp.me.lanes })] }
theorem issuingBound (e : Bool) : Issuing (sBound e) :=
  ⟨rfl, by show (0xFFFFFFFF#32) ≠ 0; decide, issuing1.3, rfl, rfl⟩
theorem witness_AddressPrograms_wait : Issuing (sBound false) ∧ active (sBound false) plain ≠ 0 ∧
    ((boundAp (sBound false)).map Ap.ended).getD true = false ∧ FirstTry (sBound false) ∧ (sBound false).me.ap = none ∧
    ¬ partnerAt (sBound false) 1 := by
  refine ⟨issuingBound _, by decide +kernel, by decide +kernel, Or.inl (by decide +kernel), rfl, fun h => ?_⟩
  have := h 0 {} rfl (by decide +kernel)
  simp at this
theorem witness_AddressPrograms_rdv : FirstTry (sBound true) ∧ (sBound true).me.ap = none ∧ partnerAt (sBound true) 1 :=
  ⟨Or.inl (by decide +kernel), rfl, fun a p h e => by
    have ha : some 0 = some a := h
    cases ha
    have : (apOf (sBound true) 0).ap = some { ended := true } := by decide +kernel
    rw [this] at e; cases e; exact ⟨Or.inl rfl, fun q h => (nomatch h)⟩⟩
/-- 04 R100: the wave's third `rdv` waits for a `dlv` word behind the program's second one, not for one behind its third. -/
def sPair (n : Nat) : State :=
  { s1 with me := { wave1 with bound := some 0, rdvs := 2 },
            aps := [(0, { present := true, ap := some { rdvs := 3, queues := [(2, [.reserved 0x40 false n])] } })] }
theorem test_rdv_waits_for_words : ran (.rdv plain) (sPair 2) (fun t => t.me.lanes[0].wait == .rdv 3) = true := by decide +kernel
theorem test_rdv_pairs : ran (.rdv plain) (sPair 3) (fun t => t.me.lanes[0].pc == 0x110) = true := by decide +kernel
theorem witness_AddressPrograms_program : Issuing sAp ∧ active sAp plain ≠ 0 ∧ FirstTry sAp ∧ sAp.me.ap = some {} ∧
    (waveOf sAp 0).rdvs = 0 ∧ ¬ partnerAt sAp 1 ∧
    partnerAt { sAp with waves := [(0, { wave1 with rdvs := 1 })] } 1 := by
  refine ⟨issuingAp, by decide +kernel, Or.inl (by decide +kernel), rfl, by decide +kernel, ?_, ?_⟩
  · show ¬ 1 ≤ (waveOf sAp 0).rdvs
    decide +kernel
  · show 1 ≤ (waveOf { sAp with waves := [(0, { wave1 with rdvs := 1 })] } 0).rdvs
    decide +kernel
/-- A queue that the words fill, and the last words of the scratchpad. -/
theorem witness_AddressPrograms_dlv :
    let a : Ap := { queues := [(3, List.replicate 255 (.word 0 false))] }
    let s := { sAp with me := { sAp.me with ap := some a, s := [(4, 0xFFC#32)] } }
    Issuing s ∧ s.me.ap = some a ∧ poisonLanes s [(.s 4, 2), (.zero, 1)] (active s plain) = 0 ∧
    (src64 s (.s 4) 0).toNat + 4 ≤ (kernOf s).spBytes ∧ (src64 s (.s 4) 0).toNat % 4 = 0 ∧
    (Table.getD a.queues 3 []).length + 1 = 256 :=
  ⟨⟨rfl, by decide, by decide +kernel, rfl, rfl⟩, rfl, by decide +kernel, by decide +kernel, by decide +kernel, by decide +kernel⟩

theorem witness_GuardsAndInfo : active s1 plain ≠ 0 ∧ (∀ v x y, guardOf s1.me 7 ≠ .pending v x y) ∧
    ∀ e, s1.me.lanes[0].life ≠ .frag e := by
  refine ⟨by decide +kernel, fun v x y => ?_, fun e => ?_⟩
  · have : guardOf s1.me 7 = .isTrue := by decide +kernel
    rw [this]; exact Guard.noConfusion
  · have : s1.me.lanes[0].life = .live := by decide +kernel
    rw [this]; exact Life.noConfusion
theorem witness_GuardsAndInfo_flight : let s := { s1 with me := { wave1 with kfly := [(15, [0, 31])] } }
    Issuing s ∧ inFlight s .lane0 15 (active s plain) = true ∧ inFlight s .any 15 (active s plain) = true :=
  ⟨⟨rfl, by decide, by decide +kernel, rfl, rfl⟩, by decide +kernel, by decide +kernel⟩
theorem witness_GuardsAndInfo_pending : let s := { s1 with me := { wave1 with guards := [(0, .pending true 1 1)] } }
    Issuing s ∧ active s plain ≠ 0 ∧ guardOf s.me 0 = .pending true 1 1 :=
  ⟨⟨rfl, by decide, by decide +kernel, rfl, rfl⟩, by decide +kernel, rfl⟩

/-- Bin 15 takes one-register records and has room for the 32 of the wave; s4 holds its handle, s5 that of bin 3 of package 1. -/
def sPush : State :=
  { s1 with me := { wave1 with s := [(4, 15#32), (5, 16387#32)], guards := [(0, .isFalse), (1, .pending true 2 1)] },
            bins := [(15, { enable := true, spillBytes := 4096, recs := List.replicate 288 {} })] }
theorem issuingPush : Issuing sPush := ⟨rfl, by decide, by decide +kernel, rfl, rfl⟩
theorem canPush (r : Operand) (g : Option (BitVec 3)) (proxy : Bool)
    (c : poisonLanes sPush [(.v 316, 4), (r, 1)] (active sPush plain) = 0 ∧
      operandPoisoned sPush.me r 1 (lowest (active sPush plain)) = false)
    (k : ∀ x, g = some x → guardOf sPush.me x = .isTrue) : CanPush sPush plain .r16 g (.v 316) r proxy :=
  ⟨by decide +kernel, c, k, rfl⟩
theorem witness_PushesEnter : ∃ x, Issuing sPush ∧ OneGroup sPush ∧
    CanPush sPush plain .r16 (some 7) (.v 316) (.s 4) false ∧
    binNamed sPush 0 (src32 sPush (.s 4) 0).toNat = some 15 ∧ Table.get? sPush.bins 15 = some x ∧ x.enable = true ∧
    x.size = .r16 ∧
    x.recs.length + ((lanesIn (active sPush plain)).map (pushRecord sPush (.v 316) 4)).length = 64 + x.spillBytes / 16 :=
  ⟨_, issuingPush, by unfold OneGroup; decide +kernel, canPush _ _ _ (by decide +kernel) (fun x h => by
      cases h; decide +kernel), by decide +kernel, rfl, rfl, rfl, by decide +kernel⟩
theorem witness_PushesEnter_remote : CanPush sPush plain .r16 none (.v 316) (.s 5) true ∧
    handlePkg (src32 sPush (.s 5) 0).toNat ≠ sPush.pkg ∧
    shadowFits sPush 0 (sPush.me.core / 48) (src32 sPush (.s 5) 0).toNat .r16 32 = none ∧
    (Table.get? sPush.ctxs 0).isSome = true ∧
    shadowBytes ((shadowOf sPush 0 0 16387).getD { die := 0, bin := 16387 }) + 32 * 16 < 4096 :=
  ⟨canPush _ _ _ (by decide +kernel) (fun x h => by cases h), by decide +kernel, by decide +kernel, rfl, by decide +kernel⟩
/-- A ring of 1,024 bytes at physical addresses that follow one another. -/
theorem witness_PushesEnter_ring : let s := { sPush with ctxs := [(0, { cfg := { cfg1 with proxyBytes := 1572864 } })] }
    slotBytes (ctxOf s 0).cfg = 1024 ∧ shadowFits s 0 0 16387 .r16 32 = none ∧
    Linear s 0 (slotAddr (ctxOf s 0).cfg 0 0) 1024 0x3000000 := by
  refine ⟨by decide +kernel, by decide +kernel, rfl, by decide +kernel, ?_⟩
  intro i h; revert h; revert i; decide +kernel
theorem witness_PushesEnter_guard : active sPush plain ≠ 0 ∧
    poisonLanes sPush [(.v 316, 4), (.s 4, 1)] (active sPush plain) = 0 ∧
    operandPoisoned sPush.me (.s 4) 1 (lowest (active sPush plain)) = false ∧ guardOf sPush.me 0 = .isFalse ∧
    guardOf sPush.me 1 = .pending true 2 1 := by decide +kernel


/-- What an engine reads, and whether it fails, said by a test that can be evaluated. -/
def gotIs {α : Type} [DecidableEq α] (g : Got α) (n : α) : Bool :=
  match g with
  | .ok x => decide (x = n)
  | _ => false
def gotFails {α : Type} (g : Got α) : Bool :=
  match g with
  | .fail => true
  | _ => false
theorem fail_of {α : Type} {g : Got α} (h : gotFails g = true) : g = .fail := by
  unfold gotFails at h
  split at h
  · rfl
  · cases h
theorem ok_of {α : Type} [DecidableEq α] {g : Got α} {n : α} (h : gotIs g n = true) : g = .ok n := by
  unfold gotIs at h
  split at h
  · rw [of_decide_eq_true h]
  · cases h

/-- A configuration record at 0x200 that names the kernel object at 0x400; s6 and s7 hold the first handle and the one behind
the last. -/
def sCfg : State :=
  { s1 with me := { wave1 with s := [(4, 0x200#32), (6, 15#32), (7, 16#32)] },
            mem := putBytes (putBytes s1.mem 0x200 (1 * 256 ^ 2 + 1 * 256 ^ 4 + 2 * 256 ^ 6 + 0x400 * 256 ^ 8 +
                0x10000 * 256 ^ 0x10 + 4096 * 256 ^ 0x18) 64)
              0x400 (0x4F4B4757 + Config.encHash.toNat * 256 ^ 4 + 1 * 256 ^ 8 + 0x100 * 256 ^ 0x0C + 8 * 256 ^ 0x10 +
                8 * 256 ^ 0x14 + 0x1000 * 256 ^ 0x18 + 32 * 256 ^ 0x1C) 256 }
theorem issuingCfg : Issuing sCfg := ⟨rfl, by decide, by decide +kernel, rfl, rfl⟩
theorem witness_BinsAndCounters : Issuing sCfg ∧ Sourced sCfg plain [(.s 4, 2), (.s 6, 1)] ∧
    queuesIn [((.s 4 : Operand), 2), (.s 6, 1)] = [] ∧ active sCfg plain ≠ 0 ∧
    binNamed sCfg 0 (src32 sCfg (.s 6) 0).toNat = some 15 ∧ binNamed sCfg 0 (src32 sCfg (.s 7) 0).toNat = none ∧
    (∀ g ∈ sCfg.groups, g.2.bin ≠ some 15) ∧ (Table.getD sCfg.bins 15 {}).recs = [] :=
  ⟨issuingCfg, sourced_of _ _ _ rfl (by decide +kernel), rfl, by decide +kernel, by decide +kernel, by decide +kernel,
    by decide +kernel, rfl⟩
theorem witness_BinsAndCounters_record : let p := applyOwn sCfg 0; ∃ r k, engineRead p 0 (tagLane sCfg.me.key (lowest sCfg.iss).val)
      (some sCfg.me.core) (src64 sCfg (.s 4) 0) 64 = .ok r ∧
    readKernel p 0 (tagLane sCfg.me.key (lowest sCfg.iss).val) (some sCfg.me.core) (BitVec.ofNat 64 (fieldAt r 8 8)) = .ok k ∧
    fieldAt r 6 1 < 4 ∧ zeroAt r 7 1 = true ∧ zeroAt r 0x1C 4 = true ∧ zeroAt r 0x2D 3 = true ∧ zeroAt r 0x34 4 = true ∧
    binRange sCfg 0 r = true ∧
    fieldAt r 2 2 * (4 * (RecSize.ofCode (BitVec.ofNat 2 (fieldAt r 0 1))).words) ≤ k.spBytes ∧ k.vregs = 8 :=
  ⟨1 * 256 ^ 2 + 1 * 256 ^ 4 + 2 * 256 ^ 6 + 0x400 * 256 ^ 8 + 0x10000 * 256 ^ 0x10 + 4096 * 256 ^ 0x18,
    { obj := 0x400, vregs := 8, sregs := 0, depth := 0, spBytes := 0x1000 }, ok_of (by decide +kernel),
    by decide +kernel⟩

/-- Expert bin 0 has its counters at 0x1000 and combines into bin 1; slot 7, the last, holds a count; only lane 31 acts. -/
def sComb (n : Nat) : State :=
  { sK1 with me := { sK1.me with v := [(0, Vector.replicate 32 7#32)], s := [(4, 0#32)] },
             mem := putBytes s1.mem 0x101C n 4,
             bins := [(0, { expert := true, enable := true, counters := 0x1000, combine := 1, choices := 8, slots := 8 }),
                      (1, { enable := true })] }
theorem issuingComb (n : Nat) : Issuing (sComb n) := ⟨rfl, by show (0xFFFFFFFF#32) ≠ 0; decide, issuingK1.3, rfl, rfl⟩
theorem witness_BinsAndCounters_counter : ∃ x, Issuing (sComb 2) ∧ active (sComb 2) hk1 = laneBit 31 ∧
    poisonLanes (sComb 2) [(.v 0, 1), (.s 4, 1)] (active (sComb 2) hk1) = 0 ∧
    binNamed (sComb 2) 0 (src32 (sComb 2) (.s 4) 0).toNat = some 0 ∧ Table.get? (sComb 2).bins 0 = some x ∧
    x.enable = true ∧ x.expert = true ∧ (src32 (sComb 2) (.v 0) 31).toNat < x.slots ∧
    globalChk (sComb 2) 31 (x.counters + BitVec.ofNat 64 (4 * (src32 (sComb 2) (.v 0) 31).toNat)) 4
      { load := true, store := true } = .ok 0x101C ∧
    (∀ r ∈ (sComb 2).reds, r.core ≠ (sComb 2).me.core) ∧ 1 < memRead (releaseAt (sComb 2) 0 .pkg) 0x101C 4 :=
  ⟨_, issuingComb _, by decide +kernel, by decide +kernel, by decide +kernel, rfl, rfl, rfl, by decide +kernel,
    by decide +kernel, by decide, by decide +kernel⟩
theorem witness_BinsAndCounters_last : memRead (releaseAt (sComb 1) 0 .pkg) 0x101C 4 = 1 ∧
    pushRefusal (sComb 1) 0 1 .r16 = 0 ∧
    (Table.getD (sComb 1).bins (1 % 2 ^ 14) {}).recs.length < 64 + (Table.getD (sComb 1).bins (1 % 2 ^ 14) {}).spillBytes / 16 := by
  decide +kernel
theorem witness_BinsAndCounters_flush :
    let q : Shadow := { die := 0, bin := 16387, slot := some 63, recs := [{}], pushed := 1 }
    let s := withCtx fun c => { c with shadows := [q] }
    Issuing s ∧ FirstTry s ∧ active s plain ≠ 0 ∧ (∀ f ∈ s.frags, f.2.cause ≠ .spill) ∧ s.pushes = [] ∧ s.degraded = false ∧
    (∃ q ∈ (ctxOf s s.me.ctx).shadows, q.die = s.me.core / 48 ∧ q.recs ≠ []) ∧
    ∀ q ∈ (ctxOf s1 s1.me.ctx).shadows, ¬ (q.die = s1.me.core / 48 ∧ q.recs ≠ []) :=
  ⟨⟨rfl, by decide, by decide +kernel, rfl, rfl⟩, Or.inl (by decide +kernel), by decide +kernel, by decide, rfl, rfl,
    ⟨_, List.mem_cons_self, by decide, by decide⟩, by decide⟩

/-! ### Witnesses: copies, byte barriers, polders, scans -/

/-- s4 holds the last 16 bytes of the heap, s6 those of the scratchpad, s8 the length 16, s9 a byte barrier. -/
def sCopy : State :=
  { s1 with me := { wave1 with s := [(4, 0x3FFFFFF0#32), (6, 0xFF0#32), (8, 16#32), (9, 0xFE8#32)] } }
theorem issuingCopy : Issuing sCopy := ⟨rfl, by decide, by decide +kernel, rfl, rfl⟩
theorem witness_CopiesStart : let srcs := copySources .sg (.s 6) (.s 4) (.s 8) (.s 9)
    let own := actingLanes (uniformAll srcs) (active sCopy plain)
    Issuing sCopy ∧ Sourced sCopy plain srcs ∧ SequencerSteady sCopy ∧ copiesOn sCopy sCopy.me.core + own.length ≤ 256 ∧
    (∀ g : BitVec 3, some (7 : BitVec 3) = some g → guardOf sCopy.me g ≠ .isFalse) ∧ copyTargets sCopy 15 ≠ [] ∧
    ∀ l ∈ own, copyFault (kernOf sCopy).spBytes .sg (copyArgs sCopy .sg (.s 6) (.s 4) (.s 8) (.s 9) l) l = none ∧
      (copyArgs sCopy .sg (.s 6) (.s 4) (.s 8) (.s 9) l).len ≠ 0 :=
  ⟨issuingCopy, sourced_of _ _ _ rfl (by decide +kernel), ⟨rfl, fun _ _ => rfl, by intro e h; cases h⟩, by decide +kernel,
    fun g h => by cases h; decide +kernel, by decide +kernel, by decide +kernel⟩

/-- A copy of one unit more into the scratchpad, with its byte barrier beside the destination. -/
def copy1 (dir : CpyDir) : Copy :=
  { dir := dir, dst := 0xFF0, src := 0x3FFFFFF0, len := 16, bar := some 0xFE8, targets := [0], landed := [0], lane := 31 }
def sLand : State := { sCopy with copies := [(0, copy1 .sg)] }
theorem witness_CopiesEnd : ∃ c src dst, Table.get? sLand.copies 0 = some c ∧ c.targets[1 / 2 ^ 32]? = some 0 ∧
    1 % 2 ^ 32 < c.len / 8 ∧ 1 ∉ c.landed ∧ copyHeld sLand 0 c = false ∧
    src = copySpot sLand 0 c (CpyDir.fromSp c.dir) c.group (c.src + BitVec.ofNat 64 (8 * (1 % 2 ^ 32))) false ∧
    dst = copySpot sLand 0 c (CpyDir.toSp c.dir) 0 (c.dst + BitVec.ofNat 64 (8 * (1 % 2 ^ 32))) true ∧
    src = .mem 0x3FFFFFF8 ∧ dst = .sp 0 0xFF8 ∧
    (Table.get? sLand.groups 0).isSome = true ∧ ∀ o, c.bar = some o → o + 8 ≤ 0xFF8 :=
  ⟨copy1 .sg, _, _, rfl, rfl, by decide, by decide, by decide +kernel, rfl, rfl, by decide +kernel, by decide +kernel,
    rfl, fun o h => by cases h; decide⟩
/-- A copy whose source no page of the context holds can fail for that, and one that can be reached cannot fail. -/
theorem witness_CopiesEnd_fails : let c := { copy1 .sg with src := 0x50000000, landed := [] }
    copyHeld sCopy 0 c = false ∧ ∃ why, CopyFailed { sCopy with copies := [(0, c)] } 0 c why := by
  refine ⟨by decide +kernel, .page, 0, by decide, Or.inl ⟨rfl, ?_⟩⟩
  decide +kernel
theorem witness_CopiesEnd_reached : ¬ CopyFailed sLand 0 (copy1 .sg) .page := by
  rintro ⟨u, hu, h | ⟨i, g, hi, _, h⟩⟩
  · have hu : u < 2 := hu
    have := h.2; clear h; revert this; revert hu; revert u; decide +kernel
  · have hu : u < 2 := hu
    have hi' : i < 1 := (List.getElem?_eq_some_iff.mp hi).1
    obtain rfl : i = 0 := by omega
    cases hi
    revert h; revert hu; revert u; decide +kernel
theorem witness_CopiesEnd_fail : let s := { sCopy with copies := [(0, { copy1 .sg with landed := [] })] }
    copyHeld s 0 { copy1 .sg with landed := [] } = false ∧ (waveOf s 0).group = 0 ∧
    (waveOf s 0).lanes[Fin.ofNat 32 31].life ≠ .exited := by decide +kernel

/-- Batch 0 of every lane is closed; lane 31 has a copy of it in flight. -/
def sWait (f : Lane → Lane) (cs : SMap Copy) : State :=
  { withLanes (fun l => f { l with batch := 1 }) with copies := cs }
theorem issuingWait (cs : SMap Copy) : Issuing (sWait id cs) :=
  ⟨rfl, by show (0xFFFFFFFF#32) ≠ 0; decide, by
    show ∀ l : Fin 32, (0xFFFFFFFF#32).getLsbD l = true → (sWait id []).me.lanes[l].life = .live
    decide +kernel,
    rfl, rfl⟩
theorem witness_CopyWaits : Issuing (sWait id []) ∧ poisonLanes (sWait id []) [(.zero, 1)] (active (sWait id []) plain) = 0 ∧
    (∀ l ∈ lanesIn (active (sWait id []) plain), batchesDone (sWait id []) (sWait id []).me.key l
      (src32 (sWait id []) .zero l) = true) ∧
    ∀ l ∈ lanesIn (active (sWait id []) plain), oldestFailed (sWait id []).me.lanes[l] (src32 (sWait id []) .zero l) = none :=
  ⟨issuingWait _, by decide +kernel, by decide +kernel, by decide +kernel⟩
theorem witness_CopyWaits_open : ¬ ∀ l ∈ lanesIn (active (sWait id [(0, copy1 .gg)]) plain),
    batchesDone (sWait id [(0, copy1 .gg)]) (sWait id [(0, copy1 .gg)]).me.key l
      (src32 (sWait id [(0, copy1 .gg)]) .zero l) = true := by decide +kernel
/-- The last byte barrier of the scratchpad, in s4; its word is given. -/
def sBar (w : Nat) : State :=
  { s1 with me := { wave1 with s := [(4, 0xFF8#32), (5, 0xFFFFFFFF#32)] },
            groups := [(0, spWrite { launch := some 0, kern := kern1, waves := [0] } 0xFF8 8 w)] }
theorem goodBar (w : Nat) : GoodBarriers (sBar w) (.s 4) [0] :=
  ⟨fun l m => by
      have h : (src32 (sBar w) (.s 4) l) = 0xFF8#32 := rfl
      rw [h]; exact ⟨by decide, by show 0xFF8 + 8 ≤ 0x1000; decide⟩,
    fun l m j n ne => absurd (by simp at m n; rw [m, n]) ne⟩
theorem issuingBar (w : Nat) : Issuing (sBar w) := ⟨rfl, by show (0xFFFFFFFF#32) ≠ 0; decide, issuing1.3, rfl, rfl⟩
theorem witness_CopyWaits_change : Issuing (sBar 0) ∧ Sourced (sBar 0) plain [(.s 4, 1), (.s 5, 1)] ∧
    actingLanes (uniformAll [((.s 4 : Operand), 1), (.s 5, 1)]) (active (sBar 0) plain) = [0] ∧ GoodBarriers (sBar 0) (.s 4) [0] ∧
    (Table.get? (sBar 0).groups (sBar 0).me.group).isSome = true :=
  ⟨issuingBar _, sourced_of _ _ _ rfl (by decide +kernel), by decide +kernel, goodBar _, rfl⟩
/-- The count has just been reached; then it lacks one byte. -/
theorem witness_CopyWaits_reached : Sourced (sBar (16 * 2 ^ 32 + 16)) plain [(.s 4, 1)] ∧
    barrierWord (sBar (16 * 2 ^ 32 + 16)) 0 0xFF8 = 16 * 2 ^ 32 + 16 :=
  ⟨sourced_of _ _ _ rfl (by decide +kernel), by decide +kernel⟩
theorem witness_CopyWaits_below : Sourced (sBar (16 * 2 ^ 32 + 17)) plain [(.s 4, 1)] ∧
    queuesIn [((.s 4 : Operand), 1)] = [] ∧
    barrierWord (sBar (16 * 2 ^ 32 + 17)) 0 0xFF8 / 2 ^ 32 < barrierWord (sBar (16 * 2 ^ 32 + 17)) 0 0xFF8 % 2 ^ 31 :=
  ⟨sourced_of _ _ _ rfl (by decide +kernel), rfl, by decide +kernel⟩

/-- s4 holds an address, s8 a length; the dike has one polder way; a polder stands at 0x1000. -/
def sPin (a n : Word32) : State :=
  { s1 with me := { wave1 with s := [(4, a), (8, n)] },
            ctxs := [(0, { cfg := { cfg1 with polderQuota := 512 }, polders := [{ start := 0x1000, len := 256, fade := 1 }] })],
            dikes := [(0, { quads := 1, polderWays := 1, running := some 0 })] }
theorem issuingPin (a n : Word32) : Issuing (sPin a n) := ⟨rfl, by show (0xFFFFFFFF#32) ≠ 0; decide, issuing1.3, rfl, rfl⟩
theorem witness_PoldersHold : Issuing (sPin 0x1100 256) ∧ Sourced (sPin 0x1100 256) plain [(.s 4, 2), (.s 8, 1)] ∧
    queuesIn [((.s 4 : Operand), 2), (.s 8, 1)] = [] ∧ active (sPin 0x1100 256) plain ≠ 0 ∧
    (∀ p ∈ (ctxOf (sPin 0x1100 256) 0).polders, 0x1100 + 256 ≤ p.start.toNat ∨ p.start.toNat + p.len ≤ 0x1100) ∧
    ((ctxOf (sPin 0x1100 256) 0).polders.map Polder.len).sum + 256 = (ctxOf (sPin 0x1100 256) 0).cfg.polderQuota ∧
    DiesHold (sPin 0x1100 256) 0 0x1100 256 :=
  ⟨issuingPin _ _, sourced_of _ _ _ rfl (by decide +kernel), rfl, by decide +kernel, by decide +kernel, by decide +kernel,
    show ∀ die < 24, _ from by decide +kernel⟩
/-- An odd length, a window that leaves the heap, and one that the quota lacks 256 bytes for. -/
theorem witness_PoldersHold_refused : (src32 (sPin 0x1100 255) (.s 8) 0).toNat % 256 ≠ 0 ∧
    ¬ (0x3FFFFF00 + 512 ≤ (ctxOf (sPin 0x3FFFFF00 512) 0).cfg.heapBase.toNat +
      (ctxOf (sPin 0x3FFFFF00 512) 0).cfg.heapLimit.toNat) ∧
    (ctxOf (sPin 0x1100 512) 0).cfg.polderQuota < ((ctxOf (sPin 0x1100 512) 0).polders.map Polder.len).sum + 512 := by
  decide +kernel
/-- A window that cuts the polder, the polder's own window, a full table, and a dike without a polder way. -/
theorem witness_PoldersHold_meets : ∃ p ∈ (ctxOf (sPin 0x1000 512) 0).polders,
    p.start.toNat < 0x1000 + 512 ∧ 0x1000 < p.start.toNat + p.len ∧ ¬ (p.start = 0x1000 ∧ p.len = 512) :=
  ⟨_, List.mem_cons_self, by decide, by decide, by decide⟩
theorem witness_PoldersHold_same : ¬ (∀ p ∈ (ctxOf (sPin 0x1000 256) 0).polders,
      0x1000 + 256 ≤ p.start.toNat ∨ p.start.toNat + p.len ≤ 0x1000) ∧
    ∀ p ∈ (ctxOf (sPin 0x1000 256) 0).polders, p.start = 0x1000 ∧ p.len = 256 := by decide +kernel
theorem witness_PoldersHold_full :
    let one := fun (i : Nat) => ({ start := BitVec.ofNat 64 (0x2000 + 256 * i), len := 256, fade := 1 } : Polder)
    let s := { sPin 0x1000 256 with ctxs := [(0, { cfg := cfg1, polders := (List.range 64).map one })] }
    64 ≤ (ctxOf s 0).polders.length ∧
    ∀ p ∈ (ctxOf s 0).polders, 0x1000 + 256 ≤ p.start.toNat ∨ p.start.toNat + p.len ≤ 0x1000 := by decide +kernel
theorem witness_PoldersHold_noWays : ¬ DiesHold { sPin 0x1100 256 with dikes := [(0, { quads := 1, running := some 0 })] } 0
    0x1100 256 := fun h => by
  have := h 0 (by decide)
  revert this
  decide +kernel
theorem witness_PoldersHold_unpin : Sourced (sPin 0x1000 0) plain [(.s 4, 2)] ∧
    (∃ p ∈ (ctxOf (sPin 0x1000 0) 0).polders, p.start = src64 (sPin 0x1000 0) (.s 4) 0) ∧
    ∀ p ∈ (ctxOf (sPin 0x1100 0) 0).polders, p.start ≠ src64 (sPin 0x1100 0) (.s 4) 0 :=
  ⟨sourced_of _ _ _ rfl (by decide +kernel), by decide +kernel, by decide +kernel⟩
theorem witness_PoldersHold_tick : ∃ c, Table.get? (sPin 0 0).ctxs 0 = some c ∧ ∃ p ∈ c.polders, p.touched = false ∧ p.fade ≤ 1 :=
  ⟨_, rfl, _, List.mem_cons_self, rfl, by decide⟩

/-- The command at 0x200, whose address s4 holds: 64 words from 0x400, one pair from 0x600, the count word at 0x700. -/
def weirCmd (fmt : Nat) : Nat := 0x400 + 256 * 256 ^ 8 + fmt * 256 ^ 0x10 + 0x600 * 256 ^ 0x20 + 1 * 256 ^ 0x28 + 0x700 * 256 ^ 0x30
def sWeir (fmt : Nat) (scans : SMap Scan) : State :=
  { s1 with me := { wave1 with s := [(4, 0x200#32)] }, mem := putBytes s1.mem 0x200 (weirCmd fmt) 64, scans := scans }
theorem issuingWeir (f : Nat) (x : SMap Scan) : Issuing (sWeir f x) :=
  ⟨rfl, by show (0xFFFFFFFF#32) ≠ 0; decide, issuing1.3, rfl, rfl⟩
theorem witness_WeirScans : Issuing (sWeir 14 []) ∧ Sourced (sWeir 14 []) plain [(.s 4, 2)] ∧
    queuesIn [((.s 4 : Operand), 2)] = [] ∧ active (sWeir 14 []) plain ≠ 0 ∧
    weirRead (applyOwn (sWeir 14 []) 0) (.s 4) (weirCmd 14) ∧
    weirStatus (ctxOf (sWeir 14 []) 0).cfg (weirCmd 14) (scanOf 0 0 (weirCmd 14)) = 0 ∧
    Linear (sWeir 14 []) 0 (scanOf 0 0 (weirCmd 14)).cnt 8 0x700 ∧
    weirStatus (ctxOf (sWeir 3 []) 0).cfg (weirCmd 3) (scanOf 0 0 (weirCmd 3)) = 0x83 :=
  ⟨issuingWeir _ _, sourced_of _ _ _ rfl (by decide +kernel), rfl, by decide +kernel, ok_of (by decide +kernel),
    by decide +kernel, ⟨rfl, by decide +kernel, by decide +kernel⟩, by decide +kernel⟩
theorem witness_WeirScans_full : ((sWeir 14 ((List.range 16).map fun i => (i, {}))).scans.filter fun e => e.2.die == 0).length
    = 16 := by decide +kernel
/-- A region that no page of the context holds. -/
theorem witness_WeirScans_unreadable : let x := { scanOf 0 0 (weirCmd 14) with base := 0x50000000 }
    engineRange (sWeir 14 [(5, x)]) x.ctx (tagOther 5) x.base x.bytes false = .fail := fail_of (by decide +kernel)
theorem witness_WeirScans_done : let x := scanOf 0 0 (weirCmd 14)
    let s := sWeir 14 [(5, x)]
    Table.get? s.scans 5 = some x ∧ x.cap < 2 ^ 32 ∧ Linear s x.ctx x.cnt 8 0x700 ∧ (ctxOf s x.ctx).polders = [] ∧
    engineRange s x.ctx (tagOther 5) x.base x.bytes false = .ok () ∧
    ∀ n ≤ x.cap, engineRange s x.ctx (tagOther 5) x.dst (8 * n) true = .ok () :=
  ⟨rfl, by decide +kernel, ⟨rfl, by decide +kernel, by decide +kernel⟩, rfl, ok_of (by decide +kernel),
    fun n h => by
      have h : n = 0 ∨ n = 1 := by have : n ≤ 1 := h; omega
      rcases h with rfl | rfl
      · exact ok_of (by decide +kernel)
      · exact ok_of (by decide +kernel)⟩

/-! ### Witnesses: tiles -/

/-- A product of row 15 by column 15 under every depth bit, into fresh accumulators of slot 255; both operands are descriptor 63,
status word at 0x6000, counter at 0x6008. -/
def rawProduct : Nat := 1 * 256 + 255 * 256 ^ 4 + 63 * 256 ^ 8 + 63 * 256 ^ 0x0A + 0x8000 * 256 ^ 0x20 + 0x8000 * 256 ^ 0x22 +
  0xFFFF * 256 ^ 0x24 + 0x6008 * 256 ^ 0x50 + 0x6000 * 256 ^ 0x58
/-- A drain of the same accumulator into descriptor 63. -/
def rawDrain : Nat := 4 + 255 * 256 ^ 4 + 63 * 256 ^ 0x0C + 0x8000 * 256 ^ 0x20 + 0x8000 * 256 ^ 0x22
/-- Descriptor 63: 16 by 16 FP16 elements at an address, with a histogram at 0x7000. -/
def desc63 (base : Word64) : Desc :=
  { base := base, fmt := 1, rank := 2, hist := true, scale := 0x3F800000, ext0 := 16, ext1 := 16, ext2 := 1, ext3 := 1,
    str1 := 32, histAddr := 0x7000 }

/-- s4 holds the address of a record, 0x200; guard slot 0 is false. -/
def sSub (raw : Nat) (ts : SMap Task) : State :=
  { s1 with me := { wave1 with s := [(4, 0x200#32), (6, 0xFFFFFFFF#32), (7, 0xFFFFFFFF#32)], guards := [] },
            mem := putBytes s1.mem 0x200 raw 128, tasks := ts, fresh := 16 }
theorem issuingSub (r : Nat) (ts : SMap Task) : Issuing (sSub r ts) :=
  ⟨rfl, by show (0xFFFFFFFF#32) ≠ 0; decide, issuing1.3, rfl, rfl⟩
def own4 (raw : Nat) (ts : SMap Task) : List (Fin 32) :=
  actingLanes ((Operand.s 4).uniform && Operand.zero.uniform) (active (sSub raw ts) plain)
theorem witness_TilesSubmit : let s := sSub rawProduct []
    Issuing s ∧ queuesIn [((.s 4 : Operand), 2), (.zero, 1)] = [] ∧ poisonLanes s [(.s 4, 2), (.zero, 1)] (active s plain) = 0 ∧
    own4 rawProduct [] = [0] ∧ RecordAt s false ⟨.s 4, .zero, 0⟩ [0] 0 rawProduct ∧ queuedHere s + 1 ≤ 16 ∧
    ∀ g : BitVec 3, guardOf s.me g ≠ .isFalse :=
  ⟨issuingSub _ _, rfl, by decide +kernel, by decide +kernel, ⟨0x200, Or.inl (by decide +kernel), by decide +kernel⟩, by decide +kernel,
    by decide +kernel⟩
theorem witness_TilesSubmit_full : let ts := (List.range 16).map fun i => (i, ({ wave := 0, raw := rawProduct } : Task))
    16 < queuedHere (sSub rawProduct ts) + (own4 rawProduct ts).length := by decide +kernel
theorem witness_TilesSubmit_false : let s := { sSub (rawDrain + 2 ^ 19) [] with
      me := { (sSub 0 []).me with guards := [(0, .isFalse)] } }
    Issuing s ∧ RecordAt s false ⟨.s 4, .zero, 0⟩ [0] 0 (rawDrain + 2 ^ 19) ∧ queuedHere s = 0 ∧
    (taskOf s (rawDrain + 2 ^ 19)).guard.map Prod.snd = some .isFalse ∧ fieldAt (rawDrain + 2 ^ 19) 0x50 8 = 0 ∧
    NoAnswers s s.me.ctx :=
  ⟨⟨rfl, by decide, by decide +kernel, rfl, rfl⟩, ⟨0x200, Or.inl (by decide +kernel), by decide +kernel⟩, by decide +kernel, by decide +kernel,
    by decide +kernel, rfl, rfl⟩
/-- The threshold is the largest, or 0. -/
theorem witness_TilesSubmit_twait : let s := sSub rawProduct []
    Sourced s plain [(.s 6, 2), (.s 4, 2), (.zero, 1)] ∧ Sourced s plain [(.zero, 2), (.s 4, 2), (.zero, 1)] ∧
    globalChk s (lowest (active s plain)) (counterOf s ⟨.s 4, .zero, 0⟩ (lowest (active s plain))) 8 { load := true } = .ok 0x200 ∧
    number (seenByte (settleReds s s.me.core 0x200 8) s.me.core) 0x200 8 < (src64 s (.s 6) 0).toNat :=
  ⟨sourced_of _ _ _ rfl (by decide +kernel), sourced_of _ _ _ rfl (by decide +kernel), by decide +kernel,
    by decide +kernel⟩
/-- The heap lies in package 1, which has answered with 9. -/
def sFarHeap : State :=
  { sSub rawProduct [] with
      me := { wave1 with s := [(4, 0x200#32)], lanes := Vector.replicate 32 { lane1 with answers := [(2 ^ 39 + 0x200, some (.data 9))] } },
      ctxs := [(0, { cfg := { cfg1 with heapOff := 2 ^ 39 } })] }
theorem witness_TilesSubmit_far : globalChk sFarHeap (lowest (active sFarHeap plain)) (counterOf sFarHeap ⟨.s 4, .zero, 0⟩
    (lowest (active sFarHeap plain))) 8 { load := true } = .far (2 ^ 39 + 0x200) 9 ∧ Sourced sFarHeap plain [(.zero, 2), (.s 4, 2), (.zero, 1)] :=
  ⟨by decide +kernel, sourced_of _ _ _ rfl (by decide +kernel)⟩
theorem test_far_counter : ran (.twait plain .zero ⟨.s 4, .zero, 0⟩) sFarHeap (fun t => t.me.lanes[31].pc == 0x110) = true := by
  decide +kernel

/-- Descriptor 63 is defined; its image stands at 0x200, whose address s4 holds; s6 holds the last number and s7 the next. -/
def sDesc (ts : SMap Task) : State :=
  { s1 with me := { wave1 with s := [(4, 0x200#32), (6, 63#32), (7, 64#32), (8, 0xFFFF0000#32)] },
            mem := putBytes s1.mem 0x200 (desc63 0x4000).image 128, tasks := ts,
            ctxs := [(0, { cfg := cfg1, descs := [(63, desc63 0x4000)] })] }
theorem issuingDesc (ts : SMap Task) : Issuing (sDesc ts) := ⟨rfl, by show (0xFFFFFFFF#32) ≠ 0; decide, issuing1.3, rfl, rfl⟩
theorem witness_TensorDescriptors : Issuing (sDesc []) ∧ Sourced (sDesc []) plain [(.s 4, 2), (.s 6, 1)] ∧
    Sourced (sDesc []) plain [(.s 4, 2), (.s 7, 1)] ∧ active (sDesc []) plain ≠ 0 ∧ NoAnswers (sDesc []) 0 ∧
    (src32 (sDesc []) (.s 6) 0).toNat + 1 = (kernOf (sDesc [])).descReq ∧
    (src32 (sDesc []) (.s 7) 0).toNat = (kernOf (sDesc [])).descReq ∧
    engineRead (sDesc []) 0 (tagMe (sDesc [])) (some (sDesc []).me.core) (src64 (sDesc []) (.s 4) 0) 128 =
      .ok (desc63 0x4000).image ∧
    descReserved (desc63 0x4000).image = false ∧ descRange (desc63 0x4000).image = true ∧
    (¬ ∃ e ∈ (sDesc []).tasks, e.2.ctx = (sDesc []).me.ctx ∧ 63 ∈ usedDescs e.2.raw) ∧
    Linear (sDesc []) 0 (src64 (sDesc []) (.s 4) 0) 128 0x200 :=
  ⟨issuingDesc _, sourced_of _ _ _ rfl (by decide +kernel), sourced_of _ _ _ rfl (by decide +kernel), by decide +kernel,
    ⟨rfl, rfl⟩, by decide +kernel, by decide +kernel, ok_of (by decide +kernel), by decide +kernel, by decide +kernel,
    (fun ⟨e, h, _⟩ => by cases h), ⟨rfl, by decide +kernel, by decide +kernel⟩⟩
theorem witness_TensorDescriptors_named : ∃ e ∈ (sDesc [(0, { raw := rawDrain })]).tasks,
    e.2.ctx = (sDesc [(0, { raw := rawDrain })]).me.ctx ∧ 63 ∈ usedDescs e.2.raw := by decide +kernel
theorem witness_TensorDescriptors_images : descReserved (2 ^ 84) = true ∧ descReserved (2 ^ 72) = false ∧
    descRange (2 ^ 72) = false ∧ descRange 0 = true := by decide +kernel
theorem witness_TensorDescriptors_unread : engineRead (sDesc []) 0 (tagMe (sDesc [])) (some (sDesc []).me.core)
    (src64 (sDesc []) (.s 8) 0) 128 = .fail := fail_of (by decide +kernel)

theorem drainsEnded (ts : SMap Task) (h : ∀ e ∈ ts, e.2.ctx = 0 → drainsTo e.2.raw 63 = false) : DrainsEnded (sDesc ts) 63 := by
  have w : (sDesc ts).me.lanes[lowest (sDesc ts).iss].wait = .none := by
    show wave1.lanes[lowest 0xFFFFFFFF].wait = .none
    decide +kernel
  unfold DrainsEnded
  rw [w]
  exact h
theorem witness_Histograms : Sourced (sDesc []) plain [(.s 4, 2), (.s 6, 1)] ∧ (Operand.s 4) ≠ .zero ∧ DrainsEnded (sDesc []) 63 ∧
    (descAt (sDesc []) 0 63).rank ≠ 0 ∧ (descAt (sDesc []) 0 63).hist = true ∧ (descAt (sDesc []) 0 62).rank = 0 ∧
    engineRead (sDesc []) 0 (tagMe (sDesc [])) (some (sDesc []).me.core) 0x7000 128 = .ok 0 ∧
    Linear (sDesc []) 0 0x7000 128 0x7000 :=
  ⟨sourced_of _ _ _ rfl (by decide +kernel), by decide, drainsEnded _ (by decide), by decide +kernel, by decide +kernel,
    by decide +kernel, ok_of (by decide +kernel), rfl, by decide +kernel, by decide +kernel⟩
theorem witness_Histograms_wait : let s := sDesc [(0, { raw := rawDrain })]
    (∀ ids, s.me.lanes[lowest s.iss].wait ≠ .tasks ids) ∧ ¬ DrainsEnded s 63 := by
  have w : (sDesc [(0, { raw := rawDrain })]).me.lanes[lowest (sDesc [(0, { raw := rawDrain })]).iss].wait = .none := by
    decide +kernel
  refine ⟨fun ids => by rw [w]; exact Wait.noConfusion, fun h => ?_⟩
  unfold DrainsEnded at h
  rw [w] at h
  have := h (0, { raw := rawDrain }) (by decide +kernel) rfl
  revert this
  decide +kernel

/-- One task in quad 0; descriptor 63 lies at an address. -/
def sTile (base : Word64) (t : Task) : State :=
  { s1 with tasks := [(7, t)], ctxs := [(0, { cfg := cfg1, descs := [(63, desc63 base)] })],
            dikes := [(0, { quads := 1, running := some 0 })] }
theorem onlyTask (base : Word64) (t x : Task) (k : Nat) (h : Table.get? (sTile base t).tasks k = some x) : k = 7 ∧ x = t := by
  simp [sTile, Table.get?] at h
  exact ⟨h.1, h.2.symm⟩
theorem headTile (base : Word64) (t : Task) (r : t.running = false) (w : t.wave = 0) : AtHead (sTile base t) 0 7 t :=
  ⟨rfl, r, by rw [w], fun k x h _ _ => by cases (onlyTask base t x k h).1; decide⟩
theorem witness_TilesStart : let t : Task := { raw := rawProduct }
    (sTile 0x4000 t).stuck = none ∧ Table.rising (sTile 0x4000 t).tasks = true ∧
    Table.getD (sTile 0x4000 t).tileRot 0 0 < 256 ∧
    (∀ tk x, AtHead (sTile 0x4000 t) 0 tk x → quadsReady (sTile 0x4000 t) x.ctx = true ∧
      (HeadReady (sTile 0x4000 t) tk x ∨ HeadHeld (sTile 0x4000 t) tk x) ∧ ∀ g, x.guard ≠ some (g, .isFalse)) ∧
    AtHead (sTile 0x4000 t) 0 7 t ∧ HeadReady (sTile 0x4000 t) 7 t ∧ tkRefusal (sTile 0x4000 t) t = 0 ∧
    (sTile 0x4000 t).tasks.countP (fun e => e.2.running && e.2.wave % 131072 / 256 == 0) < 4 := by
  have ready : HeadReady (sTile 0x4000 { raw := rawProduct }) 7 { raw := rawProduct } :=
    ⟨Or.inl rfl, (fun ⟨e, h, r, _⟩ => by simp [sTile] at h; subst h; cases r), Or.inl (by decide +kernel)⟩
  refine ⟨rfl, rfl, by decide, fun tk x h => ?_, headTile _ _ rfl rfl, ready, by decide +kernel, by decide +kernel⟩
  obtain ⟨rfl, rfl⟩ := onlyTask _ _ _ _ h.1
  exact ⟨by decide +kernel, Or.inl ready, by intro g e; cases e⟩
theorem witness_TilesStart_held : ∃ t : Task, AtHead (sTile 0x4000 t) 0 7 t ∧ HeadHeld (sTile 0x4000 t) 7 t :=
  ⟨{ raw := rawProduct, guard := some (0, .pending true 0 1) }, headTile _ _ rfl rfl, Or.inl ⟨0, true, 0, 1, rfl⟩⟩
theorem witness_TilesStart_refused : let t : Task := { raw := rawProduct + 5 }
    tkRefusal (sTile 0x4000 t) t = 0x50 ∧ Tells (sTile 0x4000 t) 7 t (tkRefusal (sTile 0x4000 t) t) 0x6000 0x6008 :=
  ⟨by decide +kernel, Or.inr ⟨by decide +kernel, by decide +kernel, ok_of (by decide +kernel)⟩,
    Or.inr ⟨by decide +kernel, ok_of (by decide +kernel)⟩, by decide, fun r h => (nomatch h)⟩

theorem witness_ProductsRoundOnce : let t : Task := { raw := rawProduct, running := true }
    Table.get? (sTile 0x4000 t).tasks 7 = some t ∧ tkKind t.raw ≤ 2 ∧ taskRange (sTile 0x4000 t) 7 t = .ok () ∧
    Tells (sTile 0x4000 t) 7 t 0 0x6000 0x6008 ∧ (ctxOf (sTile 0x4000 t) t.ctx).polders = [] :=
  ⟨rfl, by decide +kernel, ok_of (by decide +kernel), ⟨Or.inr ⟨by decide +kernel, by decide +kernel, ok_of (by decide +kernel)⟩,
    Or.inr ⟨by decide +kernel, ok_of (by decide +kernel)⟩, by decide, fun r h => (nomatch h)⟩, rfl⟩

theorem drains : drainElems rawDrain (desc63 0x4000) = [({ e := 255, i := 15, j := 15 }, { i0 := 15, i1 := 15 })] := by
  decide +kernel
theorem witness_DrainsStore : let t : Task := { raw := rawDrain, running := true }
    let d := descAt (sTile 0x4000 t) t.ctx (fieldAt t.raw 0x0C 2)
    2 < tkKind t.raw ∧ tkFlag t.raw 3 = false ∧ taskRange (sTile 0x4000 t) 7 t = .ok () ∧ fieldAt t.raw 0x58 8 = 0 ∧
    fieldAt t.raw 0x50 8 = 0 ∧ d = desc63 0x4000 ∧ ElementsApart (sTile 0x4000 t) t (desc63 0x4000) (fun _ => 0x41FE) ∧
    (Table.getD (sTile 0x4000 t).acc (slotOf t) {}).poison = [] ∧ Linear (sTile 0x4000 t) t.ctx 0x7000 128 0x7000 :=
  ⟨by decide +kernel, by decide +kernel, ok_of (by decide +kernel), by decide +kernel, by decide +kernel, by decide +kernel,
    ⟨fun x h => by
        rw [drains] at h; simp at h; subst h
        exact ⟨rfl, by decide +kernel, by decide +kernel⟩,
      fun x hx y hy n => by rw [drains] at hx hy; simp at hx hy; exact absurd (hx.trans hy.symm) n⟩,
    by decide +kernel, rfl, by decide +kernel, by decide +kernel⟩
/-- The descriptor lies behind the heap. -/
theorem witness_DrainsStore_fail : let t : Task := { raw := rawProduct, running := true }
    taskRange (sTile 0x40000000 t) 7 t = .fail ∧ Tells (sTile 0x40000000 t) 7 t 0x56 0x6000 0x6008 :=
  ⟨fail_of (by decide +kernel), Or.inr ⟨by decide +kernel, by decide +kernel, ok_of (by decide +kernel)⟩,
    Or.inr ⟨by decide +kernel, ok_of (by decide +kernel)⟩, by decide, fun r h => (nomatch h)⟩

/-! ### Witnesses: sources, views, detokenisation -/

/-- The source image at 0x200, whose address s4 holds: 128 bytes from 0x4000, all sealed. s6 holds the last source number,
s8 an address behind the heap. -/
def rawSource : Nat := 0x4000 + 128 * 256 ^ 8 + 128 * 256 ^ 0x28
def sSource : State :=
  { s1 with me := { wave1 with s := [(4, 0x200#32), (6, 4095#32), (8, 0xFFFF0000#32)] },
            mem := putBytes s1.mem 0x200 rawSource 64 }
theorem issuingSource : Issuing sSource := ⟨rfl, by decide, by decide +kernel, rfl, rfl⟩
theorem witness_SourcesSeal : Issuing sSource ∧ Sourced sSource plain [(.s 6, 1), (.s 4, 2)] ∧
    queuesIn [((.s 6 : Operand), 1), (.s 4, 2)] = [] ∧ active sSource plain ≠ 0 ∧ NoAnswers sSource sSource.me.ctx ∧
    let p := releaseAt sSource 0 .pkg
    ReadAs (engineRead p 0 (tagMe sSource) (some sSource.me.core) (src64 sSource (.s 4) 0) 64) (some rawSource) ∧
    ReadAs (engineRead p 0 (tagMe sSource) (some sSource.me.core) (src64 sSource (.s 8) 0) 64) none ∧
    (sealSays sSource 0 4095 (.new (some rawSource))).1 = 0 :=
  ⟨issuingSource, sourced_of _ _ _ rfl (by decide +kernel), rfl, by decide +kernel, ⟨rfl, rfl⟩, ok_of (by decide +kernel),
    fail_of (by decide +kernel), by decide +kernel⟩
theorem witness_SourcesSeal_management : sSource.stuck = none ∧ (Table.get? sSource.ctxs 0).isSome = true ∧ NoAnswers sSource 0 ∧
    ReadAs (engineRead sSource 0 tagMgmt none 0x200 64) (some rawSource) :=
  ⟨rfl, rfl, ⟨rfl, rfl⟩, ok_of (by decide +kernel)⟩

/-- A view of fields over the first 64 bytes of source 4095, in an image and as it is defined. -/
def rawView : Nat := 4095 + 1 * 256 ^ 4 + 64 * 256 ^ 0x10 + 0x220A2C * 256 ^ 0x20
def view1 (e : Extent) : View :=
  { src := 4095, code := 1, len := 64, sep := 0x2C, delim := 0x0A, quote := 0x22, sealed := 128, exts := [(0, e)] }
def source1 : Source := { base := 0x4000, capacity := 128, sealed := 128 }
/-- The image at 0x200, source 4095 defined, and views as given; s6 holds the last view number of the launch, s7 the next;
s8 is the element 0 of extent 0; the byte at 0x4001 of the source is a separator. -/
def sView (raw : Nat) (vs : SMap View) : State :=
  { s1 with me := { wave1 with s := [(4, 0x200#32), (6, 63#32), (7, 64#32), (10, 2#32), (12, 3#32)] },
            mem := putBytes (putBytes s1.mem 0x200 raw 64) 0x4000 0x2C41 2,
            ctxs := [(0, { cfg := cfg1, sources := [(4095, source1)], views := vs })] }
theorem issuingView (r : Nat) (vs : SMap View) : Issuing (sView r vs) :=
  ⟨rfl, by show (0xFFFFFFFF#32) ≠ 0; decide, issuing1.3, rfl, rfl⟩
theorem place_free (c : Context) (k n : Nat) (h : poolPieces c = []) (q : n ≤ c.cfg.poolQuota) :
    ∃ d, poolPlace c k n = some d := by
  apply Option.isSome_iff_exists.mp
  simp [poolPlace, h, q, List.find?_isSome]
theorem witness_ViewsDefine : let s := sView rawView []; let p := releaseAt s 0 .pkg
    Issuing s ∧ Sourced s plain [(.s 4, 2), (.s 6, 1)] ∧ Sourced s plain [(.s 4, 2), (.s 7, 1)] ∧ active s plain ≠ 0 ∧
    NoAnswers s 0 ∧
    (src32 s (.s 6) 0).toNat + 1 = (kernOf s).viewReq ∧ (src32 s (.s 7) 0).toNat = (kernOf s).viewReq ∧
    viewBusy s 0 63 = false ∧ engineRead p 0 (tagMe s) (some s.me.core) (src64 s (.s 4) 0) 64 = .ok rawView ∧
    viewReserved rawView = false ∧ (viewOfImage rawView).code = 1 ∧ (viewOfImage rawView).src = 4095 ∧
    ¬ BadSource s 0 (viewOfImage rawView) ∧ ¬ BadVoc s 0 (viewOfImage rawView) ∧ viewRange p 0 rawView source1 = true ∧
    (dirScan p 0 63 (viewOfImage rawView).nominal).1 = .free ∧
    ∃ dir, let scan := dirScan p 0 63 (viewOfImage rawView).nominal
      poolPlace (ctxOf scan.2 0) scan.2.fresh (32 * (viewOfImage rawView).nominal) = some dir :=
  ⟨issuingView _ _, sourced_of _ _ _ rfl (by decide +kernel), sourced_of _ _ _ rfl (by decide +kernel), by decide +kernel,
    ⟨rfl, rfl⟩, by decide +kernel, by decide +kernel, by decide +kernel, ok_of (by decide +kernel), by decide +kernel,
    by decide +kernel, by decide +kernel, by
      rintro (h | h | ⟨x, h, -, n⟩)
      · revert h; decide +kernel
      · revert h; decide +kernel
      · have : Table.get? (ctxOf (sView rawView []) 0).sources (viewOfImage rawView).src = some source1 := by decide +kernel
        rw [this] at h; cases h; revert n; decide +kernel,
    fun h => by have := h.1; revert this; decide +kernel, by decide +kernel, by decide +kernel,
    place_free _ _ _ (by decide +kernel) (by decide +kernel)⟩
theorem witness_ViewsDefine_refused : viewBusy (sView rawView [(63, view1 { st := .building })]) 0 63 = true ∧
    viewReserved (2 * 256 ^ 5) = true ∧ viewReserved 0 = false ∧ (viewOfImage 0).code = 0 ∧
    viewRange (sView rawView []) 0 (rawView - 64 * 256 ^ 0x10) source1 = false ∧
    Table.get? (ctxOf (sView rawView []) 0).sources 0 = none := by decide +kernel
/-- An empty source, a source of the wrong layout, a vocabulary that is missing, and an image behind the heap. -/
theorem witness_ViewsDefine_badSource : BadSource (sView rawView []) 0 { view1 {} with src := 0 } ∧
    BadSource (sView rawView []) 0 { view1 {} with code := 6 } ∧ BadVoc (sView rawView []) 0 { view1 {} with code := 3, voc := 2 } ∧
    engineRead (sView rawView []) 0 (tagMe (sView rawView [])) (some 0) 0x50000000 64 = .fail :=
  ⟨Or.inr (Or.inl (by decide +kernel)), Or.inr (Or.inr ⟨source1, by decide +kernel, by decide, by decide⟩),
    ⟨Or.inr rfl, Or.inr (by decide +kernel)⟩, fail_of (by decide +kernel)⟩
/-- A pool too small for one record. -/
theorem witness_ViewsDefine_space : let s := { sView rawView [] with
      ctxs := [(0, { cfg := { cfg1 with poolQuota := 31 }, sources := [(4095, source1)] })] }
    (dirScan s 0 63 (viewOfImage rawView).nominal).1 ≠ .free := by decide +kernel
theorem witness_ViewsDefine_places : let c : Context := { cfg := { cfg1 with poolQuota := 4160 }, views := [(63, { view1 {
        st := .resident, size := 1, loc := 0x2000020 } with dir := 0x2000000 })] }
    ∀ u ∈ poolPieces c, Apart 4128 32 u.1 u.2 := by unfold Apart; decide +kernel

/-- A vocabulary of one entry, the byte at 0x3F0, with its image at 0x200 and its entry array at 0x380. -/
def rawVoc : Nat := 1 + 9 * 256 ^ 4 + 0x380 * 256 ^ 0x10 + 0x3F0 * 256 ^ 0x18
def rawEntry : Nat := 7 + 1 * 256 ^ 4
def sVoc : State :=
  { s1 with me := { wave1 with s := [(4, 0x200#32), (6, 15#32), (7, 16#32)] },
            mem := putBytes (putBytes (putBytes s1.mem 0x200 rawVoc 320) 0x380 rawEntry 16) 0x3F0 0x41 1 }
theorem issuingVoc : Issuing sVoc := ⟨rfl, by decide, by decide +kernel, rfl, rfl⟩
theorem vocFine : vocBad rawVoc rawEntry (vocOf rawVoc rawEntry 0 [[0x41]]) = false := by
  have c : (vocOf rawVoc rawEntry 0 [[0x41]]).classes = List.replicate 256 0 := by decide +kernel
  have z : ∀ b : Byte, (List.replicate 256 (0 : Byte)).getD b.toNat 0 = 0 := by decide +kernel
  have a : ((List.range 256).any fun a => (List.range 256).any fun b =>
      byteClass (vocOf rawVoc rawEntry 0 [[0x41]]) (BitVec.ofNat 8 a) ==
        byteClass (vocOf rawVoc rawEntry 0 [[0x41]]) (BitVec.ofNat 8 b) &&
      byteAttach (vocOf rawVoc rawEntry 0 [[0x41]]) (BitVec.ofNat 8 a) !=
        byteAttach (vocOf rawVoc rawEntry 0 [[0x41]]) (BitVec.ofNat 8 b)) = false := by
    unfold byteClass byteAttach
    rw [c]
    simp only [z]
    decide +kernel
  unfold vocBad
  simp only [a, Bool.or_false]
  decide +kernel
theorem witness_ViewsDefine_vocabulary : Issuing sVoc ∧ Sourced sVoc plain [(.s 4, 2), (.s 6, 1)] ∧
    (src32 sVoc (.s 6) 0).toNat = 15 ∧ (src32 sVoc (.s 7) 0).toNat = 16 ∧
    NoAnswers sVoc 0 ∧ engineRead (applyOwn sVoc 0) 0 (tagMe sVoc) (some sVoc.me.core) (src64 sVoc (.s 4) 0) 320 = .ok rawVoc ∧
    vocArrays (applyOwn sVoc 0) 0 (tagMe sVoc) (some sVoc.me.core) rawVoc = .ok rawEntry 0 [[0x41]] ∧
    vocReserved rawVoc rawEntry = false ∧ vocBad rawVoc rawEntry (vocOf rawVoc rawEntry 0 [[0x41]]) = false ∧
    ((ctxOf sVoc 0).views.any fun v => (v.2.code == 2 || v.2.code == 3) && v.2.voc == 15) = false :=
  ⟨issuingVoc, sourced_of _ _ _ rfl (by decide +kernel), by decide +kernel, by decide +kernel, ⟨rfl, rfl⟩,
    ok_of (by decide +kernel), by decide +kernel, by decide +kernel, vocFine, rfl⟩
/-- Entries behind the heap, and an entry array with a nonzero zero field. -/
theorem witness_ViewsDefine_vocabularyRefused : vocArrays sVoc 0 (tagMe sVoc) (some sVoc.me.core)
      (1 + 9 * 256 ^ 4 + 0x50000000 * 256 ^ 0x10) = .unread ∧ vocReserved rawVoc (rawEntry + 256 ^ 5) = true ∧
    vocBad (2 ^ 31) rawEntry {} = true := by decide +kernel
theorem witness_ViewsDefine_management : (15#32).toNat ≤ 15 ∧ engineRead sVoc 0 tagMgmt none 0x200 320 = .ok rawVoc ∧
    vocArrays sVoc 0 tagMgmt none rawVoc = .ok rawEntry 0 [[0x41]] :=
  ⟨by decide, ok_of (by decide +kernel), by decide +kernel⟩

/-- A vocabulary with an entry of one byte and pre-token boundaries between letters and spaces. -/
def voc1 : Vocab := { entries := [{ id := 7, str := [0x41] }], classes := List.replicate 0x41 0 ++ List.replicate 191 1 }
theorem witness_TokensAlign : (∀ e ∈ voc1.entries, e.str ≠ []) ∧
    (∀ x y, [0x41#8].getLast? = some x → ([0x20#8] ++ [0x41#8]).head? = some y → preBoundary voc1 x y = true) ∧
    ∀ x y, [0x20#8].getLast? = some x → [0x41#8].head? = some y → preBoundary voc1 x y = true :=
  ⟨by decide, fun x y a b => by cases a; cases b; decide +kernel, fun x y a b => by cases a; cases b; decide +kernel⟩

/-- Extent 0 of view 63 is resident, with two elements that leave byte 3 between them. -/
def extent1 : Extent := { st := .resident, known := true, counted := true, count := 2, size := 1, cost := 5,
                          elems := [{ val := 9, off := 0, len := 3 }, { val := 8, off := 4, len := 60 }] }
def sHit : State := sView 0 [(63, view1 extent1)]
theorem foundHit : Found sHit 0 63 0 (view1 extent1) { val := 9, off := 0, len := 3 } :=
  ⟨rfl, by decide +kernel, by decide +kernel, by decide +kernel⟩
theorem own31 : ∀ l ∈ accessors true (active sHit plain), l = 0 := by decide +kernel
theorem witness_ViewAccessesHit : let srcs := [((.s 6 : Operand), 1), (.zero, 2)]
    Issuing sHit ∧ Sourced sHit plain srcs ∧ queuesIn srcs = [] ∧ 0 ≤ (0 : BitVec 12).toInt ∧
    ∀ l ∈ accessors true (active sHit plain),
      Found sHit sHit.me.ctx (src32 sHit (.s 6) l).toNat (src64 sHit .zero l).toNat (view1 extent1)
        { val := 9, off := 0, len := 3 } ∧
      ((0 : BitVec 12).toInt + 1) * vsizeBytes .b64 ≤ (elemBytes sHit sHit.me.ctx (view1 extent1) : Int) :=
  ⟨issuingView _ _, sourced_of _ _ _ rfl (by decide +kernel), rfl, by decide, fun l m => by
    rw [own31 l m]; exact ⟨foundHit, by decide +kernel⟩⟩
theorem byteAt (b i : Nat) (between : Bool) (n : b = 2 ∧ i = 0 ∧ between = false ∨ b = 3 ∧ i = 1 ∧ between = true) :
    ByteAt sHit 0 63 b (view1 extent1) 0 i between := by
  rcases n with ⟨rfl, rfl, rfl⟩ | ⟨rfl, rfl, rfl⟩
  · exact ⟨rfl, by decide, ⟨by decide, 0, ok_of (by decide +kernel), by decide⟩, fun j h k => by omega, by decide +kernel,
      by decide +kernel, ⟨{ val := 9, off := 0, len := 3 }, by decide +kernel, by decide, fun j h => by omega⟩⟩
  · refine ⟨rfl, by decide, ⟨by decide, 0, ok_of (by decide +kernel), by decide⟩, fun j h k => by omega, by decide +kernel,
      by decide +kernel, ⟨{ val := 8, off := 4, len := 60 }, by decide +kernel, by decide, ?_, fun j h z k => ?_⟩⟩
    · intro z m
      have : z ∈ extent1.elems := m
      revert this z
      decide
    · have e : j = 0 := by omega
      subst e
      have : (extOf (view1 extent1) 0).elems[0]? = some { val := 9, off := 0, len := 3 } := by decide +kernel
      rw [this] at k
      cases k
      decide
/-- The last byte of the first element, and the byte between the elements. -/
theorem witness_ViewAccessesHit_find : ∀ l ∈ accessors true (active sHit plain),
    ByteAt sHit sHit.me.ctx (src32 sHit (.s 6) l).toNat (src32 sHit (.s 10) l).toNat (view1 extent1) 0 0 false ∧
    ByteAt sHit sHit.me.ctx (src32 sHit (.s 6) l).toNat (src32 sHit (.s 12) l).toNat (view1 extent1) 0 1 true := fun l m => by
  rw [own31 l m]
  exact ⟨byteAt 2 0 false (Or.inl ⟨rfl, rfl, rfl⟩), byteAt 3 1 true (Or.inr ⟨rfl, rfl, rfl⟩)⟩

/-- The extent is building. -/
def sMiss : State := sView 0 [(63, view1 { st := .building, size := 1 })]
theorem witness_ViewMissesWait : Issuing sMiss ∧ OneGroup sMiss ∧ Sourced sMiss plain [(.s 6, 1), (.zero, 2)] ∧
    CanFault sMiss (active sMiss plain) 0 ∧ ∀ l ∈ accessors true (active sMiss plain),
      ∃ v, viewOf sMiss 0 (src32 sMiss (.s 6) l).toNat = some v ∧
        extExists sMiss 0 (src32 sMiss (.s 6) l).toNat v ((src64 sMiss .zero l).toNat / 2 ^ 24) = true ∧ v.code ≠ 5 ∧
        (extOf v ((src64 sMiss .zero l).toNat / 2 ^ 24)).st = .building :=
  ⟨issuingView _ _, by unfold OneGroup; decide +kernel, sourced_of _ _ _ rfl (by decide +kernel),
    ⟨rfl, by decide +kernel, by decide +kernel, by decide +kernel, by decide +kernel⟩, fun l m => by
      have h : l = 0 := by revert m; revert l; decide +kernel
      subst h
      exact ⟨view1 { st := .building, size := 1 }, by decide +kernel⟩⟩

/-- The same view with its extent absent, in a pool with room for any extent. -/
def sAbsent : State :=
  { sView 0 [] with
      me := { (sView 0 []).me with k := [(1, 0x80000000#32)] },
      ctxs := [(0, { cfg := { cfg1 with poolQuota := 2 ^ 40 }, sources := [(4095, source1)],
                     views := [(63, { view1 {} with dir := 0x2000000 })] })] }
theorem witness_ViewMissesWait_absent : let v := { view1 {} with dir := 0x2000000 }
    Issuing sAbsent ∧ (∀ l ∈ accessors true (active sAbsent plain), (src32 sAbsent (.s 6) l).toNat = 63 ∧
      (src64 sAbsent .zero l).toNat / 2 ^ 24 = 0) ∧ viewOf sAbsent 0 63 = some v ∧ extExists sAbsent 0 63 v 0 = true ∧
    v.code ≠ 5 ∧ (extOf v 0).st = .absent ∧ (extOf v 0).waitingSpace = false ∧ RoomyPool sAbsent 0 v ∧
    SourceApart sAbsent 0 v :=
  ⟨⟨rfl, by decide, by decide +kernel, rfl, rfl⟩, by decide +kernel, rfl, by decide +kernel, by decide, by decide +kernel,
    by decide +kernel, by unfold RoomyPool; decide +kernel, by decide, by decide +kernel⟩
theorem witness_ViewHints : ∀ l ∈ accessors true (active sHit plain),
    StatIs sHit sHit.me.ctx .state (src32 sHit (.s 6) l).toNat (src64 sHit .zero l).toNat (2 + 32 + 64) ∧
    StatIs sHit sHit.me.ctx .count (src32 sHit (.s 6) l).toNat (src64 sHit .zero l).toNat 2 ∧
    StatIs sHit sHit.me.ctx .nx (src32 sHit (.s 6) l).toNat (src64 sHit .zero l).toNat 1 := fun l m => by
  rw [own31 l m]
  exact ⟨⟨view1 extent1, rfl, by decide +kernel⟩, ⟨view1 extent1, rfl, by decide +kernel⟩,
    ⟨view1 extent1, rfl, by decide +kernel, by decide +kernel⟩⟩
theorem witness_ViewHints_pin : (∀ l ∈ accessors true (active sHit plain), ∀ j ∈ accessors true (active sHit plain), l ≠ j →
      ((src32 sHit (.s 6) l).toNat, (src64 sHit .zero l).toNat / 2 ^ 24) ≠
        ((src32 sHit (.s 6) j).toNat, (src64 sHit .zero j).toNat / 2 ^ 24)) ∧
    ∀ v, viewOf sHit 0 63 = some v → v.code ≠ 5 ∧ (extOf v 0).st ≠ .absent ∧ (extOf v 0).st ≠ .evicting :=
  ⟨fun l a j b n => absurd ((own31 l a).trans (own31 j b).symm) n, fun v h => by cases h; decide +kernel⟩
/-- Lane 31 touches an absent extent. -/
theorem witness_ViewHints_touch : active sAbsent hk1 = laneBit 31 ∧ (src32 sAbsent (.s 6) 31).toNat = 63 ∧
    viewOf sAbsent 0 63 = some { view1 {} with dir := 0x2000000 } ∧
    extExists sAbsent 0 63 { view1 {} with dir := 0x2000000 } 0 = true := by decide +kernel

/-- Extent 0 of view 63 in a state; fragment 5 waits for it alone. -/
def sExtent (e : Extent) (c : Context → Context) : State :=
  { s1 with ctxs := [(0, c { cfg := cfg1, sources := [(4095, source1)], views := [(63, view1 e)] })],
            frags := [(5, { cause := .viewmiss, obj := .extents [(63, 0)], pc := 0x100, hdr := 0x100, lanes := 1 })] }
theorem witness_ExtentsBuild : let s := sExtent { st := .building, size := 1 } id
    s.stuck = none ∧ viewOf s 0 63 = some (view1 { st := .building, size := 1 }) ∧
    0 < (view1 { st := .building, size := 1 }).nominal ∧
    extentSpan s 0 (tagBuild 63 0) (view1 { st := .building, size := 1 }) 0 = .ok (0, 64) ∧
    spanGot s 0 (tagBuild 63 0) (view1 { st := .building, size := 1 }) 0 64 = .ok () ∧
    ∃ f, WaitsOnlyFor s 0 5 f 63 0 :=
  ⟨rfl, rfl, by decide +kernel, ok_of (by decide +kernel), ok_of (by decide +kernel), _, rfl, by decide, rfl, rfl,
    _, rfl, fun q h => Or.inl (by simpa using h)⟩
theorem witness_ExtentsBuild_evict : let s := { sExtent { st := .evicting, size := 1 } id with frags := [] }
    viewOf s 0 63 = some (view1 { st := .evicting, size := 1 }) ∧ extRefs s 0 63 0 = 0 := by decide +kernel
theorem witness_ExtentsBuild_rescan : ∃ v ∈ (ctxOf (sExtent { st := .building, waitingSpace := true } id) 0).views,
    ∃ e ∈ v.2.exts, e.2.waitingSpace = true := by decide +kernel
/-- The one build that lacks space, and the pool has room for it. -/
theorem witness_ExtentsBuild_room : let v := view1 { st := .building, waitingSpace := true }
    let s := sExtent { st := .building, waitingSpace := true } id
    ∃ es, viewOf s 0 63 = some v ∧ (extOf v 0).st = .building ∧ (extOf v 0).size = 0 ∧ (extOf v 0).waitingSpace = true ∧
    (∀ e ∈ (ctxOf s 0).views, ∀ x ∈ e.2.exts, x.2.waitingSpace = true → e.1 = 63 ∧ x.1 = 0) ∧
    Table.rising (ctxOf s 0).views = true ∧ Table.rising v.exts = true ∧
    buildGot s 0 (tagBuild 63 0) v 0 [] = .ok (some es) ∧ 4096 * extentUnits s 0 v es.length ≤ poolFree (ctxOf s 0) :=
  ⟨[{ off := 0, len := 64, val := 64 * 2 ^ 32 }], rfl, by decide, by decide, by decide, by decide +kernel, rfl, rfl,
    ok_of (by decide +kernel), by decide +kernel⟩
/-- An age at which a sweep acts, and the largest below. -/
theorem witness_ExtentsBuild_sweep :
    (({ sExtent {} id with wall := 65536 * 2 ^ 15 }).wall / 65536 % 65536 + 65536 - 0) % 65536 = 2 ^ 15 ∧
    (({ sExtent {} id with wall := 65536 * 2 ^ 15 }).wall / 65536 % 65536 + 65536 - 1) % 65536 < 2 ^ 15 := by decide +kernel
theorem witness_ExtentsBuild_pass : let s := sExtent {} fun c => { c with passes := [(63, 1)] }
    viewOf s 0 63 = some (view1 {}) ∧ (63, 2 * 0 + 1) ∈ (ctxOf s 0).passes ∧ countGot s 0 63 (view1 {}) 0 = .ok (some 1) :=
  ⟨rfl, by decide +kernel, ok_of (by decide +kernel)⟩
theorem witness_ExtentsBuild_score : let s := { sExtent extent1 id with frags := [] }
    (∀ r ∈ [(63, 0)], evictable s 0 r.1 r.2 = true → (extentIn s 0 r.1 r.2).size ≠ 0) ∧
    lowestScore s 0 [(63, 0)] = some (63, 0) := by decide +kernel

/-- A detokeniser command at 0x200 for the one token at 0x3F0 of vocabulary 15, into source 4095, with the stream state at 0x400
and the counter at 0x500. -/
def rawDetok : Nat := 0x3F0 + 1 * 256 ^ 8 + 15 * 256 ^ 0x0C + 4095 * 256 ^ 0x10 + 0x400 * 256 ^ 0x18 + 0x500 * 256 ^ 0x28
def detok1 : DetokCmd := { buf := 0x3F0, count := 1, voc := 15, dst := 4095, stream := 0x400, done := 0x500 }
def sDetok (ds : SMap DetokCmd) : State :=
  { s1 with me := { wave1 with s := [(4, 0x200#32)] },
            mem := putBytes (putBytes s1.mem 0x200 rawDetok 64) 0x3F0 7 4, detoks := ds,
            ctxs := [(0, { cfg := cfg1, sources := [(4095, { source1 with sealed := 120 })], vocs := [(15, voc1)] })] }
theorem issuingDetok (ds : SMap DetokCmd) : Issuing (sDetok ds) :=
  ⟨rfl, by show (0xFFFFFFFF#32) ≠ 0; decide, issuing1.3, rfl, rfl⟩
theorem witness_Detokenise : Issuing (sDetok []) ∧ Sourced (sDetok []) plain [(.s 4, 2)] ∧ active (sDetok []) plain ≠ 0 ∧
    NoAnswers (sDetok []) 0 ∧ engineRead (applyOwn (sDetok []) 0) 0 (tagMe (sDetok [])) (some (sDetok []).me.core) (src64 (sDetok []) (.s 4) 0) 64 = .ok rawDetok ∧
    engineRead (applyOwn (sDetok []) 0) 0 (tagMe (sDetok [])) (some (sDetok []).me.core) (BitVec.ofNat 64 (fieldAt rawDetok 0x20 8)) (40 * 0) =
      .ok 0 ∧
    detokReserved rawDetok 0 0 = false ∧ detokRange rawDetok 0 0 = true ∧ fieldAt rawDetok 0x10 4 = 4095 ∧
    (∃ x, Table.get? (ctxOf (sDetok []) 0).sources (fieldAt rawDetok 0x10 4) = some x ∧ x.packed = false) ∧
    (Table.get? (ctxOf (sDetok []) 0).vocs (fieldAt rawDetok 0x0C 1)).isSome = true :=
  ⟨issuingDetok _, sourced_of _ _ _ rfl (by decide +kernel), by decide +kernel, ⟨rfl, rfl⟩, ok_of (by decide +kernel),
    ok_of (by decide +kernel), by decide +kernel, by decide +kernel, by decide +kernel,
    ⟨{ source1 with sealed := 120 }, by decide +kernel⟩, by decide +kernel⟩
theorem witness_Detokenise_refused : detokReserved (1 * 256 ^ 0x0E) 0 0 = true ∧ detokRange 2 0 0 = false := by decide +kernel
theorem witness_Detokenise_engine : let s := sDetok [(9, detok1)]
    s.detoks.find? (fun e => e.2.die == 0) = some (9, detok1) ∧ Readable s 0 0x3F0 4 0x3F0 ∧ Readable s 0 0x400 64 0x400 ∧
    Linear s 0 0x400 64 0x400 ∧ Linear s 0 (0x4000 + BitVec.ofNat 64 120) (128 - 120) 0x4078 ∧ Linear s 0 0x500 8 0x500 ∧
    Apart 0x400 64 0x4078 8 ∧ Apart 0x400 64 0x500 8 ∧ Apart 0x4078 8 0x500 8 ∧
    streamBad (number (memByte s) 0x400 64) [] = false ∧ number (memByte s) 0x400 64 % 2 = 0 :=
  ⟨by decide +kernel, ⟨rfl, by decide +kernel, by decide +kernel, by decide +kernel⟩,
    ⟨rfl, by decide +kernel, by decide +kernel, by decide +kernel⟩, ⟨rfl, by decide +kernel, by decide +kernel⟩,
    ⟨rfl, by decide +kernel, by decide +kernel⟩, ⟨rfl, by decide +kernel, by decide +kernel⟩, Or.inl (by decide),
    Or.inl (by decide), Or.inr (by decide), by decide +kernel, by decide +kernel⟩
/-- A stop string that the bytes complete, and one that they only begin. -/
theorem witness_Detokenise_stop : (∀ t ∈ [[0x41#8, 0x42#8]], t ≠ []) ∧
    (∀ n ≤ 1, ∀ t ∈ [[0x41#8, 0x42#8]], ¬ t <:+ [0x41#8].take n) ∧ [0x41#8, 0x42#8] <:+ [0x41#8, 0x42#8].take 2 := by decide

/-! ### Witnesses: the admin queue, the host, peers -/

/-- A part with one context, number 4095, no group, and a completion ring of sixteen places. -/
def sIdle : State := { State.reset with ctxs := [(4095, { cfg := cfg1 })], adm := { cplSize := 16, cplBase := 0x1000 } }
def cmd (n : BitVec 32) (a b c : Word64) : AdminCmd := { tag := 0xFFFF, n := n, a := a, b := b, c := c, resv := false }
theorem witness_AdminCommandsEnd : commandSays sIdle (.power (cmd 0 0 0 3600)) =
      some (cmd 0 0 0 3600, 0, { sIdle with powerLimit := 3600 }) ∧ sIdle.stuck = none ∧ RingHasRoom sIdle.adm ∧
    ¬ RingHasRoom { sIdle.adm with written := 16 } := by
  refine ⟨?_, rfl, by unfold RingHasRoom; decide, by unfold RingHasRoom; decide⟩
  rfl

theorem witness_MemoryCommands : (cmd 0 0 65536 0).n = 0 ∧ (cmd 0 0 65536 0).c = 0 ∧ (cmd 0 0 65536 0).a.toNat % 65536 = 0 ∧
    (cmd 0 0 65536 0).b.toNat % 65536 = 0 ∧ (cmd 0 0 65536 0).a.toNat + (cmd 0 0 65536 0).b.toNat ≤ usableBytes ∧
    ¬ ((cmd 0 0 65535 0).b.toNat % 65536 = 0) := by decide +kernel
/-- The page behind the heap is held translated, at host address 0, and the last slot of the largest zone is named. -/
def sPaged (tlb : List TlbEntry) : State :=
  { sIdle with ctxs := [(4095, { cfg := { cfg1 with paged := true }, tlb := tlb })], zoneBytes := 2 ^ 39 }
theorem witness_MemoryCommands_cold : let s := sPaged [{ page := 0x40000000, addr := 0x10000000000 }]
    ∃ x, Table.get? s.ctxs (cmd 4095 0x40000000 (2 ^ 23 - 1) 0).n.toNat = some x ∧ x.ending = false ∧ x.cfg.paged = true ∧
    x.pri = [] ∧ inHeap x.cfg 0x40000000 = false ∧ s.zoneBytes ≠ 0 ∧
    engineTr s 4095 tagCold 0x40000000 false = .ok (hostBase + 2 ^ 40) ∧ Memory.wf s.mem = true ∧ Memory.wf s.zoneData = true :=
  ⟨_, rfl, rfl, rfl, rfl, by decide +kernel, by decide, ok_of (by decide +kernel), by decide, by decide⟩
/-- The largest buffer that ends with the heap, and one whose size is no power of two. -/
theorem witness_MemoryCommands_trace : ∃ x, Table.get? sIdle.ctxs 4095 = some x ∧ x.ending = false ∧ x.samples = [] ∧
    (let b : Word64 := 64 + 4 * 2 ^ 32 + 2 ^ 63;
      b.toNat / 2 ^ 40 % 2 ^ 23 = 0 ∧ (0x3FFFF000 : Word64).toNat % 4096 = 0 ∧
      (64 ≤ b.toNat % 2 ^ 32 ∧ b.toNat % 2 ^ 32 ≤ 2 ^ 24 ∧ 2 ^ (b.toNat % 2 ^ 32).log2 = b.toNat % 2 ^ 32) ∧
      4 ≤ b.toNat / 2 ^ 32 % 256 ∧ b.toNat / 2 ^ 32 % 256 ≤ 24 ∧ x.cfg.heapBase.toNat ≤ 0x3FFFF000 ∧
      0x3FFFF000 + 64 * (b.toNat % 2 ^ 32) ≤ x.cfg.heapBase.toNat + x.cfg.heapLimit.toNat) ∧ 2 ^ (65 : Nat).log2 ≠ 65 :=
  ⟨_, rfl, rfl, rfl, by decide +kernel, by decide +kernel⟩
theorem witness_CommandsThatWait_debug : ∃ v p x, debugSays sNamed 0 191#32 (.debugFragMask (cmd 0 0 191 0)) =
      some (cmd 0 0 191 0, v, p) ∧ p.stuck = none ∧ (cmd 0 0 191 0).b.toNat < 2 ^ 32 ∧ Table.get? sNamed.ctxs 0 = some x ∧
    x.ending = false := ⟨_, _, _, rfl, rfl, by decide, rfl, rfl⟩
theorem idleRuns : NothingRuns sIdle 4095 := ⟨by decide, by decide, by decide, by decide, by decide, by decide, by decide⟩
theorem witness_CommandsThatWait : ∃ x, Table.get? sIdle.ctxs (cmd 4095 0 0 0).n.toNat = some x ∧ x.ending = false ∧
    NothingRuns sIdle (cmd 4095 0 0 0).n.toNat := ⟨_, rfl, rfl, idleRuns⟩
theorem witness_CommandsThatWait_group : ∃ x, Table.get? s1.ctxs (cmd 0 0 0 0).n.toNat = some x ∧ x.ending = false ∧
    ∃ e ∈ s1.groups, e.2.ctx = (cmd 0 0 0 0).n.toNat := ⟨_, rfl, rfl, by decide +kernel⟩
theorem witness_CommandsThatWait_ring : let s := { sIdle with adm := { sIdle.adm with waiting := some (0xFFFF, 0x92, 0) } }
    s.adm.waiting = some (0xFFFF, 0x92, 0) ∧ RingHasRoom s.adm ∧ ¬ RingHasRoom { s.adm with written := 16 } :=
  ⟨rfl, by unfold RingHasRoom; decide, by unfold RingHasRoom; decide⟩
theorem witness_CommandsThatWait_late : let s := { sIdle with adm := { sIdle.adm with inProgress := some (.destroy (cmd 4095 0 0 0)) } }
    s.adm.waiting = none ∧ s.adm.inProgress = some (.destroy (cmd 4095 0 0 0)) ∧ NothingRuns s 4095 :=
  ⟨rfl, rfl, by decide, by decide, by decide, by decide, by decide, by decide, by decide⟩

/-- The last queue number, bound to context 0 of function 0; its write-back word ends with the heap. -/
def sQueue : State := { s1 with queues := [(131071, { entries := 16, wb := 0x3FFFFFF8 })] }
theorem ownedQueue : Owned sQueue 0 0 := ⟨_, rfl, rfl, rfl⟩
theorem witness_HostActs : ∃ x, Table.get? sQueue.queues 131071 = some x ∧ Owned sQueue 0 x.ctx ∧
    (16 - x.cons).toNat ≤ x.entries ∧ x.entries < (17 - x.cons).toNat ∧ (ctxOf sQueue x.ctx).pri = [] ∧
    Linear sQueue x.ctx x.wb 8 0x3FFFFFF8 :=
  ⟨_, rfl, ownedQueue, by decide, by decide, rfl, rfl, by decide +kernel, by decide +kernel⟩
theorem witness_HostActs_other : ¬ Owned sQueue 1 0 := fun ⟨c, h, f, _⟩ => by cases h; cases f
theorem witness_HostActs_management : (64 - (ctxOf sQueue 0).mgmtCons).toNat ≤ 64 ∧ 64 < (65 - (ctxOf sQueue 0).mgmtCons).toNat := by
  decide +kernel
/-- The first bytes of HBM for the physical function; the last of the heap for a virtual one. -/
theorem witness_HostActs_window : BarAt s1 0 0 8 0 := ⟨by decide, rfl, by decide +kernel⟩
theorem witness_HostActs_window_virtual :
    BarAt { s1 with ctxs := [(0, { cfg := { cfg1 with fn := 1 } })], fns := [(1, { winctx := 0x80000000 })] } 1 0x3FFFFFF8 8
      0x3FFFFFF8 :=
  ⟨by decide, ⟨by decide +kernel, ⟨_, rfl, rfl, rfl⟩, by decide +kernel, by decide +kernel⟩, by decide +kernel⟩

/-- Lane 31 of the wave waits for the page behind the heap. -/
def pageFrag : Frag := { lanes := 0x80000000, cause := .page, pc := 0x100, hdr := 0x100, info := [{ lane := 31, page := some 0x40000000 }] }
def sPage : State :=
  { s1 with me := { wave1 with lanes := wave1.lanes.set 31 { lane1 with life := .frag 0 } }, frags := [(0, pageFrag)],
            ctxs := [(0, { cfg := { cfg1 with paged := true }, pri := [{ page := 0x40000000 }] })] }
theorem witness_PeersAnswer : Asked sPage 0 0x40000000 ∧ PageFragment sPage 0 0x40000000 0 pageFrag ∧
    (ctxOf sPage 0).cfg.hdlTab = 0 ∧
    (waveOf sPage pageFrag.wave).lanes[lowest (maskOf (pageFrag.info.map fun i => Fin.ofNat 32 i.lane))].handler = none ∧
    NoWriteBacks sPage 0 ∧ ¬ Asked sPage 0 0x40010000 :=
  ⟨⟨_, List.mem_cons_self, rfl, rfl⟩, ⟨rfl, by decide +kernel, by decide +kernel, by decide +kernel, by decide +kernel,
      by decide +kernel, by decide +kernel⟩, by decide,
    by decide +kernel, (fun e h => by cases h), (by
      rintro ⟨q, m, p, _⟩
      have : q = { page := 0x40000000 } := by simpa [sPage, ctxOf, Table.getD, Table.get?] using m
      subst this; cases p)⟩
/-- Lanes 30 and 31 wait; the page of lane 30 has been refused, and that of lane 31 is asked for. -/
def splitFrag : Frag := { pageFrag with lanes := 0xC0000000, info := [{ lane := 30, page := some 0x40010000, answer := .invalid },
                                                                     { lane := 31, page := some 0x40000000 }] }
theorem witness_PeersAnswer_split : let s := { sPage with frags := [(0, splitFrag)] }
    AnswerEvent 0 0x40000000 .success (.priSuccess 0 0x40000000) ∧ Asked s 0 0x40000000 ∧
    PageFragment s 0 0x40000000 0 splitFrag ∧ RefusedLane splitFrag 0x40000000 .success 30 ∧
    ¬ RefusedLane splitFrag 0x40000000 .success 31 := by
  refine ⟨rfl, ⟨_, List.mem_cons_self, rfl, rfl⟩, ⟨rfl, by decide +kernel, by decide +kernel, by decide +kernel,
    by decide +kernel, by decide +kernel, by decide +kernel⟩, ?_, ?_⟩
  · unfold RefusedLane; decide +kernel
  · unfold RefusedLane; decide +kernel
/-- An engine waits for a page that the host has not let it write. -/
theorem witness_PeersAnswer_engine : let s := { s1 with
      ctxs := [(0, { cfg := { cfg1 with paged := true }, denied := [(0x40000000, true)],
                     pri := [{ page := 0x40000000, write := true, tag := 5 }] })] }
    s.frags = [] ∧ NoWriteBacks s 0 ∧ pageOf 0x4000FFFF = 0x40000000 ∧
    (ctxOf s 0).pri = [{ page := 0x40000000, write := true, tag := 5 }] ∧ translate s 0 0x4000FFFF true = .page ∧
    readOnlyPage s 0 0x4000FFFF = false :=
  ⟨rfl, (fun e h => by cases h), by decide, rfl, by decide +kernel, by decide +kernel⟩
theorem witness_PeersAnswer_ats : let s := withCtx fun c => { c with cfg := { cfg1 with paged := true }, ats := [(0x40000000, false)] }
    AskedAts s 0 0x40000000 ∧ ¬ AskedAts s 0 0x40010000 ∧ NoWriteBacks s 0 ∧ (ctxOf s 0).cfg.paged = true ∧
    (ctxOf s 0).exmap = [] ∧ inHeap (ctxOf s 0).cfg 0x40000000 = false ∧ inHeap (ctxOf s 0).cfg 0x401FFFFF = false :=
  ⟨⟨_, List.mem_cons_self, rfl⟩, (by
      rintro ⟨q, m, p⟩
      have : q = (0x40000000, false) := by simpa [withCtx, ctxOf, Table.getD, Table.get?] using m
      subst this; cases p),
    (fun e h => by cases h), rfl, rfl, by decide +kernel, by decide +kernel⟩
/-- Lane 31 has a request in flight. -/
theorem witness_PeersAnswer_remote : let r : RemoteReq := { lane := 31, addr := 0x40000000, bytes := 8, pa := 2 ^ 39 }
    let s := { s1 with remotes := [(9, r)], me := { wave1 with lanes := wave1.lanes.set 31 { lane1 with wait := .stall (.answers [9] false) } } }
    Table.get? s.remotes 9 = some r ∧ (31 : Fin 32).val = r.lane ∧ r.tag = none ∧ (waveOf s r.wave).group = r.group ∧
    (waveOf s r.wave).lanes[31].life = .live ∧ (waveOf s r.wave).lanes[31].wait = .stall (.answers [9] false) ∧
    Table.get? s.remotes 8 = none ∧ ∃ x ∈ s.remotes, x.2.ctx = 0 ∧ x.2.addr.toNat < 0x40000000 + 65536 :=
  ⟨rfl, rfl, rfl, by decide +kernel, by decide +kernel, by decide +kernel, rfl, _, List.mem_cons_self, rfl, by decide⟩
/-- An engine has one. -/
theorem witness_PeersAnswer_remoteEngine : let r : RemoteReq := { tag := some 5, pa := 2 ^ 39 }
    let s := { s1 with remotes := [(9, r)] }
    Table.get? s.remotes 9 = some r ∧ r.tag = some 5 ∧ Table.get? s.ctxs r.ctx ≠ none ∧ NoWriteBacks s r.ctx :=
  ⟨rfl, rfl, by decide +kernel, fun e h => (nomatch h)⟩
/-- Package 1 of two is lost, which no port of this one tells. -/
theorem witness_PeersAnswer_package : let s := { s1 with packages := 2 }
    1 < s.packages ∧ 1 ≠ s.pkg ∧ s.degraded = false ∧ s.ctxs = [(0, { cfg := cfg1 })] := by decide +kernel
theorem logRoom1 (s : State) (c : Context) (h : Table.get? s.ctxs 0 = some c) (f : (c.fqprod - c.fqcons).toNat ≠ c.cfg.fqEntries)
    (l : Linear s 0 (c.cfg.fqBase + BitVec.ofNat 64 (64 * (c.fqprod.toNat % c.cfg.fqEntries))) 64 0x10000) :
    LogRoom s 0 0x10000 := ⟨c, h, f, l⟩
theorem witness_PeersAnswer_inbound : translate s1 0 0x3FFFFFF8 true = .ok 0x3FFFFFF8 ∧ translate s1 0 0x40000000 true = .refused 0 ∧
    LogRoom s1 0 0x10000 :=
  ⟨by decide +kernel, by decide +kernel, logRoom1 _ _ rfl (by decide) ⟨rfl, by decide +kernel, by decide +kernel⟩⟩
/-- The heap's first page stands in another package. -/
def sFar : State := { s1 with ctxs := [(0, { cfg := { cfg1 with heapOff := 0x7FFFFF0000 } })], packages := 2, pkg := 1 }
theorem witness_PeersAnswer_inbound_remote : translate sFar 0 0xFFF8 false = .remote 0x7FFFFFFFF8 ∧
    LogRoom sFar 0 0x8000000000 :=
  ⟨by decide +kernel, { cfg := { cfg1 with heapOff := 0x7FFFFF0000 } }, rfl, by decide, rfl, by decide +kernel,
    by decide +kernel⟩
theorem witness_PeersAnswer_port : let s := { s1 with portsDown := List.range 35, packages := 2 }
    36 ≤ (insertNat 35 s.portsDown).length ∧ (insertNat 34 (List.range 34)).length < 36 ∧ (∃ p < s.packages, p ≠ s.pkg) ∧
    s.ctxs = [(0, { cfg := cfg1 })] ∧ LogRoom s 0 0x10000 :=
  ⟨by decide, by decide, ⟨1, by decide, by decide⟩, rfl, logRoom1 _ _ rfl (by decide) ⟨rfl, by decide +kernel, by decide +kernel⟩⟩
/-- Lane 31 of the only wave waits at a barrier of the pod. -/
def podWave : Wave := { wave1 with lanes := Vector.set (Vector.replicate 32 {}) 31 { lane1 with wait := .bar .pod 0 0 7 } }
theorem witness_PeersAnswer_pod : let s := { s1 with me := {}, waves := [(0, podWave)], degraded := true }
    s.me.present = false ∧ s.degraded = true ∧ Table.get? s.waves 0 = some podWave ∧ PodWaiter s podWave podWave.lanes[31] 7 ∧
    (∀ j : Fin 32, j ≠ 31 → podWave.lanes[j].life = .exited) ∧ (∀ x ∈ s.waves, x.2.ctx = 0 → x = (0, podWave)) ∧
    (∃ rest, freeEntries s 0 podWave.core = 0 :: rest) ∧ heldEntries s 0 < 16 ∧ (ctxOf s 0).cfg.hdlTab = 0 := by
  have e : podWave.lanes[31] = { lane1 with wait := .bar .pod 0 0 7 } := by decide +kernel
  refine ⟨rfl, rfl, rfl, ?_, by decide +kernel, by decide +kernel, ⟨(List.range 63).map (· + 1), by decide +kernel⟩,
    by decide +kernel, by decide⟩
  rw [e]
  exact ⟨rfl, rfl, Or.inl ⟨0, 0, rfl, by decide +kernel⟩⟩

/-! ### Witnesses: launches, groups, sluices, waves, contexts -/

/-- A launch record of one group for the kernel at 0x400, with the flags, priority, argument block and status word of the
last values that pass. -/
def recordGood : Nat := 1 + 3 * 256 ^ 2 + 3 * 256 ^ 3 + 0x400 * 256 ^ 8 + 1 * 256 ^ 0x10 + 0x3FFFFBE0 * 256 ^ 0x20 +
  0x3FFFFBE8 * 256 ^ 0x28
/-- The last record of the last queue; the ring ends with the heap. -/
def sRing (x : Queue → Queue) : State :=
  { sCfg with queues := [(131071, x { entries := 16, ring := 0x3FFFFC00, wb := 0x3FFFFBF8, cons := 15, prod := 16 })],
              mem := putBytes sCfg.mem 0x3FFFFFC0 recordGood 64, dikes := [(0, { quads := 2 ^ 287, running := some 0 })] }
theorem linear_here (s : State) (ctx : Nat) (a : Word64) (n pa : Nat) (e : (ctxOf s ctx).exmap = [])
    (b : a.toNat + n ≤ 2 ^ 64) (h : ∀ i < n, translate s ctx (a + BitVec.ofNat 64 i) true = .ok (pa + i)) : Linear s ctx a n pa :=
  ⟨e, b, h⟩
theorem witness_RecordsLaunch_empty : ∀ x, Table.get? sQueue.queues 131071 = some x → x.held = none ∧
    (x.cons = x.prod ∨ (ctxOf sQueue x.ctx).ending = true) := by
  intro x h
  cases h
  exact ⟨rfl, Or.inl rfl⟩
theorem witness_RecordsLaunch : let s := sRing id
    ∃ x, Table.get? s.queues 131071 = some x ∧ x.held = none ∧ x.cons ≠ x.prod ∧ (ctxOf s x.ctx).ending = false ∧
      NoAnswers s x.ctx ∧ Linear s x.ctx x.wb 8 0x3FFFFBF8 ∧
      engineRead s x.ctx (tagLaunch 131071) none (x.ring + BitVec.ofNat 64 (64 * (x.cons.toNat % x.entries))) 64 =
        .ok recordGood :=
  ⟨_, rfl, rfl, by decide, rfl, ⟨rfl, rfl⟩, linear_here _ _ _ _ _ rfl (by decide +kernel) (by decide +kernel), ok_of (by decide +kernel)⟩
/-- A held record. -/
def sHeld (r : Nat) : State := sRing fun x => { x with cons := 16, held := some (15, r) }
def isAccepted : Accept → Bool
  | .ok _ => true
  | _ => false
theorem accepted {a : Accept} (h : isAccepted a = true) : ∃ la, a = .ok la := by
  cases a with
  | ok la => exact ⟨la, rfl⟩
  | _ => cases h
theorem witness_RecordsLaunch_accepted : let s := sHeld recordGood
    s.stuck = none ∧ (∃ x, Table.get? s.queues 131071 = some x ∧ x.held = some (15, recordGood) ∧
      NoAnswers s x.ctx) ∧ ∃ la, acceptRecord s 0 131071 15 recordGood = .ok la :=
  ⟨rfl, ⟨_, rfl, rfl, rfl, rfl⟩, accepted (by decide +kernel)⟩
theorem witness_RecordsLaunch_passed : fieldAt (recordGood - 1) 0 2 = 0 := by decide +kernel
/-- One value beyond what each check lets through: a type, a flag, a priority, a count. -/
theorem witness_RecordsLaunch_refused : let s := sHeld recordGood
    fieldAt (recordGood + 1) 0 2 ≠ 0 ∧ recordSays (recordGood + 1) = 0x20 ∧ recordSays (recordGood + 1 * 256 ^ 2) = 0x21 ∧
    recordSays (recordGood + 1 * 256 ^ 3) = 0x22 ∧ recordSays (recordGood - 1 * 256 ^ 0x10) = 0x22 ∧
    recordSays (recordGood + (2 ^ 31 - 1) * 256 ^ 0x10) = 0x22 ∧ recordSays (recordGood + (2 ^ 31 - 2) * 256 ^ 0x10) = 0 ∧
    s.dirty = [] ∧ s.reds = [] ∧ fieldAt recordGood 0x28 8 % 8 = 0 ∧
    Linear s 0 (BitVec.ofNat 64 (fieldAt recordGood 0x28 8)) 8 0x3FFFFBE8 :=
  ⟨by decide +kernel, by decide +kernel, by decide +kernel, by decide +kernel, by decide +kernel, by decide +kernel,
    by decide +kernel, rfl, rfl, by decide +kernel, linear_here _ _ _ _ _ rfl (by decide +kernel) (by decide +kernel)⟩

/-- A launch of three groups, two of them placed, with the kernel at 0x400; its dike holds the last quad. -/
def laGroups : Launch :=
  { queue := 131071, kern := { obj := 0x400, vregs := 8, sregs := 2, depth := 0, spBytes := 0x1000, gsize := 33 }, ngroups := 3,
    placed := 2, retired := 2, args := 0x3FFFFBE0, status := 0x3FFFFBE8, prio := 3 }
def sTurn (la : Launch) : State := { sRing id with launches := [(7, la)], me := {}, groups := [] }
theorem witness_GroupsRun_pick : (sTurn laGroups).search ≤ 1152 ∧
    pickCore (sTurn laGroups) 0 laGroups.kern (some 7) = some 1148 := by decide +kernel
theorem witness_GroupsRun : ∃ d, Table.get? (sTurn laGroups).dikes 0 = some d ∧ d.running = some 0 ∧
    (sTurn laGroups).launches = [(7, laGroups)] ∧ laGroups.ctx = 0 ∧ laGroups.queue < 131072 ∧ laGroups.ending = 0 ∧
    laGroups.placed < laGroups.ngroups ∧ laGroups.coResident = false ∧ laGroups.kern.refill = false ∧
    (∀ e ∈ (sTurn laGroups).queues, e.2.ctx = 0 → e.1 = laGroups.queue) ∧ (∀ e ∈ (sTurn laGroups).bins, e.2.ctx ≠ 0) :=
  ⟨_, rfl, rfl, rfl, rfl, by decide, rfl, by decide, rfl, rfl, by decide +kernel, fun e h => by cases h⟩
/-- A group of a firing whose wave waits for two records of the bin. -/
def gLanding (l : List Nat) : Group := { bin := some 16383, kern := { laGroups.kern with gsize := 32 }, waves := [0], landing := l }
def sLanding (l : List Nat) : State :=
  { s1 with me := {}, waves := [(0, { wave1 with group := 5, parked := true })], groups := [(5, gLanding l)],
            bins := [(16383, { size := .r64 })] }
theorem witness_GroupsRun_landing : ∃ g x, Table.get? (sLanding [1, 2]).groups 5 = some g ∧ g.bin = some 16383 ∧
    Table.get? (sLanding [1, 2]).bins 16383 = some x ∧ g.landing ≠ [] ∧ (gLanding []).landing = [] :=
  ⟨_, _, rfl, rfl, rfl, by decide, rfl⟩
/-- The core of the group has an empty queue, and one item is left. -/
theorem witness_GroupsRun_refill : let la : Launch := { laGroups with kern := kern1, items := 96, nextItem := 95 }
    let s := { s1 with launches := [(0, la)] }
    la.kern.refill = true ∧ queuesItems s 0 0 = true ∧ (Table.getD la.itemq 0 []).length < 32 ∧ la.nextItem < la.items ∧
    queuesItems s 0 1 = false := by decide +kernel
/-- The last group of a launch, without and with a wave. -/
def gLast : Group := { launch := some 7, kern := laGroups.kern, waves := [0] }
def sLast (la : Launch) : State := { sTurn la with groups := [(5, gLast)], me := {}, waves := [] }
theorem statusAt7 (la : Launch) (h : la.ctx = 0) (e : la.status = 0x3FFFFBE8) : StatusAt (sLast la) la 0x3FFFFBE8 := by
  refine ⟨?_, by rw [e]; decide, rfl, rfl, by rw [h]; exact ⟨rfl, rfl⟩⟩
  rw [h, e]
  exact ⟨rfl, by decide, by
    intro i hi
    have : ∀ i < 8, translate (sLast laGroups) 0 (0x3FFFFBE8 + BitVec.ofNat 64 i) true = .ok (0x3FFFFBE8 + i) := by decide +kernel
    exact this i hi⟩
theorem witness_GroupsRun_retire : let la := laGroups
    Table.get? (sLast la).groups 5 = some gLast ∧ GroupOver (sLast la) 5 ∧ gLast.launch = some 7 ∧
    Table.get? (sLast la).launches 7 = some la ∧ AllRetired { la with retired := la.retired + 1 } ∧ la.ending = 0 ∧ la.log = [] ∧
    StatusAt (sLast la) la 0x3FFFFBE8 ∧ ¬ AllRetired { la with retired := la.retired + 1, ngroups := 4 } ∧
    ¬ GroupOver { sLast la with waves := [(0, { wave1 with group := 5 })] } 5 := by
  refine ⟨rfl, ⟨by decide, by decide, by decide, by decide⟩, rfl, rfl, by unfold AllRetired; decide, rfl, rfl, statusAt7 _ rfl rfl,
    by unfold AllRetired; decide, ?_⟩
  rintro ⟨h, _⟩
  exact h { wave1 with group := 5 } (by decide +kernel) rfl
theorem witness_GroupsRun_log : let la : Launch := { laGroups with retired := 3, log := [{ va := 0x3FFFFBE4, val := 0x3F800000 }] }
    Table.get? (sLast la).launches 7 = some la ∧ AllRetired la ∧ StatusAt (sLast la) la 0x3FFFFBE8 ∧
    la.log = [{ va := 0x3FFFFBE4, val := 0x3F800000 }] ∧ translate (sLast la) la.ctx 0x3FFFFBE4 true = .ok 0x3FFFFBE4 ∧
    poisoned (sLast la) 0x3FFFFBE4 4 = false ∧ Apart 0x3FFFFBE4 4 0x3FFFFBE8 8 ∧ ¬ AllRetired laGroups :=
  ⟨rfl, by unfold AllRetired; decide, statusAt7 _ rfl rfl, rfl, by decide +kernel, by decide +kernel, Or.inl (by decide),
    by unfold AllRetired; decide⟩

/-- The one record names a page whose translation is not held. -/
theorem witness_GroupsRun_awaits : let r : RedRec := { va := 0x40000004, val := 0x3F800000 }
    let la : Launch := { laGroups with retired := 3, log := [r] }
    let s := { sLast la with ctxs := [(0, { cfg := { cfg1 with paged := true } })] }
    AllRetired la ∧ StatusAt s la 0x3FFFFBE8 ∧ translate s la.ctx r.va true = .ats :=
  ⟨rfl, ⟨⟨rfl, by decide, by decide +kernel⟩, by decide, rfl, rfl, ⟨rfl, rfl⟩⟩, by decide +kernel⟩

/-- A bin that holds one record of the four that fire it; its records are old after a microsecond. -/
def binYoung : Bin := { enable := true, count := 4, kern := { laGroups.kern with gsize := 32 }, recs := [{ bytes := 1, enter := 5 }] }
def sAge : State := { sRing id with bins := [(16383, binYoung)], wall := 1004, me := {}, groups := [] }
theorem witness_SluicesMove : sAge.bins = [(16383, binYoung)] ∧ binYoung.recs = [{ bytes := 1, enter := 5 }] ∧
    binYoung.recs.length < binYoung.count ∧ sAge.wall < 5 + 1000 * binYoung.ageUs ∧ binYoung.enable = true ∧
    (Table.getD sAge.dikes (ctxOf sAge binYoung.ctx).cfg.dike {}).running = some binYoung.ctx ∧ NoWaitingPush sAge ∧
    pickCore sAge binYoung.ctx binYoung.kern none = some 1148 :=
  ⟨rfl, rfl, by decide, by decide, rfl, rfl, ⟨by decide, rfl⟩, by decide +kernel⟩
/-- A push waits for room in a bin. -/
def fragSpill : Frag := { lanes := 1, cause := .spill, pc := 0x108, hdr := 0x100, obj := .bin 3, info := [{ lane := 0 }], since := 77 }
theorem witness_SluicesMove_spill : let s := { s1 with
      frags := [(131071, fragSpill)],
      me := { wave1 with lanes := wave1.lanes.set 0 { lane1 with life := .frag 131071 } } }
    Table.get? s.frags 131071 = some fragSpill ∧ fragSpill.cause = .spill ∧ fragSpill.st = .waiting ∧
    (groupOf s (waveOf s fragSpill.wave).group).halt = .running ∧
    fragSpill.inner = false ∧
    (ctxOf s (waveOf s fragSpill.wave).ctx).cfg.hdlTab = 0 := ⟨rfl, rfl, rfl, by decide +kernel, rfl, by decide +kernel⟩
/-- Two records wait for the last bin of package 127. -/
def shadowQ : Shadow :=
  { die := 31, bin := 127 * 2 ^ 14 + 16383, slot := some 0,
    recs := [{ bytes := 1, enter := 9 }, { bytes := 2, enter := 10 }] }
def sShadow : State := { withCtx (fun c => { c with shadows := [shadowQ] }) with degraded := true, lost := [126] }
theorem witness_SluicesMove_shadow : shadowOf sShadow 0 31 (127 * 2 ^ 14 + 16383) = some shadowQ ∧
    shadowQ.recs = { bytes := 1, enter := 9 } :: [{ bytes := 2, enter := 10 }] ∧ (∀ x ∈ shadowQ.recs, x.size = .r16) ∧
    (sShadow.degraded = true → (127 * 2 ^ 14 + 16383) / 2 ^ 14 % 128 ∉ sShadow.lost) ∧ NoWaitingPush sShadow := by
  unfold NoWaitingPush; decide +kernel
/-- A batch for bin 15 of this package, which it may enter, with too many records, and of the wrong size. -/
theorem witness_SluicesMove_batchIn : let x : Bin := { enable := true, recs := List.replicate 319 {} }
    let s := { s1 with bins := [(15, x)] }
    binNamed s 0 (s.pkg * 2 ^ 14 + 15) = some 15 ∧ x.enable = true ∧ x.size = .r16 ∧
    x.recs.length + [1].length ≤ 64 + x.spillBytes / RecSize.bytes x.size ∧
    64 + x.spillBytes / RecSize.bytes x.size < x.recs.length + [1, 2].length ∧ binNamed s 0 (s.pkg * 2 ^ 14 + 16) ≠ some 16 := by
  decide +kernel
/-- Two batches for one bin: the second waits for the first. -/
def batch1 : Batch := { die := 31, bin := 127 * 2 ^ 14 + 16383, recs := [1, 2] }
theorem witness_SluicesMove_batch : let s := { sShadow with batches := [(0, batch1), (1, batch1)] }
    Table.get? s.batches 0 = some batch1 ∧ Table.get? s.batches 1 = some batch1 ∧
    (∃ e ∈ s.batches, e.1 < 1 ∧ e.2.ctx = batch1.ctx ∧ e.2.die = batch1.die ∧ e.2.bin = batch1.bin) ∧
    (¬ ∃ e ∈ s.batches, e.1 < 0 ∧ e.2.ctx = batch1.ctx ∧ e.2.die = batch1.die ∧ e.2.bin = batch1.bin) ∧
    shadowOf s batch1.ctx batch1.die batch1.bin = some shadowQ ∧ LogRoom s batch1.ctx 0x10000 ∧ batch1.recs.length < 2 ^ 64 :=
  ⟨rfl, rfl, ⟨_, List.mem_cons_self, by decide⟩, (fun ⟨e, _, h, _⟩ => by omega), by decide +kernel,
    ⟨{ cfg := cfg1, shadows := [shadowQ] }, rfl, by decide, rfl, by decide +kernel, by decide +kernel⟩, by decide⟩

/-- Waves of core 1151: `n` active ones, of which the first may be swapped out, and a pending one of higher priority. -/
def innW : Wave := { wave1 with key := 8, core := 1151, active := false, prio := 1, age := 50, readySince := 10 }
def actW (i : Nat) : Wave :=
  let fly := if i = 0 then [319] else []
  { wave1 with key := i, core := 1151, age := i, lastIssue := 100 + i, swappable := i = 0, vfly := fly }
def sSwap (n : Nat) : State :=
  { s1 with me := {}, iss := 0, dikes := [(0, { quads := 1, running := some 0 })],
            waves := ((List.range n).map fun i => (i, actW i)) ++ [(8, innW)] }
theorem witness_WavesMove_swap : let s := sSwap 8
    Stored s innW ∧ innW ∈ allWaves s ∧ innW.active = false ∧ waveReady s innW = true ∧
    (∀ x ∈ allWaves s, x.ctx = 0 → x.core = 1151 → x.active = false → waveReady s x = true → x ≠ innW →
      x.prio < innW.prio ∨ (x.prio = innW.prio ∧ innW.age < x.age)) ∧ (∀ w ∈ coreWaves s 1151, w.ctx = 0) ∧
    innW ∈ coreWaves s 1151 ∧ 8 ≤ (activeOn s 1151).length ∧ actW 0 ∈ activeOn s 1151 ∧ canSwap s (actW 0) = true ∧
    (∀ w ∈ activeOn s 1151, canSwap s w = true → w = actW 0) ∧ Stored s (actW 0) ∧ (actW 0).key ≠ innW.key ∧
    (activeOn (sSwap 7) 1151).length < 8 :=
  ⟨⟨rfl, by decide +kernel⟩, by decide +kernel, rfl, by decide +kernel, by decide +kernel, by decide +kernel, by decide +kernel,
    by decide +kernel, by decide +kernel, by decide +kernel, by decide +kernel, ⟨rfl, by decide +kernel⟩, by decide, by decide +kernel⟩
theorem witness_WavesMove_none : let s := { sSwap 8 with
      waves := ((List.range 8).map fun i => (i, { actW i with swappable := false })) ++ [(8, innW)] }
    8 ≤ (activeOn s 1151).length ∧ ∀ w ∈ activeOn s 1151, canSwap s w = false := by decide +kernel
/-- The last of the active waves waits at a barrier. -/
def sForced (l : Lane) : State :=
  { sSwap 8 with waves := ((List.range 7).map fun i => (i, { actW i with swappable := false, vfly := [] })) ++
      [(7, { actW 7 with lanes := Vector.replicate 32 l }), (8, innW)] }
theorem witness_WavesMove_forced : let s := sForced lane1
    innW ∈ coreWaves s 1151 ∧ innW.active = false ∧ waveReady s innW = true ∧ Stored s innW ∧
    (∀ w, (w ∈ coreWaves s 1151 ∧ w.active = false ∧ waveReady s w = true) → w ≠ innW → innW.readySince < w.readySince) ∧
    (∀ w ∈ activeOn s 1151, waveReady s w = true) ∧
    let p := passTo s (innW.readySince + 4096)
    8 ≤ (activeOn p 1151).length ∧ forcedVictim p (activeOn p 1151) = some (waveOf p 7) ∧
    Stored p (waveOf p 7) ∧ (waveOf p 7).key ≠ innW.key := by
  have h : ∀ w ∈ coreWaves (sForced lane1) 1151, w.active = false → w = innW := by decide +kernel
  exact ⟨by decide +kernel, by decide +kernel, by decide +kernel, by unfold Stored; decide +kernel,
    (fun w hw n => absurd (h w hw.1 hw.2.1) n), by decide +kernel, by decide +kernel, by decide +kernel,
    by unfold Stored; decide +kernel, by decide +kernel⟩
/-- Every lane of an active wave waits for a translation, or for another package at a word without W. -/
theorem witness_WavesMove_keeps : let w := { actW 7 with lanes := Vector.replicate 32 { lane1 with wait := .stall (.answers [9] false) } }
    w.swappable = false ∧ w.full = 0 ∧ (∃ l : Fin 32, w.lanes[l].life = .live) ∧
    (∀ l : Fin 32, w.lanes[l].life = .live → KeepsSlot w.lanes[l]) ∧ (actW 0).swappable = true ∧ (actW 0).vfly ≠ [] := by
  have e : ∀ l : Fin 32, (Vector.replicate 32 { lane1 with wait := .stall (.answers [9] false) } : Lanes Lane)[l].wait =
      .stall (.answers [9] false) := by decide +kernel
  exact ⟨rfl, rfl, ⟨31, by decide +kernel⟩, fun l _ => Or.inr ⟨[9], e l⟩, rfl, by decide⟩
theorem witness_WavesMove_victim : let s := sForced { lane1 with wait := .bar .core 0 0 7 }
    ∃ out, forcedVictim s (activeOn s 1151) = some out ∧ ∃ w ∈ activeOn s 1151, waveReady s w = false := by
  have h : ∃ w ∈ activeOn (sForced { lane1 with wait := .bar .core 0 0 7 }) 1151,
      waveReady (sForced { lane1 with wait := .bar .core 0 0 7 }) w = false := by decide +kernel
  exact ⟨{ actW 7 with lanes := Vector.replicate 32 { lane1 with wait := .bar .core 0 0 7 } }, by decide +kernel, h⟩
/-- A wave in the table with results in flight to the last register and to a mask register. -/
def flyW : Wave := { wave1 with key := 0, vfly := [319], kfly := [(15, [319])], swappable := true }
def sFly (w : Wave) : State := { s1 with me := {}, iss := 0, waves := [(0, w)], dikes := [(0, { quads := 1, running := some 0 })] }
theorem witness_WavesMove_result : Stored (sFly flyW) flyW ∧ 319 < 512 ∧ 512 ≤ 512 + 15 ∧
    (∀ e ∈ flyW.guards, ∀ v k m, e.2 = .pending v k m → k % 16 + 512 ≠ 512 + 15) :=
  ⟨⟨rfl, rfl⟩, by decide, by decide, fun e h => by cases h⟩
/-- Lane 31 sleeps to run cycle 500, and the wave's timer has 7 cycles left. -/
def sleepW : Wave :=
  { wave1 with run := 400, timer := 7, lanes := Vector.set (Vector.replicate 32 lane1) 31 { lane1 with wait := .sleep 500 } }
theorem witness_WavesMove_time : Stored (sFly sleepW) sleepW ∧ sleepW.ap = none ∧ residentCtx (sFly sleepW) sleepW.ctx = true ∧
    (wakeTimes (sFly sleepW) sleepW).min? = some 500 ∧ sleepW.run < 500 ∧ sleepW.present = true ∧ sleepW.timer ≠ 0 :=
  ⟨⟨rfl, rfl⟩, rfl, by decide +kernel, by decide +kernel, by decide, rfl, by decide⟩
/-- The last queue of an access processor context waits for words of the scratchpad and of memory, at its last word each and
beyond the heap. -/
def dlvAp : Ap := { queues := [(3, [.word 5 false, .reserved 0xFFC true 0, .reserved 0x3FFFFFFC false 0, .reserved 0x40000000 false 0])] }
def sDlv (pend : SMap Nat) : State :=
  { s1 with me := {}, iss := 0, aps := [(2, { present := true, key := 2, ap := some dlvAp })],
            groups := [(0, { launch := some 0, kern := kern1, waves := [0], pend := pend })] }
theorem witness_WavesMove_words : ∃ w, (sDlv []).me.present = false ∧ Table.get? (sDlv []).aps 2 = some w ∧ w.ap = some dlvAp ∧
    (Table.getD dlvAp.queues 3 [])[1]? = some (.reserved 0xFFC true 0) ∧
    linesPresent (groupOf (sDlv []) w.group) 0xFFC 4 = true ∧ linesPresent (groupOf (sDlv [(31, 1)]) w.group) 0xFFC 4 = false ∧
    (Table.getD dlvAp.queues 3 [])[2]? = some (.reserved 0x3FFFFFFC false 0) ∧ NoAnswers (sDlv []) w.ctx ∧
    (∀ r ∈ (sDlv []).reds, r.core ≠ w.core) ∧ translate (sDlv []) w.ctx 0x3FFFFFFC false = .ok 0x3FFFFFFC ∧
    (Table.getD dlvAp.queues 3 [])[3]? = some (.reserved 0x40000000 false 0) ∧
    translate (sDlv []) w.ctx 0x40000000 false = .refused 0 ∧ dlvAp.ended = false :=
  ⟨_, rfl, rfl, rfl, by decide +kernel, by decide +kernel, by decide +kernel, by decide +kernel, ⟨rfl, rfl⟩,
    (fun r h => by cases h), by decide +kernel, by decide +kernel, by decide +kernel, rfl⟩
/-- The page of a word is not translated, or stands in another package. -/
theorem witness_WavesMove_wordsAway :
    translate { sDlv [] with ctxs := [(0, { cfg := { cfg1 with paged := true } })] } 0 0x40000000 false = .ats ∧
    translate { sDlv [] with ctxs := [(0, { cfg := { cfg1 with heapOff := 2 ^ 39 } })] } 0 0x3FFFFFFC false =
      .remote (2 ^ 39 + 0x3FFFFFFC) := by decide +kernel
/-- The last guard slot waits for the last mask register, and a copy waits for the slot. -/
def guardW (v : Bool) : Wave := { wave1 with guards := [(7, .pending v 15 1)], kfly := [(15, [319])] }
def guardCopy (v : Bool) : Copy := { guard := some (7, .pending v 15 1), len := 8, targets := [0] }
theorem witness_WavesMove_guard : let s := { sFly (guardW true) with copies := [(4, guardCopy true)] }
    Stored s (guardW true) ∧ guardOf (guardW true) 7 = .pending true 15 1 ∧ s.tasks = [] ∧ s.pushes = [] ∧
    (sFly (guardW true)).copies = [] ∧ (guardCopy true).wave = (guardW true).key ∧
    (guardCopy true).landed.length < (guardCopy true).targets.length * ((guardCopy true).len / 8) :=
  ⟨⟨rfl, rfl⟩, by decide +kernel, rfl, rfl, rfl, rfl, by decide⟩
/-- Two `red`s of one core and location, and one of another location. -/
def red0 (pa : Nat) : PendingRed := { core := 1151, pa := pa, val := 5 }
def sRed (poison : List Nat) : State := { s1 with reds := [red0 0x3FFFFFFC, red0 0x3FFFFFFC, red0 0x1000], poison := poison }
theorem witness_WavesMove_red : let s := sRed []
    s.reds[1]? = some (red0 0x3FFFFFFC) ∧ (∃ j : Nat, ∃ x, j < 1 ∧ s.reds[j]? = some x ∧ x.core = (red0 0x3FFFFFFC).core ∧
      x.pa < (red0 0x3FFFFFFC).pa + 8 ∧ (red0 0x3FFFFFFC).pa < x.pa + 8) ∧ s.reds[2]? = some (red0 0x1000) ∧
    (∀ (j : Nat) x, j < 2 → s.reds[j]? = some x → x.core = (red0 0x1000).core →
      x.pa + 8 ≤ (red0 0x1000).pa ∨ (red0 0x1000).pa + 8 ≤ x.pa) ∧ poisoned s 0x1000 4 = false ∧
    poisoned (sRed [0x40]) 0x1000 4 = true ∧ Table.rising s.dirty = true ∧ 0x1000 % 4 = 0 ∧ 0x1000 + 4 ≤ corePitch := by
  refine ⟨rfl, ⟨0, red0 0x3FFFFFFC, by decide, rfl, rfl, by decide, by decide⟩, rfl, ?_, by decide +kernel, by decide +kernel,
    rfl, by decide, by decide⟩
  intro j x hj hx _
  match j, hj with
  | 0, _ => cases hx; exact Or.inr (by decide)
  | 1, _ => cases hx; exact Or.inr (by decide)

/-- Dike 287 with a running context 0 and a context 4095 of the same priority that ran before it; both have a ready wave. -/
def cfgD : CtxRec := { cfg1 with dike := 287 }
def sDike (d : Dike) : State :=
  { s1 with me := {}, iss := 0, wall := 3, waves := [(0, wave1), (1, { wave1 with key := 1, ctx := 4095 })],
            ctxs := [(0, { cfg := cfgD, lastRan := 2 }), (4095, { cfg := cfgD, lastRan := 1 })], dikes := [(287, d)] }
theorem witness_ContextsSwitch_choose : choose (sDike {}) 287 (fun _ => true) = some 4095 := by decide +kernel
theorem witness_ContextsSwitch_slice : let d : Dike := { running := some 0, sliceStart := 1 }
    let s := sDike d
    Table.get? s.dikes 287 = some d ∧ d.running = some 0 ∧
    let u := passTo s (d.sliceStart + 1000 * d.sliceUs)
    choose (setCtx u 0 fun x => { x with lastRan := u.wall }) 287 (fun _ => true) = some 4095 :=
  ⟨rfl, rfl, by decide +kernel⟩
theorem witness_ContextsSwitch_switch : let d : Dike := { running := some 0, chosen := some 4095, shadow := some 4095 }
    let s := { sDike d with tasks := [(3, { ctx := 4095, running := true })] }
    Table.get? s.dikes 287 = some d ∧ preempts s 287 d = none ∧ d.chosen = some 4095 ∧ d.shadow = some 4095 ∧
    d.spilling = false ∧ d.filling = false ∧ (∀ g ∈ s.groups, g.2.ctx ≠ 4095) ∧
    (∀ r, d.running = some r → tasksBusy s r = false) := by
  refine ⟨rfl, by decide +kernel, rfl, rfl, rfl, rfl, by decide +kernel, ?_⟩
  rintro _ ⟨⟩
  decide +kernel
theorem witness_ContextsSwitch_banks : let s := sDike { running := some 0, chosen := some 4095, shadow := some 0, spilling := true }
    ∃ d, Table.get? s.dikes 287 = some d ∧ d.spilling = true ∧ d.chosen = some 4095 ∧ d.shadow ≠ some 4095 ∧
      preempts s 287 d = none ∧ ({} : Dike).spilling = false ∧ ({} : Dike).chosen = none :=
  ⟨_, rfl, rfl, rfl, by decide, by decide +kernel, rfl, rfl⟩
/-- The last cold page stands in the last slot; the last place of the frame ring offers the last frame. -/
def sCold : State :=
  { sIdle with
      ctxs := [(4095, { cfg := { cfg1 with paged := true, expRing := 0x3FFFFE00 }, expHead := 63,
                        expanding := [0xFFFFFFFFFFFF0000], tlb := [{ page := 0xFFFFFFFFFFFF0000, addr := 0xFFFFFF0000 }] })],
      mem := putBytes [] 0x3FFFFFF8 (usableBytes - 65536 + 1) 8, zoneSlots := [2 ^ 23 - 1], zoneBytes := 2 ^ 39 }
theorem usable_of (n : Nat) (h : n < usableBytes) : podAddr sCold n = .ok n := by
  have u : usableBytes < 2 ^ 39 := by decide
  have e : n / 2 ^ 39 = 0 := Nat.div_eq_of_lt (by omega)
  have m : n % 2 ^ 39 = n := Nat.mod_eq_of_lt (by omega)
  have p : sCold.pkg = 0 := rfl
  simp only [podAddr, e, m, p, usable]
  have b : ¬ n ≥ 2 ^ 46 := by omega
  have q : n / 4096 / 384 < usablePages := by
    rw [Nat.div_div_eq_div_mul, Nat.div_lt_iff_lt_mul (by decide)]
    exact Nat.lt_of_lt_of_eq h (by decide)
  rw [if_neg b, if_neg (by decide), if_pos]
  exact Bool.and_eq_true_iff.mpr ⟨decide_eq_true (by omega), decide_eq_true q⟩
theorem witness_ContextsSwitch_expansion : let c := ctxOf sCold 4095
    0xFFFFFFFFFFFF0000 ∈ c.expanding ∧ 0xFFFFFFFFFFFF0000 % 65536 = 0 ∧ 0xFFFFFFFFFFFF0000 < 2 ^ 64 ∧
    (∀ i < 65536, inHeap c.cfg (0xFFFFFFFFFFFF0000 + i) = false) ∧
    translate sCold 4095 (BitVec.ofNat 64 0xFFFFFFFFFFFF0000) false = .cold (2 ^ 23 - 1) ∧
    FrameOffered sCold 4095 0x3FFFFFF8 (usableBytes - 65536) ∧ c.exmap.length < 1024 ∧ RingHasRoom sCold.adm ∧
    sCold.adm.waiting = none ∧ sCold.frags = [] ∧ 2 ^ 23 - 1 ∈ sCold.zoneSlots ∧ Memory.wf sCold.zoneData = true ∧
    65536 ∉ c.expanding := by
  refine ⟨by decide +kernel, by decide, by decide, ?_, by decide +kernel, ⟨by decide +kernel, by decide +kernel, by decide +kernel,
    ?_, ?_⟩, by decide +kernel, by unfold RingHasRoom; decide +kernel, rfl, rfl, by decide +kernel, rfl, by decide +kernel⟩
  · intro i _
    have : (ctxOf sCold 4095).cfg.heapBase.toNat + (ctxOf sCold 4095).cfg.heapLimit.toNat = 0x40000000 := by decide +kernel
    simp only [inHeap, this, Bool.and_eq_false_iff, decide_eq_false_iff_not]
    omega
  · intro i hi
    have p : sCold.pkg = 0 := rfl
    have u : 65536 ≤ usableBytes := by decide
    rw [p]
    exact usable_of _ (by omega)
  · exact Or.inl (by decide +kernel)

/-! ### Witnesses: power, repair, resets, the machine as a whole -/

/-- The last die lies in the second stage of its stretch, just hot, at its lowest target. -/
def dieHot : DieMon := { stretch := 2, sagAt := 5, hot := true, clkTgt := 600 }
def sHot : State := { sIdle with dies := [(23, dieHot)], wall := 7 }
theorem witness_PowerFollows : 23 < 24 ∧ (dieMon sHot 23).stretch ≠ 0 ∧
    (let target := fun (clk : Nat) => if sHot.powerLimit < 3601 then max 600 (clk - 100)
        else if 3601 * 100 < sHot.powerLimit * 95 then min 1800 (clk + 100) else clk
      ∃ k < 24, target (dieMon sHot k).clkTgt ≠ (dieMon sHot k).clkTgt) ∧ (3600 : Nat) * 100 ≥ 3600 * 95 ∧
    (1600 : BitVec 16).toInt = 1600 ∧ (1760 : BitVec 16).toInt = 1760 ∧ sHot.adm.fatal = false ∧ sHot.launches = [] ∧
    sHot.groups = [] ∧ RingHasRoom sHot.adm ∧ (0xFFFF : BitVec 16).toInt < 1760 ∧
    { sHot.adm with fatal := true }.fatal = true := by
  refine ⟨by decide, by decide +kernel, ⟨0, by decide, by decide +kernel⟩, by decide, by decide, by decide, rfl, rfl, rfl,
    by unfold RingHasRoom; decide +kernel, by decide, rfl⟩
/-- The part stands at its limit: no target changes. -/
theorem witness_PowerFollows_steady : let target := fun (clk : Nat) => if sHot.powerLimit < sHot.powerLimit then max 600 (clk - 100)
      else if sHot.powerLimit * 100 < sHot.powerLimit * 95 then min 1800 (clk + 100) else clk
    ∀ k < 24, target (dieMon sHot k).clkTgt = (dieMon sHot k).clkTgt := by decide +kernel

theorem witness_ErrorsRepaired : usable (usableBytes - 1) = true ∧ usable usableBytes = false := by decide +kernel
/-- A row whose last line has been copied, and no copy. -/
theorem witness_ErrorsRepaired_row : Table.get? { sIdle with rowCopies := [(Config.rowOf 64, (64, 16))] }.rowCopies (Config.rowOf 64) =
    some (64, 16) ∧ Table.get? sIdle.rowCopies (Config.rowOf 64) = none ∧ usable 64 = true ∧ 16 ≤ 16 ∧ ¬ 16 ≤ 15 :=
  ⟨by simp [Table.get?], rfl, by decide +kernel, by decide, by decide⟩
/-- Places of arrays: the last scalar register of a wave in the last quad, and a line in the caches of the last die. -/
theorem witness_ErrorsRepaired_places : let s := { s1 with me := {}, waves := [(8, { wave1 with key := 8, core := 1151 })] }
    placeDie s (.sreg 8 127) = some 23 ∧ placeDie s (.cache 23 64) = some 23 ∧ placeDie s (.sreg 8 128) = none ∧
    s.me.present = false ∧ (Table.get? s.waves 8).isSome = true := by decide +kernel
/-- 18 R402, R410: an uncorrectable error in a register counts for its die and poisons the register. -/
theorem test_array_error : let s := { s1 with me := {}, waves := [(8, { wave1 with key := 8, core := 1151 })] }
    let t := arrayError s (.sreg 8 127) false
    ((dieMon t 23).eccunc, (dieMon t 23).ecccor, (waveOf t 8).spoison) = (1, 0, [127]) := by decide +kernel
/-- The last stack in its first mode with a full level; one in the row-counter mode of its own. -/
def sStack (m : Nat) : State := { sIdle with hbmStacks := [(11, { mode := m, level := 1023 })] }
theorem witness_ErrorsRepaired_stack : (Table.getD (sStack 1).hbmStacks 11 {}).mode = 1 ∧
    (Table.getD (sStack 0).hbmStacks 11 {}).mode ≠ 1 ∧ (Table.getD (sStack 0).hbmStacks 11 {}).level ≠ 0 := by decide +kernel
/-- One sample in flight; the last place of the buffer is free, or none is. -/
def sSample (n : Nat) : State :=
  withCtx fun c => { c with samples := [{ access := 3, frag := 9 }], trace := { base := 0x3FFFF000, count := 64, enable := true, produced := n } }
theorem witness_ErrorsRepaired_sampleWaits : let x : Sample := { access := 3, req := some 9 }
    let s := withCtx fun c => { c with samples := [x] }
    (ctxOf s 0).samples[0]? = some x ∧ Table.get? { s with remotes := [(9, {})] }.remotes 9 ≠ none ∧
    Table.get? s.remotes 9 = none := by decide +kernel
theorem witness_ErrorsRepaired_sample : (ctxOf (sSample 63) 0).samples[0]? = some { access := 3, frag := 9 } ∧
    (ctxOf (sSample 63) 0).samples[1]? = none ∧ (ctxOf (sSample 63) 0).trace.produced < (ctxOf (sSample 63) 0).trace.count ∧
    (ctxOf (sSample 64) 0).trace.count ≤ (ctxOf (sSample 64) 0).trace.produced ∧
    Linear (sSample 63) 0 ((ctxOf (sSample 63) 0).trace.base +
      BitVec.ofNat 64 (64 * (ctxOf (sSample 63) 0).trace.produced)) 64 0x3FFFFFC0 :=
  ⟨rfl, rfl, by decide +kernel, by decide +kernel, rfl, by decide +kernel, by decide +kernel⟩

/-- A context of the last function with a queue, and one of another function. -/
def sFns : State :=
  { sIdle with ctxs := [(0, { cfg := { cfg1 with fn := 1024 } }), (4095, { cfg := cfg1 })],
               queues := [(0, { ctx := 0 }), (131071, { ctx := 4095 })], fns := [(1024, { winctx := 1 })] }
theorem fnsRun (n : Nat) : NothingRuns sFns n :=
  ⟨(fun e h => by cases h), (fun e h => by cases h), (fun e h => by cases h), (fun e h => by cases h), (fun e h => by cases h),
    (fun e h => by cases h), (fun e h => by cases h)⟩
theorem witness_ResetsLeave : 1024 ≠ 0 ∧ 1024 ≤ 1024 ∧ Table.rising sFns.ctxs = true ∧
    (∀ n c, Table.get? sFns.ctxs n = some c → c.cfg.fn = 1024 → NothingRuns sFns n) ∧
    (∀ n c, Table.get? sFns.ctxs n = some c → NothingRuns sFns n) :=
  ⟨by decide, by decide, by decide +kernel, fun n _ _ _ => fnsRun n, fun n _ _ => fnsRun n⟩
/-- Die 23 fails self-test, and no die does. -/
theorem witness_ResetsLeave_selfTest : State.reset.wall = 0 ∧ State.reset.ctxs = [] ∧ State.reset.dikes = [] ∧
    (selfTest State.reset [23, 24]).adm.ready = false ∧ (selfTest State.reset []).adm.ready = true := by decide +kernel

/-- A turn of a wave that stands at a word after reset: it has the first slot of its core. -/
def sWord (w : Nat) : State := State.reset.withFetchWord 64 w
theorem witness_StepRunsTheDecodedInstruction : let s := sWord 0x11000A0119400000
    let s1 := (nextTurn s).2
    (nextTurn s).1 = .issue 0 ∧ ∃ w, Table.get? s1.waves 0 = some w ∧ canIssue s1 w = true ∧ s.adm.fatal = false ∧
      secondChoice s1 w.core ≠ some 0 ∧ firstChoice s1 w.core = some 0 ∧
      ∃ p, Standing (stage { s1 with paired := Table.erase s1.paired w.core } w) p 0x11000A0119400000 ∧
        isHeader 0x11000A0119400000 = false ∧
        decode 0x11000A0119400000 = some (.qe8 plain 0 (.v 40) (.v 8) (.s 20)) ∧
        mayStand p (.qe8 plain 0 (.v 40) (.v 8) (.s 20)) = true ∧ Unhindered p 0x11000A0119400000 :=
  ⟨rfl, _, rfl, by decide +kernel, rfl, by decide +kernel, by decide +kernel, _,
    ⟨rfl, by decide +kernel, by decide +kernel⟩, by decide, by decide +kernel, by decide +kernel,
    ⟨by decide +kernel, by decide +kernel, by decide +kernel, Or.inl (by decide)⟩⟩
/-- A word that stands for no instruction. -/
theorem witness_StepRunsTheDecodedInstruction_illegal : let s := sWord 0x3400000000000000
    let s1 := (nextTurn s).2
    (nextTurn s).1 = .issue 0 ∧ ∃ w, Table.get? s1.waves 0 = some w ∧ canIssue s1 w = true ∧ firstChoice s1 w.core = some 0 ∧
      ∃ p, Standing (stage { s1 with paired := Table.erase s1.paired w.core } w) p 0x3400000000000000 ∧
        (∀ i, decode 0x3400000000000000 = some i → mayStand p i = false) ∧
        vaPoisoned p p.me.ctx p.me.lanes[lowest p.iss].pc 8 = false := by
  refine ⟨rfl, _, rfl, by decide +kernel, by decide +kernel, _, ⟨rfl, by decide +kernel, by decide +kernel⟩, ?_, by decide +kernel⟩
  intro i h
  have : decode 0x3400000000000000 = none := by decide +kernel
  rw [this] at h
  cases h
/-- Wave 0 of a core has had the first slot of the cycle and no longer issues; wave 1 takes the second. -/
def sSecond : State :=
  { s1 with me := {}, iss := 0, paired := [(0, (0, false))], agenda := [.issue 1],
            dikes := [(0, { quads := 1, running := some 0 })], waves := [(1, { wave1 with key := 1, slot := 1 })] }
theorem witness_StepRunsTheDecodedInstruction_second :
    (nextTurn sSecond).1 = .issue 1 ∧ secondChoice (nextTurn sSecond).2 0 = some 1 := by decide +kernel
/-- An address program that stands at `exit` has the turn. -/
def apW : Wave := { sAp.me with lanes := (Vector.replicate 32 {}).set 0 { lane1 with code := [0x0070000000000000] } }
def sApTurn : State :=
  { s1 with me := {}, iss := 0, agenda := [.issueAp 0], dikes := [(0, { quads := 1, running := some 0 })], aps := [(0, apW)] }
theorem witness_StepRunsTheDecodedInstruction_program : let s := sApTurn
    let s1 := (nextTurn s).2
    (nextTurn s).1 = .issueAp 0 ∧ Table.get? s1.aps 0 = some apW ∧ apChoice s1 apW.core = some 0 ∧
      ∃ p i, Standing (stageAp { s1 with apTurn := Table.set s1.apTurn apW.core 0 } apW) p 0x0070000000000000 ∧
        decode 0x0070000000000000 = some i ∧ mayStand p i = true :=
  ⟨rfl, rfl, by decide +kernel, _, .exit plain, ⟨rfl, by decide +kernel, by decide +kernel⟩,
    by decide +kernel, by decide +kernel⟩
end Sys2Proof.Tests
end

section
/-! Reading a word back: what each field reader finds in a word that `encode` wrote, which part of the opcode table reads it, and
that the decoder gives the instruction back (02 R30, R34 to R47, 16 R335, R337). -/
namespace Sys2Proof
open Instr

/-! ### Fields that the laws of the encoding leave out -/

theorem midBits_append (v w s n : Nat) (x : BitVec v) (y : BitVec w) (h : s + n ≤ w) :
    (x ++ y).extractLsb' s n = y.extractLsb' s n := by
  apply BitVec.eq_of_getLsbD_eq
  intro i hi
  simp only [BitVec.getLsbD_extractLsb', BitVec.getLsbD_append]
  grind

theorem headOf_packHead (h : Head) (op : BitVec 10) (x : BitVec 47) : headOf (packHead h op ++ x) = h := by
  rcases h with ⟨s, w, k, v⟩
  simp only [headOf, packHead, bit, BitVec.getLsbD_append, Head.mk.injEq]
  refine ⟨by simp, by simp, ?_, by simp⟩
  apply BitVec.eq_of_getLsbD_eq
  intro i hi
  simp only [BitVec.getLsbD_extractLsb', BitVec.getLsbD_append]
  grind

theorem fsrcA_packA (h : Head) (op : BitVec 10) (d b c : BitVec 9) (x y z : FSrc) (ty : BitVec 2) (low : BitVec 3) :
    fsrcA (packA h op d x.o.toBits b c (floatMods z y x ty low)) = x := by
  simp (disch := decide) only [fsrcA, floatMods, modBit_packA, fieldA_packA, bit_append, lowBit_append, bit_bit, Nat.reduceSub,
    Operand.ofBits_toBits]

theorem fsrcB_packA (h : Head) (op : BitVec 10) (d a c : BitVec 9) (x y z : FSrc) (ty : BitVec 2) (low : BitVec 3) :
    fsrcB (packA h op d a y.o.toBits c (floatMods z y x ty low)) = y := by
  simp (disch := decide) only [fsrcB, floatMods, modBit_packA, fieldB_packA, bit_append, lowBit_append, bit_bit, Nat.reduceSub,
    Operand.ofBits_toBits]

theorem fsrcC_packA (h : Head) (op : BitVec 10) (d a b : BitVec 9) (x y z : FSrc) (ty : BitVec 2) (low : BitVec 3) :
    fsrcC (packA h op d a b z.o.toBits (floatMods z y x ty low)) = z := by
  simp (disch := decide) only [fsrcC, floatMods, modBit_packA, fieldC_packA, bit_append, lowBit_append, bit_bit, Nat.reduceSub,
    Operand.ofBits_toBits]

theorem lowMods_floatMods (x y z : FSrc) (ty : BitVec 2) (low : BitVec 3) :
    (floatMods z y x ty low).extractLsb' 0 3 = low := low_append _ _ _ _

theorem typeBit_floatMods (x y z : FSrc) (ty : BitVec 2) (low : BitVec 3) :
    (floatMods z y x ty low).getLsbD 4 = ty.getLsbD 1 := by
  simp (disch := decide) only [floatMods, bit_append, lowBit_append, Nat.reduceSub]

theorem FFmt.code_lt (f : FFmt) : f.code.toNat < 8 := by cases f <;> decide

theorem IFmt.code_ge (f : IFmt) : ¬ f.code.toNat < 8 := by cases f <;> decide

theorem CvtKind.ofCode_code (k : CvtKind) : CvtKind.ofCode k.code = k := by
  have destination {u v w : Nat} (x : BitVec u) (y : BitVec v) (z : BitVec w) :
      (x ++ y ++ z).extractLsb' (v + w) u = x := by
    rw [high_append _ _ _ _ _ _ (by omega), Nat.add_sub_cancel, high_append _ _ _ _ _ _ (Nat.le_refl _), Nat.sub_self,
      BitVec.extractLsb'_eq_self]
  have source {u v w : Nat} (x : BitVec u) (y : BitVec v) (z : BitVec w) : (x ++ y ++ z).extractLsb' w v = y := by
    rw [high_append _ _ _ _ _ _ (Nat.le_refl _), Nat.sub_self, low_append]
  cases k with
  | intToFloat d s r =>
    have hd : (intToFloat d s r).code.extractLsb' 7 4 = d.code := destination ..
    have hs : (intToFloat d s r).code.extractLsb' 3 4 = s.code := source ..
    have hr : (intToFloat d s r).code.extractLsb' 0 3 = r.code := low_append ..
    simp only [ofCode, hd, hs, hr, FFmt.code_lt, if_true, FFmt.ofCode_code, IFmt.ofCode_code, Rnd.ofCode_code]
  | floatToInt d s r =>
    have hd : (floatToInt d s r).code.extractLsb' 7 4 = d.code := destination ..
    have hs : (floatToInt d s r).code.extractLsb' 3 4 = s.code := source ..
    have hr : (floatToInt d s r).code.extractLsb' 0 3 = r.code := low_append ..
    simp only [ofCode, hd, hs, hr, FFmt.code_lt, IFmt.code_ge, if_true, if_false, FFmt.ofCode_code, IFmt.ofCode_code,
      Rnd.ofCode_code]
  | intToInt d s sat =>
    have hd : (intToInt d s sat).code.extractLsb' 7 4 = d.code := destination ..
    have hs : (intToInt d s sat).code.extractLsb' 3 4 = s.code := source ..
    have hr : (intToInt d s sat).code.extractLsb' 0 3 = 0#2 ++ bit sat := low_append ..
    have hb : (0#2 ++ bit sat).getLsbD 0 = sat := by cases sat <;> rfl
    simp only [ofCode, hd, hs, hr, hb, IFmt.code_ge, if_false, IFmt.ofCode_code]

theorem modsLow_packM (h : Head) (op : BitVec 10) (d a b : BitVec 9) (o : BitVec 12) (m : BitVec 8) (s n : Nat)
    (hn : s + n ≤ 8) : (modsA (packM h op d a b o m)).extractLsb' s n = m.extractLsb' s n := by
  apply BitVec.eq_of_getLsbD_eq
  intro i hi
  simp only [modsA, packM, packHead, bit, BitVec.getLsbD_extractLsb', BitVec.getLsbD_append]
  grind

theorem memOf_packM (h : Head) (op : BitVec 10) (d : BitVec 9) (m : MemOp) (mods : BitVec 8) :
    memOf (packM h op d m.base.toBits m.index.toBits m.off mods) = m := by
  simp only [memOf, fieldA_packM, fieldB_packM, off12_packM, Operand.ofBits_toBits]

theorem atomScope_packM (h : Head) (op : BitVec 10) (d a b : BitVec 9) (sc : Scope) (mods : BitVec 8) :
    atomScope (packM h op d a b (atomOff sc) mods) = sc := by
  simp (disch := decide) only [atomScope, atomOff, off_packM, high_append, Nat.reduceSub, BitVec.extractLsb'_eq_self,
    Scope.ofCode_code]

theorem stop_inop (stop sw : Bool) (c : BitVec 3) (x : BitVec 52) :
    (headOf (bit stop ++ bit sw ++ 0x7F#7 ++ c ++ x)).stop = stop := by
  simp (disch := decide) only [headOf, bit_append, Nat.reduceSub, bit_bit]

theorem sw_inop (stop sw : Bool) (c : BitVec 3) (x : BitVec 52) :
    (headOf (bit stop ++ bit sw ++ 0x7F#7 ++ c ++ x)).sw = sw := by
  simp (disch := decide) only [headOf, bit_append, lowBit_append, Nat.reduceSub, bit_bit]

theorem barCount_read {h : Head} {sc : Scope} {num : BitVec 4} {cnt : Option Operand} (hw : (Instr.bar h sc num cnt).wf = true) :
    (if sc = .core then none else some (Operand.ofBits (countField cnt))) = cnt := by
  cases sc <;> cases cnt <;> simp_all [Instr.wf, countField]

theorem barvCount_read {h : Head} {sc : Scope} {num : BitVec 4} {cnt : Option Operand} (hw : (Instr.barv h sc num cnt).wf = true) :
    (if sc = .core then none else some (Operand.ofBits (countField cnt))) = cnt :=
  barCount_read (h := h) (num := num) hw

theorem toolop_opcode_ge (n : Fin 6) : 0x3F0 ≤ (BitVec.ofNat 10 (0x3F2 + n.val)).toNat := by revert n; decide

theorem inop_opcode_ge (c : BitVec 3) : 0x3F8 ≤ (0x7F#7 ++ c).toNat := by revert c; decide

/-! ### Which part of the opcode table reads a word (02 R44, R45) -/

theorem parse_integer {w : Word64} {op : BitVec 10} (h : opcodeOf w = op) (r : 0x040 ≤ op.toNat ∧ op.toNat < 0x0C0) :
    parse w = parseInt w := by
  unfold parse
  simp only [h]
  rw [if_neg (by omega), if_pos r.2]

theorem parse_float {w : Word64} {op : BitVec 10} (h : opcodeOf w = op) (r : 0x0C0 ≤ op.toNat ∧ op.toNat < 0x180) :
    parse w = parseFloat w := by
  unfold parse
  simp only [h]
  rw [if_neg (by omega), if_neg (by omega), if_pos r.2]

theorem parse_memory {w : Word64} {op : BitVec 10} (h : opcodeOf w = op) (r : 0x180 ≤ op.toNat ∧ op.toNat < 0x280) :
    parse w = parseMem w := by
  unfold parse
  simp only [h]
  rw [if_neg (by omega), if_neg (by omega), if_neg (by omega), if_pos r.2]

theorem parse_system {w : Word64} {op : BitVec 10} (h : opcodeOf w = op) (r : 0x280 ≤ op.toNat ∧ op.toNat < 0x340) :
    parse w = parseSystem w := by
  unfold parse
  simp only [h]
  rw [if_neg (by omega), if_neg (by omega), if_neg (by omega), if_neg (by omega), if_pos r.2]

theorem parse_control {w : Word64} {op : BitVec 10} (h : opcodeOf w = op) (r : op.toNat < 0x040 ∨ 0x3F0 ≤ op.toNat) :
    parse w = parseControl w := by
  unfold parse
  simp only [h]
  rcases r with r | r
  · rw [if_pos r]
  · rw [if_neg (by omega), if_neg (by omega), if_neg (by omega), if_neg (by omega), if_neg (by omega), if_neg (by omega)]

/-- Integer instructions and moves (07 R171, R176, R178). -/
def Instr.isInteger : Instr → Bool
  | .iadd .. | .iaddImm .. | .isub .. | .isubImm .. | .imul .. | .imulImm .. | .imulh .. | .imad .. | .imin .. | .iminImm ..
  | .imax .. | .imaxImm .. | .iabs .. | .ineg .. | .idot4 .. | .and .. | .andImm .. | .or .. | .orImm .. | .xor .. | .xorImm ..
  | .not .. | .bool3 .. | .shl .. | .shlImm .. | .shr .. | .shrImm .. | .sar .. | .sarImm .. | .rot .. | .rotImm .. | .bfx ..
  | .bfxImm .. | .bfi .. | .popc .. | .clz .. | .brev .. | .icmp .. | .icmpImm .. | .lea .. | .leaImm .. | .mov .. | .movi ..
  | .movw .. | .sel .. | .mad64 .. => true
  | _ => false

theorem parse_encode_integer (i : Instr) (hi : i.isInteger = true) : parse i.encode = some i := by
  cases i
  case iadd | isub | imul | imulh | imad | imin | imax | iabs | ineg | idot4 | and | or | xor | not | bool3 | shl | shr
      | sar | rot | bfx | bfi | popc | clz | brev | icmp | lea | mov | sel | mad64 =>
    dsimp only [encode]
    refine (parse_integer (opcodeOf_packA ..) (by decide)).trans ?_
    unfold parseInt
    rw [opcodeOf_packA]
    conv => lhs; whnf
    simp (disch := decide) only [headOf_packA, fieldD_packA, fieldA_packA, fieldB_packA, fieldC_packA, modsA_packA,
      high_append, midBits_append, bit_append, lowBit_append, bit_bit, BitVec.extractLsb'_eq_self, Nat.reduceSub,
      Operand.ofBits_toBits, IntTy.ofCode_code, Width.ofCode_code, ICond.ofCode_code, kOf_kField]
  case iaddImm | isubImm | imulImm | iminImm | imaxImm | andImm | orImm | xorImm | shlImm | shrImm | sarImm | rotImm | bfxImm
      | icmpImm | leaImm | movi =>
    dsimp only [encode]
    refine (parse_integer (opcodeOf_packI ..) (by decide)).trans ?_
    unfold parseInt
    rw [opcodeOf_packI]
    conv => lhs; whnf
    simp (disch := decide) only [headOf_packI, fieldD_packI, fieldA_packI, imm24_packI, modsLow_packI, modsBit_packI,
      high_append, midBits_append, bit_append, lowBit_append, bit_bit, BitVec.extractLsb'_eq_self, Nat.reduceSub,
      Operand.ofBits_toBits, IntTy.ofCode_code, Width.ofCode_code, ICond.ofCode_code, kOf_kField]
  case movw =>
    dsimp only [encode]
    refine (parse_integer (opcodeOf_packW ..) (by decide)).trans ?_
    unfold parseInt
    rw [opcodeOf_packW]
    conv => lhs; whnf
    simp only [headOf_packW, fieldD_packW, imm32_packW, Operand.ofBits_toBits]
  all_goals exact Bool.noConfusion hi

/-- Float, conversion, lattice, lane and mask instructions (07 R179, R185 to R190, 06 R161). -/
def Instr.isFloating : Instr → Bool
  | .fadd .. | .fsub .. | .fmul .. | .ffma .. | .fmin .. | .fmax .. | .fcmp .. | .fclass .. | .frcp .. | .frsq .. | .fsqrt ..
  | .fex2 .. | .flg2 .. | .fsin .. | .fcos .. | .ftanh .. | .fdot2 .. | .cvt .. | .fcvt .. | .fpack .. | .funpk .. | .lgcvt ..
  | .srnd .. | .qe8 .. | .qe8m .. | .de8 .. | .e8scl .. | .shfl .. | .matchLanes .. | .vote .. | .wred .. | .wpfx .. | .elect ..
  | .kmov .. | .kand .. | .kor .. | .kxor .. | .knot .. | .kpop .. | .kfirst .. => true
  | _ => false

theorem parse_encode_floating (i : Instr) (hi : i.isFloating = true) : parse i.encode = some i := by
  cases i
  case fadd | fsub | fmul | ffma | fmin | fmax | fcmp | fclass | frcp | frsq | fsqrt | fex2 | flg2 | fsin | fcos | ftanh =>
    dsimp only [encode, float1, float2, float3]
    refine (parse_float (opcodeOf_packA ..) (by decide)).trans ?_
    unfold parseFloat
    rw [opcodeOf_packA]
    conv => lhs; whnf
    simp only [headOf_packA, fieldD_packA, modsA_packA, fsrcA_packA, fsrcB_packA, fsrcC_packA, lowMods_floatMods,
      Operand.ofBits_toBits, Rnd.ofCode_code, FCond.ofCode_code, kOf_kField]
  case fdot2 h bf r d a b c =>
    dsimp only [encode, float3]
    refine (parse_float (opcodeOf_packA ..) (by decide)).trans ?_
    unfold parseFloat
    rw [opcodeOf_packA]
    conv => lhs; whnf
    simp only [headOf_packA, fieldD_packA, modsA_packA, fsrcA_packA, fsrcB_packA, fsrcC_packA, lowMods_floatMods, typeBit_floatMods,
      Operand.ofBits_toBits, Rnd.ofCode_code]
    cases bf <;> rfl
  case cvt | fcvt | fpack | funpk | lgcvt | srnd | qe8 | qe8m | de8 | e8scl | shfl | matchLanes | vote | wred | wpfx | elect
      | kand | kor | kxor | knot | kpop | kfirst =>
    dsimp only [encode]
    refine (parse_float (opcodeOf_packA ..) (by decide)).trans ?_
    unfold parseFloat
    rw [opcodeOf_packA]
    conv => lhs; whnf
    simp (disch := decide) only [headOf_packA, fieldD_packA, fieldA_packA, fieldB_packA, fieldC_packA, modsA_packA,
      high_append, midBits_append, bit_append, lowBit_append, bit_bit, BitVec.extractLsb'_eq_self, Nat.reduceSub,
      Operand.ofBits_toBits, CvtKind.ofCode_code, FFmt.ofCode_code, Rnd.ofCode_code, ShflMode.ofCode_code, Width.ofCode_code,
      VoteTest.ofCode_code, WOp.ofCode_code, kOf_kField]
  case kmov h m =>
    cases m
    all_goals
      dsimp only [encode]
      refine (parse_float (opcodeOf_packA ..) (by decide)).trans ?_
      unfold parseFloat
      rw [opcodeOf_packA]
      conv => lhs; whnf
      simp only [headOf_packA, fieldD_packA, fieldA_packA, modsA_packA, kOf_kField, Operand.ofBits_toBits]
      rfl
  all_goals exact Bool.noConfusion hi

/-- Memory, atomic, fence and asynchronous instructions (11 R287 to R316, 08 R212). -/
def Instr.isMemory : Instr → Bool
  | .ld .. | .st .. | .ldsp .. | .stsp .. | .ldc .. | .zfill .. | .pref .. | .atom .. | .atomsp .. | .atomf .. | .red ..
  | .fence .. | .icinv .. | .tlbinv .. | .cpy .. | .cseal .. | .cwait .. | .bxpAdd .. | .bxpSet .. | .bwait .. | .tsub ..
  | .twait .. | .tdesc .. | .tdget .. | .hsget .. | .hsclr .. | .weir .. | .pin .. | .unpin .. => true
  | _ => false

theorem parse_encode_memory (i : Instr) (hi : i.isMemory = true) : parse i.encode = some i := by
  cases i
  case ld | st | ldsp | stsp | zfill | pref | atom | atomsp | atomf | red | tsub | twait | pin | unpin =>
    dsimp only [encode, memWord, ldstMods, atomMods]
    refine (parse_memory (opcodeOf_packM ..) (by decide)).trans ?_
    unfold parseMem
    rw [opcodeOf_packM]
    conv => lhs; whnf
    simp (disch := decide) only [headOf_packM, fieldD_packM, fieldA_packM, fieldB_packM, modsM_packM, memOf_packM, atomScope_packM,
      high_append, midBits_append, bit_append, lowBit_append, bit_bit, BitVec.extractLsb'_eq_self, Nat.reduceSub,
      Operand.ofBits_toBits, Size.ofCode_code, Scope.ofCode_code, PLevel.ofCode_code, AtomOp.ofCode_code, Order.ofCode_code]
  case ldc =>
    dsimp only [encode]
    refine (parse_memory (opcodeOf_packM ..) (by decide)).trans ?_
    unfold parseMem
    rw [opcodeOf_packM]
    conv => lhs; whnf
    simp (disch := decide) only [headOf_packM, fieldD_packM, fieldA_packM, modsM_packM, memOf, off12_packM, low_append,
      Operand.ofBits_toBits, Size.ofCode_code]
  case fence | icinv | cpy | cseal | cwait | bwait | tdesc | tdget | hsget | hsclr | weir =>
    dsimp only [encode]
    refine (parse_memory (opcodeOf_packA ..) (by decide)).trans ?_
    unfold parseMem
    rw [opcodeOf_packA]
    conv => lhs; whnf
    simp (disch := decide) only [headOf_packA, fieldD_packA, fieldA_packA, fieldB_packA, fieldC_packA, mods_packA, modBit_packA,
      high_append, midBits_append, bit_append, lowBit_append, bit_bit, BitVec.extractLsb'_eq_self, Nat.reduceSub,
      Operand.ofBits_toBits, Scope.ofCode_code, CpyDir.ofCode_code, guardOfCpy_cpyGuard]
  case bxpAdd | bxpSet =>
    dsimp only [encode]
    refine (parse_memory (opcodeOf_packA ..) (by decide)).trans ?_
    unfold parseMem
    rw [opcodeOf_packA]
    conv => lhs; whnf
    simp (disch := decide) only [headOf_packA, fieldA_packA, fieldB_packA, modBit_packA, Operand.ofBits_toBits]
    rfl
  case tlbinv h sc range =>
    rcases range with _ | ⟨a, b⟩
    all_goals
      dsimp only [encode]
      refine (parse_memory (opcodeOf_packA ..) (by decide)).trans ?_
      unfold parseMem
      rw [opcodeOf_packA]
      conv => lhs; whnf
      simp (disch := decide) only [headOf_packA, fieldA_packA, fieldB_packA, mods_packA, modBit_packA, low_append, bit_append,
        lowBit_append, Nat.reduceSub, Operand.ofBits_toBits, Scope.ofCode_code]
      rfl
  all_goals exact Bool.noConfusion hi

/-- View, engine and system instructions (09 R243, 04 R92, 17 R400). -/
def Instr.isSystem : Instr → Bool
  | .vdef .. | .vdefVoc .. | .vld .. | .vmap .. | .vfind .. | .vtouch .. | .vpin .. | .vunpin .. | .vstat .. | .ssealAdv ..
  | .ssealNew .. | .ssealDrop .. | .detok .. | .fork .. | .rdv .. | .gset .. | .dlv .. | .qstat .. | .slcfg .. | .slpush ..
  | .slinfo .. | .slcomb .. | .pxpush .. | .pxflush .. | .tfence .. | .trap .. | .bkpt .. | .ccause .. | .hret .. | .rdsr ..
  | .wrsr .. | .rdclk .. | .wtimer .. | .fragMask .. | .fragState .. | .fragKill .. | .fragResume .. | .mboxLd .. | .mboxSt ..
  | .mboxRing .. | .smark .. | .haltStop .. | .haltGo .. | .haltStep .. => true
  | _ => false

theorem parse_encode_system (i : Instr) (hi : i.isSystem = true) : parse i.encode = some i := by
  cases i
  case vld | vtouch | dlv | slcomb =>
    dsimp only [encode, memWord]
    refine (parse_system (opcodeOf_packM ..) (by decide)).trans ?_
    unfold parseSystem
    rw [opcodeOf_packM]
    conv => lhs; whnf
    simp (disch := decide) only [headOf_packM, fieldD_packM, fieldA_packM, fieldB_packM, memOf_packM, mods_packM, modsLow_packM,
      modBit_packM, high_append, midBits_append, bit_append, lowBit_append, bit_bit, BitVec.extractLsb'_eq_self,
      Nat.reduceSub, Operand.ofBits_toBits, VSize.ofCode_code, DlvCount.ofCode_code]
  case vmap | vfind | vpin | vunpin | vstat | detok | rdv | gset | qstat | slcfg | slpush | slinfo | pxpush | pxflush | tfence
      | ccause | hret | rdclk | wtimer =>
    dsimp only [encode]
    refine (parse_system (opcodeOf_packA ..) (by decide)).trans ?_
    unfold parseSystem
    rw [opcodeOf_packA]
    conv => lhs; whnf
    simp (disch := decide) only [headOf_packA, fieldD_packA, fieldA_packA, fieldB_packA, fieldC_packA, modsA_packA,
      high_append, midBits_append, lowBit_append, bit_bit, BitVec.extractLsb'_eq_self, Nat.reduceSub,
      Operand.ofBits_toBits, VStatOp.ofCode_code, GCond.ofCode_code, RecSize.ofCode_code, ClkMode.ofCode_code, gOf_gField,
      kOf_kField, guardOfPush_pushGuard]
  case vdef | vdefVoc | ssealAdv | ssealNew | ssealDrop | fragMask | fragState | fragKill | fragResume | mboxLd | mboxSt
      | mboxRing | haltStop | haltGo | haltStep =>
    dsimp only [encode]
    refine (parse_system (opcodeOf_packA ..) (by decide)).trans ?_
    unfold parseSystem
    rw [opcodeOf_packA]
    conv => lhs; whnf
    simp only [headOf_packA, fieldD_packA, fieldA_packA, fieldB_packA, modsA_packA, Operand.ofBits_toBits]
    rfl
  case trap | bkpt | smark =>
    dsimp only [encode]
    refine (parse_system (opcodeOf_packI ..) (by decide)).trans ?_
    unfold parseSystem
    rw [opcodeOf_packI]
    conv => lhs; whnf
    simp only [headOf_packI, imm24_packI]
  case rdsr | wrsr =>
    dsimp only [encode]
    refine (parse_system (opcodeOf_packS ..) (by decide)).trans ?_
    unfold parseSystem
    rw [opcodeOf_packS]
    conv => lhs; whnf
    simp only [headOf_packS, fieldD_packS, fieldA_packS, sysS_packS, Operand.ofBits_toBits, SysReg.ofCode_code]
  case fork =>
    dsimp only [encode]
    refine (parse_system (opcodeOf_packB ..) (by decide)).trans ?_
    unfold parseSystem
    rw [opcodeOf_packB]
    conv => lhs; whnf
    simp only [headOf_packB, off32_packB]
  all_goals exact Bool.noConfusion hi

/-- Control and barrier instructions, and the tool and instrumentation opcodes (03 R66, 02 R49 to R51). -/
def Instr.isControl : Instr → Bool
  | .nop .. | .bra .. | .brc .. | .brx .. | .call .. | .ret .. | .meetDrop .. | .meetPush .. | .exit .. | .refill .. | .yield ..
  | .sleep .. | .bar .. | .barv .. | .barw .. | .wprio .. | .tramp .. | .tret .. | .toolop .. | .inop .. => true
  | _ => false

/-- Opcodes 0x3F8 to 0x3FF are `inop` (02 R51). -/
theorem parseControl_inop {w : Word64} (h : 0x3F8 ≤ (opcodeOf w).toNat) :
    parseControl w = some (.inop (headOf w).stop (headOf w).sw (w.extractLsb' 52 3) (w.extractLsb' 0 52)) := by
  unfold parseControl
  simp only
  split
  case h_24 => rw [if_pos h]
  all_goals omega

theorem toolop_number : ∀ n : Fin 6, n = 0 ∨ n = 1 ∨ n = 2 ∨ n = 3 ∨ n = 4 ∨ n = 5 := by decide

theorem parse_encode_control (i : Instr) (hi : i.isControl = true) (hw : i.wf = true) : parse i.encode = some i := by
  cases i
  case bra | brc | brx | call | refill | tramp =>
    dsimp only [encode]
    refine (parse_control (opcodeOf_packB ..) (by decide)).trans ?_
    unfold parseControl
    rw [opcodeOf_packB]
    conv => lhs; whnf
    simp only [headOf_packB, kindB_packB, regB_packB, off32_packB, Operand.ofBits_toBits, BrcKind.ofCode_code, BrxKind.ofCode_code,
      kOf_kField]
  case nop | ret | exit | yield | tret | barw =>
    dsimp only [encode, barMods]
    refine (parse_control (opcodeOf_packA ..) (by decide)).trans ?_
    unfold parseControl
    rw [opcodeOf_packA]
    conv => lhs; whnf
    simp (disch := decide) only [headOf_packA, fieldA_packA, modsA_packA, low_append, high_append, Nat.reduceSub,
      Operand.ofBits_toBits, Scope.ofCode_code]
  case meetDrop | meetPush =>
    dsimp only [encode]
    refine (parse_control (opcodeOf_packA ..) (by decide)).trans ?_
    unfold parseControl
    rw [opcodeOf_packA]
    conv => lhs; whnf
    simp only [headOf_packA, modsA_packA]
    rfl
  case bar =>
    dsimp only [encode, barMods]
    refine (parse_control (opcodeOf_packA ..) (by decide)).trans ?_
    unfold parseControl
    rw [opcodeOf_packA]
    conv => lhs; whnf
    simp (disch := decide) only [headOf_packA, fieldA_packA, modsA_packA, low_append, high_append, Nat.reduceSub,
      Scope.ofCode_code, barCount_read hw]
  case barv =>
    dsimp only [encode, barMods]
    refine (parse_control (opcodeOf_packA ..) (by decide)).trans ?_
    unfold parseControl
    rw [opcodeOf_packA]
    conv => lhs; whnf
    simp (disch := decide) only [headOf_packA, fieldA_packA, modsA_packA, low_append, high_append, Nat.reduceSub,
      Scope.ofCode_code, barvCount_read hw]
  case sleep | wprio =>
    dsimp only [encode]
    refine (parse_control (opcodeOf_packI ..) (by decide)).trans ?_
    unfold parseControl
    rw [opcodeOf_packI]
    conv => lhs; whnf
    simp (disch := decide) only [headOf_packI, imm24_packI, imm_packI, Nat.reduceSub, low_append]
  case toolop h n payload =>
    dsimp only [encode]
    refine (parse_control (opcodeOf_packHead ..) (.inr (toolop_opcode_ge n))).trans ?_
    unfold parseControl
    rw [opcodeOf_packHead]
    obtain rfl | rfl | rfl | rfl | rfl | rfl := toolop_number n
    all_goals
      conv => lhs; whnf
      simp only [headOf_packHead, low_append]
  case inop stop sw c payload =>
    dsimp only [encode]
    have hop := inop_opcode_ge c
    refine (parse_control (opcodeOf_inop ..) (.inr (by omega))).trans ?_
    rw [parseControl_inop (by rw [opcodeOf_inop]; exact hop)]
    simp (disch := decide) only [stop_inop, sw_inop, low_append, high_append, Nat.reduceSub]
  all_goals exact Bool.noConfusion hi

/-! ### The whole table -/

theorem isWord_eq (i : Instr) :
    i.isWord = (i.isControl || i.isInteger || i.isFloating || i.isMemory || i.isSystem) := by cases i <;> rfl

theorem parse_encode (i : Instr) (hi : i.isWord = true) (hw : i.wf = true) : parse i.encode = some i := by
  simp only [isWord_eq, Bool.or_eq_true] at hi
  rcases hi with (((h | h) | h) | h) | h
  · exact parse_encode_control i h hw
  · exact parse_encode_integer i h
  · exact parse_encode_floating i h
  · exact parse_encode_memory i h
  · exact parse_encode_system i h

/-- Opcodes 0x180 to 0x1BF, those of the header tag, are unassigned (02 R30, R45). -/
theorem parse_headerOpcode {w : Word64} (lo : 0x180 ≤ (opcodeOf w).toNat) (hi : (opcodeOf w).toNat < 0x1C0) : parse w = none := by
  rw [parse_memory rfl ⟨lo, by omega⟩]
  unfold parseMem
  simp only
  split
  case h_29 => rfl
  all_goals omega

theorem notHeader_of_parse {w : Word64} {i : Instr} (h : parse w = some i) : isHeader w = false := by
  refine notHeader_of_opcode w _ rfl fun e => ?_
  have hq : (opcodeOf w).toNat / 64 % 16 = 6 := by simpa [Nat.shiftRight_eq_div_pow] using congrArg BitVec.toNat e
  have hb := (opcodeOf w).isLt
  rw [parse_headerOpcode (by omega) (by omega)] at h
  cases h

theorem decode_encode (i : Instr) (hi : i.isWord = true) (hw : i.wf = true) : decode i.encode = some i := by
  simp [decode, parse_encode i hi hw, hw]

theorem wf_encode_of_decode {w : Word64} {i : Instr} (h : decode w = some i) : i.wf = true ∧ i.encode = w := by
  unfold decode at h
  split at h
  next j _ =>
    split at h
    next hj =>
      cases h
      simpa using hj
    next => cases h
  next => cases h

/-! ### Admin commands (16 R335, R337) -/

/-- The operands in the bytes of a command. -/
def commandOf (w : BitVec 512) : AdminCmd :=
  { tag := w.extractLsb' 16 16, n := w.extractLsb' 32 32, a := w.extractLsb' 64 64, b := w.extractLsb' 128 64,
    c := w.extractLsb' 192 64, resv := w.extractLsb' 8 8 != 0 || w.extractLsb' 256 256 != 0 }

theorem commandOf_adminWord (op : Byte) (c : AdminCmd) : commandOf (adminWord op c) = c := by
  have fields (y : BitVec 8) : commandOf (0#256 ++ c.c ++ c.b ++ c.a ++ c.n ++ c.tag ++ y ++ op) = { c with resv := y != 0 } := by
    have zero : (0#256 != 0) = false := rfl
    simp (disch := decide) only [commandOf, high_append, low_append, Nat.reduceSub, BitVec.extractLsb'_eq_self, zero, Bool.or_false]
  have flag : (0#7 ++ bit c.resv != 0) = c.resv := by cases c.resv <;> rfl
  rw [adminWord, fields, flag]

theorem opcode_adminWord (op : Byte) (c : AdminCmd) : (adminWord op c).extractLsb' 0 8 = op := low_append ..

theorem a_adminWord (op : Byte) (c : AdminCmd) : (adminWord op c).extractLsb' 64 64 = c.a :=
  congrArg AdminCmd.a (commandOf_adminWord op c)

theorem decodeAdmin_encodeAdmin (i : Instr) (hi : i.isCommand = true) (hw : i.wf = true) :
    decodeAdmin (encodeAdmin i) = some i := by
  cases i
  case dike c | create c | destroy c | update c | mapq c | zeroRange c | zone c | cold c | disturb c | podclr c | traceBuf c | spare c
      | power c =>
    dsimp only [encodeAdmin]
    unfold decodeAdmin
    rw [opcode_adminWord]
    conv => lhs; whnf
    exact congrArg some (congrArg _ (commandOf_adminWord _ c))
  case debugHaltStop c | debugHaltGo c | debugHaltStep c | debugFragMask c | debugFragState c | debugFragKill c
      | debugFragResume c =>
    have ha : c.a = _ := eq_of_beq hw
    dsimp only [encodeAdmin]
    unfold decodeAdmin
    simp only [opcode_adminWord, a_adminWord, ha]
    conv => lhs; whnf
    have hc := commandOf_adminWord 0x0B c
    simp only [commandOf, a_adminWord, ha] at hc
    exact congrArg some (congrArg _ hc)
  all_goals exact Bool.noConfusion hi

end Sys2Proof

open Sys2Proof in
/-- Settles O58: a word is read by the part of the table its opcode lies in, field by field, and a command byte by byte. -/
theorem wordsReadBack : Obligations.WordsReadBack := by
  refine ⟨fun i hi hw => ⟨decode_encode i hi hw, notHeader_of_parse (parse_encode i hi hw)⟩, ?_, decodeAdmin_encodeAdmin⟩
  exact fun w i h => wf_encode_of_decode h
end

section
open Sys2Proof Sys2Proof.Claims

/-- A word that a well-formed instruction is written as reads as that instruction. -/
theorem Sys2Proof.decode_of_encode {w : Word64} {i : Instr} (h : i.encode = w) (hi : i.isWord = true) (hw : i.wf = true) :
    decode w = some i := h ▸ decode_encode i hi hw

/-- Settles O59: each instruction of the spec's examples is written as the word beside it, and the last three words hold a
sense bit without a guard register and unassigned opcodes (02 R35, R45). -/
theorem sampleWordsDecode : Obligations.SampleWordsDecode := by
  unfold Obligations.SampleWordsDecode
  refine ⟨?_, ?_, ?_, ?_, ?_, ?_, ?_, ?_, ?_, ?_, ?_, ?_, ?_, ?_, ?_⟩
  case refine_13 | refine_14 | refine_15 => decide +kernel
  all_goals exact decode_of_encode (by decide +kernel) rfl (by decide +kernel)
end

section
/-! A step is the job of its turn (03 R82, 04 R98, 16 R337, R339): what each kind of turn comes to, and what the word at which the
issue stage stands comes to. -/
open Sys2Proof Sys2Proof.Machine Sys2Proof.Claims
namespace Sys2Proof.Machine

@[simp] theorem nextTurn_adm (s : State) : (nextTurn s).2.adm = s.adm := by
  unfold nextTurn
  split <;> rfl

theorem allowed_congr {s t : State} (h : t.adm = s.adm) (i : Instr) : allowed t i = allowed s i := by
  unfold allowed
  rw [h]

/-! ### A step is the job of its turn -/

theorem step_of_state {s t : State} (h : turnJob (nextTurn s).2 (nextTurn s).1 = .state t) :
    step s = finish (unstage t t.iss) := by
  simp only [step, h]

theorem step_of_run {s q : State} {i : Instr} (h : turnJob (nextTurn s).2 (nextTurn s).1 = .run i q) : step s = around q i := by
  cases he : exec i q <;> simp [step, around, h, he]

/-! ### The word at which the issue stage stands -/

theorem wordInstr_some {s : State} {w : Word64} {i : Instr} (hh : isHeader w = false) (hd : decode w = some i)
    (hm : mayStand s i = true) : wordInstr s w = some i := by
  simp [wordInstr, hh, hd, hm]

theorem wordInstr_none {s : State} {w : Word64} (h : isHeader w = true ∨ ∀ i, decode w = some i → mayStand s i = false) :
    wordInstr s w = none := by
  unfold wordInstr
  split
  · rfl
  next hh =>
    split
    next i hd => simp [(h.resolve_left hh) i hd]
    next => rfl

theorem issueJob_run {q p : State} {word : Word64} {i : Instr} (hs : Standing q p word) (hi : wordInstr p word = some i)
    (hu : Unhindered p word) : issueJob q = .run i (modMe p fun w => takeFlight w i p.iss) := by
  obtain ⟨rfl, hf, hw⟩ := hs
  obtain ⟨clean, going, calm, swap⟩ := hu
  subst hw
  have hsw : ((wordHere q).getLsbD 62 && !q.me.vfly.isEmpty) = false := by
    rcases swap with h | h <;> simp_all
  unfold issueJob
  simp_all

theorem issueJob_illegal {q p : State} {word : Word64} (hs : Standing q p word) (hi : wordInstr p word = none)
    (hc : vaPoisoned p p.me.ctx p.me.lanes[lowest p.iss].pc 8 = false) : issueJob q = .state (illegalWord p) := by
  obtain ⟨rfl, hf, hw⟩ := hs
  subst hw
  unfold issueJob
  simp_all

theorem runsWord_of_job {s q : State} (h : turnJob (nextTurn s).2 (nextTurn s).1 = issueJob q) : RunsWord s q :=
  fun _ _ hs =>
    ⟨fun _ hh hd hm hu => step_of_run (h.trans (issueJob_run hs (wordInstr_some hh hd hm) hu)),
     fun hi hc => step_of_state (h.trans (issueJob_illegal hs (wordInstr_none hi) hc))⟩

/-! ### The turns (03 R82, 04 R98) -/

section
variable {s : State} {k : Nat} {w : Wave} (hw : Table.get? s.waves k = some w) (hf : s.adm.fatal = false)
include hw hf

theorem issueTurn_second (hi : canIssue s w = true) (h : secondChoice s w.core = some k) :
    issueTurn s k = issueJob (stage s w) := by
  simp [issueTurn, hw, hf, hi, h]

theorem issueTurn_first (hi : canIssue s w = true) (h2 : secondChoice s w.core ≠ some k) (h1 : firstChoice s w.core = some k) :
    issueTurn s k = issueJob (stage { s with paired := Table.erase s.paired w.core } w) := by
  simp [issueTurn, hw, hf, hi, h2, h1]

theorem issueTurn_unchosen (h2 : secondChoice s w.core ≠ some k) (h1 : firstChoice s w.core ≠ some k) :
    issueTurn s k = .state s := by
  simp [issueTurn, hw, hf, h2, h1]

end

section
variable {s : State} {k : Nat} {w : Wave} (hw : Table.get? s.aps k = some w)
include hw

theorem issueApTurn_chosen (hf : s.adm.fatal = false) (h : apChoice s w.core = some k) :
    issueApTurn s k = issueJob (stageAp { s with apTurn := Table.set s.apTurn w.core (k % 16) } w) := by
  simp [issueApTurn, hw, hf, h]

theorem issueApTurn_unchosen (h : apChoice s w.core ≠ some k) : issueApTurn s k = .state s := by
  simp [issueApTurn, hw, h]

end

theorem adminTurn_command {s : State} {w : BitVec 512} {i : Instr} (hr : adminReady s = true) (hc : (takeCommand s).1 = some w)
    (hd : decodeAdmin w = some i) : adminTurn s = .run i (takeCommand s).2 := by
  unfold adminTurn
  rw [if_pos hr]
  split
  next h => simp [h] at hc
  next h =>
    rw [h] at hc ⊢
    cases hc
    rw [hd]

end Sys2Proof.Machine

/-- Settles O57: the job of each turn, and for a word the job of the issue stage. -/
theorem stepRunsTheDecodedInstruction : Obligations.StepRunsTheDecodedInstruction := by
  refine ⟨?_, ?_, ?_, ?_, ?_, ?_⟩
  · intro s k w s1 ht hw hi hf
    have hf1 : s1.adm.fatal = false := by simpa [s1] using hf
    have hj : turnJob s1 (nextTurn s).1 = issueTurn s1 k := by rw [ht]; rfl
    exact ⟨fun h2 => runsWord_of_job (hj.trans (issueTurn_second hw hf1 hi h2)),
      fun h2 h1 => runsWord_of_job (hj.trans (issueTurn_first hw hf1 hi h2 h1)),
      fun h2 h1 => step_of_state (hj.trans (issueTurn_unchosen hw hf1 h2 h1))⟩
  · intro s k w s1 ht hw hf
    have hf1 : s1.adm.fatal = false := by simpa [s1] using hf
    have hj : turnJob s1 (nextTurn s).1 = issueApTurn s1 k := by rw [ht]; rfl
    exact ⟨fun h => runsWord_of_job (hj.trans (issueApTurn_chosen hw hf1 h)),
      fun h => step_of_state (hj.trans (issueApTurn_unchosen hw h))⟩
  · intro s i s1 ht hr w hc hd
    have hj : turnJob s1 (nextTurn s).1 = adminTurn s1 := by rw [ht]; rfl
    exact step_of_run (hj.trans (adminTurn_command hr hc hd))
  · intro s i n s1 ht hm
    have hj : turnJob s1 (nextTurn s).1 = mgmtTurn s1 n := by rw [ht]; rfl
    exact step_of_run (hj.trans (by simp [mgmtTurn, hm]))
  · intro s i ht ha
    refine step_of_run ?_
    rw [ht]
    exact if_pos ((allowed_congr (nextTurn_adm s) i).trans ha)
  · intro s e ht
    refine step_of_state ?_
    rw [ht]
    rfl
end

section
/-! Words without a result (03 R66, R72, R76, R77): what settling leaves of threads that sleep or have ended, when a wave keeps its
slot, and what leaving it takes along. -/
open Sys2Proof Sys2Proof.Machine Sys2Proof.Claims
namespace Sys2Proof.Machine

/-! ### Threads that settling does not move (03 R62, R78, R87) -/

/-- A thread that has ended is as it was, and one that sleeps sleeps on. -/
structure LaneStill (a b : Lane) : Prop where
  ended : a.life = .exited → b = a
  asleep : ∀ x, a.wait = .sleep x → b.wait = .sleep x

/-- So is each thread of a wave. -/
structure WaveStill (a b : Wave) : Prop where
  lanes : ∀ i : Fin 32, LaneStill a.lanes[i] b.lanes[i]

theorem LaneStill.refl (a : Lane) : LaneStill a a := ⟨fun _ => rfl, fun _ h => h⟩

theorem LaneStill.trans {a b c : Lane} (h : LaneStill a b) (k : LaneStill b c) : LaneStill a c := by
  refine ⟨fun e => ?_, fun x hx => k.asleep x (h.asleep x hx)⟩
  have hb := h.ended e
  exact (k.ended (hb ▸ e)).trans hb

theorem WaveStill.refl (a : Wave) : WaveStill a a := ⟨fun _ => LaneStill.refl _⟩

theorem WaveStill.trans {a b c : Wave} (h : WaveStill a b) (k : WaveStill b c) : WaveStill a c :=
  ⟨fun i => (h.lanes i).trans (k.lanes i)⟩

theorem WaveStill.foldl {β : Type} (f : State → β → State) (hf : ∀ s b, WaveStill s.me (f s b).me) (l : List β) (s : State) :
    WaveStill s.me (l.foldl f s).me := by
  induction l generalizing s with
  | nil => exact WaveStill.refl _
  | cons b t ih => exact (hf s b).trans (ih _)

theorem waveStill_map (w : Wave) (f : Fin 32 → Lane) (h : ∀ i, LaneStill w.lanes[i] (f i)) :
    WaveStill w { w with lanes := lanesOf f } := ⟨fun i => by
  show LaneStill w.lanes[i] (lanesOf f : Vector Lane 32)[i]
  rw [lanesOf_get]
  exact h i⟩

theorem settleMeetings_still (w : Wave) : WaveStill w (settleMeetings w) := by
  unfold settleMeetings
  split
  · refine waveStill_map _ _ fun i => ?_
    dsimp only
    split
    next h =>
      simp only [Bool.and_eq_true, beq_iff_eq] at h
      obtain ⟨⟨⟨hl, hh⟩, -⟩, -⟩ := h
      exact ⟨fun e => absurd (hl.symm.trans e) (by simp), fun x e => absurd (hh.symm.trans e) (by simp)⟩
    next => exact LaneStill.refl _
  · exact WaveStill.refl w

theorem settleTramps_still (k : Kernel) (w : Wave) : WaveStill w (settleTramps k w) := by
  unfold settleTramps
  simp only
  split
  · refine waveStill_map _ _ fun i => ?_
    split
    next id hw =>
      split
      next h =>
        simp only [Bool.and_eq_true, beq_iff_eq] at h
        exact ⟨fun e => absurd (h.1.symm.trans e) (by simp), fun x e => absurd (hw.symm.trans e) (by simp)⟩
      next => exact LaneStill.refl _
    next => exact LaneStill.refl _
  · exact WaveStill.refl w

theorem carryLane_still (k : Kernel) (key old : Nat) (counted : Bool) (now : Nat) (l : Lane) :
    LaneStill l (carryLane k key old counted now l) := by
  refine ⟨fun e => by simp [carryLane, e], fun x e => ?_⟩
  unfold carryLane
  simp only [e]
  split
  · exact e
  · split
    · rfl
    · exact e

theorem modWave_still (s : State) (k : Nat) (f : Wave → Wave) (h : ∀ w, WaveStill w (f w)) : WaveStill s.me (modWave s k f).me := by
  unfold modWave
  split
  · exact h _
  · exact WaveStill.refl _

theorem setBarrier_me (s : State) (gk : Nat) (sc : Scope) (key : Nat) (b : Barrier) : (setBarrier s gk sc key b).me = s.me := by
  cases sc <;> rfl

theorem arriveGroup_me (s : State) (gk : Nat) (sc : Scope) (key : Nat) : (arriveGroup s gk sc key).me = s.me := by
  unfold arriveGroup
  simp only
  split
  · exact setBarrier_me ..
  · rfl

theorem carryWaves_still (s : State) (ks : List Nat) (k : Kernel) (key old : Nat) (counted : Bool) :
    WaveStill s.me (ks.foldl (fun s n => modWave s n fun w =>
      settleMeetings { w with lanes := lanesOf fun i => carryLane k key old counted s.wall w.lanes[i] }) s).me :=
  WaveStill.foldl _ (fun s n => modWave_still s n _ fun w =>
    (waveStill_map w _ fun _ => carryLane_still ..).trans (settleMeetings_still _)) _ _

theorem endWide_still (s : State) (ctx : Nat) (sc : Scope) (key : Nat) (b : Barrier) :
    WaveStill s.me (endWide s ctx sc key b).me := by
  unfold endWide
  refine WaveStill.foldl _ (fun s e => ?_) _ (setCtx s ctx _)
  exact carryWaves_still (modGroup s e.1 _) ..

theorem settleBarrier_still (gk : Nat) (sc : Scope) (key fuel : Nat) (s : State) :
    WaveStill s.me (settleBarrier s gk sc key fuel).me := by
  induction fuel generalizing s gk with
  | zero => exact WaveStill.refl _
  | succ fuel ih =>
    have wide : ∀ sc', WaveStill s.me (if wideFull (arriveGroup s gk sc' key) (groupOf s gk).ctx key then
        (membersOf (arriveGroup s gk sc' key) (groupOf s gk).ctx sc' key).foldl
          (fun s e => settleBarrier s e.1 sc key fuel)
          (endWide (arriveGroup s gk sc' key) (groupOf s gk).ctx sc' key (barrierOf (arriveGroup s gk sc' key) gk sc' key))
        else arriveGroup s gk sc' key).me := fun sc' => by
      rw [← arriveGroup_me s gk sc' key]
      split
      · exact (endWide_still ..).trans (WaveStill.foldl _ (fun s (e : Nat × Group) => ih e.1 s) _ _)
      · exact WaveStill.refl _
    cases sc with
    | core =>
      simp only [settleBarrier]
      split
      · rw [← setBarrier_me s gk .core key]
        exact (carryWaves_still ..).trans (ih gk _)
      · exact WaveStill.refl _
    | quad => exact wide .quad
    | die => exact wide .die
    | pkg => exact wide .pkg
    | pod => exact wide .pod
    | sys => exact wide .sys

theorem settleBarriers_still (s : State) (gk : Nat) : WaveStill s.me (settleBarriers s gk).me :=
  WaveStill.foldl _ (fun _ _ => settleBarrier_still ..) _ _

/-! ### A wave that keeps its slot (03 R72, 14 R326) -/

/-- What keeps the slot of the wave with a key: a thread that has not ended, a fragment entry, a remote access of a lane without
its answer. -/
def HoldsSlot (s : State) (k : Nat) : Prop :=
  (∃ l : Fin 32, (waveOf s k).lanes[l].life ≠ .exited) ∨ (∃ f ∈ s.frags, f.2.wave = k) ∨ ∃ r ∈ s.remotes, owesAnswer r.2 k = true

theorem freeWave_of_holdsSlot {s : State} {k : Nat} (h : HoldsSlot s k) : freeWave s k = s := by
  unfold freeWave
  refine if_neg fun c => ?_
  simp only [Bool.and_eq_true, List.all_eq_true, beq_iff_eq, Bool.not_eq_true', List.any_eq_false] at c
  obtain ⟨⟨⟨-, ended⟩, frags⟩, remotes⟩ := c
  rcases h with ⟨l, hl⟩ | ⟨f, hf, e⟩ | ⟨r, hr, e⟩
  · exact hl (ended l (List.mem_finRange l))
  · exact frags f hf e
  · exact remotes r hr e

/-- The state in which `settleMe` asks whether the slot of the issuing wave is free: meetings, trampolines and barriers are
settled. -/
def settledMe (s : State) : State :=
  settleBarriers (modWave s s.me.key fun w => settleMeetings (settleTramps (groupOf s s.me.group).kern w)) s.me.group

theorem settledMe_settled (s : State) : Settled s (settledMe s) :=
  (modWave_settled _ _ _ fun w => (settleTramps_kept _ w).trans (settleMeetings_kept _)).trans (settleBarriers_settled _ _)

theorem settledMe_still (s : State) : WaveStill s.me (settledMe s).me :=
  (modWave_still _ _ _ fun w => (settleTramps_still _ w).trans (settleMeetings_still _)).trans (settleBarriers_still _ _)

theorem settleMe_wave (s : State) (hp : s.me.present = true) (ha : s.me.ap = none) :
    settleMe s = freeWave (settledMe s) s.me.key := by
  simp only [settleMe, settleWave, settledMe, waveOf_me s hp ha, ha]
  rfl

theorem waveOf_settledMe (s : State) (hp : s.me.present = true) (ha : s.me.ap = none) :
    waveOf (settledMe s) s.me.key = (settledMe s).me := by
  have e := (settledMe_settled s).me.rest
  have hk : (settledMe s).me.key = s.me.key := by rw [e]
  rw [← hk]
  exact waveOf_me _ (by rw [e]; exact hp) (by rw [e]; exact ha)

theorem waveOf_key {s : State} {k : Nat} (hk : s.me.key = k) (hp : s.me.present = true) (ha : s.me.ap = none) : waveOf s k = s.me :=
  hk ▸ waveOf_me s hp ha

theorem settledMe_holdsSlot {s : State} (hp : s.me.present = true) (ha : s.me.ap = none) (h : HoldsSlot s s.me.key) :
    HoldsSlot (settledMe s) s.me.key := by
  have st := settledMe_settled s
  unfold HoldsSlot at h ⊢
  rw [waveOf_me s hp ha] at h
  rw [waveOf_settledMe s hp ha, show (settledMe s).frags = s.frags by rw [st.rest],
    show (settledMe s).remotes = s.remotes by rw [st.rest]]
  refine h.imp_left fun ⟨l, hl⟩ => ⟨l, ?_⟩
  rwa [(st.me.lanes l).life]

/-- What settling the issuing wave leaves while something holds its slot, or where an address program issues. -/
theorem settleMe_keeps {s : State} (hp : s.me.present = true) (h : s.me.ap = none → HoldsSlot s s.me.key) :
    Settled s (settleMe s) ∧ WaveStill s.me (settleMe s).me := by
  cases ha : s.me.ap with
  | some p =>
    rw [show settleMe s = s by simp [settleMe, ha]]
    exact ⟨Settled.refl s, WaveStill.refl _⟩
  | none =>
    rw [settleMe_wave s hp ha, freeWave_of_holdsSlot (settledMe_holdsSlot hp ha (h ha))]
    exact ⟨settledMe_settled s, settledMe_still s⟩

/-! ### Words that only go on -/

theorem wroteNone_of_lanes {a b : Wave} (h : b = { a with lanes := b.lanes }) : WroteNone a b := by
  rw [h]
  exact ⟨fun _ _ => rfl, fun _ => rfl, PoisonKept.of_eq rfl rfl, fun _ => rfl⟩

/-- Where the path group goes on and does nothing else, the word passes. -/
theorem passOn_passes {s : State} (h : Issuing s) : Passes s (passOn s) := by
  have live := h.live _ (lowest_mem _ h.group)
  obtain ⟨frame, me, k, lanes⟩ := settle_after s (passOn s) s.iss (lowest s.iss) h.present (by rw [live]; simp) rfl
  have kept := fun l => laneKept_of_next (lanes l)
  refine ⟨wroteNone_of_lanes me, fun l => ?_, ?_, fun l => ?_, fun l hl => ?_, fun l => ?_, by rw [me], frame⟩
  · obtain ⟨-, flags, -⟩ := kept l
    rw [flags]
    simp
  · rw [me, foldl_noFlags]
    simp
  · obtain ⟨-, -, rng, -⟩ := kept l
    rw [rng]
    simp
  · obtain ⟨-, -, -, -, -, -, -, -, pc⟩ := kept l
    exact pc hl
  · obtain ⟨life, -, -, item, batch, failed, handler, tret, -⟩ := kept l
    exact ⟨life, item, batch, failed, handler, tret⟩

theorem yielded_issuing {s : State} (h : Issuing s) (b : Wave) : Issuing (yielded s b) := by
  obtain ⟨present, group, live, notFull, fine⟩ := h
  unfold yielded modWave
  split <;> exact ⟨present, group, live, notFull, fine⟩

theorem poisonLanes_nil (s : State) (m : LaneMask) : poisonLanes s [] m = 0 := by
  unfold poisonLanes
  split
  · rfl
  · rw [List.filter_eq_nil_iff.2 (by simp)]
    rfl

theorem onceInstr_plain (h : Head) (s : State) (act : LaneMask → State → State) :
    onceInstr h [] s act = settleMe (advanceMe (if active s h = 0 then s else act (active s h) s) s.iss) := by
  refine (regBody s (active s h) true [] (fun m s => if m == 0 then s else act m s) (poisonLanes_nil _ _)).trans ?_
  simp only [beq_iff_eq]

theorem exec_yield_passes {s : State} (hi : Issuing s) (h : Head) : ∃ t, exec (.yield h) s = .next t ∧
    ((active s h = 0 ∨ yieldsTo s = none) → Passes s t) ∧
    ∀ b, active s h ≠ 0 → yieldsTo s = some b → Passes (yielded s b) t := by
  refine ⟨_, rfl, ?_, fun b hm hb => ?_⟩
  · rintro (hm | hb)
    · simp only [hm, beq_self_eq_true, if_true]
      exact passOn_passes hi
    · have hb : swapIn s s.me.ctx s.me.core = none := hb
      simp only [hb, ite_self]
      exact passOn_passes hi
  · have hb : swapIn s s.me.ctx s.me.core = some b := hb
    simp only [beq_iff_eq, hm, if_false, hb]
    exact passOn_passes (yielded_issuing hi b)

theorem exec_wprio_passes {s : State} (hi : Issuing s) (h : Head) (p : BitVec 2) : ∃ t, exec (.wprio h p) s = .next t ∧
    Passes (if active s h = 0 then s else { s with me := { s.me with prio := p.toNat } }) t := by
  refine ⟨_, rfl, ?_⟩
  rw [onceInstr_plain]
  obtain ⟨present, group, live, notFull, fine⟩ := hi
  split
  · exact passOn_passes ⟨present, group, live, notFull, fine⟩
  · exact passOn_passes (s := { s with me := { s.me with prio := p.toNat } }) ⟨present, group, live, notFull, fine⟩

theorem lanesTo_me (s : State) (m : LaneMask) (f : Fin 32 → Lane → Lane) :
    (lanesTo s m f).me = { s.me with lanes := (lanesTo s m f).me.lanes } := rfl

theorem lanesTo_lane (s : State) (m : LaneMask) (f : Fin 32 → Lane → Lane) (l : Fin 32) :
    (lanesTo s m f).me.lanes[l] = if m.getLsbD l then f l s.me.lanes[l] else s.me.lanes[l] :=
  mapLanes_get _ _ _ _

theorem lanesTo_framed (s : State) (m : LaneMask) (f : Fin 32 → Lane → Lane) : Framed s (lanesTo s m f) := modMe_framed s _

theorem kernOf_lanesTo (s : State) (m : LaneMask) (f : Fin 32 → Lane → Lane) : kernOf (lanesTo s m f) = kernOf s := by
  simp [kernOf, groupOf, lanesTo, mapLanes]

/-- The state whose path group waits at its word until a run cycle (03 R76). -/
def asleep (s : State) (n : Nat) : State := lanesTo s s.iss fun _ l => { l with wait := .sleep n }

theorem asleep_me (s : State) (n : Nat) : (asleep s n).me = { s.me with lanes := (asleep s n).me.lanes } := rfl

theorem asleep_lane {s : State} {n : Nat} {l : Fin 32} (h : s.iss.getLsbD l = true) :
    (asleep s n).me.lanes[l] = { s.me.lanes[l] with wait := .sleep n } := by
  unfold asleep
  rw [lanesTo_lane, if_pos h]

theorem asleep_holdsSlot {s : State} (h : Issuing s) (n : Nat) (ha : (asleep s n).me.ap = none) :
    HoldsSlot (asleep s n) (asleep s n).me.key := by
  have here := lowest_mem _ h.group
  refine Or.inl ⟨lowest s.iss, ?_⟩
  rw [waveOf_me _ (by rw [asleep_me]; exact h.present) ha, asleep_lane here]
  have live := h.live _ here
  rw [Ne, live]
  simp

/-- The path group that sleeps waits at its word (03 R76). -/
theorem settleMe_asleep_parks {s : State} (h : Issuing s) (n : Nat) :
    Parks s (settleMe (asleep s n)) s.iss fun _ => .sleep n := by
  obtain ⟨settled, still⟩ := settleMe_keeps (by rw [asleep_me]; exact h.present) (asleep_holdsSlot h n)
  refine ⟨fun l hl => ?_, settled.me, (lanesTo_framed ..).trans settled.framed⟩
  have e := asleep_lane (n := n) hl
  refine ⟨(still.lanes l).asleep n (by rw [e]), ?_⟩
  rw [((settled.me.lanes l).place (by rw [e]; simp)).1, e]

theorem exec_sleep_awake {s : State} (h : Head) (n : BitVec 24) (hw : ∀ x, s.me.lanes[lowest s.iss].wait ≠ .sleep x) :
    exec (.sleep h n) s =
      .next (if active s h == 0 || n == 0 then passOn s else settleMe (asleep s (runNow s + n.toNat))) := by
  show execSleep h n s = _
  unfold execSleep
  split
  next x e => exact absurd e (hw x)
  next => rfl

theorem exec_sleep_starts {s : State} (hi : Issuing s) (h : Head) (n : BitVec 24)
    (hw : ∀ x, s.me.lanes[lowest s.iss].wait ≠ .sleep x) : ∃ t, exec (.sleep h n) s = .next t ∧
      if active s h = 0 ∨ n = 0 then Passes s t else Parks s t s.iss fun _ => .sleep (runNow s + n.toNat) := by
  refine ⟨_, exec_sleep_awake h n hw, ?_⟩
  simp only [Bool.or_eq_true, beq_iff_eq]
  split
  · exact passOn_passes hi
  · exact settleMe_asleep_parks hi _

theorem exec_sleep_goesOn {s : State} (hi : Issuing s) (h : Head) (n : BitVec 24) (x : Nat)
    (hw : s.me.lanes[lowest s.iss].wait = .sleep x) : ∃ t, exec (.sleep h n) s = .next t ∧
      if x ≤ runNow s then Passes s t else t = s := by
  refine ⟨_, rfl, ?_⟩
  simp only [hw, ge_iff_le]
  split
  · exact passOn_passes hi
  · rfl

/-! ### `exit` (03 R72, 04 R97, 14 R326) -/

/-- The active lanes have ended, and the others of the path group are at their next word: what `exit` settles. -/
def exited (s : State) (h : Head) : State :=
  advanceMe (lanesTo s (active s h) fun _ l => exitLane l) (s.iss &&& ~~~(active s h))

theorem exec_exit_wave (s : State) (h : Head) (ha : s.me.ap = none) : exec (.exit h) s = .next (settleMe (exited s h)) := by
  show done (if s.me.ap.isSome then _ else _) = _
  rw [if_neg (by simp [ha])]
  rfl

theorem exited_me (s : State) (h : Head) : (exited s h).me = { s.me with lanes := (exited s h).me.lanes } :=
  (advanceMe_me _ _).trans (by rw [lanesTo_me]; rfl)

theorem exited_lane (s : State) (h : Head) (l : Fin 32) : (exited s h).me.lanes[l] =
    if (active s h).getLsbD l then exitLane s.me.lanes[l]
    else if s.iss.getLsbD l then nextWord (kernOf s) s.me.lanes[l] else s.me.lanes[l] := by
  have other : (s.iss &&& ~~~(active s h)).getLsbD l = (s.iss.getLsbD l && !(active s h).getLsbD l) := by
    simp [l.isLt]
  unfold exited
  rw [advanceMe_lane, lanesTo_lane, other]
  cases (active s h).getLsbD l with
  | true => simp
  | false =>
    simp only [Bool.not_false, Bool.and_true, Bool.false_eq_true, if_false, kernOf_lanesTo]

theorem exited_ended (s : State) (h : Head) (l : Fin 32) : (exited s h).me.lanes[l].life = .exited ↔
    s.me.lanes[l].life = .exited ∨ (active s h).getLsbD l = true := by
  rw [exited_lane]
  cases (active s h).getLsbD l with
  | true => simp [exitLane]
  | false =>
    simp only [Bool.false_eq_true, if_false, or_false]
    split
    · rw [(nextWord_kept _ _).1]
    · rfl

theorem exited_key (s : State) (h : Head) : (exited s h).me.key = s.me.key := by rw [exited_me]

theorem exited_present (s : State) (h : Head) : (exited s h).me.present = s.me.present := by rw [exited_me]

theorem exited_ap (s : State) (h : Head) : (exited s h).me.ap = s.me.ap := by rw [exited_me]

theorem exited_framed (s : State) (h : Head) : Framed s (exited s h) :=
  (lanesTo_framed ..).trans (advanceMe_framed ..)

theorem exited_holdsSlot {s : State} {h : Head} (hp : s.me.present = true) (ha : s.me.ap = none)
    (hold : (∃ l : Fin 32, s.me.lanes[l].life ≠ .exited ∧ (active s h).getLsbD l = false) ∨
      (∃ f ∈ s.frags, f.2.wave = s.me.key) ∨ ∃ r ∈ s.remotes, owesAnswer r.2 s.me.key = true) :
    HoldsSlot (exited s h) (exited s h).me.key := by
  have frame := (exited_framed s h).rest
  unfold HoldsSlot
  rw [waveOf_me _ (by rw [exited_present, hp]) (by rw [exited_ap, ha]), exited_key,
    show (exited s h).frags = s.frags by rw [frame], show (exited s h).remotes = s.remotes by rw [frame]]
  refine hold.imp_left fun ⟨l, live, idle⟩ => ⟨l, fun e => ?_⟩
  rcases (exited_ended s h l).1 e with e | e
  · exact live e
  · exact absurd (idle.symm.trans e) (by simp)

/-- `exit` of a wave that keeps its slot. -/
theorem exit_keepsSlot {s : State} (hi : Issuing s) (h : Head) (ha : s.me.ap = none)
    (hold : (∃ l : Fin 32, s.me.lanes[l].life ≠ .exited ∧ (active s h).getLsbD l = false) ∨
      (∃ f ∈ s.frags, f.2.wave = s.me.key) ∨ ∃ r ∈ s.remotes, owesAnswer r.2 s.me.key = true) :
    ∃ t, exec (.exit h) s = .next t ∧ t.me = { s.me with lanes := t.me.lanes } ∧ Framed s t ∧ ∀ l : Fin 32,
      if (active s h).getLsbD l then t.me.lanes[l].life = .exited ∧ t.me.lanes[l].meets = []
      else if s.iss.getLsbD l then t.me.lanes[l].pc = s.me.lanes[l].pc + 8 ∧ ThreadKept s.me.lanes[l] t.me.lanes[l]
      else LaneKept s.me.lanes[l] t.me.lanes[l] := by
  obtain ⟨settled, still⟩ := settleMe_keeps (by rw [exited_present, hi.present]) fun _ => exited_holdsSlot hi.present ha hold
  refine ⟨_, exec_exit_wave s h ha, WaveKept.after (exited_me s h) settled.me, (exited_framed s h).trans settled.framed,
    fun l => ?_⟩
  have kept := settled.me.lanes l
  have ended := (still.lanes l).ended
  rw [exited_lane] at kept ended
  by_cases hm : (active s h).getLsbD l = true
  · rw [if_pos hm] at ended ⊢
    rw [ended rfl]
    exact ⟨rfl, rfl⟩
  · rw [if_neg hm] at kept ⊢
    by_cases hg : s.iss.getLsbD l = true
    · rw [if_pos hg]
      obtain ⟨life, flags, rng, item, batch, failed, handler, tret, pc⟩ := laneKept_of_next kept
      exact ⟨pc hg, life, flags, rng, item, batch, failed, handler, tret⟩
    · rw [if_neg hg] at kept ⊢
      exact kept

/-! ### A slot that becomes free -/

/-- Two states that differ at most in what memory holds: bytes, stores on their way, and poison. -/
def MemoryOnly (s t : State) : Prop := t = { s with mem := t.mem, dirty := t.dirty, poison := t.poison }

theorem MemoryOnly.refl (s : State) : MemoryOnly s s := rfl

theorem MemoryOnly.trans {s t u : State} (h : MemoryOnly s t) (k : MemoryOnly t u) : MemoryOnly s u := by
  unfold MemoryOnly at *
  rw [k, h]

theorem MemoryOnly.foldl {β : Type} (f : State → β → State) (hf : ∀ s b, MemoryOnly s (f s b)) (l : List β) (s : State) :
    MemoryOnly s (l.foldl f s) := by
  induction l generalizing s with
  | nil => exact MemoryOnly.refl s
  | cons b t ih => exact (hf s b).trans (ih _)

theorem moveCells_memoryOnly (s : State) (u : Nat) (dst : Option Nat) (p : Nat → Bool) :
    MemoryOnly s (moveCells s u dst p) := by
  unfold moveCells
  split
  · rfl
  · cases dst <;> rfl

theorem drainPath_memoryOnly (s : State) (u unit : Nat) : MemoryOnly s (drainPath s u unit) := by
  unfold drainPath
  induction levelPath u with
  | nil => rfl
  | cons v t ih =>
    rw [List.foldr_cons]
    exact ih.trans (moveCells_memoryOnly ..)

theorem memWrite_memoryOnly (s : State) (pa n v : Nat) : MemoryOnly s (memWrite s pa n v) := by
  unfold memWrite clearPoison
  split <;> rfl

theorem atomAt_memoryOnly (s : State) (core pa : Nat) (op : AtomOp) (uns wide : Bool) (x cmp : Word64) :
    MemoryOnly s (atomAt s core pa op uns wide x cmp).2 := by
  refine (drainPath_memoryOnly s core (pa / 8)).trans ?_
  simp only [atomAt]
  generalize (if wide = true then 8 else 4) = n
  split
  · rfl
  · exact memWrite_memoryOnly ..

theorem applyRed_memoryOnly (s : State) (r : PendingRed) : MemoryOnly s (applyRed s r) := by
  unfold applyRed
  generalize (if r.wide = true then 8 else 4) = n
  split
  · rfl
  · exact atomAt_memoryOnly ..

/-- Performing pending `red`s changes memory and takes them from the list (11 R301). -/
theorem applyReds_memoryOnly (s : State) (p : PendingRed → Bool) :
    MemoryOnly { s with reds := s.reds.filter fun r => !p r } (applyReds s p) := by
  unfold applyReds
  split
  next e =>
    unfold MemoryOnly
    rw [e, List.filter_nil, ← e]
  next => exact MemoryOnly.foldl _ applyRed_memoryOnly _ _

/-- What landing the guards of a wave changes: the guards that its commands carry, and its own (04 R106, R107). -/
theorem landGuards_eq (s : State) (k : Nat) : landGuards s k =
    { s with
      me := { s.me with guards := (landGuards s k).me.guards }
      waves := (landGuards s k).waves
      copies := Table.mapVals s.copies fun _ c => if c.wave = k ∧ c.group = (waveOf s k).group then
        { c with guard := c.guard.map fun g => (g.1, landGuard g.2) } else c
      tasks := Table.mapVals s.tasks fun _ c => if c.wave = k ∧ c.group = (waveOf s k).group then
        { c with guard := c.guard.map fun g => (g.1, landGuard g.2) } else c
      pushes := s.pushes.map fun c => if c.wave = k ∧ c.group = (waveOf s k).group then
        { c with guard := landGuard c.guard } else c } := by
  unfold landGuards
  split
  next h =>
    simp only [Bool.and_eq_true, List.isEmpty_iff] at h
    obtain ⟨⟨copies, tasks⟩, pushes⟩ := h
    rw [copies, tasks, pushes, Table.mapVals, Table.mapVals, List.map_nil, List.map_nil, List.map_nil, ← copies, ← tasks,
      ← pushes]
  next =>
    simp only [mapGuards, Bool.and_eq_true, decide_eq_true_eq]
    unfold modWave
    split <;> rfl

/-- The program bound to a wave whose slot becomes free has stopped (04 R97). -/
def unbound (s : State) : Option Nat → State
  | some a => { s with aps := Table.erase s.aps a, remotes := s.remotes.filter fun r => !(r.2.ap && r.2.wave == a) }
  | none => s

/-- What freeing the slot of the issuing wave leaves. -/
def slotFreed (s : State) : State :=
  { unbound (landGuards (applyReds s fun r => r.core == s.me.core && r.ctx == s.me.ctx) s.me.key) s.me.bound with
    me := {}, iss := 0 }

theorem landed_me (s : State) (p : PendingRed → Bool) (k : Nat) : (landGuards (applyReds s p) k).me =
    { s.me with guards := (landGuards (applyReds s p) k).me.guards } := by
  rw [landGuards_eq, applyReds_memoryOnly]

theorem freeWave_frees {s : State} (hp : s.me.present = true) (ha : s.me.ap = none)
    (ended : ∀ l : Fin 32, s.me.lanes[l].life = .exited) (frags : ∀ f ∈ s.frags, f.2.wave ≠ s.me.key)
    (remotes : ∀ r ∈ s.remotes, owesAnswer r.2 s.me.key = false) : freeWave s s.me.key = slotFreed s := by
  have free : (s.me.present && (List.finRange 32).all (fun i => s.me.lanes[i].life == .exited) &&
      !(s.frags.any fun f => f.2.wave == s.me.key) && !(s.remotes.any fun r => owesAnswer r.2 s.me.key)) = true := by
    simp only [Bool.and_eq_true, List.all_eq_true, beq_iff_eq, Bool.not_eq_true', List.any_eq_false, Bool.not_eq_true]
    exact ⟨⟨⟨hp, fun l _ => ended l⟩, fun f hf => by simpa using frags f hf⟩, remotes⟩
  unfold freeWave slotFreed
  rw [waveOf_me s hp ha, if_pos free]
  have me := landed_me s (fun r => r.core == s.me.core && r.ctx == s.me.ctx) s.me.key
  cases s.me.bound with
  | none => exact if_pos (by rw [me]; simp [hp, ha])
  | some a => exact if_pos (by rw [me]; simp [hp, ha])

/-- What the end of a wave leaves (03 R72, 04 R97, R106, R107). -/
structure SlotFreed (s t : State) : Prop where
  me : t.me = {}
  iss : t.iss = 0
  reds : ∀ r ∈ t.reds, ¬ (r.core = s.me.core ∧ r.ctx = s.me.ctx)
  bound : ∀ a, s.me.bound = some a → Table.get? t.aps a = none
  frags : t.frags = s.frags
  launches : t.launches = s.launches
  queues : t.queues = s.queues
  copies : t.copies = Table.mapVals s.copies fun _ c => if c.wave = s.me.key ∧ c.group = s.me.group then
    { c with guard := c.guard.map fun g => (g.1, landGuard g.2) } else c
  tasks : t.tasks = Table.mapVals s.tasks fun _ c => if c.wave = s.me.key ∧ c.group = s.me.group then
    { c with guard := c.guard.map fun g => (g.1, landGuard g.2) } else c
  pushes : t.pushes = s.pushes.map fun c => if c.wave = s.me.key ∧ c.group = s.me.group then
    { c with guard := landGuard c.guard } else c

theorem SlotFreed.of_settled {s u t : State} (f : SlotFreed u t) (me : u.me = { s.me with lanes := u.me.lanes })
    (frame : Framed s u) : SlotFreed s t := by
  have rest := frame.rest
  have core : u.me.core = s.me.core := by rw [me]
  have ctx : u.me.ctx = s.me.ctx := by rw [me]
  have bound : u.me.bound = s.me.bound := by rw [me]
  have key : u.me.key = s.me.key := by rw [me]
  have group : u.me.group = s.me.group := by rw [me]
  refine ⟨f.me, f.iss, core ▸ ctx ▸ f.reds, bound ▸ f.bound, f.frags.trans (by rw [rest]), f.launches.trans (by rw [rest]),
    f.queues.trans (by rw [rest]), ?_, ?_, ?_⟩
  · rw [f.copies, key, group, show u.copies = s.copies by rw [rest]]
  · rw [f.tasks, key, group, show u.tasks = s.tasks by rw [rest]]
  · rw [f.pushes, key, group, show u.pushes = s.pushes by rw [rest]]

theorem unbound_eq (s : State) (b : Option Nat) :
    unbound s b = { s with aps := (unbound s b).aps, remotes := (unbound s b).remotes } := by
  cases b <;> rfl

theorem slotFreed_spec {s : State} (hp : s.me.present = true) (ha : s.me.ap = none) : SlotFreed s (slotFreed s) := by
  unfold slotFreed
  generalize hq : applyReds s (fun r => r.core == s.me.core && r.ctx == s.me.ctx) = q
  have mem : MemoryOnly _ q := hq ▸ applyReds_memoryOnly s _
  have group : (waveOf q s.me.key).group = s.me.group := by
    rw [waveOf_key (by rw [mem]) (by rw [mem]; exact hp) (by rw [mem]; exact ha), mem]
  have land := landGuards_eq q s.me.key
  rw [group] at land
  generalize landGuards q s.me.key = u at land
  refine ⟨rfl, rfl, fun r hr => ?_, fun a hb => ?_, ?_, ?_, ?_, ?_, ?_, ?_⟩
  · rw [unbound_eq, land, mem] at hr
    rintro ⟨core, ctx⟩
    simpa [core, ctx] using (List.mem_filter.1 hr).2
  · rw [hb]
    exact (Table.get?_erase _ _ _).trans (if_pos rfl)
  all_goals rw [unbound_eq, land, mem]

/-- `exit` of the last threads of a wave, where nothing else holds the slot. -/
theorem exit_freesSlot {s : State} (hi : Issuing s) (h : Head) (ha : s.me.ap = none)
    (last : ∀ l : Fin 32, s.me.lanes[l].life = .exited ∨ (active s h).getLsbD l = true)
    (frags : ∀ f ∈ s.frags, f.2.wave ≠ s.me.key) (remotes : ∀ r ∈ s.remotes, owesAnswer r.2 s.me.key = false) :
    ∃ t, exec (.exit h) s = .next t ∧ SlotFreed s t := by
  have settled := settledMe_settled (exited s h)
  have ended : ∀ l : Fin 32, (settledMe (exited s h)).me.lanes[l].life = .exited := fun l =>
    (settled.me.lanes l).life.trans ((exited_ended s h l).2 (last l))
  have frame := (exited_framed s h).trans settled.framed
  have me := WaveKept.after (exited_me s h) settled.me
  refine ⟨_, exec_exit_wave s h ha, ?_⟩
  rw [settleMe_wave _ (by rw [exited_present, hi.present]) (by rw [exited_ap, ha]), exited_key]
  generalize settledMe (exited s h) = u at ended frame me
  have key : u.me.key = s.me.key := by rw [me]
  have present : u.me.present = true := by rw [me]; exact hi.present
  have ap : u.me.ap = none := by rw [me]; exact ha
  rw [← key, freeWave_frees present ap ended (by rw [key, frame.rest]; exact frags)
    (by rw [key, frame.rest]; exact remotes)]
  exact (slotFreed_spec present ap).of_settled me frame

/-! ### `exit` of an address program (04 R97) -/

theorem exec_exit_program {s : State} {h : Head} {p : Ap} (ha : s.me.ap = some p) (hm : active s h ≠ 0) :
    exec (.exit h) s = .next (apStop s 0) := by
  show done (if s.me.ap.isSome then (if active s h == 0 then _ else _) else _) = _
  rw [if_pos (by rw [ha]; rfl), if_neg (by simpa using hm)]
  rfl

theorem apEnd_ap {s : State} {p : Ap} (ha : s.me.ap = some p) (code : Nat) :
    (apEnd s code).me.ap = some { p with ended := true, code := code } := by
  simp [apEnd, ha]

theorem apOf_apEnd {s : State} {p : Ap} (hp : s.me.present = true) (ha : s.me.ap = some p) (code : Nat) :
    apOf (apEnd s code) s.me.key = (apEnd s code).me := by
  simp [apOf, apEnd, hp, ha]

/-- The queues of an ended program are empty, so its context is free. -/
theorem apStop_frees {s : State} {p : Ap} (hp : s.me.present = true) (ha : s.me.ap = some p) (code : Nat)
    (empty : ∀ q ∈ p.queues, q.2 = []) : apStop s code =
      { apEnd s code with me := {}, iss := 0, waves := Table.modify s.waves p.owner fun w =>
          { w with bound := none, ended := some code } } := by
  unfold apStop freeAp
  rw [apOf_apEnd hp ha, apEnd_ap ha]
  simp only [Bool.true_and]
  rw [if_pos (by simpa [List.all_eq_true] using empty), if_pos (by simp [apEnd, hp, ha])]
  rfl

/-- Words are left in its queues, so it has ended and keeps its context. -/
theorem apStop_keeps {s : State} {p : Ap} (hp : s.me.present = true) (ha : s.me.ap = some p) (code : Nat)
    (held : ¬ ∀ q ∈ p.queues, q.2 = []) : apStop s code = apEnd s code := by
  unfold apStop freeAp
  rw [apOf_apEnd hp ha, apEnd_ap ha]
  simp only [Bool.true_and]
  exact if_neg (by simpa [List.all_eq_true] using held)

theorem exit_endsProgram {s : State} (hi : Issuing s) (h : Head) (p : Ap) (ha : s.me.ap = some p) (hm : active s h ≠ 0) :
    ∃ t, exec (.exit h) s = .next t ∧ t.mem = s.mem ∧ t.ctxs = s.ctxs ∧ t.groups = s.groups ∧ t.frags = s.frags ∧
      if ∀ q ∈ p.queues, q.2 = [] then t.me = {} ∧ t.iss = 0 ∧
        ∀ w, Table.get? s.waves p.owner = some w →
          Table.get? t.waves p.owner = some { w with bound := none, ended := some 0 }
      else t.me.ap = some { p with ended := true, code := 0 } ∧ t.me.lanes[0].life = .exited ∧ t.waves = s.waves := by
  refine ⟨_, exec_exit_program ha hm, ?_⟩
  by_cases empty : ∀ q ∈ p.queues, q.2 = []
  · rw [apStop_frees hi.present ha 0 empty, if_pos empty]
    refine ⟨rfl, rfl, rfl, rfl, rfl, rfl, fun w hw => ?_⟩
    exact (Table.get?_modify _ _ _ _).trans (by simp [hw])
  · rw [apStop_keeps hi.present ha 0 empty, if_neg empty]
    refine ⟨rfl, rfl, rfl, rfl, apEnd_ap ha 0, ?_, rfl⟩
    simp [apEnd, exitLane]

end Sys2Proof.Machine

/-- Settles O6: each word's own lemma; where the path group goes on, `passOn_passes`. -/
theorem plainWordsGoOn : Obligations.PlainWordsGoOn := by
  refine ⟨fun s hi => ⟨fun h => ⟨_, rfl, passOn_passes hi⟩, fun a b c d => ⟨_, rfl, passOn_passes hi⟩,
    exec_yield_passes hi, exec_wprio_passes hi, exec_sleep_starts hi, exec_sleep_goesOn hi⟩, fun s h hi => ⟨?_, ?_, ?_⟩⟩
  · exact exit_keepsSlot hi h
  · intro ha last frags remotes
    obtain ⟨t, run, h1, h2, h3, h4, h5, h6, h7, h8, h9, h10⟩ := exit_freesSlot hi h ha last frags remotes
    exact ⟨t, run, h1, h2, h3, h4, h5, h6, h7, h8, h9, h10⟩
  · exact exit_endsProgram hi h
end
